-- ==== Sys2Proof/Word.lean ====
section
/-! DEFINITION. The machine words of the spec as bit vectors. The spec numbers bits from the left
(00_scope.md R14); the accessors that do so stand with the registers they read. -/

namespace Sys2Proof

/-- One byte of storage. -/
abbrev Byte := BitVec 8

/-- One instruction word (30_encoding.md R100). -/
abbrev InsnWord := BitVec 32

/-- One floating-point register, the FPSCR, or a 64-bit integer (10_state.md R21, R30). -/
abbrev Dword := BitVec 64

/-- The contents of an even-odd register pair (10_state.md R23). -/
abbrev Qword := BitVec 128

/-- The number of a floating-point register (10_state.md R21). -/
abbrev FprNum := Fin 32

/-- The number of a condition-register field (10_state.md R50). -/
abbrev CrNum := Fin 8

end Sys2Proof
end

