-- ==== Sys2Proof/Config.lean ====
section
/-! DEFINITION. What the spec leaves to an implementation (00_scope.md R6, second table;
92_eei_decisions.md). -/

namespace Sys2Proof

/-- `IMPRECISE_DELAY` (60_exceptions.md R522, 92_eei_decisions.md D10): at which instruction after
the excepting one the trap is raised in the two imprecise modes. It may differ from one exception to
the next, so it is applied to a counter. A FREE VALUE: no body, nothing constrains it. Log 6. -/
opaque Config.impreciseDelay : Nat → Nat

/-- `INSN_BYTE_ORDER` (20_memory.md R84): how four bytes of storage form an instruction word. -/
inductive ByteOrder where
  /-- the byte at the lowest address holds instruction bits 0:7 -/
  | big
  /-- the byte at the lowest address holds instruction bits 24:31 -/
  | little
  deriving DecidableEq, Repr

end Sys2Proof
end

