-- ==== Sys2Proof/Syntax.lean ====
section
/-! DEFINITION. The 49 instructions (00_scope.md R2, 30_encoding.md R110), one constructor each, with
the operands of the assembler syntax in its order (R113) and the record bit last (R114). A field that
names a register pair has the type of a register number here; that it must be even is
`wellFormed` (30_encoding.md R108). -/

namespace Sys2Proof

/-- One DFP instruction, its fields pulled out of the word (30_encoding.md R104, R105). `te` is the
5-bit signed target exponent, `dcm` and `dgm` the 6-bit masks with field bit 0 leftmost, `sh` the
shift amount, `rmc` the rounding-mode control, `r` the RMC-encoding selector, `sp` the two bits SP0
(leftmost) and SP1, `s` the signed-BCD bit, `rc` the record bit. -/
inductive Instr where
  -- Arithmetic (42_arithmetic.md)
  /-- DFP Add (R261) -/
  | dadd (frt fra frb : FprNum) (rc : Bool)
  /-- DFP Add Quad (R262) -/
  | daddq (frt fra frb : FprNum) (rc : Bool)
  /-- DFP Subtract (R263) -/
  | dsub (frt fra frb : FprNum) (rc : Bool)
  /-- DFP Subtract Quad (R264) -/
  | dsubq (frt fra frb : FprNum) (rc : Bool)
  /-- DFP Multiply (R265) -/
  | dmul (frt fra frb : FprNum) (rc : Bool)
  /-- DFP Multiply Quad (R266) -/
  | dmulq (frt fra frb : FprNum) (rc : Bool)
  /-- DFP Divide (R267) -/
  | ddiv (frt fra frb : FprNum) (rc : Bool)
  /-- DFP Divide Quad (R268) -/
  | ddivq (frt fra frb : FprNum) (rc : Bool)
  -- Compare (43_compare.md)
  /-- DFP Compare Unordered (R291) -/
  | dcmpu (bf : CrNum) (fra frb : FprNum)
  /-- DFP Compare Unordered Quad (R292) -/
  | dcmpuq (bf : CrNum) (fra frb : FprNum)
  /-- DFP Compare Ordered (R293) -/
  | dcmpo (bf : CrNum) (fra frb : FprNum)
  /-- DFP Compare Ordered Quad (R294) -/
  | dcmpoq (bf : CrNum) (fra frb : FprNum)
  -- Test (44_test.md)
  /-- DFP Test Data Class (R311) -/
  | dtstdc (bf : CrNum) (fra : FprNum) (dcm : BitVec 6)
  /-- DFP Test Data Class Quad (R312) -/
  | dtstdcq (bf : CrNum) (fra : FprNum) (dcm : BitVec 6)
  /-- DFP Test Data Group (R313) -/
  | dtstdg (bf : CrNum) (fra : FprNum) (dgm : BitVec 6)
  /-- DFP Test Data Group Quad (R314) -/
  | dtstdgq (bf : CrNum) (fra : FprNum) (dgm : BitVec 6)
  /-- DFP Test Exponent (R315) -/
  | dtstex (bf : CrNum) (fra frb : FprNum)
  /-- DFP Test Exponent Quad (R316) -/
  | dtstexq (bf : CrNum) (fra frb : FprNum)
  /-- DFP Test Significance (R317) -/
  | dtstsf (bf : CrNum) (fra frb : FprNum)
  /-- DFP Test Significance Quad (R318) -/
  | dtstsfq (bf : CrNum) (fra frb : FprNum)
  -- Quantum adjustment (45_quantum_adjustment.md)
  /-- DFP Quantize Immediate (R341) -/
  | dquai (te : BitVec 5) (frt frb : FprNum) (rmc : BitVec 2) (rc : Bool)
  /-- DFP Quantize Immediate Quad (R342) -/
  | dquaiq (te : BitVec 5) (frt frb : FprNum) (rmc : BitVec 2) (rc : Bool)
  /-- DFP Quantize (R343) -/
  | dqua (frt fra frb : FprNum) (rmc : BitVec 2) (rc : Bool)
  /-- DFP Quantize Quad (R344) -/
  | dquaq (frt fra frb : FprNum) (rmc : BitVec 2) (rc : Bool)
  /-- DFP Reround (R345) -/
  | drrnd (frt fra frb : FprNum) (rmc : BitVec 2) (rc : Bool)
  /-- DFP Reround Quad (R346) -/
  | drrndq (frt fra frb : FprNum) (rmc : BitVec 2) (rc : Bool)
  /-- DFP Round To FP Integer With Inexact (R347) -/
  | drintx (r : Bool) (frt frb : FprNum) (rmc : BitVec 2) (rc : Bool)
  /-- DFP Round To FP Integer With Inexact Quad (R348) -/
  | drintxq (r : Bool) (frt frb : FprNum) (rmc : BitVec 2) (rc : Bool)
  /-- DFP Round To FP Integer Without Inexact (R349) -/
  | drintn (r : Bool) (frt frb : FprNum) (rmc : BitVec 2) (rc : Bool)
  /-- DFP Round To FP Integer Without Inexact Quad (R350) -/
  | drintnq (r : Bool) (frt frb : FprNum) (rmc : BitVec 2) (rc : Bool)
  -- Conversion (46_conversion.md)
  /-- DFP Convert To DFP64 (R381) -/
  | dctdp (frt frb : FprNum) (rc : Bool)
  /-- DFP Convert To DFP128 (R382) -/
  | dctqpq (frt frb : FprNum) (rc : Bool)
  /-- DFP Round To DFP32 (R383) -/
  | drsp (frt frb : FprNum) (rc : Bool)
  /-- DFP Round To DFP64 (R384) -/
  | drdpq (frt frb : FprNum) (rc : Bool)
  /-- DFP Convert From Fixed Quad (R385) -/
  | dcffixq (frt frb : FprNum) (rc : Bool)
  /-- DFP Convert To Fixed (R386) -/
  | dctfix (frt frb : FprNum) (rc : Bool)
  /-- DFP Convert To Fixed Quad (R387) -/
  | dctfixq (frt frb : FprNum) (rc : Bool)
  -- Format (47_format.md)
  /-- DFP Decode DPD To BCD (R421) -/
  | ddedpd (sp : BitVec 2) (frt frb : FprNum) (rc : Bool)
  /-- DFP Decode DPD To BCD Quad (R422) -/
  | ddedpdq (sp : BitVec 2) (frt frb : FprNum) (rc : Bool)
  /-- DFP Encode BCD To DPD (R423) -/
  | denbcd (s : Bool) (frt frb : FprNum) (rc : Bool)
  /-- DFP Encode BCD To DPD Quad (R424) -/
  | denbcdq (s : Bool) (frt frb : FprNum) (rc : Bool)
  /-- DFP Extract Biased Exponent (R425) -/
  | dxex (frt frb : FprNum) (rc : Bool)
  /-- DFP Extract Biased Exponent Quad (R426) -/
  | dxexq (frt frb : FprNum) (rc : Bool)
  /-- DFP Insert Biased Exponent (R427) -/
  | diex (frt fra frb : FprNum) (rc : Bool)
  /-- DFP Insert Biased Exponent Quad (R428) -/
  | diexq (frt fra frb : FprNum) (rc : Bool)
  /-- DFP Shift Coefficient Left Immediate (R429) -/
  | dscli (frt fra : FprNum) (sh : BitVec 6) (rc : Bool)
  /-- DFP Shift Coefficient Left Immediate Quad (R430) -/
  | dscliq (frt fra : FprNum) (sh : BitVec 6) (rc : Bool)
  /-- DFP Shift Coefficient Right Immediate (R431) -/
  | dscri (frt fra : FprNum) (sh : BitVec 6) (rc : Bool)
  /-- DFP Shift Coefficient Right Immediate Quad (R432) -/
  | dscriq (frt fra : FprNum) (sh : BitVec 6) (rc : Bool)
  deriving DecidableEq, Repr

end Sys2Proof
end

