-- ==== Sys2Proof/WellFormed.lean ====
section
/-! DEFINITION. Which instructions have a valid form: every field that names a register pair names an
even register (30_encoding.md R108, the column "pair fields" of R110). Nothing else can be wrong with
an `Instr`: the other fields admit every value of their type, and reserved bits (R109) are not in it. -/

namespace Sys2Proof

/-- A register number that may name a pair (10_state.md R23). -/
abbrev evenReg (r : FprNum) : Bool := r.val % 2 == 0

/-- The form of the instruction is valid (30_encoding.md R108, R110). -/
def wellFormed (i : Instr) : Bool :=
  match i with
  | .dadd _ _ _ _ => true
  | .daddq frt fra frb _ => evenReg frt && evenReg fra && evenReg frb
  | .dsub _ _ _ _ => true
  | .dsubq frt fra frb _ => evenReg frt && evenReg fra && evenReg frb
  | .dmul _ _ _ _ => true
  | .dmulq frt fra frb _ => evenReg frt && evenReg fra && evenReg frb
  | .ddiv _ _ _ _ => true
  | .ddivq frt fra frb _ => evenReg frt && evenReg fra && evenReg frb
  | .dcmpu _ _ _ => true
  | .dcmpuq _ fra frb => evenReg fra && evenReg frb
  | .dcmpo _ _ _ => true
  | .dcmpoq _ fra frb => evenReg fra && evenReg frb
  | .dtstdc _ _ _ => true
  | .dtstdcq _ fra _ => evenReg fra
  | .dtstdg _ _ _ => true
  | .dtstdgq _ fra _ => evenReg fra
  | .dtstex _ _ _ => true
  | .dtstexq _ fra frb => evenReg fra && evenReg frb
  | .dtstsf _ _ _ => true
  | .dtstsfq _ _ frb => evenReg frb
  | .dquai _ _ _ _ _ => true
  | .dquaiq _ frt frb _ _ => evenReg frt && evenReg frb
  | .dqua _ _ _ _ _ => true
  | .dquaq frt fra frb _ _ => evenReg frt && evenReg fra && evenReg frb
  | .drrnd _ _ _ _ _ => true
  | .drrndq frt _ frb _ _ => evenReg frt && evenReg frb
  | .drintx _ _ _ _ _ => true
  | .drintxq _ frt frb _ _ => evenReg frt && evenReg frb
  | .drintn _ _ _ _ _ => true
  | .drintnq _ frt frb _ _ => evenReg frt && evenReg frb
  | .dctdp _ _ _ => true
  | .dctqpq frt _ _ => evenReg frt
  | .drsp _ _ _ => true
  | .drdpq frt frb _ => evenReg frt && evenReg frb
  | .dcffixq frt _ _ => evenReg frt
  | .dctfix _ _ _ => true
  | .dctfixq _ frb _ => evenReg frb
  | .ddedpd _ _ _ _ => true
  | .ddedpdq _ frt frb _ => evenReg frt && evenReg frb
  | .denbcd _ _ _ _ => true
  | .denbcdq _ frt frb _ => evenReg frt && evenReg frb
  | .dxex _ _ _ => true
  | .dxexq _ frb _ => evenReg frb
  | .diex _ _ _ _ => true
  | .diexq frt _ frb _ => evenReg frt && evenReg frb
  | .dscli _ _ _ _ => true
  | .dscliq frt fra _ _ => evenReg frt && evenReg fra
  | .dscri _ _ _ _ => true
  | .dscriq frt fra _ _ => evenReg frt && evenReg fra

end Sys2Proof
end

