-- ==== Sys2Proof/Decode.lean ====
section
/-! DEFINITION. Decoding an instruction word and, after it, encoding an instruction
(30_encoding.md R100 to R111). Bits of a word are numbered from the left, bit 0 the most significant
(00_scope.md R14). -/

namespace Sys2Proof

/-- What the decoder answers. -/
inductive Decoded where
  /-- the instruction -/
  | instr (i : Instr)
  /-- the word matches no row of the opcode map: it is not a DFP instruction (30_encoding.md R111) -/
  | notDfp
  /-- the word matches a row, but a reserved bit is 1 (R109) or a pair field is odd (R108) -/
  | invalidForm
  /-- fewer than the four bytes of an instruction word (R100) -/
  | truncated
  deriving DecidableEq, Repr

/-- The three layouts, by the bit at which the extended opcode starts: 21, 22 or 23
(30_encoding.md R101 to R103). -/
inductive Form where
  | x | z22 | z23
  deriving DecidableEq, Repr

/-- The width of the extended opcode, which ends at bit 30 in every layout (30_encoding.md R100). -/
def Form.xoWidth (f : Form) : Nat :=
  match f with
  | .x => 10
  | .z22 => 9
  | .z23 => 8

/-- The `width` bits of the word that start at bit `first`, as a number (00_scope.md R14). -/
def field (w : Nat) (first width : Nat) : Nat := w / 2 ^ (32 - first - width) % 2 ^ width

/-- A field kept as bits. -/
def fieldAt (w : Nat) (first width : Nat) : BitVec width := BitVec.ofNat width (field w first width)

/-- A one-bit field. -/
def bitAt (w : Nat) (first : Nat) : Bool := field w first 1 == 1

/-- A five-bit register field (30_encoding.md R104). -/
def regAt (w : Nat) (first : Nat) : FprNum := Fin.ofNat 32 (field w first 5)

/-- The field BF, bits 6:8 (30_encoding.md R104). -/
def crAt (w : Nat) : CrNum := Fin.ofNat 8 (field w 6 3)

/-- One row of the opcode map (30_encoding.md R110): primary opcode, layout, extended opcode, the
reserved bits as (first bit, width) pairs, and how the fields make the instruction. -/
structure Row where
  opcd : Nat
  form : Form
  xo : Nat
  reserved : List (Nat × Nat)
  build : Nat → Instr

/-- The word has the row's opcodes (30_encoding.md R107 step 2). -/
def Row.matches (r : Row) (w : Nat) : Bool :=
  field w 0 6 == r.opcd && field w (31 - r.form.xoWidth) r.form.xoWidth == r.xo

/-- Every reserved bit of the row is 0 in the word (30_encoding.md R109). -/
def Row.reservedClear (r : Row) (w : Nat) : Bool := r.reserved.all fun b => field w b.1 b.2 == 0

/-- The rows of 42_arithmetic.md. -/
def arithmeticRows : List Row :=
  [⟨59, .x, 2, [], fun w => .dadd (regAt w 6) (regAt w 11) (regAt w 16) (bitAt w 31)⟩,
   ⟨63, .x, 2, [], fun w => .daddq (regAt w 6) (regAt w 11) (regAt w 16) (bitAt w 31)⟩,
   ⟨59, .x, 514, [], fun w => .dsub (regAt w 6) (regAt w 11) (regAt w 16) (bitAt w 31)⟩,
   ⟨63, .x, 514, [], fun w => .dsubq (regAt w 6) (regAt w 11) (regAt w 16) (bitAt w 31)⟩,
   ⟨59, .x, 34, [], fun w => .dmul (regAt w 6) (regAt w 11) (regAt w 16) (bitAt w 31)⟩,
   ⟨63, .x, 34, [], fun w => .dmulq (regAt w 6) (regAt w 11) (regAt w 16) (bitAt w 31)⟩,
   ⟨59, .x, 546, [], fun w => .ddiv (regAt w 6) (regAt w 11) (regAt w 16) (bitAt w 31)⟩,
   ⟨63, .x, 546, [], fun w => .ddivq (regAt w 6) (regAt w 11) (regAt w 16) (bitAt w 31)⟩]

/-- The rows of 43_compare.md. -/
def compareRows : List Row :=
  [⟨59, .x, 642, [(9, 2), (31, 1)], fun w => .dcmpu (crAt w) (regAt w 11) (regAt w 16)⟩,
   ⟨63, .x, 642, [(9, 2), (31, 1)], fun w => .dcmpuq (crAt w) (regAt w 11) (regAt w 16)⟩,
   ⟨59, .x, 130, [(9, 2), (31, 1)], fun w => .dcmpo (crAt w) (regAt w 11) (regAt w 16)⟩,
   ⟨63, .x, 130, [(9, 2), (31, 1)], fun w => .dcmpoq (crAt w) (regAt w 11) (regAt w 16)⟩]

/-- The rows of 44_test.md. -/
def testRows : List Row :=
  [⟨59, .z22, 194, [(9, 2), (31, 1)], fun w => .dtstdc (crAt w) (regAt w 11) (fieldAt w 16 6)⟩,
   ⟨63, .z22, 194, [(9, 2), (31, 1)], fun w => .dtstdcq (crAt w) (regAt w 11) (fieldAt w 16 6)⟩,
   ⟨59, .z22, 226, [(9, 2), (31, 1)], fun w => .dtstdg (crAt w) (regAt w 11) (fieldAt w 16 6)⟩,
   ⟨63, .z22, 226, [(9, 2), (31, 1)], fun w => .dtstdgq (crAt w) (regAt w 11) (fieldAt w 16 6)⟩,
   ⟨59, .x, 162, [(9, 2), (31, 1)], fun w => .dtstex (crAt w) (regAt w 11) (regAt w 16)⟩,
   ⟨63, .x, 162, [(9, 2), (31, 1)], fun w => .dtstexq (crAt w) (regAt w 11) (regAt w 16)⟩,
   ⟨59, .x, 674, [(9, 2), (31, 1)], fun w => .dtstsf (crAt w) (regAt w 11) (regAt w 16)⟩,
   ⟨63, .x, 674, [(9, 2), (31, 1)], fun w => .dtstsfq (crAt w) (regAt w 11) (regAt w 16)⟩]

/-- The rows of 45_quantum_adjustment.md. -/
def quantumRows : List Row :=
  [⟨59, .z23, 67, [], fun w => .dquai (fieldAt w 11 5) (regAt w 6) (regAt w 16) (fieldAt w 21 2) (bitAt w 31)⟩,
   ⟨63, .z23, 67, [], fun w => .dquaiq (fieldAt w 11 5) (regAt w 6) (regAt w 16) (fieldAt w 21 2) (bitAt w 31)⟩,
   ⟨59, .z23, 3, [], fun w => .dqua (regAt w 6) (regAt w 11) (regAt w 16) (fieldAt w 21 2) (bitAt w 31)⟩,
   ⟨63, .z23, 3, [], fun w => .dquaq (regAt w 6) (regAt w 11) (regAt w 16) (fieldAt w 21 2) (bitAt w 31)⟩,
   ⟨59, .z23, 35, [], fun w => .drrnd (regAt w 6) (regAt w 11) (regAt w 16) (fieldAt w 21 2) (bitAt w 31)⟩,
   ⟨63, .z23, 35, [], fun w => .drrndq (regAt w 6) (regAt w 11) (regAt w 16) (fieldAt w 21 2) (bitAt w 31)⟩,
   ⟨59, .z23, 99, [(11, 4)], fun w => .drintx (bitAt w 15) (regAt w 6) (regAt w 16) (fieldAt w 21 2) (bitAt w 31)⟩,
   ⟨63, .z23, 99, [(11, 4)], fun w => .drintxq (bitAt w 15) (regAt w 6) (regAt w 16) (fieldAt w 21 2) (bitAt w 31)⟩,
   ⟨59, .z23, 227, [(11, 4)], fun w => .drintn (bitAt w 15) (regAt w 6) (regAt w 16) (fieldAt w 21 2) (bitAt w 31)⟩,
   ⟨63, .z23, 227, [(11, 4)], fun w => .drintnq (bitAt w 15) (regAt w 6) (regAt w 16) (fieldAt w 21 2) (bitAt w 31)⟩]

/-- The rows of 46_conversion.md. -/
def conversionRows : List Row :=
  [⟨59, .x, 258, [(11, 5)], fun w => .dctdp (regAt w 6) (regAt w 16) (bitAt w 31)⟩,
   ⟨63, .x, 258, [(11, 5)], fun w => .dctqpq (regAt w 6) (regAt w 16) (bitAt w 31)⟩,
   ⟨59, .x, 770, [(11, 5)], fun w => .drsp (regAt w 6) (regAt w 16) (bitAt w 31)⟩,
   ⟨63, .x, 770, [(11, 5)], fun w => .drdpq (regAt w 6) (regAt w 16) (bitAt w 31)⟩,
   ⟨63, .x, 802, [(11, 5)], fun w => .dcffixq (regAt w 6) (regAt w 16) (bitAt w 31)⟩,
   ⟨59, .x, 290, [(11, 5)], fun w => .dctfix (regAt w 6) (regAt w 16) (bitAt w 31)⟩,
   ⟨63, .x, 290, [(11, 5)], fun w => .dctfixq (regAt w 6) (regAt w 16) (bitAt w 31)⟩]

/-- The rows of 47_format.md. -/
def formatRows : List Row :=
  [⟨59, .x, 322, [(13, 3)], fun w => .ddedpd (fieldAt w 11 2) (regAt w 6) (regAt w 16) (bitAt w 31)⟩,
   ⟨63, .x, 322, [(13, 3)], fun w => .ddedpdq (fieldAt w 11 2) (regAt w 6) (regAt w 16) (bitAt w 31)⟩,
   ⟨59, .x, 834, [(12, 4)], fun w => .denbcd (bitAt w 11) (regAt w 6) (regAt w 16) (bitAt w 31)⟩,
   ⟨63, .x, 834, [(12, 4)], fun w => .denbcdq (bitAt w 11) (regAt w 6) (regAt w 16) (bitAt w 31)⟩,
   ⟨59, .x, 354, [(11, 5)], fun w => .dxex (regAt w 6) (regAt w 16) (bitAt w 31)⟩,
   ⟨63, .x, 354, [(11, 5)], fun w => .dxexq (regAt w 6) (regAt w 16) (bitAt w 31)⟩,
   ⟨59, .x, 866, [], fun w => .diex (regAt w 6) (regAt w 11) (regAt w 16) (bitAt w 31)⟩,
   ⟨63, .x, 866, [], fun w => .diexq (regAt w 6) (regAt w 11) (regAt w 16) (bitAt w 31)⟩,
   ⟨59, .z22, 66, [], fun w => .dscli (regAt w 6) (regAt w 11) (fieldAt w 16 6) (bitAt w 31)⟩,
   ⟨63, .z22, 66, [], fun w => .dscliq (regAt w 6) (regAt w 11) (fieldAt w 16 6) (bitAt w 31)⟩,
   ⟨59, .z22, 98, [], fun w => .dscri (regAt w 6) (regAt w 11) (fieldAt w 16 6) (bitAt w 31)⟩,
   ⟨63, .z22, 98, [], fun w => .dscriq (regAt w 6) (regAt w 11) (fieldAt w 16 6) (bitAt w 31)⟩]

/-- The opcode map, 49 rows (30_encoding.md R110). -/
def opcodeRows : List Row :=
  arithmeticRows ++ compareRows ++ testRows ++ quantumRows ++ conversionRows ++ formatRows

/-- Decoding one word (30_encoding.md R107): find the row, then check its reserved bits and its pair
fields. -/
def decode (w : InsnWord) : Decoded :=
  match opcodeRows.find? fun r => r.matches w.toNat with
  | none => .notDfp
  | some r =>
    if r.reservedClear w.toNat && wellFormed (r.build w.toNat) then .instr (r.build w.toNat)
    else .invalidForm

/-- Four bytes of storage, lowest address first, as an instruction word (20_memory.md R84). -/
def wordOfBytes (o : ByteOrder) (b0 b1 b2 b3 : Byte) : InsnWord :=
  match o with
  | .big => b0 ++ b1 ++ b2 ++ b3
  | .little => b3 ++ b2 ++ b1 ++ b0

/-- The four bytes of an instruction word, lowest address first (20_memory.md R84). -/
def bytesOfWord (o : ByteOrder) (w : InsnWord) : List Byte :=
  let bs := [w.extractLsb' 24 8, w.extractLsb' 16 8, w.extractLsb' 8 8, w.extractLsb' 0 8]
  match o with
  | .big => bs
  | .little => bs.reverse

/-- Decoding the instruction that starts at the first of these bytes. -/
def decodeBytes (o : ByteOrder) (bs : List Byte) : Decoded :=
  match bs with
  | b0 :: b1 :: b2 :: b3 :: _ => decode (wordOfBytes o b0 b1 b2 b3)
  | _ => .truncated

/-- The decoder on a word as spec/opcode_table.json numbers it (bit 0 the least significant): laid
out in storage in the default byte order (20_memory.md R84), then decoded. The bits from `nbits` on
are 0. -/
def decodeTableWord (nbits w : Nat) : Option Instr :=
  match decodeBytes .big (bytesOfWord .big (BitVec.ofNat 32 (w % 2 ^ nbits))) with
  | .instr i => some i
  | .notDfp => none
  | .invalidForm => none
  | .truncated => none

/-- A bit as a number. -/
def bitNat (b : Bool) : Nat := if b then 1 else 0

/-- An X-form word from its fields at bits 0, 6, 11, 16, 21, 31 (30_encoding.md R101). -/
def xWord (opcd f6 f11 f16 xo last : Nat) : InsnWord :=
  BitVec.ofNat 32 (opcd * 2 ^ 26 + f6 * 2 ^ 21 + f11 * 2 ^ 16 + f16 * 2 ^ 11 + xo * 2 + last)

/-- A Z22-form word from its fields at bits 0, 6, 11, 16, 22, 31 (30_encoding.md R102). -/
def z22Word (opcd f6 f11 imm xo last : Nat) : InsnWord :=
  BitVec.ofNat 32 (opcd * 2 ^ 26 + f6 * 2 ^ 21 + f11 * 2 ^ 16 + imm * 2 ^ 10 + xo * 2 + last)

/-- A Z23-form word from its fields at bits 0, 6, 11, 16, 21, 23, 31 (30_encoding.md R103). -/
def z23Word (opcd f6 f11 f16 rmc xo last : Nat) : InsnWord :=
  BitVec.ofNat 32
    (opcd * 2 ^ 26 + f6 * 2 ^ 21 + f11 * 2 ^ 16 + f16 * 2 ^ 11 + rmc * 2 ^ 9 + xo * 2 + last)

/-- The word of an instruction (30_encoding.md R101 to R105, R110). The field BF is bits 6:8 of the
five-bit place 6:10, SP bits 11:12, S bit 11 and R bit 15 of the place 11:15; the rest of the place is
reserved and 0. -/
def encode (i : Instr) : InsnWord :=
  match i with
  | .dadd frt fra frb rc => xWord 59 frt.val fra.val frb.val 2 (bitNat rc)
  | .daddq frt fra frb rc => xWord 63 frt.val fra.val frb.val 2 (bitNat rc)
  | .dsub frt fra frb rc => xWord 59 frt.val fra.val frb.val 514 (bitNat rc)
  | .dsubq frt fra frb rc => xWord 63 frt.val fra.val frb.val 514 (bitNat rc)
  | .dmul frt fra frb rc => xWord 59 frt.val fra.val frb.val 34 (bitNat rc)
  | .dmulq frt fra frb rc => xWord 63 frt.val fra.val frb.val 34 (bitNat rc)
  | .ddiv frt fra frb rc => xWord 59 frt.val fra.val frb.val 546 (bitNat rc)
  | .ddivq frt fra frb rc => xWord 63 frt.val fra.val frb.val 546 (bitNat rc)
  | .dcmpu bf fra frb => xWord 59 (bf.val * 4) fra.val frb.val 642 0
  | .dcmpuq bf fra frb => xWord 63 (bf.val * 4) fra.val frb.val 642 0
  | .dcmpo bf fra frb => xWord 59 (bf.val * 4) fra.val frb.val 130 0
  | .dcmpoq bf fra frb => xWord 63 (bf.val * 4) fra.val frb.val 130 0
  | .dtstdc bf fra dcm => z22Word 59 (bf.val * 4) fra.val dcm.toNat 194 0
  | .dtstdcq bf fra dcm => z22Word 63 (bf.val * 4) fra.val dcm.toNat 194 0
  | .dtstdg bf fra dgm => z22Word 59 (bf.val * 4) fra.val dgm.toNat 226 0
  | .dtstdgq bf fra dgm => z22Word 63 (bf.val * 4) fra.val dgm.toNat 226 0
  | .dtstex bf fra frb => xWord 59 (bf.val * 4) fra.val frb.val 162 0
  | .dtstexq bf fra frb => xWord 63 (bf.val * 4) fra.val frb.val 162 0
  | .dtstsf bf fra frb => xWord 59 (bf.val * 4) fra.val frb.val 674 0
  | .dtstsfq bf fra frb => xWord 63 (bf.val * 4) fra.val frb.val 674 0
  | .dquai te frt frb rmc rc => z23Word 59 frt.val te.toNat frb.val rmc.toNat 67 (bitNat rc)
  | .dquaiq te frt frb rmc rc => z23Word 63 frt.val te.toNat frb.val rmc.toNat 67 (bitNat rc)
  | .dqua frt fra frb rmc rc => z23Word 59 frt.val fra.val frb.val rmc.toNat 3 (bitNat rc)
  | .dquaq frt fra frb rmc rc => z23Word 63 frt.val fra.val frb.val rmc.toNat 3 (bitNat rc)
  | .drrnd frt fra frb rmc rc => z23Word 59 frt.val fra.val frb.val rmc.toNat 35 (bitNat rc)
  | .drrndq frt fra frb rmc rc => z23Word 63 frt.val fra.val frb.val rmc.toNat 35 (bitNat rc)
  | .drintx r frt frb rmc rc => z23Word 59 frt.val (bitNat r) frb.val rmc.toNat 99 (bitNat rc)
  | .drintxq r frt frb rmc rc => z23Word 63 frt.val (bitNat r) frb.val rmc.toNat 99 (bitNat rc)
  | .drintn r frt frb rmc rc => z23Word 59 frt.val (bitNat r) frb.val rmc.toNat 227 (bitNat rc)
  | .drintnq r frt frb rmc rc => z23Word 63 frt.val (bitNat r) frb.val rmc.toNat 227 (bitNat rc)
  | .dctdp frt frb rc => xWord 59 frt.val 0 frb.val 258 (bitNat rc)
  | .dctqpq frt frb rc => xWord 63 frt.val 0 frb.val 258 (bitNat rc)
  | .drsp frt frb rc => xWord 59 frt.val 0 frb.val 770 (bitNat rc)
  | .drdpq frt frb rc => xWord 63 frt.val 0 frb.val 770 (bitNat rc)
  | .dcffixq frt frb rc => xWord 63 frt.val 0 frb.val 802 (bitNat rc)
  | .dctfix frt frb rc => xWord 59 frt.val 0 frb.val 290 (bitNat rc)
  | .dctfixq frt frb rc => xWord 63 frt.val 0 frb.val 290 (bitNat rc)
  | .ddedpd sp frt frb rc => xWord 59 frt.val (sp.toNat * 8) frb.val 322 (bitNat rc)
  | .ddedpdq sp frt frb rc => xWord 63 frt.val (sp.toNat * 8) frb.val 322 (bitNat rc)
  | .denbcd s frt frb rc => xWord 59 frt.val (bitNat s * 16) frb.val 834 (bitNat rc)
  | .denbcdq s frt frb rc => xWord 63 frt.val (bitNat s * 16) frb.val 834 (bitNat rc)
  | .dxex frt frb rc => xWord 59 frt.val 0 frb.val 354 (bitNat rc)
  | .dxexq frt frb rc => xWord 63 frt.val 0 frb.val 354 (bitNat rc)
  | .diex frt fra frb rc => xWord 59 frt.val fra.val frb.val 866 (bitNat rc)
  | .diexq frt fra frb rc => xWord 63 frt.val fra.val frb.val 866 (bitNat rc)
  | .dscli frt fra sh rc => z22Word 59 frt.val fra.val sh.toNat 66 (bitNat rc)
  | .dscliq frt fra sh rc => z22Word 63 frt.val fra.val sh.toNat 66 (bitNat rc)
  | .dscri frt fra sh rc => z22Word 59 frt.val fra.val sh.toNat 98 (bitNat rc)
  | .dscriq frt fra sh rc => z22Word 63 frt.val fra.val sh.toNat 98 (bitNat rc)

end Sys2Proof
end

