-- ==== Sys2Proof/Machine/Formats.lean ====
section
/-! DEFINITION. The three DFP formats, the abstract data they hold, the DPD code, decoding and
encoding, NaN selection and the data classes (40_data_formats.md). Bit patterns are taken as numbers
here, so a field is a quotient and a remainder; `Operands.lean` ties them to the registers. -/

namespace Sys2Proof.Machine

/-- The data formats (40_data_formats.md R157). -/
inductive Fmt where
  | dfp32 | dfp64 | dfp128
  deriving DecidableEq, Repr

/-- Figure 10, "precision p (digits)" (40_data_formats.md R162). -/
def Fmt.precision (f : Fmt) : Nat :=
  match f with
  | .dfp32 => 7
  | .dfp64 => 16
  | .dfp128 => 34

/-- Figure 10, "bias" (40_data_formats.md R162). -/
def Fmt.bias (f : Fmt) : Nat :=
  match f with
  | .dfp32 => 101
  | .dfp64 => 398
  | .dfp128 => 6176

/-- Figure 10, "max exponent Xmax" (40_data_formats.md R162). -/
def Fmt.xmax (f : Fmt) : Int :=
  match f with
  | .dfp32 => 90
  | .dfp64 => 369
  | .dfp128 => 6111

/-- Figure 10, "min exponent Xmin" (40_data_formats.md R162). -/
def Fmt.xmin (f : Fmt) : Int :=
  match f with
  | .dfp32 => -101
  | .dfp64 => -398
  | .dfp128 => -6176

/-- The width of the biased exponent continuation field, Figure 10 (40_data_formats.md R162). -/
def Fmt.becWidth (f : Fmt) : Nat :=
  match f with
  | .dfp32 => 6
  | .dfp64 => 8
  | .dfp128 => 12

/-- The number of 10-bit DPD blocks of the coefficient continuation field (40_data_formats.md R157). -/
def Fmt.blocks (f : Fmt) : Nat :=
  match f with
  | .dfp32 => 2
  | .dfp64 => 5
  | .dfp128 => 11

/-- The width of the coefficient continuation field (40_data_formats.md R157). -/
def Fmt.ccWidth (f : Fmt) : Nat := 10 * f.blocks

/-- The number of bits to the right of the combination field (40_data_formats.md R157). -/
def Fmt.tailWidth (f : Fmt) : Nat := f.becWidth + f.ccWidth

/-- The abstract data (40_data_formats.md R154, R170, 00_scope.md R16): sign (`true` is minus),
coefficient and exponent of a finite number; sign and payload (the decimal value of the CC field) of
an infinity or a NaN. -/
inductive Datum where
  | finite (s : Bool) (c : Nat) (e : Int)
  | inf (s : Bool) (y : Nat)
  | qnan (s : Bool) (y : Nat)
  | snan (s : Bool) (y : Nat)
  deriving DecidableEq, Repr

/-- The sign, present in every class (40_data_formats.md R158). -/
def Datum.sign (d : Datum) : Bool :=
  match d with
  | .finite s _ _ => s
  | .inf s _ => s
  | .qnan s _ => s
  | .snan s _ => s

/-- A NaN of either kind (40_data_formats.md R185). -/
def Datum.isNaN (d : Datum) : Bool :=
  match d with
  | .finite .. => false
  | .inf .. => false
  | .qnan .. => true
  | .snan .. => true

/-- A signaling NaN (40_data_formats.md R185). -/
def Datum.isSNaN (d : Datum) : Bool :=
  match d with
  | .finite .. => false
  | .inf .. => false
  | .qnan .. => false
  | .snan .. => true

/-- The default infinity with a sign (40_data_formats.md R174). -/
def defaultInf (s : Bool) : Datum := .inf s 0

/-- The default quiet NaN (40_data_formats.md R175). -/
def defaultNaN : Datum := .qnan false 0

/-- True zero: zero coefficient and most negative exponent (42_arithmetic.md R272). -/
def trueZero (f : Fmt) (s : Bool) : Datum := .finite s 0 f.xmin

/-- A decimal digit from three bits, 0 to 7. -/
def digitLow (a b c : Bool) : Nat := 4 * a.toNat + 2 * b.toNat + c.toNat

/-- A decimal digit 8 or 9 from its last bit. -/
def digitHigh (c : Bool) : Nat := 8 + c.toNat

/-- Three decimal digits as a number. -/
def threeDigits (d2 d1 d0 : Nat) : Nat := 100 * d2 + 10 * d1 + d0

/-- The DPD code, block to value 0 to 999 (40_data_formats.md R163). PRESUMED: the source's Appendix A
is absent, the spec supplies the standard code (D20, log 18). -/
def dpdDecode (block : Nat) : Nat :=
  let p := block.testBit 9
  let q := block.testBit 8
  let r := block.testBit 7
  let s := block.testBit 6
  let t := block.testBit 5
  let u := block.testBit 4
  let v := block.testBit 3
  let w := block.testBit 2
  let x := block.testBit 1
  let y := block.testBit 0
  match v, w, x, s, t with
  | false, _, _, _, _ => threeDigits (digitLow p q r) (digitLow s t u) (digitLow w x y)
  | true, false, false, _, _ => threeDigits (digitLow p q r) (digitLow s t u) (digitHigh y)
  | true, false, true, _, _ => threeDigits (digitLow p q r) (digitHigh u) (digitLow s t y)
  | true, true, false, _, _ => threeDigits (digitHigh r) (digitLow s t u) (digitLow p q y)
  | true, true, true, false, false => threeDigits (digitHigh r) (digitHigh u) (digitLow p q y)
  | true, true, true, false, true => threeDigits (digitHigh r) (digitLow p q u) (digitHigh y)
  | true, true, true, true, false => threeDigits (digitLow p q r) (digitHigh u) (digitHigh y)
  | true, true, true, true, true => threeDigits (digitHigh r) (digitHigh u) (digitHigh y)

/-- A block from its ten bits, leftmost first. -/
def blockOf (p q r s t u v w x y : Bool) : Nat :=
  512 * p.toNat + 256 * q.toNat + 128 * r.toNat + 64 * s.toNat + 32 * t.toNat + 16 * u.toNat
    + 8 * v.toNat + 4 * w.toNat + 2 * x.toNat + y.toNat

/-- The DPD code, value 0 to 999 to its preferred block (40_data_formats.md R164; log 18). -/
def dpdEncode (value : Nat) : Nat :=
  let d2 := value / 100 % 10
  let d1 := value / 10 % 10
  let d0 := value % 10
  let a := d2.testBit 3
  let b := d2.testBit 2
  let c := d2.testBit 1
  let d := d2.testBit 0
  let e := d1.testBit 3
  let f := d1.testBit 2
  let g := d1.testBit 1
  let h := d1.testBit 0
  let i := d0.testBit 3
  let j := d0.testBit 2
  let k := d0.testBit 1
  let m := d0.testBit 0
  match a, e, i with
  | false, false, false => blockOf b c d f g h false j k m
  | false, false, true => blockOf b c d f g h true false false m
  | false, true, false => blockOf b c d j k h true false true m
  | true, false, false => blockOf j k d f g h true true false m
  | true, true, false => blockOf j k d false false h true true true m
  | true, false, true => blockOf f g d false true h true true true m
  | false, true, true => blockOf b c d true false h true true true m
  | true, true, true => blockOf false false d true true h true true true m

/-- The decimal value of `n` DPD blocks, the leftmost most significant (40_data_formats.md R170). -/
def unpackBlocks (n : Nat) (bits : Nat) : Nat :=
  match n with
  | 0 => 0
  | n + 1 => unpackBlocks n (bits / 1024) * 1000 + dpdDecode (bits % 1024)

/-- The rightmost `3 n` decimal digits of a number as `n` preferred DPD blocks
(40_data_formats.md R171). -/
def packBlocks (n : Nat) (y : Nat) : Nat :=
  match n with
  | 0 => 0
  | n + 1 => packBlocks n (y / 1000) * 1024 + dpdEncode (y % 1000)

/-- `dec` (40_data_formats.md R170): every bit pattern of every format decodes. -/
def dec (f : Fmt) (bits : Nat) : Datum :=
  let s := bits / 2 ^ (f.tailWidth + 5) % 2 == 1
  let comb := bits / 2 ^ f.tailWidth % 32
  let bec := bits / 2 ^ f.ccWidth % 2 ^ f.becWidth
  let y := unpackBlocks f.blocks (bits % 2 ^ f.ccWidth)
  if comb = 31 then (if bec / 2 ^ (f.becWidth - 1) = 1 then .snan s y else .qnan s y)
  else if comb = 30 then .inf s y
  else
    let msb := if comb / 8 = 3 then comb / 2 % 4 else comb / 8
    let lmd := if comb / 8 = 3 then 8 + comb % 2 else comb % 8
    .finite s (lmd * 10 ^ (f.precision - 1) + y) (((msb * 2 ^ f.becWidth + bec : Nat) : Int) - f.bias)

/-- The combination field of a finite number, Figure 9, from the two leftmost bits of its biased
exponent and its leftmost digit (40_data_formats.md R159, R171). -/
def combination (msb lmd : Nat) : Nat := if lmd < 8 then msb * 8 + lmd else 24 + msb * 2 + lmd % 2

/-- The fields of a datum put together (40_data_formats.md R157, R171). -/
def assemble (f : Fmt) (s : Bool) (comb bec y : Nat) : Nat :=
  s.toNat * 2 ^ (f.tailWidth + 5) + comb * 2 ^ f.tailWidth + bec * 2 ^ f.ccWidth
    + packBlocks f.blocks y

/-- `enc` (40_data_formats.md R171), in preferred DPD codes (R166). -/
def enc (f : Fmt) (d : Datum) : Nat :=
  match d with
  | .finite s c e =>
    let be := (e + f.bias).toNat
    assemble f s (combination (be / 2 ^ f.becWidth) (c / 10 ^ (f.precision - 1)))
      (be % 2 ^ f.becWidth) (c % 10 ^ (f.precision - 1))
  | .inf s y => assemble f s 30 0 y
  | .qnan s y => assemble f s 31 0 y
  | .snan s y => assemble f s 31 (2 ^ (f.becWidth - 1)) y

/-- The data a format can hold (40_data_formats.md R154, R161): the coefficient below `10^p`, the
exponent from Xmin to Xmax, the payload below `10^(p-1)`. -/
def Datum.fits (f : Fmt) (d : Datum) : Bool :=
  match d with
  | .finite _ c e => decide (c < 10 ^ f.precision) && decide (f.xmin ≤ e) && decide (e ≤ f.xmax)
  | .inf _ y => decide (y < 10 ^ (f.precision - 1))
  | .qnan _ y => decide (y < 10 ^ (f.precision - 1))
  | .snan _ y => decide (y < 10 ^ (f.precision - 1))

/-- The quiet NaN of a NaN operand: `P(x)` of a QNaN and `U(x)` of an SNaN keep sign and payload
(40_data_formats.md R176, R177). Other data are returned as they are. -/
def quieted (d : Datum) : Datum :=
  match d with
  | .snan s y => .qnan s y
  | .qnan s y => .qnan s y
  | .finite s c e => .finite s c e
  | .inf s y => .inf s y

/-- The NaN that two operands deliver, and whether it signals (40_data_formats.md R178). -/
def nanResult (a b : Datum) : Option (Datum × Bool) :=
  if a.isSNaN then some (quieted a, true)
  else if b.isSNaN then some (quieted b, true)
  else if a.isNaN then some (quieted a, false)
  else if b.isNaN then some (quieted b, false)
  else none

/-- The number `k` with `10^k <= n < 10^(k+1)`, for `1 <= n < 10^(2^(steps+1))`: halving the range of
`k` at each step. -/
def floorLog10From (steps : Nat) (n : Nat) : Nat :=
  match steps with
  | 0 => if 10 ≤ n then 1 else 0
  | k + 1 =>
    if 10 ^ 2 ^ (k + 1) ≤ n then 2 ^ (k + 1) + floorLog10From k (n / 10 ^ 2 ^ (k + 1))
    else floorLog10From k n

/-- `floor(log10(n))` for `n > 0` (40_data_formats.md R156). -/
def floorLog10 (n : Nat) : Nat := floorLog10From (Nat.log2 (Nat.log2 n)) n

/-- The number of significant digits of a coefficient, 0 for a zero (40_data_formats.md R156). -/
def numDigits (c : Nat) : Nat := if c = 0 then 0 else floorLog10 c + 1

/-- The six data classes (40_data_formats.md R180). -/
inductive DataClass where
  | zero | subnormal | normal | infinity | quietNaN | signalingNaN
  deriving DecidableEq, Repr

/-- `c * 10^e < 10^k`, over the rationals. -/
def belowPow10 (c : Nat) (e k : Int) : Bool :=
  if k ≤ e then c == 0 else decide (c < 10 ^ (k - e).toNat)

/-- The classification procedure (40_data_formats.md R186). -/
def dataClass (f : Fmt) (d : Datum) : DataClass :=
  match d with
  | .snan _ _ => .signalingNaN
  | .qnan _ _ => .quietNaN
  | .inf _ _ => .infinity
  | .finite _ c e =>
    if c = 0 then .zero
    else if belowPow10 c e (f.xmin + f.precision - 1) then .subnormal
    else .normal

/-- The FPRF code of a class and a sign, Figure 1, written C FL FG FE FU (10_state.md R40). -/
def fprfCode (k : DataClass) (s : Bool) : BitVec 5 :=
  match k, s with
  | .signalingNaN, _ => 0b00001#5
  | .quietNaN, _ => 0b10001#5
  | .infinity, true => 0b01001#5
  | .normal, true => 0b01000#5
  | .subnormal, true => 0b11000#5
  | .zero, true => 0b10010#5
  | .zero, false => 0b00010#5
  | .subnormal, false => 0b10100#5
  | .normal, false => 0b00100#5
  | .infinity, false => 0b00101#5

/-- `class(fmt, d)` (10_state.md R40). -/
def classCode (f : Fmt) (d : Datum) : BitVec 5 := fprfCode (dataClass f d) d.sign

end Sys2Proof.Machine
end

