-- ==== Sys2Proof/Machine/Rounding.lean ====
section
/-! DEFINITION. The eight rounding modes and their selection, rounding to an integer, the choice of a
form, and `RoundDeliver` (41_execution_model.md). Magnitudes are exact rationals. -/

namespace Sys2Proof.Machine

/-- The eight DFP rounding modes, by Figure 19's abbreviations (41_execution_model.md R201 to R208). -/
inductive Mode where
  | rne | rtz | rtpi | rtmi | rnaz | rntz | rafz | rfsp
  deriving DecidableEq, Repr

/-- `mode(DRN)`, Figure 14 (41_execution_model.md R210). -/
def modeOfDrn (drn : BitVec 3) : Mode :=
  match drn.toNat with
  | 0 => .rne
  | 1 => .rtz
  | 2 => .rtpi
  | 3 => .rtmi
  | 4 => .rnaz
  | 5 => .rntz
  | 6 => .rafz
  | _ => .rfsp

/-- `mode(RMC, R)`, Figures 15 (R = 0) and 16 (R = 1) (41_execution_model.md R210, R211;
45_quantum_adjustment.md R351). -/
def modeOfRmc (rmc : BitVec 2) (r : Bool) (drn : BitVec 3) : Mode :=
  match r, rmc.toNat with
  | false, 0 => .rne
  | false, 1 => .rtz
  | false, 2 => .rnaz
  | false, _ => modeOfDrn drn
  | true, 0 => .rtpi
  | true, 1 => .rtmi
  | true, 2 => .rafz
  | true, _ => .rntz

/-- What rounding a magnitude to an integer gives. -/
structure Rounded where
  n : Nat
  inexact : Bool
  incremented : Bool
  deriving DecidableEq, Repr

/-- Whether a magnitude strictly between `fl` and `fl + 1`, at `fl + rem / den`, rounds up
(41_execution_model.md R209). -/
def roundsUp (fl rem den : Nat) (mode : Mode) (s : Bool) : Bool :=
  match mode with
  | .rne => decide (den < 2 * rem) || (2 * rem == den && fl % 2 == 1)
  | .rtz => false
  | .rtpi => !s
  | .rtmi => s
  | .rnaz => decide (den ≤ 2 * rem)
  | .rntz => decide (den < 2 * rem)
  | .rafz => true
  | .rfsp => fl % 10 == 0 || fl % 10 == 5

/-- `RoundInt(num / den, mode, s)` (41_execution_model.md R209). -/
def roundInt (num den : Nat) (mode : Mode) (s : Bool) : Rounded :=
  if num % den = 0 then ⟨num / den, false, false⟩
  else if roundsUp (num / den) (num % den) den mode s then ⟨num / den + 1, true, true⟩
  else ⟨num / den, true, false⟩

/-- An exact magnitude `num / den * 10^exp`, `den > 0` (41_execution_model.md R200). -/
structure Mag where
  num : Nat
  den : Nat
  exp : Int
  deriving DecidableEq, Repr

/-- `RoundInt(v / 10^q, mode, s)`: the magnitude rounded at the quantum `10^q`. -/
def roundAt (v : Mag) (q : Int) (mode : Mode) (s : Bool) : Rounded :=
  if q ≤ v.exp then roundInt (v.num * 10 ^ (v.exp - q).toNat) v.den mode s
  else roundInt v.num (v.den * 10 ^ (q - v.exp).toNat) mode s

/-- `floor(log10(v))`, for `v > 0`. -/
def Mag.floorLog10 (v : Mag) : Int :=
  let k := numDigits v.den
  (Sys2Proof.Machine.floorLog10 (v.num * 10 ^ k / v.den) : Int) - k + v.exp

/-- `v < 10^k`, over the rationals. -/
def Mag.belowPow10 (v : Mag) (k : Int) : Bool :=
  if k ≤ v.exp then decide (v.num * 10 ^ (v.exp - k).toNat < v.den)
  else decide (v.num < v.den * 10 ^ (k - v.exp).toNat)

/-- The number of trailing zero digits of `c`, counting at most `limit`. -/
def trailingZeros (limit : Nat) (c : Nat) : Nat :=
  match limit with
  | 0 => 0
  | k + 1 => if c % 10 = 0 then trailingZeros k (c / 10) + 1 else 0

/-- `x` moved into the range `lo .. hi`. -/
def clampInt (lo hi x : Int) : Int := min (max x lo) hi

/-- `PickForm` (41_execution_model.md R217): the form of `c * 10^e` with at most `p` digits and an
exponent in `xmin .. xmax` that has the exponent closest to the ideal one when exact, the smallest
exponent when not. -/
def pickForm (p : Nat) (xmin xmax : Int) (c : Nat) (e ideal : Int) (exact : Bool) : Nat × Int :=
  let lo := max xmin (e - ((p : Int) - numDigits c))
  let hi := min xmax (e + trailingZeros p c)
  let e' := if exact then clampInt lo hi ideal else lo
  (if e' ≤ e then c * 10 ^ (e - e').toNat else c / 10 ^ (e' - e).toNat, e')

/-- `ZeroResult` (41_execution_model.md R218). -/
def zeroResult (f : Fmt) (s : Bool) (ideal : Int) : Datum :=
  .finite s 0 (clampInt f.xmin f.xmax ideal)

/-- Whether a disabled overflow delivers an infinity, Figure 18 (60_exceptions.md R543). -/
def overflowsToInf (mode : Mode) (s : Bool) : Bool :=
  match mode with
  | .rne => true
  | .rtz => false
  | .rtpi => !s
  | .rtmi => s
  | .rnaz => true
  | .rntz => true
  | .rafz => true
  | .rfsp => false

/-- The exponent adjustment of every operation but drsp and drdpq, by target format
(60_exceptions.md R544). DFP32 is the target of no such operation. -/
def wrapAdjust (f : Fmt) : Int :=
  match f with
  | .dfp32 => 192
  | .dfp64 => 576
  | .dfp128 => 9216

/-- What `RoundDeliver` returns: the datum, the format it is encoded in, which of OX and UX occur, FI
and FR. XX occurs exactly when FI is 1 (41_execution_model.md R230 note (d)). -/
structure Delivered where
  datum : Datum
  fmt : Fmt
  ox : Bool
  ux : Bool
  fi : Bool
  fr : Bool
  deriving DecidableEq, Repr

/-- The magnitude rounded to `p` digits with an unbounded exponent range: the coefficient, its
exponent, inexact, incremented (41_execution_model.md R230, "q"). -/
def roundUnbounded (p : Nat) (v : Mag) (mode : Mode) (s : Bool) : Rounded × Int :=
  let e0 := v.floorLog10 - ((p : Int) - 1)
  let r := roundAt v e0 mode s
  if r.n = 10 ^ p then (⟨10 ^ (p - 1), r.inexact, r.incremented⟩, e0 + 1) else (r, e0)

/-- The wrapped rounded result (60_exceptions.md R544, R551), `shift` the adjustment added to the
exponent and to the ideal exponent. It is chosen among the forms of the format it is delivered in when
exact; an inexact one keeps the coefficient of the target precision `p` (46_conversion.md R394;
92_eei_decisions.md D24, log 22). -/
def wrapped (p : Nat) (wrapfmt : Fmt) (s : Bool) (r : Rounded) (eq shift ideal : Int) : Datum :=
  let digits := if r.inexact then p else wrapfmt.precision
  let ce := pickForm digits wrapfmt.xmin wrapfmt.xmax r.n (eq + shift) (ideal + shift) (!r.inexact)
  .finite s ce.1 ce.2

/-- `RoundDeliver` (41_execution_model.md R230; Figures 19 and 20). `oe` and `ue` are the enable bits. -/
def roundDeliver (f wrapfmt : Fmt) (alpha : Int) (oe ue : Bool) (s : Bool) (v : Mag) (ideal : Int)
    (mode : Mode) : Delivered :=
  let p := f.precision
  let q := roundUnbounded p v mode s
  if f.xmax < q.2 then
    if oe then ⟨wrapped p wrapfmt s q.1 q.2 (-alpha) ideal, wrapfmt, true, false, q.1.inexact, q.1.incremented⟩
    else if overflowsToInf mode s then ⟨.inf s 0, f, true, false, true, true⟩
    else ⟨.finite s (10 ^ p - 1) f.xmax, f, true, false, true, false⟩
  else if v.belowPow10 (f.xmin + p - 1) then
    if ue then ⟨wrapped p wrapfmt s q.1 q.2 alpha ideal, wrapfmt, false, true, q.1.inexact, q.1.incremented⟩
    else
      let r := roundAt v f.xmin mode s
      if r.n = 0 then ⟨.finite s 0 f.xmin, f, false, r.inexact, r.inexact, r.incremented⟩
      else
        let ce := pickForm p f.xmin f.xmax r.n f.xmin ideal (!r.inexact)
        ⟨.finite s ce.1 ce.2, f, false, r.inexact, r.inexact, r.incremented⟩
  else
    let ce := pickForm p f.xmin f.xmax q.1.n q.2 ideal (!q.1.inexact)
    ⟨.finite s ce.1 ce.2, f, false, false, q.1.inexact, q.1.incremented⟩

end Sys2Proof.Machine
end

