-- ==== Sys2Proof/Machine/State.lean ====
section
/-! DEFINITION. The state of the machine as plain data, its value after reset, and the reasons a step
can stop (00_scope.md R8; 10_state.md R20; INVENTORY.md, "State"). -/

namespace Sys2Proof.Machine

/-- The five DFP exceptions (60_exceptions.md R503). -/
inductive DfpException where
  | invalidOperation | zeroDivide | overflow | underflow | inexact
  deriving DecidableEq, Repr

/-- `pending_trap`: an invocation of the error handler that is owed in an imprecise mode
(10_state.md R56, 60_exceptions.md R522). `remaining = n` raises it at the n-th instruction from now,
before that instruction executes; `causes` are the enabled exceptions that caused it. -/
structure PendingTrap where
  remaining : Nat
  causes : List DfpException
  deriving DecidableEq, Repr

/-- The outcome `Trap(FPEnabledException)` (60_exceptions.md R520): the address of the instruction at
which it was raised, whether that instruction is the excepting one, and the FPSCR. -/
structure TrapRecord where
  address : Nat
  excepting : Bool
  fpscr : Dword
  deriving DecidableEq, Repr

/-- The Floating-Point Status and Control Register instructions the source names and does not define
(10_state.md R46). -/
inductive FpscrInsn where
  | mcrfs | mtfsfi | mtfsf | mtfsb0 | mtfsb1
  deriving DecidableEq, Repr

/-- What the host may do between two instructions and that changes the state (00_scope.md R13,
60_exceptions.md R523, R526; log 8). Reading an FPR or the CR changes nothing and needs no operation. -/
inductive HostOp where
  /-- write one FPR: a load or a move (10_state.md R25) -/
  | writeFpr (i : FprNum) (v : Dword)
  /-- write one CR field -/
  | writeCr (n : CrNum) (v : BitVec 4)
  /-- set the two bits of the machine-state register (10_state.md R53) -/
  | setFe (fe0 fe1 : Bool)
  /-- set `pc` (modulo `2^PCW`) and, after a trap, resume (60_exceptions.md R526) -/
  | resume (address : Nat)
  /-- an instruction that reads the FPSCR -/
  | readFpscr
  /-- an instruction that writes the FPSCR bits of `mask` with those of `value` (10_state.md R46) -/
  | writeFpscr (insn : FpscrInsn) (mask value : Dword)
  deriving DecidableEq, Repr

/-- One turn of the host: an operation, and how many DFP instructions execute before it. The host may act
between any two instructions (00_scope.md R13). After a trap it acts at once, whatever `after` says (log 8). -/
structure HostTurn where
  after : Nat
  op : HostOp
  deriving DecidableEq, Repr

/-- Why a step stops with a fault. -/
inductive Fault where
  /-- Raised by fetch, when one of the four bytes at `pc` is not listed in storage. Safe: the spec
  leaves storage to the host (20_memory.md R88; log 5). -/
  | fetchUnlisted (address : Nat)
  /-- Raised by the step after `Trap(FPEnabledException)`, when no host operation is queued. Safe: what
  the processor does then is the open parameter TRAP_ENTRY (60_exceptions.md R520, R526; log 7). -/
  | handlerInvoked
  deriving DecidableEq, Repr

/-- Why a step refuses. -/
inductive Refusal where
  /-- The instruction has no meaning in this model yet. Safe. -/
  | notModelled (mnemonic : String)
  /-- `Refuse(InvalidForm)`: an odd register in a pair field, or a reserved instruction bit that is 1
  (30_encoding.md R108, R109; log 11). Raised by the step and by the meanings. Safe. -/
  | invalidForm
  /-- `Refuse(NotDFP)`: the word is none of the 49 instructions (30_encoding.md R111; log 11). Raised by
  the step. Safe. -/
  | notDfp
  /-- `pc`, or the address the host would resume at, is not a multiple of 4 (20_memory.md R85; log 4).
  Raised by the step. Safe. -/
  | misalignedPc
  /-- A host write of the FPSCR by mcrfs, mtfsb0 or mtfsb1 would set several exception bits together: the
  host may not do that (10_state.md R48, 00_scope.md R13; log 34). Raised by the step. Safe. -/
  | hostWriteForbidden
  deriving DecidableEq, Repr

/-- The state. -/
structure State where
  /-- FPR[0..31] (10_state.md R21) -/
  fpr : Vector Dword 32
  /-- the FPSCR, bit 0 leftmost (10_state.md R30) -/
  fpscr : Dword
  /-- the CR as its eight fields (10_state.md R50) -/
  cr : Vector (BitVec 4) 8
  /-- FE0 of the machine-state register (10_state.md R53) -/
  fe0 : Bool
  /-- FE1 of the machine-state register (10_state.md R53) -/
  fe1 : Bool
  /-- PCW, the width of `pc`: an open parameter, which no step changes (00_scope.md R6; log 2) -/
  pcWidth : Nat
  /-- the address of the instruction being executed, below `2^PCW` (10_state.md R55) -/
  pc : Nat
  /-- `pending_trap` (10_state.md R56) -/
  pending : Option PendingTrap
  /-- the outcome `Trap(FPEnabledException)` once it is raised (60_exceptions.md R520; log 7) -/
  trap : Option TrapRecord
  /-- the storage instruction words are fetched from (20_memory.md R81, R92; log 5) -/
  mem : List Host.Cell
  /-- INSN_BYTE_ORDER (20_memory.md R84; log 3) -/
  insnByteOrder : ByteOrder
  /-- MODEL's own: the turns of the host still to come, the next one first (log 8) -/
  hostQueue : List HostTurn
  /-- MODEL's own: values of IMPRECISE_DELAY for the next exceptions (log 6) -/
  delays : List Nat
  /-- MODEL's own: the counter `Config.impreciseDelay` is applied to (log 6) -/
  delayIndex : Nat
  deriving DecidableEq, Repr

/-- The machine right after reset. The spec states no value for any register (10_state.md R60):
DESIGN CHOICE zero, unsafe (log 1). `pending_trap` is clear (R56), storage lists nothing (log 5),
PCW and INSN_BYTE_ORDER have their defaults (log 2, log 3). -/
def State.reset : State where
  fpr := Vector.replicate 32 0#64
  fpscr := 0#64
  cr := Vector.replicate 8 0#4
  fe0 := false
  fe1 := false
  pcWidth := 64
  pc := 0
  pending := none
  trap := none
  mem := []
  insnByteOrder := .big
  hostQueue := []
  delays := []
  delayIndex := 0

end Sys2Proof.Machine
end

