-- ==== Sys2Proof/Machine/Flags.lean ====
section
/-! DEFINITION. The FPSCR: its bits by name, the one update an instruction makes of it (60_exceptions.md
R500), and what the host may write (10_state.md R46). -/

namespace Sys2Proof.Machine

/-- The single-bit fields of the FPSCR that have a rule of their own (10_state.md R30). `bit54` is the
bit the table leaves unnamed. -/
inductive FpscrBit where
  | fx | fex | vx | ox | ux | zx | xx | vxsnan | vxisi | vxidi | vxzdz | vximz | vxvc | fr | fi
  | c | fl | fg | fe | fu | vxsoft | bit54 | vxcvi | ve | oe | ue | ze | xe
  deriving DecidableEq, Repr

/-- The number of a bit, from the left (10_state.md R30). -/
def FpscrBit.index (b : FpscrBit) : Nat :=
  match b with
  | .fx => 32
  | .fex => 33
  | .vx => 34
  | .ox => 35
  | .ux => 36
  | .zx => 37
  | .xx => 38
  | .vxsnan => 39
  | .vxisi => 40
  | .vxidi => 41
  | .vxzdz => 42
  | .vximz => 43
  | .vxvc => 44
  | .fr => 45
  | .fi => 46
  | .c => 47
  | .fl => 48
  | .fg => 49
  | .fe => 50
  | .fu => 51
  | .vxsoft => 53
  | .bit54 => 54
  | .vxcvi => 55
  | .ve => 56
  | .oe => 57
  | .ue => 58
  | .ze => 59
  | .xe => 60

/-- The value of a bit. -/
def getBit (w : Dword) (b : FpscrBit) : Bool := w.getMsbD b.index

/-- The word with one bit written. -/
def setBit (w : Dword) (b : FpscrBit) (v : Bool) : Dword :=
  if v then w ||| (1#64 <<< (63 - b.index)) else w &&& ~~~(1#64 <<< (63 - b.index))

/-- The bits that VX is the OR of (10_state.md R34; bit 54 among them: log 12). -/
def invalidBits : List FpscrBit :=
  [.vxsnan, .vxisi, .vxidi, .vxzdz, .vximz, .vxvc, .vxsoft, .bit54, .vxcvi]

/-- The exception bits (10_state.md R32; log 12). -/
def exceptionBits : List FpscrBit := [.ox, .ux, .zx, .xx] ++ invalidBits

/-- The FPSCR bits DRN (10_state.md R31). -/
def drnOf (w : Dword) : BitVec 3 := w.extractLsb' 32 3

/-- The rounding mode that DRN selects (10_state.md R31). -/
def drnMode (w : Dword) : Mode := modeOfDrn (drnOf w)

/-- FPSCR[32:35]: FX, FEX, VX, OX, what a record form copies (10_state.md R52). -/
def recordBits (w : Dword) : BitVec 4 := w.extractLsb' 28 4

/-- FPSCR[47:51], FPRF (10_state.md R40). -/
def fprfOf (w : Dword) : BitVec 5 := w.extractLsb' 12 5

/-- FPSCR[48:51], FPCC (10_state.md R43). -/
def fpccOf (w : Dword) : BitVec 4 := w.extractLsb' 12 4

/-- FPCC written, C unchanged (10_state.md R43). -/
def setFpcc (w : Dword) (code : BitVec 4) : Dword :=
  setBit (setBit (setBit (setBit w .fl (code.getMsbD 0)) .fg (code.getMsbD 1)) .fe (code.getMsbD 2))
    .fu (code.getMsbD 3)

/-- FPRF written (10_state.md R40). -/
def setFprf (w : Dword) (code : BitVec 5) : Dword :=
  setFpcc (setBit w .c (code.getMsbD 0)) (code.extractLsb' 0 4)

/-- The value VX must have (10_state.md R34). -/
def vxValue (w : Dword) : Bool := invalidBits.any (getBit w)

/-- The value FEX must have, from VX and the other exception and enable bits (10_state.md R33). -/
def fexValue (w : Dword) : Bool :=
  (getBit w .vx && getBit w .ve) || (getBit w .ox && getBit w .oe) || (getBit w .ux && getBit w .ue)
    || (getBit w .zx && getBit w .ze) || (getBit w .xx && getBit w .xe)

/-- VX and FEX recomputed (60_exceptions.md R500 step 4). -/
def summarize (w : Dword) : Dword :=
  let w' := setBit w .vx (vxValue w)
  setBit w' .fex (fexValue w')

/-- Some exception bit is 0 in `old` and 1 in `new` (60_exceptions.md R500 step 5). -/
def raisesException (old new : Dword) : Bool :=
  exceptionBits.any fun b => !getBit old b && getBit new b

/-- The argument `frfi` of `SetFPSCR` (60_exceptions.md R500). -/
inductive FrFi where
  | unchanged
  | set (fr fi : Bool)
  deriving DecidableEq, Repr

/-- The argument `fprf` of `SetFPSCR` (60_exceptions.md R500). -/
inductive Fprf where
  | unchanged
  | cls (code : BitVec 5)
  | fpcc (code : BitVec 4)
  deriving DecidableEq, Repr

/-- Step 1 of `SetFPSCR`: the bits of the exceptions that occur become 1. -/
def setExceptions (exc : List FpscrBit) (w : Dword) : Dword :=
  exc.foldl (fun w b => setBit w b true) w

/-- Step 2 of `SetFPSCR`: FR, FI and the sticky XX (10_state.md R36). -/
def setFrFi (frfi : FrFi) (w : Dword) : Dword :=
  match frfi with
  | .unchanged => w
  | .set fr fi =>
    let w' := setBit (setBit w .fr fr) .fi fi
    setBit w' .xx (getBit w' .xx || fi)

/-- Step 3 of `SetFPSCR`. -/
def setFprfField (fprf : Fprf) (w : Dword) : Dword :=
  match fprf with
  | .unchanged => w
  | .cls code => setFprf w code
  | .fpcc code => setFpcc w code

/-- `SetFPSCR` (60_exceptions.md R500, steps 1 to 5). -/
def setFpscr (exc : List FpscrBit) (frfi : FrFi) (fprf : Fprf) (old : Dword) : Dword :=
  let w := summarize (setFprfField fprf (setFrFi frfi (setExceptions exc old)))
  if raisesException old w then setBit w .fx true else w

/-- Whether FI is passed as 1. -/
def FrFi.inexact (frfi : FrFi) : Bool :=
  match frfi with
  | .unchanged => false
  | .set _ fi => fi

/-- Some bit of the list is an Invalid Operation bit. -/
def hasInvalid (exc : List FpscrBit) : Bool := exc.any fun b => invalidBits.contains b

/-- The enabled exceptions that occur in one instruction: `occurred_enabled` is that there is one
(60_exceptions.md R500 step 6). -/
def enabledExceptions (exc : List FpscrBit) (frfi : FrFi) (w : Dword) : List DfpException :=
  (if hasInvalid exc && getBit w .ve then [.invalidOperation] else [])
    ++ (if exc.contains .zx && getBit w .ze then [.zeroDivide] else [])
    ++ (if exc.contains .ox && getBit w .oe then [.overflow] else [])
    ++ (if exc.contains .ux && getBit w .ue then [.underflow] else [])
    ++ (if (exc.contains .xx || frfi.inexact) && getBit w .xe then [.inexact] else [])

/-- An enabled Invalid Operation or Zero Divide occurs: no result is stored (41_execution_model.md
R243; 60_exceptions.md R506). -/
def suppresses (exc : List FpscrBit) (w : Dword) : Bool :=
  (hasInvalid exc && getBit w .ve) || (exc.contains .zx && getBit w .ze)

/-- The bits no instruction alters explicitly, FEX and VX (10_state.md R46). -/
def summaryMask : Dword := (1#64 <<< (63 - FpscrBit.fex.index)) ||| (1#64 <<< (63 - FpscrBit.vx.index))

/-- mtfsfi and mtfsf do not set FX implicitly (10_state.md R32, R46). -/
def FpscrInsn.setsFxImplicitly (i : FpscrInsn) : Bool :=
  match i with
  | .mcrfs => true
  | .mtfsfi => false
  | .mtfsf => false
  | .mtfsb0 => true
  | .mtfsb1 => true

/-- The FPSCR after a host write (10_state.md R46; log 9): the bits of `mask` but FEX and VX become
those of `value`, FEX and VX follow, and FX is set where the instruction sets it implicitly. -/
def hostFpscrValue (insn : FpscrInsn) (mask value old : Dword) : Dword :=
  let m := mask &&& ~~~summaryMask
  let w := summarize ((old &&& ~~~m) ||| (value &&& m))
  if insn.setsFxImplicitly && raisesException old w then setBit w .fx true else w

/-- mtfsfi and mtfsf may set any exception bits together (10_state.md R48). -/
def FpscrInsn.setsSeveral (i : FpscrInsn) : Bool :=
  match i with
  | .mcrfs => false
  | .mtfsfi => true
  | .mtfsf => true
  | .mtfsb0 => false
  | .mtfsb1 => false

/-- The exception bits that are 0 in `old` and 1 in `new`. -/
def newlySet (old new : Dword) : List FpscrBit := exceptionBits.filter fun b => !getBit old b && getBit new b

/-- A single instruction other than mtfsfi and mtfsf sets at most one exception bit, but Inexact may be set
with Overflow or with Underflow (10_state.md R48; log 34). -/
def mayBeSetTogether (bits : List FpscrBit) : Bool :=
  decide (bits.length ≤ 1) || bits == [.ox, .xx] || bits == [.ux, .xx]

/-- The host may make this write (10_state.md R48, 00_scope.md R13; log 34). -/
def hostWriteAllowed (insn : FpscrInsn) (mask value old : Dword) : Bool :=
  insn.setsSeveral || mayBeSetTogether (newlySet old (hostFpscrValue insn mask value old))

/-- The enabled exceptions a host write causes: an exception bit and its enable bit both 1 that were
not both 1 before (60_exceptions.md R525). -/
def hostCauses (old new : Dword) : List DfpException :=
  let caused (b e : FpscrBit) : Bool :=
    getBit new b && getBit new e && !(getBit old b && getBit old e)
  (if invalidBits.any fun b => caused b .ve then [.invalidOperation] else [])
    ++ (if caused .zx .ze then [.zeroDivide] else [])
    ++ (if caused .ox .oe then [.overflow] else [])
    ++ (if caused .ux .ue then [.underflow] else [])
    ++ (if caused .xx .xe then [.inexact] else [])

end Sys2Proof.Machine
end

