-- ==== Sys2Proof/Machine/Ops.lean ====
section
/-! DEFINITION. The shared operations on registers and storage, the end of an instruction, and the
system floating-point enabled exception error handler: when an invocation is owed, taken, or deferred
(60_exceptions.md R520 to R526). -/

namespace Sys2Proof.Machine

/-! Registers. -/

/-- FPR[i] (00_scope.md R15). -/
def readFpr (s : State) (i : FprNum) : Dword := s.fpr[i]

/-- The odd register of the pair that an even register names (10_state.md R23). -/
def pairLow (i : FprNum) : FprNum := i + 1

/-- FPRp[i], the even register leftmost (10_state.md R23). -/
def readPair (s : State) (i : FprNum) : Qword := readFpr s i ++ readFpr s (pairLow i)

/-- The writes of a 128-bit value to a pair (10_state.md R23). -/
def pairWrites (i : FprNum) (v : Qword) : List (FprNum × Dword) :=
  [(i, v.extractLsb' 64 64), (pairLow i, v.extractLsb' 0 64)]

/-- The register file after a list of writes, in order. -/
def writeFprs (ws : List (FprNum × Dword)) (r : Vector Dword 32) : Vector Dword 32 :=
  ws.foldl (fun r w => r.set w.1 w.2) r

/-- CR field n (10_state.md R50). -/
def readCr (s : State) (n : CrNum) : BitVec 4 := s.cr[n]

/-- The CR as a 32-bit value, field n in bits 4n:4n+3 (10_state.md R50; log 14). -/
def crWord (s : State) : BitVec 32 :=
  s.cr[0] ++ s.cr[1] ++ s.cr[2] ++ s.cr[3] ++ s.cr[4] ++ s.cr[5] ++ s.cr[6] ++ s.cr[7]

/-- The CR fields after a compare or a test writes one of them (10_state.md R51). -/
def writeCrField (w : Option (CrNum × BitVec 4)) (cr : Vector (BitVec 4) 8) : Vector (BitVec 4) 8 :=
  match w with
  | none => cr
  | some (n, v) => cr.set n v

/-- `RecordCR1()` when the record bit is 1 (10_state.md R52). -/
def recordCr1 (rc : Bool) (fpscr : Dword) (cr : Vector (BitVec 4) 8) : Vector (BitVec 4) 8 :=
  if rc then cr.set 1 (recordBits fpscr) else cr

/-! Storage (20_memory.md R81, R84; log 5). -/

/-- The canonical form of storage: the addresses of a list of cells rise strictly. -/
def Memory.wf (m : List Host.Cell) : Bool :=
  match m with
  | [] => true
  | [_] => true
  | c :: d :: rest => decide (c.1 < d.1) && Memory.wf (d :: rest)

/-- Every cell lies in the space of `2^width` addresses (20_memory.md R81). -/
def Memory.within (width : Nat) (m : List Host.Cell) : Bool := m.all fun c => decide (c.1 < 2 ^ width)

/-- The byte at an address; an address that is not listed has no value (log 5). -/
def memRead (m : List Host.Cell) (a : Nat) : Option Byte :=
  match m with
  | [] => none
  | c :: rest => if c.1 = a then some c.2 else memRead rest a

/-- The cells after a byte is placed at an address. -/
def memPut (m : List Host.Cell) (a : Nat) (b : Byte) : List Host.Cell :=
  match m with
  | [] => [(a, b)]
  | c :: rest =>
    if a < c.1 then (a, b) :: c :: rest
    else if a = c.1 then (a, b) :: rest
    else c :: memPut rest a b

/-- Bytes written at rising addresses. -/
def memWriteBytes (m : List Host.Cell) (a : Nat) (bs : List Byte) : List Host.Cell :=
  match bs with
  | [] => m
  | b :: rest => memWriteBytes (memPut m a b) (a + 1) rest

/-! Sequencing. -/

/-- `pc <- pc + 4` (10_state.md R55; modulo `2^PCW`, log 2). -/
def advance (s : State) : State := { s with pc := (s.pc + 4) % 2 ^ s.pcWidth }

/-- `pc` is a multiple of 4 (20_memory.md R85). -/
def pcAligned (s : State) : Bool := s.pc % 4 == 0

/-- The four settings of (FE0, FE1) (10_state.md R53, 60_exceptions.md R524). -/
inductive ExceptionMode where
  | ignore | impreciseNonrecoverable | impreciseRecoverable | precise
  deriving DecidableEq, Repr

/-- The exceptions mode (60_exceptions.md R524). -/
def exceptionMode (s : State) : ExceptionMode :=
  match s.fe0, s.fe1 with
  | false, false => .ignore
  | false, true => .impreciseNonrecoverable
  | true, false => .impreciseRecoverable
  | true, true => .precise

/-- Raising `Trap(FPEnabledException)` (60_exceptions.md R520, R521): the outcome carries the address of
the instruction at which it is raised, whether that one is the excepting instruction, and the FPSCR;
`pc` is not advanced and a pending invocation is taken with it (log 7, log 28). -/
def raiseTrap (excepting : Bool) (s : State) : State :=
  { s with
    trap := some { address := s.pc, excepting := excepting, fpscr := s.fpscr }
    pending := none }

/-- The next value of IMPRECISE_DELAY (60_exceptions.md R522; a free value, log 6). -/
def nextDelay (s : State) : Nat :=
  match s.delays with
  | [] => Config.impreciseDelay s.delayIndex
  | d :: _ => d

/-- The delay is used up. -/
def takeDelay (s : State) : State :=
  match s.delays with
  | [] => { s with delayIndex := s.delayIndex + 1 }
  | _ :: rest => { s with delays := rest }

/-- Deferring an invocation in an imprecise mode (60_exceptions.md R522). While one is pending, a second
exception joins it and the delay stays (log 28). A delay of 0 raises the trap at once. `goOn` is what the
machine does when no trap is raised. -/
def deferTrap (goOn : State → State) (causes : List DfpException) (s : State) : State :=
  match s.pending with
  | some p => goOn { s with pending := some { p with causes := p.causes ++ causes } }
  | none =>
    if nextDelay s = 0 then raiseTrap true (takeDelay s)
    else goOn { takeDelay s with pending := some { remaining := nextDelay s, causes := causes } }

/-- The end of an instruction, or of a host operation, that caused these enabled exceptions
(60_exceptions.md R520, R522, R524, R525; 41_execution_model.md R240 steps 9 and 10). -/
def oweHandler (goOn : State → State) (causes : List DfpException) (s : State) : State :=
  match causes with
  | [] => goOn s
  | _ :: _ =>
    match exceptionMode s with
    | .ignore => goOn s
    | .impreciseNonrecoverable => deferTrap goOn causes s
    | .impreciseRecoverable => deferTrap goOn causes s
    | .precise => raiseTrap true s

/-- A pending invocation has come due at this instruction (60_exceptions.md R522). -/
def pendingDue (s : State) : Bool :=
  match s.pending with
  | none => false
  | some p => decide (p.remaining ≤ 1)

/-- One more instruction, or host operation, begins while an invocation is pending (log 6). -/
def tickPending (s : State) : State :=
  { s with pending := s.pending.map fun p => { p with remaining := p.remaining - 1 } }

/-- The host's next turn comes one instruction nearer (log 8). -/
def tickHost (q : List HostTurn) : List HostTurn :=
  match q with
  | [] => []
  | t :: rest => { t with after := t.after - 1 } :: rest

/-- A DFP instruction begins. -/
def beginInstruction (s : State) : State := { tickPending s with hostQueue := tickHost s.hostQueue }

/-- The host operation that comes before the next instruction, if one does, and the turns after it
(00_scope.md R13; log 8). -/
def hostNext (s : State) : Option (HostOp × List HostTurn) :=
  match s.hostQueue with
  | [] => none
  | t :: rest => if t.after = 0 ∨ s.trap.isSome then some (t.op, rest) else none

/-- Everything an instruction does to the registers, computed before anything is written
(41_execution_model.md R240, R241). -/
structure Effect where
  /-- FPR writes, in order -/
  fprs : List (FprNum × Dword)
  /-- the CR field BF of a compare or a test -/
  crf : Option (CrNum × BitVec 4)
  /-- the new FPSCR -/
  fpscr : Dword
  /-- the enabled exceptions that occurred -/
  causes : List DfpException
  deriving DecidableEq, Repr

/-- The register changes of an instruction (41_execution_model.md R240 steps 6 to 8). -/
def applyEffect (rc : Bool) (e : Effect) (s : State) : State :=
  { s with
    fpr := writeFprs e.fprs s.fpr
    cr := recordCr1 rc e.fpscr (writeCrField e.crf s.cr)
    fpscr := e.fpscr }

/-- The end of every instruction (41_execution_model.md R240 steps 6 to 10). -/
def commit (rc : Bool) (e : Effect) (s : State) : State :=
  oweHandler advance e.causes (applyEffect rc e s)

/-- The outcome of a meaning that has an effect: the next state, or `Refuse(InvalidForm)` where the form
is not valid (30_encoding.md R108). -/
def completes (valid : Bool) (rc : Bool) (e : Effect) (s : State) : Host.Outcome State Fault Refusal :=
  if valid then .next (commit rc e s) else .refused .invalidForm

end Sys2Proof.Machine
end

