-- ==== Sys2Proof/Machine/Operands.lean ====
section
/-! DEFINITION. The operand forms: how a register or a pair holds a DFP datum, a 64-bit integer, a
significance or a BCD value (10_state.md R21 to R24; 40_data_formats.md R150 to R152), and how a result
is put back. -/

namespace Sys2Proof.Machine

/-- A register number that may name a pair (10_state.md R23). -/
def isEven (i : FprNum) : Bool := i.val % 2 == 0

/-- The number may stand where the format needs a register or a pair (30_encoding.md R108). -/
def validReg (f : Fmt) (i : FprNum) : Bool :=
  match f with
  | .dfp32 => true
  | .dfp64 => true
  | .dfp128 => isEven i

/-- The operand of a format: the rightmost 32 bits of a register, a register, or a pair
(10_state.md R22, R23). -/
def operandBits (f : Fmt) (i : FprNum) (s : State) : Nat :=
  match f with
  | .dfp32 => (readFpr s i).toNat % 2 ^ 32
  | .dfp64 => (readFpr s i).toNat
  | .dfp128 => (readPair s i).toNat

/-- `dec(fmt, R(fmt, i))` (42_arithmetic.md R269). -/
def readDatum (f : Fmt) (i : FprNum) (s : State) : Datum := dec f (operandBits f i s)

/-- A 128-bit value or a 64-bit value put in a pair or a register of the format; a DFP32 datum is
extended on the left with zeros (46_conversion.md R392). -/
def operandWrites (f : Fmt) (i : FprNum) (v : Nat) : List (FprNum × Dword) :=
  match f with
  | .dfp32 => [(i, BitVec.ofNat 64 v)]
  | .dfp64 => [(i, BitVec.ofNat 64 v)]
  | .dfp128 => pairWrites i (BitVec.ofNat 128 v)

/-- `R(fmt, i) <- enc(fmt, d)` (42_arithmetic.md R269). -/
def datumWrites (f : Fmt) (i : FprNum) (d : Datum) : List (FprNum × Dword) := operandWrites f i (enc f d)

/-- Where drdpq puts its result: a DFP64 datum in the even register with the odd one zeroed, a wrapped
DFP128 datum in the pair (46_conversion.md R393). -/
def drdpqWrites (i : FprNum) (f : Fmt) (d : Datum) : List (FprNum × Dword) :=
  match f with
  | .dfp32 => datumWrites .dfp32 i d
  | .dfp64 => [(i, BitVec.ofNat 64 (enc .dfp64 d)), (pairLow i, 0#64)]
  | .dfp128 => datumWrites .dfp128 i d

/-- A register as a 64-bit signed integer (40_data_formats.md R150). -/
def readInt (i : FprNum) (s : State) : Int := (readFpr s i).toInt

/-- The write of an integer as 64-bit two's complement (40_data_formats.md R150). -/
def intWrites (i : FprNum) (n : Int) : List (FprNum × Dword) := [(i, BitVec.ofInt 64 n)]

/-- MN, the most negative 64-bit integer (46_conversion.md R398). -/
def minInt64 : Int := -(2 ^ 63)

/-- MP, the most positive 64-bit integer (46_conversion.md R398). -/
def maxInt64 : Int := 2 ^ 63 - 1

/-- The referenced significance: bits 58:63 of a register, bits 0:57 ignored (44_test.md R317;
log 19). -/
def significance (i : FprNum) (s : State) : Nat := (readFpr s i).toNat % 64

/-- The coefficient with the payload of a special datum as its digits, `coeff(fmt, d)`
(47_format.md R434). -/
def Datum.coefficient (d : Datum) : Nat :=
  match d with
  | .finite _ c _ => c
  | .inf _ y => y
  | .qnan _ y => y
  | .snan _ y => y

/-- `ccdigits(fmt, d)` (47_format.md R434). -/
def ccDigits (f : Fmt) (d : Datum) : Nat := d.coefficient % 10 ^ (f.precision - 1)

/-- The number of BCD nibbles in an operand of the format (40_data_formats.md R151). -/
def bcdNibbles (f : Fmt) : Nat :=
  match f with
  | .dfp32 => 8
  | .dfp64 => 16
  | .dfp128 => 32

/-- The rightmost `n` decimal digits of a number as BCD digits, the most significant leftmost
(40_data_formats.md R151). -/
def toBcd (n : Nat) (v : Nat) : Nat :=
  match n with
  | 0 => 0
  | n + 1 => toBcd n (v / 10) * 16 + v % 10

/-- The value of `n` BCD digits; none if one of them is not a digit code (40_data_formats.md R152). -/
def ofBcd (n : Nat) (bits : Nat) : Option Nat :=
  match n with
  | 0 => some 0
  | n + 1 =>
    match ofBcd n (bits / 16) with
    | none => none
    | some v => if bits % 16 ≤ 9 then some (v * 10 + bits % 16) else none

/-- The sign that a sign code stands for, none for an invalid code; minus is `true`
(40_data_formats.md R152). -/
def signOfCode (code : Nat) : Option Bool :=
  if code < 10 then none else some (code == 11 || code == 13)

end Sys2Proof.Machine
end

