-- ==== Sys2Proof/Machine/Deliver.lean ====
section
/-! DEFINITION. What an instruction that returns a DFP datum computes, and how that reaches the target
and the FPSCR: the part that 42_arithmetic.md R269, 45_quantum_adjustment.md R352, 46_conversion.md R390
and 47_format.md R423 share. -/

namespace Sys2Proof.Machine

/-- A computed result: the datum and the format it is delivered in, the exceptions that occur (XX
follows from `fi`, 60_exceptions.md R500), FR and FI. -/
structure Result where
  datum : Datum
  fmt : Fmt
  exc : List FpscrBit
  fr : Bool
  fi : Bool
  deriving DecidableEq, Repr

/-- A result without rounding and without exception: FR and FI are 0 (92_eei_decisions.md D19,
log 17). -/
def exactResult (f : Fmt) (d : Datum) : Result := ⟨d, f, [], false, false⟩

/-- A result that is produced only when its Invalid Operation or Zero Divide is disabled
(00_scope.md R19). -/
def exceptionResult (f : Fmt) (b : FpscrBit) (d : Datum) : Result := ⟨d, f, [b], false, false⟩

/-- A rounded result that can raise nothing but Inexact. -/
def roundedResult (f : Fmt) (d : Datum) (r : Rounded) : Result := ⟨d, f, [], r.incremented, r.inexact⟩

/-- What `RoundDeliver` returned, as a result (41_execution_model.md R230). -/
def deliveredResult (d : Delivered) : Result :=
  ⟨d.datum, d.fmt,
    (if d.ox then [.ox] else []) ++ (if d.ux then [.ux] else []) ++ (if d.fi then [.xx] else []),
    d.fr, d.fi⟩

/-- The NaN rows and columns of an action table; `rest` is the rest of the table
(40_data_formats.md R178). -/
def withNaNs (f : Fmt) (a b : Datum) (rest : Result) : Result :=
  match nanResult a b with
  | some (q, true) => exceptionResult f .vxsnan q
  | some (q, false) => exactResult f q
  | none => rest

/-- What rounding takes from the FPSCR: the mode of DRN and the enable bits OE and UE
(41_execution_model.md R230). -/
structure RoundEnv where
  mode : Mode
  oe : Bool
  ue : Bool
  deriving DecidableEq, Repr

/-- The rounding environment an FPSCR gives. -/
def roundEnv (w : Dword) : RoundEnv := ⟨drnMode w, getBit w .oe, getBit w .ue⟩

/-- `RoundDeliver` for a target format whose wrapped results have the same format
(41_execution_model.md R230). -/
def roundTo (f : Fmt) (env : RoundEnv) (s : Bool) (v : Mag) (ideal : Int) : Result :=
  deliveredResult (roundDeliver f f (wrapAdjust f) env.oe env.ue s v ideal env.mode)

/-- The FPSCR an instruction leaves that returns a DFP datum: FR and FI are 0 and FPRF is unchanged
when no result is stored (60_exceptions.md R531, R541). -/
def resultFpscr (r : Result) (w : Dword) : Dword :=
  if suppresses r.exc w then setFpscr r.exc (.set false false) .unchanged w
  else setFpscr r.exc (.set r.fr r.fi) (.cls (classCode r.fmt r.datum)) w

/-- The effect of an instruction that returns a DFP datum; `writes` says where it goes. -/
def deliver (writes : Fmt → Datum → List (FprNum × Dword)) (r : Result) (w : Dword) : Effect where
  fprs := if suppresses r.exc w then [] else writes r.fmt r.datum
  crf := none
  fpscr := resultFpscr r w
  causes := enabledExceptions r.exc (.set r.fr r.fi) w

/-- The effect of an instruction that only writes registers (47_format.md R433). -/
def plainEffect (ws : List (FprNum × Dword)) (w : Dword) : Effect where
  fprs := ws
  crf := none
  fpscr := w
  causes := []

end Sys2Proof.Machine
end

