-- ==== Sys2Proof/Machine/Arithmetic.lean ====
section
/-! DEFINITION. The arithmetic instructions (42_arithmetic.md). -/

namespace Sys2Proof.Machine

/-- A sign and a magnitude as an integer. -/
def signedValue (s : Bool) (n : Nat) : Int := if s then -(n : Int) else n

/-- `S(a + b)` of two finite numbers (42_arithmetic.md R261; the sign of a zero sum,
41_execution_model.md R220). -/
def addFinite (f : Fmt) (env : RoundEnv) (sa : Bool) (ca : Nat) (ea : Int) (sb : Bool) (cb : Nat)
    (eb : Int) : Result :=
  let ideal := min ea eb
  let v := signedValue sa (ca * 10 ^ (ea - ideal).toNat) + signedValue sb (cb * 10 ^ (eb - ideal).toNat)
  if v = 0 then
    exactResult f (zeroResult f (if sa = sb then sa else env.mode == .rtmi) ideal)
  else roundTo f env (decide (v < 0)) ⟨v.natAbs, 1, ideal⟩ ideal

/-- Figure 21, "Actions: Add" (42_arithmetic.md R270). The last row is not reached: NaNs are in
`withNaNs`. -/
def addResult (f : Fmt) (env : RoundEnv) (a b : Datum) : Result :=
  withNaNs f a b <|
    match a, b with
    | .finite sa ca ea, .finite sb cb eb => addFinite f env sa ca ea sb cb eb
    | .finite _ _ _, .inf sb _ => exactResult f (defaultInf sb)
    | .inf sa _, .finite _ _ _ => exactResult f (defaultInf sa)
    | .inf sa _, .inf sb _ =>
      if sa = sb then exactResult f (defaultInf sa) else exceptionResult f .vxisi defaultNaN
    | _, _ => exactResult f defaultNaN

/-- The subtrahend participates "with its sign bit inverted", a NaN does not (42_arithmetic.md R263;
92_eei_decisions.md D18, log 16). -/
def subtrahend (b : Datum) : Datum :=
  match b with
  | .finite s c e => .finite (!s) c e
  | .inf s y => .inf (!s) y
  | .qnan s y => .qnan s y
  | .snan s y => .snan s y

/-- Subtract is Add with the subtrahend (42_arithmetic.md R263). -/
def subResult (f : Fmt) (env : RoundEnv) (a b : Datum) : Result := addResult f env a (subtrahend b)

/-- `S(a * b)` of two finite numbers (42_arithmetic.md R265). -/
def mulFinite (f : Fmt) (env : RoundEnv) (sa : Bool) (ca : Nat) (ea : Int) (sb : Bool) (cb : Nat)
    (eb : Int) : Result :=
  if ca = 0 ∨ cb = 0 then exactResult f (zeroResult f (sa != sb) (ea + eb))
  else roundTo f env (sa != sb) ⟨ca * cb, 1, ea + eb⟩ (ea + eb)

/-- Infinity times a finite number of coefficient `c`: invalid when it is zero (42_arithmetic.md R271). -/
def infTimes (f : Fmt) (s : Bool) (c : Nat) : Result :=
  if c = 0 then exceptionResult f .vximz defaultNaN else exactResult f (defaultInf s)

/-- Figure 22, "Actions: Multiply" (42_arithmetic.md R271). The last row is not reached. -/
def mulResult (f : Fmt) (env : RoundEnv) (a b : Datum) : Result :=
  withNaNs f a b <|
    match a, b with
    | .finite sa ca ea, .finite sb cb eb => mulFinite f env sa ca ea sb cb eb
    | .finite sa ca _, .inf sb _ => infTimes f (sa != sb) ca
    | .inf sa _, .finite sb cb _ => infTimes f (sa != sb) cb
    | .inf sa _, .inf sb _ => exactResult f (defaultInf (sa != sb))
    | _, _ => exactResult f defaultNaN

/-- `S(a / b)` of two finite numbers, with the rows of a zero divisor (42_arithmetic.md R267, R272;
60_exceptions.md R541). -/
def divFinite (f : Fmt) (env : RoundEnv) (sa : Bool) (ca : Nat) (ea : Int) (sb : Bool) (cb : Nat)
    (eb : Int) : Result :=
  if cb = 0 then
    if ca = 0 then exceptionResult f .vxzdz defaultNaN
    else exceptionResult f .zx (defaultInf (sa != sb))
  else if ca = 0 then exactResult f (zeroResult f (sa != sb) (ea - eb))
  else roundTo f env (sa != sb) ⟨ca, cb, ea - eb⟩ (ea - eb)

/-- Figure 23, "Actions: Divide" (42_arithmetic.md R272). The last row is not reached. -/
def divResult (f : Fmt) (env : RoundEnv) (a b : Datum) : Result :=
  withNaNs f a b <|
    match a, b with
    | .finite sa ca ea, .finite sb cb eb => divFinite f env sa ca ea sb cb eb
    | .finite sa _ _, .inf sb _ => exactResult f (trueZero f (sa != sb))
    | .inf sa _, .finite sb _ _ => exactResult f (defaultInf (sa != sb))
    | .inf _ _, .inf _ _ => exceptionResult f .vxidi defaultNaN
    | _, _ => exactResult f defaultNaN

/-- The result of an arithmetic operation on its two register operands (42_arithmetic.md R269). -/
def arithResult (op : Fmt → RoundEnv → Datum → Datum → Result) (f : Fmt) (fra frb : FprNum) (s : State) :
    Result :=
  op f (roundEnv s.fpscr) (readDatum f fra s) (readDatum f frb s)

/-- `Arith(op, fmt, T, A, B, Rc)` (42_arithmetic.md R269). -/
def arith (op : Fmt → RoundEnv → Datum → Datum → Result) (f : Fmt) (frt fra frb : FprNum) (rc : Bool)
    (s : State) : Host.Outcome State Fault Refusal :=
  completes (validReg f frt && validReg f fra && validReg f frb) rc
    (deliver (fun g d => datumWrites g frt d) (arithResult op f fra frb s) s.fpscr) s

/-- dadd (42_arithmetic.md R261). -/
def execDadd (frt fra frb : FprNum) (rc : Bool) (s : State) : Host.Outcome State Fault Refusal :=
  arith addResult .dfp64 frt fra frb rc s

/-- daddq (42_arithmetic.md R262). -/
def execDaddq (frt fra frb : FprNum) (rc : Bool) (s : State) : Host.Outcome State Fault Refusal :=
  arith addResult .dfp128 frt fra frb rc s

/-- dsub (42_arithmetic.md R263). -/
def execDsub (frt fra frb : FprNum) (rc : Bool) (s : State) : Host.Outcome State Fault Refusal :=
  arith subResult .dfp64 frt fra frb rc s

/-- dsubq (42_arithmetic.md R264). -/
def execDsubq (frt fra frb : FprNum) (rc : Bool) (s : State) : Host.Outcome State Fault Refusal :=
  arith subResult .dfp128 frt fra frb rc s

/-- dmul (42_arithmetic.md R265). -/
def execDmul (frt fra frb : FprNum) (rc : Bool) (s : State) : Host.Outcome State Fault Refusal :=
  arith mulResult .dfp64 frt fra frb rc s

/-- dmulq (42_arithmetic.md R266). -/
def execDmulq (frt fra frb : FprNum) (rc : Bool) (s : State) : Host.Outcome State Fault Refusal :=
  arith mulResult .dfp128 frt fra frb rc s

/-- ddiv (42_arithmetic.md R267). -/
def execDdiv (frt fra frb : FprNum) (rc : Bool) (s : State) : Host.Outcome State Fault Refusal :=
  arith divResult .dfp64 frt fra frb rc s

/-- ddivq (42_arithmetic.md R268). -/
def execDdivq (frt fra frb : FprNum) (rc : Bool) (s : State) : Host.Outcome State Fault Refusal :=
  arith divResult .dfp128 frt fra frb rc s

end Sys2Proof.Machine
end

