-- ==== Sys2Proof/Machine/Compare.lean ====
section
/-! DEFINITION. The compare instructions (43_compare.md). -/

namespace Sys2Proof.Machine

/-- Fl, "less than" (43_compare.md R295). -/
def codeLess : BitVec 4 := 0b1000#4

/-- Fg, "greater than" (43_compare.md R295). -/
def codeGreater : BitVec 4 := 0b0100#4

/-- Fe, "equal" (43_compare.md R295). -/
def codeEqual : BitVec 4 := 0b0010#4

/-- Fu, "unordered" (43_compare.md R295). -/
def codeUnordered : BitVec 4 := 0b0001#4

/-- The code of an algebraic comparison (43_compare.md R297, "C(a:b)"). -/
def codeOfInts (x y : Int) : BitVec 4 :=
  if x = y then codeEqual else if x < y then codeLess else codeGreater

/-- A finite number with its value scaled by `10^k`, `k` at least `-e`. -/
def scaledValue (s : Bool) (c : Nat) (e k : Int) : Int :=
  if s then -((c * 10 ^ (e + k).toNat : Nat) : Int) else ((c * 10 ^ (e + k).toNat : Nat) : Int)

/-- Figures 24 and 25 without exceptions: the code of two data (43_compare.md R296). -/
def compareCode (a b : Datum) : BitVec 4 :=
  match a, b with
  | .finite sa ca ea, .finite sb cb eb =>
    codeOfInts (scaledValue sa ca ea (-(min ea eb))) (scaledValue sb cb eb (-(min ea eb)))
  | .finite _ _ _, .inf sb _ => if sb then codeGreater else codeLess
  | .inf sa _, .finite _ _ _ => if sa then codeLess else codeGreater
  | .inf sa _, .inf sb _ => if sa = sb then codeEqual else if sa then codeLess else codeGreater
  | _, _ => codeUnordered

/-- The Invalid Operation bits of a compare (43_compare.md R296): with an SNaN, VXSNAN, and for an
ordered compare also VXVC when VE is 0; with a QNaN and no SNaN, VXVC for an ordered compare. -/
def compareExc (ordered ve : Bool) (a b : Datum) : List FpscrBit :=
  if a.isSNaN || b.isSNaN then (if ordered && !ve then [.vxsnan, .vxvc] else [.vxsnan])
  else if (a.isNaN || b.isNaN) && ordered then [.vxvc]
  else []

/-- The effect of a compare: it always completes (43_compare.md R290, R296). -/
def compareEffect (ordered : Bool) (bf : CrNum) (a b : Datum) (w : Dword) : Effect where
  fprs := []
  crf := some (bf, compareCode a b)
  fpscr := setFpscr (compareExc ordered (getBit w .ve) a b) .unchanged (.fpcc (compareCode a b)) w
  causes := enabledExceptions (compareExc ordered (getBit w .ve) a b) .unchanged w

/-- `Compare(fmt, BF, A, B, ordered)` (43_compare.md R296). -/
def compareOp (ordered : Bool) (f : Fmt) (bf : CrNum) (fra frb : FprNum) (s : State) :
    Host.Outcome State Fault Refusal :=
  completes (validReg f fra && validReg f frb) false
    (compareEffect ordered bf (readDatum f fra s) (readDatum f frb s) s.fpscr) s

/-- dcmpu (43_compare.md R291). -/
def execDcmpu (bf : CrNum) (fra frb : FprNum) (s : State) : Host.Outcome State Fault Refusal :=
  compareOp false .dfp64 bf fra frb s

/-- dcmpuq (43_compare.md R292). -/
def execDcmpuq (bf : CrNum) (fra frb : FprNum) (s : State) : Host.Outcome State Fault Refusal :=
  compareOp false .dfp128 bf fra frb s

/-- dcmpo (43_compare.md R293). -/
def execDcmpo (bf : CrNum) (fra frb : FprNum) (s : State) : Host.Outcome State Fault Refusal :=
  compareOp true .dfp64 bf fra frb s

/-- dcmpoq (43_compare.md R294). -/
def execDcmpoq (bf : CrNum) (fra frb : FprNum) (s : State) : Host.Outcome State Fault Refusal :=
  compareOp true .dfp128 bf fra frb s

end Sys2Proof.Machine
end

