-- ==== Sys2Proof/Machine/Conversion.lean ====
section
/-! DEFINITION. The conversion instructions (46_conversion.md). -/

namespace Sys2Proof.Machine

/-- The payload that fits a target format: the leftmost digits are removed (46_conversion.md R388
notes 4 and 5). -/
def fitPayload (tgt : Fmt) (y : Nat) : Nat := y % 10 ^ (tgt.precision - 1)

/-- Figure 33 for a format conversion into `tgt` (46_conversion.md R388, R390). `signals` is true of
dctqpq and drdpq; `finite` converts a non-zero finite number. -/
def convertResult (tgt : Fmt) (signals : Bool) (finite : Bool → Nat → Int → Result) (b : Datum) :
    Result :=
  match b with
  | .snan s y =>
    if signals then exceptionResult tgt .vxsnan (.qnan s (fitPayload tgt y))
    else exactResult tgt (.snan s (fitPayload tgt y))
  | .qnan s y => exactResult tgt (.qnan s (fitPayload tgt y))
  | .inf s y => exactResult tgt (.inf s (if signals then 0 else fitPayload tgt y))
  | .finite s c e => if c = 0 then exactResult tgt (zeroResult tgt s e) else finite s c e

/-- Conversion to a wider format is exact (46_conversion.md R390). -/
def widenResult (tgt : Fmt) (signals : Bool) (b : Datum) : Result :=
  convertResult tgt signals (fun s c e => exactResult tgt (.finite s c e)) b

/-- Conversion to a narrower format rounds, with the exponent adjustment and the wrapped format of the
source (46_conversion.md R390, R394; log 22). -/
def narrowResult (src tgt : Fmt) (alpha : Int) (signals : Bool) (env : RoundEnv) (b : Datum) : Result :=
  convertResult tgt signals
    (fun s c e => deliveredResult (roundDeliver tgt src alpha env.oe env.ue s ⟨c, 1, e⟩ e env.mode)) b

/-- The effect of dctdp: FPRF alone, no exception, FR and FI not written (46_conversion.md R381, R390). -/
def dctdpEffect (frt : FprNum) (d : Datum) (w : Dword) : Effect where
  fprs := datumWrites .dfp64 frt d
  crf := none
  fpscr := setFpscr [] .unchanged (.cls (classCode .dfp64 d)) w
  causes := []

/-- The effect of dcffixq: FPRF alone, nothing else of the FPSCR (46_conversion.md R385; log 27). -/
def dcffixqEffect (frt : FprNum) (n : Int) (w : Dword) : Effect :=
  let d : Datum := .finite (decide (n < 0)) n.natAbs 0
  { fprs := datumWrites .dfp128 frt d
    crf := none
    fpscr := setFprf w (classCode .dfp128 d)
    causes := [] }

/-- What Convert To Fixed computes: the integer to store, the Invalid Operation bits, and FR and FI
(46_conversion.md R401). -/
structure Fixed where
  value : Int
  exc : List FpscrBit
  fr : Bool
  fi : Bool
  deriving DecidableEq, Repr

/-- The saturated integer of an invalid conversion, by the sign (46_conversion.md R401). -/
def saturated (s : Bool) : Int := if s then minInt64 else maxInt64

/-- Figure 35, "Actions: Convert To Fixed" (46_conversion.md R400, R401). -/
def toFixed (mode : Mode) (b : Datum) : Fixed :=
  match b with
  | .snan _ _ => ⟨minInt64, [.vxsnan, .vxcvi], false, false⟩
  | .qnan _ _ => ⟨minInt64, [.vxcvi], false, false⟩
  | .inf s _ => ⟨saturated s, [.vxcvi], false, false⟩
  | .finite s c e =>
    let r := roundAt ⟨c, 1, e⟩ 0 mode s
    let q : Int := if s then -(r.n : Int) else r.n
    if q < minInt64 ∨ maxInt64 < q then ⟨saturated s, [.vxcvi], false, false⟩
    else ⟨q, [], r.incremented, r.inexact⟩

/-- The effect of dctfix and dctfixq; FPRF is never written (46_conversion.md R401). -/
def toFixedEffect (frt : FprNum) (x : Fixed) (w : Dword) : Effect where
  fprs := if suppresses x.exc w then [] else intWrites frt x.value
  crf := none
  fpscr := setFpscr x.exc (.set x.fr x.fi) .unchanged w
  causes := enabledExceptions x.exc (.set x.fr x.fi) w

/-- `ToFixed(fmt, FRT, b, Rc)`: FRT is a single register in both forms (46_conversion.md R401, R387). -/
def convertToFixed (f : Fmt) (frt frb : FprNum) (rc : Bool) (s : State) :
    Host.Outcome State Fault Refusal :=
  completes (validReg f frb) rc
    (toFixedEffect frt (toFixed (drnMode s.fpscr) (readDatum f frb s)) s.fpscr) s

/-- dctdp (46_conversion.md R381). -/
def execDctdp (frt frb : FprNum) (rc : Bool) (s : State) : Host.Outcome State Fault Refusal :=
  completes true rc
    (dctdpEffect frt (widenResult .dfp64 false (readDatum .dfp32 frb s)).datum s.fpscr) s

/-- dctqpq (46_conversion.md R382). -/
def execDctqpq (frt frb : FprNum) (rc : Bool) (s : State) : Host.Outcome State Fault Refusal :=
  completes (validReg .dfp128 frt) rc
    (deliver (fun g d => datumWrites g frt d) (widenResult .dfp128 true (readDatum .dfp64 frb s))
      s.fpscr) s

/-- drsp (46_conversion.md R383, R392). -/
def execDrsp (frt frb : FprNum) (rc : Bool) (s : State) : Host.Outcome State Fault Refusal :=
  completes true rc
    (deliver (fun g d => datumWrites g frt d)
      (narrowResult .dfp64 .dfp32 192 false (roundEnv s.fpscr) (readDatum .dfp64 frb s)) s.fpscr) s

/-- drdpq (46_conversion.md R384, R393). -/
def execDrdpq (frt frb : FprNum) (rc : Bool) (s : State) : Host.Outcome State Fault Refusal :=
  completes (validReg .dfp128 frt && validReg .dfp128 frb) rc
    (deliver (drdpqWrites frt)
      (narrowResult .dfp128 .dfp64 3072 true (roundEnv s.fpscr) (readDatum .dfp128 frb s)) s.fpscr) s

/-- dcffixq (46_conversion.md R385). -/
def execDcffixq (frt frb : FprNum) (rc : Bool) (s : State) : Host.Outcome State Fault Refusal :=
  completes (validReg .dfp128 frt) rc (dcffixqEffect frt (readInt frb s) s.fpscr) s

/-- dctfix (46_conversion.md R386). -/
def execDctfix (frt frb : FprNum) (rc : Bool) (s : State) : Host.Outcome State Fault Refusal :=
  convertToFixed .dfp64 frt frb rc s

/-- dctfixq (46_conversion.md R387). -/
def execDctfixq (frt frb : FprNum) (rc : Bool) (s : State) : Host.Outcome State Fault Refusal :=
  convertToFixed .dfp128 frt frb rc s

end Sys2Proof.Machine
end

