-- ==== Sys2Proof/Machine/Format.lean ====
section
/-! DEFINITION. The format instructions (47_format.md). -/

namespace Sys2Proof.Machine

/-- The sign code Decode DPD To BCD generates (47_format.md R421). -/
def signCode (s sp1 : Bool) : Nat := if s then 13 else if sp1 then 15 else 12

/-- Decode DPD To BCD: SP0 (leftmost) selects the signed conversion, SP1 the plus code
(47_format.md R421). -/
def dpdToBcd (f : Fmt) (sp : BitVec 2) (d : Datum) : Nat :=
  if sp.getMsbD 0 then toBcd (bcdNibbles f - 1) d.coefficient * 16 + signCode d.sign (sp.getMsbD 1)
  else toBcd (bcdNibbles f) d.coefficient

/-- The sign and the digits' value of a BCD operand, none if a digit or sign code is invalid
(47_format.md R423). -/
def bcdOperand (f : Fmt) (signed : Bool) (bits : Nat) : Option (Bool × Nat) :=
  if signed then
    match signOfCode (bits % 16), ofBcd (bcdNibbles f - 1) (bits / 16) with
    | some s, some v => some (s, v)
    | _, _ => none
  else
    match ofBcd (bcdNibbles f) bits with
    | some v => some (false, v)
    | none => none

/-- Encode BCD To DPD; the QNaN of an invalid operand is the default one (47_format.md R423; log 23). -/
def bcdToDpdResult (f : Fmt) (signed : Bool) (bits : Nat) : Result :=
  match bcdOperand f signed bits with
  | some (s, v) => exactResult f (.finite s v 0)
  | none => exceptionResult f .vxcvi defaultNaN

/-- The integer Extract Biased Exponent returns (47_format.md R425). -/
def extractedExponent (f : Fmt) (d : Datum) : Int :=
  match d with
  | .finite _ _ e => e + f.bias
  | .inf _ _ => -1
  | .qnan _ _ => -2
  | .snan _ _ => -3

/-- MBE, the maximum biased exponent (47_format.md R435). -/
def maxBiasedExponent (f : Fmt) : Int := f.xmax + f.bias

/-- The leftmost digit of the coefficient, 0 for a special datum (47_format.md R434). -/
def leftmostDigit (f : Fmt) (d : Datum) : Nat :=
  match d with
  | .finite _ c _ => c / 10 ^ (f.precision - 1)
  | .inf _ _ => 0
  | .qnan _ _ => 0
  | .snan _ _ => 0

/-- Figure 36, "Actions: Insert Biased Exponent" (47_format.md R435, R436, R427). -/
def insertExponent (f : Fmt) (a : Int) (b : Datum) : Datum :=
  let cc := ccDigits f b
  if 0 ≤ a ∧ a ≤ maxBiasedExponent f then
    .finite b.sign (leftmostDigit f b * 10 ^ (f.precision - 1) + cc) (a - f.bias)
  else if a = -1 then .inf b.sign cc
  else if a = -3 then .snan b.sign cc
  else .qnan b.sign cc

/-- `width` decimal digits shifted left by `n`: digits shifted out are lost (47_format.md R429). -/
def shiftDigitsLeft (width n v : Nat) : Nat := v * 10 ^ n % 10 ^ width

/-- Digits shifted right by `n`: digits shifted out are lost (47_format.md R431). -/
def shiftDigitsRight (_width n v : Nat) : Nat := v / 10 ^ n

/-- `ShiftCoeff`: kind, sign and exponent stay (47_format.md R437). -/
def shiftCoefficient (shift : Nat → Nat → Nat → Nat) (f : Fmt) (n : Nat) (d : Datum) : Datum :=
  match d with
  | .finite s c e => .finite s (shift f.precision n c) e
  | .inf s y => .inf s (shift (f.precision - 1) n y)
  | .qnan s y => .qnan s (shift (f.precision - 1) n y)
  | .snan s y => .snan s (shift (f.precision - 1) n y)

/-- ddedpd, ddedpdq (47_format.md R421, R422). -/
def decodeToBcd (f : Fmt) (sp : BitVec 2) (frt frb : FprNum) (rc : Bool) (s : State) :
    Host.Outcome State Fault Refusal :=
  completes (validReg f frt && validReg f frb) rc
    (plainEffect (operandWrites f frt (dpdToBcd f sp (readDatum f frb s))) s.fpscr) s

/-- denbcd, denbcdq (47_format.md R423, R424). -/
def encodeFromBcd (f : Fmt) (signed : Bool) (frt frb : FprNum) (rc : Bool) (s : State) :
    Host.Outcome State Fault Refusal :=
  completes (validReg f frt && validReg f frb) rc
    (deliver (fun g d => datumWrites g frt d) (bcdToDpdResult f signed (operandBits f frb s)) s.fpscr) s

/-- dxex, dxexq: FRT is a single register in both (47_format.md R425, R426). -/
def extractExponent (f : Fmt) (frt frb : FprNum) (rc : Bool) (s : State) :
    Host.Outcome State Fault Refusal :=
  completes (validReg f frb) rc
    (plainEffect (intWrites frt (extractedExponent f (readDatum f frb s))) s.fpscr) s

/-- diex, diexq: FRA is a single register in both (47_format.md R427, R428). -/
def insertBiasedExponent (f : Fmt) (frt fra frb : FprNum) (rc : Bool) (s : State) :
    Host.Outcome State Fault Refusal :=
  completes (validReg f frt && validReg f frb) rc
    (plainEffect (datumWrites f frt (insertExponent f (readInt fra s) (readDatum f frb s))) s.fpscr) s

/-- dscli, dscliq, dscri, dscriq (47_format.md R437). -/
def shiftCoeff (shift : Nat → Nat → Nat → Nat) (f : Fmt) (frt fra : FprNum) (sh : BitVec 6) (rc : Bool)
    (s : State) : Host.Outcome State Fault Refusal :=
  completes (validReg f frt && validReg f fra) rc
    (plainEffect (datumWrites f frt (shiftCoefficient shift f sh.toNat (readDatum f fra s))) s.fpscr) s

/-- ddedpd (47_format.md R421). -/
def execDdedpd (sp : BitVec 2) (frt frb : FprNum) (rc : Bool) (s : State) :
    Host.Outcome State Fault Refusal :=
  decodeToBcd .dfp64 sp frt frb rc s

/-- ddedpdq (47_format.md R422). -/
def execDdedpdq (sp : BitVec 2) (frt frb : FprNum) (rc : Bool) (s : State) :
    Host.Outcome State Fault Refusal :=
  decodeToBcd .dfp128 sp frt frb rc s

/-- denbcd (47_format.md R423). -/
def execDenbcd (signed : Bool) (frt frb : FprNum) (rc : Bool) (s : State) :
    Host.Outcome State Fault Refusal :=
  encodeFromBcd .dfp64 signed frt frb rc s

/-- denbcdq (47_format.md R424). -/
def execDenbcdq (signed : Bool) (frt frb : FprNum) (rc : Bool) (s : State) :
    Host.Outcome State Fault Refusal :=
  encodeFromBcd .dfp128 signed frt frb rc s

/-- dxex (47_format.md R425). -/
def execDxex (frt frb : FprNum) (rc : Bool) (s : State) : Host.Outcome State Fault Refusal :=
  extractExponent .dfp64 frt frb rc s

/-- dxexq (47_format.md R426). -/
def execDxexq (frt frb : FprNum) (rc : Bool) (s : State) : Host.Outcome State Fault Refusal :=
  extractExponent .dfp128 frt frb rc s

/-- diex (47_format.md R427). -/
def execDiex (frt fra frb : FprNum) (rc : Bool) (s : State) : Host.Outcome State Fault Refusal :=
  insertBiasedExponent .dfp64 frt fra frb rc s

/-- diexq (47_format.md R428). -/
def execDiexq (frt fra frb : FprNum) (rc : Bool) (s : State) : Host.Outcome State Fault Refusal :=
  insertBiasedExponent .dfp128 frt fra frb rc s

/-- dscli (47_format.md R429). -/
def execDscli (frt fra : FprNum) (sh : BitVec 6) (rc : Bool) (s : State) :
    Host.Outcome State Fault Refusal :=
  shiftCoeff shiftDigitsLeft .dfp64 frt fra sh rc s

/-- dscliq (47_format.md R430). -/
def execDscliq (frt fra : FprNum) (sh : BitVec 6) (rc : Bool) (s : State) :
    Host.Outcome State Fault Refusal :=
  shiftCoeff shiftDigitsLeft .dfp128 frt fra sh rc s

/-- dscri (47_format.md R431). -/
def execDscri (frt fra : FprNum) (sh : BitVec 6) (rc : Bool) (s : State) :
    Host.Outcome State Fault Refusal :=
  shiftCoeff shiftDigitsRight .dfp64 frt fra sh rc s

/-- dscriq (47_format.md R432). -/
def execDscriq (frt fra : FprNum) (sh : BitVec 6) (rc : Bool) (s : State) :
    Host.Outcome State Fault Refusal :=
  shiftCoeff shiftDigitsRight .dfp128 frt fra sh rc s

end Sys2Proof.Machine
end

