-- ==== Sys2Proof/Machine/Quantum.lean ====
section
/-! DEFINITION. The quantum-adjustment instructions (45_quantum_adjustment.md). -/

namespace Sys2Proof.Machine

/-- Figure 29, Quantize of a finite number to the exponent `te` (45_quantum_adjustment.md R354, R355;
the magnitude is compared, log 21). -/
def quantizeFinite (f : Fmt) (mode : Mode) (te : Int) (s : Bool) (c : Nat) (e : Int) : Result :=
  if c = 0 then exactResult f (.finite s 0 te)
  else if te ≤ e then
    if c * 10 ^ (e - te).toNat < 10 ^ f.precision then
      exactResult f (.finite s (c * 10 ^ (e - te).toNat) te)
    else exceptionResult f .vxcvi defaultNaN
  else
    let r := roundAt ⟨c, 1, e⟩ te mode s
    roundedResult f (.finite s r.n te) r

/-- Figure 28, "Actions (part 1) Quantize" (45_quantum_adjustment.md R353, R355; the sign of the
infinity, log 20). The last row is not reached. -/
def quantizeResult (f : Fmt) (mode : Mode) (a b : Datum) : Result :=
  withNaNs f a b <|
    match a, b with
    | .finite _ _ ea, .finite sb cb eb => quantizeFinite f mode ea sb cb eb
    | .finite _ _ _, .inf _ _ => exceptionResult f .vxcvi defaultNaN
    | .inf _ _, .finite _ _ _ => exceptionResult f .vxcvi defaultNaN
    | .inf _ _, .inf sb _ => exactResult f (defaultInf sb)
    | _, _ => exactResult f defaultNaN

/-- Reround of a finite number with more than `k > 0` significant digits, `m` of them
(45_quantum_adjustment.md R358). -/
def reroundFinite (f : Fmt) (mode : Mode) (k m : Nat) (s : Bool) (c : Nat) (e : Int) : Result :=
  let r := roundInt c (10 ^ (m - k)) mode s
  let carry := r.n == 10 ^ k
  let e' := e + ((m - k : Nat) : Int) + (if carry then 1 else 0)
  if f.xmax < e' then exceptionResult f .vxcvi defaultNaN
  else roundedResult f (.finite s (if carry then 10 ^ (k - 1) else r.n) e') r

/-- Figure 30, "Actions: Reround", for the referenced significance `k`
(45_quantum_adjustment.md R357, R358; the sign of the infinity, log 20). -/
def reroundResult (f : Fmt) (mode : Mode) (k : Nat) (b : Datum) : Result :=
  match b with
  | .snan s y => exceptionResult f .vxsnan (.qnan s y)
  | .qnan s y => exactResult f (.qnan s y)
  | .inf s _ => exactResult f (defaultInf s)
  | .finite s c e =>
    if k = 0 ∨ numDigits c ≤ k then exactResult f (.finite s c e)
    else reroundFinite f mode k (numDigits c) s c e

/-- Figures 31 and 32, "Actions: Round to FP Integer" with and without inexact
(45_quantum_adjustment.md R360, R361, R362). -/
def roundToIntResult (f : Fmt) (mode : Mode) (withInexact : Bool) (b : Datum) : Result :=
  match b with
  | .snan s y => exceptionResult f .vxsnan (.qnan s y)
  | .qnan s y => exactResult f (.qnan s y)
  | .inf s _ => exactResult f (defaultInf s)
  | .finite s c e =>
    if 0 ≤ e then exactResult f (.finite s c e)
    else
      let r := roundAt ⟨c, 1, e⟩ 0 mode s
      if withInexact then roundedResult f (.finite s r.n 0) r else exactResult f (.finite s r.n 0)

/-- The mode that RMC, R and DRN select (45_quantum_adjustment.md R351). -/
def rmcMode (rmc : BitVec 2) (r : Bool) (s : State) : Mode := modeOfRmc rmc r (drnOf s.fpscr)

/-- `QAFinish` (45_quantum_adjustment.md R352). -/
def adjust (valid : Bool) (frt : FprNum) (rc : Bool) (r : Result) (s : State) :
    Host.Outcome State Fault Refusal :=
  completes valid rc (deliver (fun g d => datumWrites g frt d) r s.fpscr) s

/-- The operand that the immediate forms of Quantize put in the place of FRA
(45_quantum_adjustment.md R355): only its exponent is used. -/
def immediateQuantum (te : BitVec 5) : Datum := .finite false 1 te.toInt

/-- dquai, dquaiq (45_quantum_adjustment.md R341, R342). -/
def quantizeImmediate (f : Fmt) (te : BitVec 5) (frt frb : FprNum) (rmc : BitVec 2) (rc : Bool)
    (s : State) : Host.Outcome State Fault Refusal :=
  adjust (validReg f frt && validReg f frb) frt rc
    (quantizeResult f (rmcMode rmc false s) (immediateQuantum te) (readDatum f frb s)) s

/-- dqua, dquaq (45_quantum_adjustment.md R343, R344). -/
def quantize (f : Fmt) (frt fra frb : FprNum) (rmc : BitVec 2) (rc : Bool) (s : State) :
    Host.Outcome State Fault Refusal :=
  adjust (validReg f frt && validReg f fra && validReg f frb) frt rc
    (quantizeResult f (rmcMode rmc false s) (readDatum f fra s) (readDatum f frb s)) s

/-- drrnd, drrndq: FRA is a single register in both (45_quantum_adjustment.md R345, R346). -/
def reround (f : Fmt) (frt fra frb : FprNum) (rmc : BitVec 2) (rc : Bool) (s : State) :
    Host.Outcome State Fault Refusal :=
  adjust (validReg f frt && validReg f frb) frt rc
    (reroundResult f (rmcMode rmc false s) (significance fra s) (readDatum f frb s)) s

/-- drintx, drintxq, drintn, drintnq (45_quantum_adjustment.md R347 to R350). -/
def roundToFpInt (withInexact : Bool) (f : Fmt) (r : Bool) (frt frb : FprNum) (rmc : BitVec 2)
    (rc : Bool) (s : State) : Host.Outcome State Fault Refusal :=
  adjust (validReg f frt && validReg f frb) frt rc
    (roundToIntResult f (rmcMode rmc r s) withInexact (readDatum f frb s)) s

/-- dquai (45_quantum_adjustment.md R341). -/
def execDquai (te : BitVec 5) (frt frb : FprNum) (rmc : BitVec 2) (rc : Bool) (s : State) :
    Host.Outcome State Fault Refusal :=
  quantizeImmediate .dfp64 te frt frb rmc rc s

/-- dquaiq (45_quantum_adjustment.md R342). -/
def execDquaiq (te : BitVec 5) (frt frb : FprNum) (rmc : BitVec 2) (rc : Bool) (s : State) :
    Host.Outcome State Fault Refusal :=
  quantizeImmediate .dfp128 te frt frb rmc rc s

/-- dqua (45_quantum_adjustment.md R343). -/
def execDqua (frt fra frb : FprNum) (rmc : BitVec 2) (rc : Bool) (s : State) :
    Host.Outcome State Fault Refusal :=
  quantize .dfp64 frt fra frb rmc rc s

/-- dquaq (45_quantum_adjustment.md R344). -/
def execDquaq (frt fra frb : FprNum) (rmc : BitVec 2) (rc : Bool) (s : State) :
    Host.Outcome State Fault Refusal :=
  quantize .dfp128 frt fra frb rmc rc s

/-- drrnd (45_quantum_adjustment.md R345). -/
def execDrrnd (frt fra frb : FprNum) (rmc : BitVec 2) (rc : Bool) (s : State) :
    Host.Outcome State Fault Refusal :=
  reround .dfp64 frt fra frb rmc rc s

/-- drrndq (45_quantum_adjustment.md R346). -/
def execDrrndq (frt fra frb : FprNum) (rmc : BitVec 2) (rc : Bool) (s : State) :
    Host.Outcome State Fault Refusal :=
  reround .dfp128 frt fra frb rmc rc s

/-- drintx (45_quantum_adjustment.md R347). -/
def execDrintx (r : Bool) (frt frb : FprNum) (rmc : BitVec 2) (rc : Bool) (s : State) :
    Host.Outcome State Fault Refusal :=
  roundToFpInt true .dfp64 r frt frb rmc rc s

/-- drintxq (45_quantum_adjustment.md R348). -/
def execDrintxq (r : Bool) (frt frb : FprNum) (rmc : BitVec 2) (rc : Bool) (s : State) :
    Host.Outcome State Fault Refusal :=
  roundToFpInt true .dfp128 r frt frb rmc rc s

/-- drintn (45_quantum_adjustment.md R349). -/
def execDrintn (r : Bool) (frt frb : FprNum) (rmc : BitVec 2) (rc : Bool) (s : State) :
    Host.Outcome State Fault Refusal :=
  roundToFpInt false .dfp64 r frt frb rmc rc s

/-- drintnq (45_quantum_adjustment.md R350). -/
def execDrintnq (r : Bool) (frt frb : FprNum) (rmc : BitVec 2) (rc : Bool) (s : State) :
    Host.Outcome State Fault Refusal :=
  roundToFpInt false .dfp128 r frt frb rmc rc s

end Sys2Proof.Machine
end

