-- ==== Sys2Proof/Machine/Test.lean ====
section
/-! DEFINITION. The test instructions (44_test.md). -/

namespace Sys2Proof.Machine

/-- The effect of a test: CR field BF and FPCC get the code, and nothing else changes (44_test.md R319;
log 27). -/
def testEffect (bf : CrNum) (code : BitVec 4) (w : Dword) : Effect where
  fprs := []
  crf := some (bf, code)
  fpscr := setFpcc w code
  causes := []

/-- The bit of the data-class mask that a class selects, bit 0 leftmost (44_test.md R311). -/
def classIndex (k : DataClass) : Nat :=
  match k with
  | .zero => 0
  | .subnormal => 1
  | .normal => 2
  | .infinity => 3
  | .quietNaN => 4
  | .signalingNaN => 5

/-- Xmax or Xmin (44_test.md R313). -/
def extremeExponent (f : Fmt) (e : Int) : Bool := e == f.xmax || e == f.xmin

/-- The bit of the data-group mask that a datum selects (44_test.md R313). -/
def groupIndex (f : Fmt) (d : Datum) : Nat :=
  match d with
  | .inf _ _ => 5
  | .qnan _ _ => 5
  | .snan _ _ => 5
  | .finite s c e =>
    if c = 0 then (if extremeExponent f e then 1 else 0)
    else if dataClass f (.finite s c e) == .subnormal || extremeExponent f e then 2
    else if c < 10 ^ (f.precision - 1) then 3
    else 4

/-- The code of a class or group test: bit 0 the sign, bit 2 the match (44_test.md R311). -/
def maskCode (s hit : Bool) : BitVec 4 :=
  match s, hit with
  | false, false => 0b0000#4
  | false, true => 0b0010#4
  | true, false => 0b1000#4
  | true, true => 0b1010#4

/-- The code of Test Data Class (44_test.md R311). -/
def classTestCode (f : Fmt) (mask : BitVec 6) (d : Datum) : BitVec 4 :=
  maskCode d.sign (mask.getMsbD (classIndex (dataClass f d)))

/-- The code of Test Data Group (44_test.md R313). -/
def groupTestCode (f : Fmt) (mask : BitVec 6) (d : Datum) : BitVec 4 :=
  maskCode d.sign (mask.getMsbD (groupIndex f d))

/-- Figure 26, "Actions: Test Exponent" (44_test.md R315). -/
def exponentTestCode (a b : Datum) : BitVec 4 :=
  match a, b with
  | .finite _ _ ea, .finite _ _ eb => codeOfInts ea eb
  | .finite _ _ _, _ => codeUnordered
  | .inf _ _, .inf _ _ => codeEqual
  | .inf _ _, _ => codeUnordered
  | .qnan _ _, b => if b.isNaN then codeEqual else codeUnordered
  | .snan _ _, b => if b.isNaN then codeEqual else codeUnordered

/-- Figure 27, the code of Test Significance for a reference `k` (44_test.md R317). -/
def significanceTestCode (k : Nat) (d : Datum) : BitVec 4 :=
  match d with
  | .finite _ c _ =>
    if k = 0 then codeGreater
    else if k = numDigits c then codeEqual
    else if k < numDigits c then codeLess
    else codeGreater
  | .inf _ _ => codeUnordered
  | .qnan _ _ => codeUnordered
  | .snan _ _ => codeUnordered

/-- A test of one operand under a mask. -/
def maskTest (code : Fmt → BitVec 6 → Datum → BitVec 4) (f : Fmt) (bf : CrNum) (fra : FprNum)
    (mask : BitVec 6) (s : State) : Host.Outcome State Fault Refusal :=
  completes (validReg f fra) false (testEffect bf (code f mask (readDatum f fra s)) s.fpscr) s

/-- Test Exponent (44_test.md R315). -/
def exponentTest (f : Fmt) (bf : CrNum) (fra frb : FprNum) (s : State) :
    Host.Outcome State Fault Refusal :=
  completes (validReg f fra && validReg f frb) false
    (testEffect bf (exponentTestCode (readDatum f fra s) (readDatum f frb s)) s.fpscr) s

/-- Test Significance: FRA is a single register in both forms (44_test.md R317, R318). -/
def significanceTest (f : Fmt) (bf : CrNum) (fra frb : FprNum) (s : State) :
    Host.Outcome State Fault Refusal :=
  completes (validReg f frb) false
    (testEffect bf (significanceTestCode (significance fra s) (readDatum f frb s)) s.fpscr) s

/-- dtstdc (44_test.md R311). -/
def execDtstdc (bf : CrNum) (fra : FprNum) (dcm : BitVec 6) (s : State) :
    Host.Outcome State Fault Refusal :=
  maskTest classTestCode .dfp64 bf fra dcm s

/-- dtstdcq (44_test.md R312). -/
def execDtstdcq (bf : CrNum) (fra : FprNum) (dcm : BitVec 6) (s : State) :
    Host.Outcome State Fault Refusal :=
  maskTest classTestCode .dfp128 bf fra dcm s

/-- dtstdg (44_test.md R313). -/
def execDtstdg (bf : CrNum) (fra : FprNum) (dgm : BitVec 6) (s : State) :
    Host.Outcome State Fault Refusal :=
  maskTest groupTestCode .dfp64 bf fra dgm s

/-- dtstdgq (44_test.md R314). -/
def execDtstdgq (bf : CrNum) (fra : FprNum) (dgm : BitVec 6) (s : State) :
    Host.Outcome State Fault Refusal :=
  maskTest groupTestCode .dfp128 bf fra dgm s

/-- dtstex (44_test.md R315). -/
def execDtstex (bf : CrNum) (fra frb : FprNum) (s : State) : Host.Outcome State Fault Refusal :=
  exponentTest .dfp64 bf fra frb s

/-- dtstexq (44_test.md R316). -/
def execDtstexq (bf : CrNum) (fra frb : FprNum) (s : State) : Host.Outcome State Fault Refusal :=
  exponentTest .dfp128 bf fra frb s

/-- dtstsf (44_test.md R317). -/
def execDtstsf (bf : CrNum) (fra frb : FprNum) (s : State) : Host.Outcome State Fault Refusal :=
  significanceTest .dfp64 bf fra frb s

/-- dtstsfq (44_test.md R318). -/
def execDtstsfq (bf : CrNum) (fra frb : FprNum) (s : State) : Host.Outcome State Fault Refusal :=
  significanceTest .dfp128 bf fra frb s

end Sys2Proof.Machine
end

