-- ==== Sys2Proof/Machine/Dispatch.lean ====
section
/-! DEFINITION. Which meaning an instruction has: one arm for each constructor. -/

namespace Sys2Proof.Machine

def exec (i : Instr) (s : State) : Host.Outcome State Fault Refusal :=
  match i with
  | .dadd frt fra frb rc => Sys2Proof.Machine.execDadd frt fra frb rc s
  | .daddq frt fra frb rc => Sys2Proof.Machine.execDaddq frt fra frb rc s
  | .dsub frt fra frb rc => Sys2Proof.Machine.execDsub frt fra frb rc s
  | .dsubq frt fra frb rc => Sys2Proof.Machine.execDsubq frt fra frb rc s
  | .dmul frt fra frb rc => Sys2Proof.Machine.execDmul frt fra frb rc s
  | .dmulq frt fra frb rc => Sys2Proof.Machine.execDmulq frt fra frb rc s
  | .ddiv frt fra frb rc => Sys2Proof.Machine.execDdiv frt fra frb rc s
  | .ddivq frt fra frb rc => Sys2Proof.Machine.execDdivq frt fra frb rc s
  | .dcmpu bf fra frb => Sys2Proof.Machine.execDcmpu bf fra frb s
  | .dcmpuq bf fra frb => Sys2Proof.Machine.execDcmpuq bf fra frb s
  | .dcmpo bf fra frb => Sys2Proof.Machine.execDcmpo bf fra frb s
  | .dcmpoq bf fra frb => Sys2Proof.Machine.execDcmpoq bf fra frb s
  | .dtstdc bf fra dcm => Sys2Proof.Machine.execDtstdc bf fra dcm s
  | .dtstdcq bf fra dcm => Sys2Proof.Machine.execDtstdcq bf fra dcm s
  | .dtstdg bf fra dgm => Sys2Proof.Machine.execDtstdg bf fra dgm s
  | .dtstdgq bf fra dgm => Sys2Proof.Machine.execDtstdgq bf fra dgm s
  | .dtstex bf fra frb => Sys2Proof.Machine.execDtstex bf fra frb s
  | .dtstexq bf fra frb => Sys2Proof.Machine.execDtstexq bf fra frb s
  | .dtstsf bf fra frb => Sys2Proof.Machine.execDtstsf bf fra frb s
  | .dtstsfq bf fra frb => Sys2Proof.Machine.execDtstsfq bf fra frb s
  | .dquai te frt frb rmc rc => Sys2Proof.Machine.execDquai te frt frb rmc rc s
  | .dquaiq te frt frb rmc rc => Sys2Proof.Machine.execDquaiq te frt frb rmc rc s
  | .dqua frt fra frb rmc rc => Sys2Proof.Machine.execDqua frt fra frb rmc rc s
  | .dquaq frt fra frb rmc rc => Sys2Proof.Machine.execDquaq frt fra frb rmc rc s
  | .drrnd frt fra frb rmc rc => Sys2Proof.Machine.execDrrnd frt fra frb rmc rc s
  | .drrndq frt fra frb rmc rc => Sys2Proof.Machine.execDrrndq frt fra frb rmc rc s
  | .drintx r frt frb rmc rc => Sys2Proof.Machine.execDrintx r frt frb rmc rc s
  | .drintxq r frt frb rmc rc => Sys2Proof.Machine.execDrintxq r frt frb rmc rc s
  | .drintn r frt frb rmc rc => Sys2Proof.Machine.execDrintn r frt frb rmc rc s
  | .drintnq r frt frb rmc rc => Sys2Proof.Machine.execDrintnq r frt frb rmc rc s
  | .dctdp frt frb rc => Sys2Proof.Machine.execDctdp frt frb rc s
  | .dctqpq frt frb rc => Sys2Proof.Machine.execDctqpq frt frb rc s
  | .drsp frt frb rc => Sys2Proof.Machine.execDrsp frt frb rc s
  | .drdpq frt frb rc => Sys2Proof.Machine.execDrdpq frt frb rc s
  | .dcffixq frt frb rc => Sys2Proof.Machine.execDcffixq frt frb rc s
  | .dctfix frt frb rc => Sys2Proof.Machine.execDctfix frt frb rc s
  | .dctfixq frt frb rc => Sys2Proof.Machine.execDctfixq frt frb rc s
  | .ddedpd sp frt frb rc => Sys2Proof.Machine.execDdedpd sp frt frb rc s
  | .ddedpdq sp frt frb rc => Sys2Proof.Machine.execDdedpdq sp frt frb rc s
  | .denbcd sg frt frb rc => Sys2Proof.Machine.execDenbcd sg frt frb rc s
  | .denbcdq sg frt frb rc => Sys2Proof.Machine.execDenbcdq sg frt frb rc s
  | .dxex frt frb rc => Sys2Proof.Machine.execDxex frt frb rc s
  | .dxexq frt frb rc => Sys2Proof.Machine.execDxexq frt frb rc s
  | .diex frt fra frb rc => Sys2Proof.Machine.execDiex frt fra frb rc s
  | .diexq frt fra frb rc => Sys2Proof.Machine.execDiexq frt fra frb rc s
  | .dscli frt fra sh rc => Sys2Proof.Machine.execDscli frt fra sh rc s
  | .dscliq frt fra sh rc => Sys2Proof.Machine.execDscliq frt fra sh rc s
  | .dscri frt fra sh rc => Sys2Proof.Machine.execDscri frt fra sh rc s
  | .dscriq frt fra sh rc => Sys2Proof.Machine.execDscriq frt fra sh rc s

end Sys2Proof.Machine
end

