-- ==== Sys2Proof/Machine/HostOps.lean ====
section
/-! DEFINITION. What the host does between two instructions (00_scope.md R13; log 8). -/

namespace Sys2Proof.Machine

/-- The operation is a Floating-Point Status and Control Register instruction: it raises a pending trap
before it proceeds (60_exceptions.md R523). -/
def HostOp.accessesFpscr (op : HostOp) : Bool :=
  match op with
  | .writeFpr _ _ => false
  | .writeCr _ _ => false
  | .setFe _ _ => false
  | .resume _ => false
  | .readFpscr => true
  | .writeFpscr _ _ _ => true

/-- A host write of the FPSCR and the trap it may cause (10_state.md R47, 60_exceptions.md R525; log 9).
`pc` is not the host's and stays. -/
def writeFpscrOp (insn : FpscrInsn) (mask value : Dword) (s : State) : State :=
  let w := hostFpscrValue insn mask value s.fpscr
  oweHandler id (hostCauses s.fpscr w) { s with fpscr := w }

/-- The effect of a host operation (00_scope.md R13, 60_exceptions.md R526). Resuming at an address that is
not a multiple of 4 is refused (20_memory.md R85; log 4), and so is a write that R48 excludes (log 34). -/
def performHostOp (op : HostOp) (s : State) : Host.Outcome State Fault Refusal :=
  match op with
  | .writeFpr i v => .next { s with fpr := writeFprs [(i, v)] s.fpr }
  | .writeCr n v => .next { s with cr := writeCrField (some (n, v)) s.cr }
  | .setFe fe0 fe1 => .next { s with fe0 := fe0, fe1 := fe1 }
  | .resume address =>
    if address % 2 ^ s.pcWidth % 4 = 0 then .next { s with pc := address % 2 ^ s.pcWidth, trap := none }
    else .refused .misalignedPc
  | .readFpscr => .next s
  | .writeFpscr insn mask value =>
    if hostWriteAllowed insn mask value s.fpscr then .next (writeFpscrOp insn mask value s)
    else .refused .hostWriteForbidden

/-- A pending trap is raised at this host operation, which then is not performed: it has come due
(60_exceptions.md R522), or the operation forces it (R523; log 10). The model forces it whatever FE0 and FE1
are by now, in Ignore Exceptions Mode too: DESIGN CHOICE, log 33 (R90 and R523 quote that forcing has no
effect in that mode, and the rule R523 states for the model tests no mode). -/
def hostOpTraps (op : HostOp) (s : State) : Bool :=
  pendingDue s || (s.pending.isSome && op.accessesFpscr)

/-- One host operation as a step (log 8, log 10). -/
def hostStep (op : HostOp) (rest : List HostTurn) (s : State) : Host.Outcome State Fault Refusal :=
  let s' := { s with hostQueue := rest }
  if hostOpTraps op s' then .next (raiseTrap false s') else performHostOp op (tickPending s')

end Sys2Proof.Machine
end

