-- ==== Sys2Proof/Machine/Sequence.lean ====
section
/-! DEFINITION. Fetching an instruction word, and the order of events of one step
(41_execution_model.md R240, 60_exceptions.md R528). -/

namespace Sys2Proof.Machine

/-- The byte of storage at an address (log 5). -/
def byteAt (s : State) (a : Nat) : Option Byte := memRead s.mem a

/-- The four bytes from an address on, or the first address that lists none. -/
def fetchBytes (s : State) (n : Nat) (a : Nat) : Except Nat (List Byte) :=
  match n with
  | 0 => .ok []
  | n + 1 =>
    match byteAt s a with
    | none => .error a
    | some b =>
      match fetchBytes s n (a + 1) with
      | .ok bs => .ok (b :: bs)
      | .error e => .error e

/-- Fetching and executing the instruction at `pc` (41_execution_model.md R240 steps 2 to 10). -/
def instructionStep (s : State) : Host.Outcome State Fault Refusal :=
  match fetchBytes s 4 s.pc with
  | .error a => .fault (.fetchUnlisted a)
  | .ok bs =>
    match decodeBytes s.insnByteOrder bs with
    | .instr i => exec i (beginInstruction s)
    | .notDfp => .refused .notDfp
    | .invalidForm => .refused .invalidForm
    | .truncated => .refused .notDfp

/-- One step: nothing at a `pc` that is not a multiple of 4 (20_memory.md R85); the host operation whose turn
it is (log 8); else nothing after a trap (log 7); else the pending trap if it has come due (60_exceptions.md
R528); else the instruction at `pc`. -/
def stepState (s : State) : Host.Outcome State Fault Refusal :=
  if !pcAligned s then .refused .misalignedPc
  else
    match hostNext s with
    | some (op, rest) => hostStep op rest s
    | none =>
      if s.trap.isSome then .fault .handlerInvoked
      else if pendingDue s then .next (raiseTrap false s)
      else instructionStep s

/-- The largest multiple of 4 not above an address. -/
def alignedDown (a : Nat) : Nat := a / 4 * 4

/-- A state whose next step fetches this word: it is not the host's turn, no trap stands or is due, and the
word is stored at the (aligned) `pc` in the machine's byte order (log 5). -/
def placeWord (s : State) (w : InsnWord) : State :=
  { s with
    pc := alignedDown s.pc
    mem := memWriteBytes s.mem (alignedDown s.pc) (bytesOfWord s.insnByteOrder w)
    hostQueue := s.hostQueue.dropWhile fun t => t.after == 0
    trap := none
    pending := if pendingDue s then none else s.pending }

end Sys2Proof.Machine
end

