-- ==== Sys2Proof/Machine/Step.lean ====
section
/-! DEFINITION. One step of the machine (41_execution_model.md R240), and placing a word where the next
step fetches. -/

namespace Sys2Proof.Machine

/-- One step (41_execution_model.md R240). -/
def step (s : State) : Host.Outcome State Fault Refusal := stepState s

/-- `s` with the instruction whose bits are `w` stored where `step` fetches its next instruction; the
bits from `nbits` on are 0. -/
def State.withFetchWord (s : State) (nbits w : Nat) : State :=
  placeWord s (BitVec.ofNat 32 (w % 2 ^ nbits))

end Sys2Proof.Machine
end

