-- ==== Sys2Proof/Safety.lean ====
section
/-! DEFINITION. What counts as a safe state and a safe run, and the notions of the spec in which the
statements are written: values as rationals, rounding, forms, targets. -/

namespace Sys2Proof.Machine

/-- FEX and VX are the functions of the other bits that the spec makes them at every point
(10_state.md R33, R34). -/
def fpscrConsistent (w : Dword) : Bool := getBit w .vx == vxValue w && getBit w .fex == fexValue w

/-- A pending invocation, if there is one, has a cause and is due in the future (10_state.md R56). -/
def pendingValid (p : Option PendingTrap) : Bool :=
  match p with
  | none => true
  | some p => decide (1 ≤ p.remaining) && !p.causes.isEmpty

/-- The invariant of the machine: FEX and VX follow from the other bits, storage is in canonical form and in
the space of `2^PCW` addresses, `pc` is in it and a multiple of 4, and a pending invocation is valid. -/
def State.Inv (s : State) : Bool :=
  fpscrConsistent s.fpscr && Memory.wf s.mem && Memory.within s.pcWidth s.mem && decide (2 ≤ s.pcWidth)
    && pcAligned s && decide (s.pc < 2 ^ s.pcWidth) && pendingValid s.pending

/-- The next outcome is a state: the machine neither faults nor refuses. -/
def goesOn (s : State) : Bool :=
  match step s with
  | .next _ => true
  | .fault _ => false
  | .refused _ => false

/-- At least one more instruction comes before the next turn of the host, if there is one (log 8). -/
def hostWaits (s : State) : Prop := ∀ t ∈ s.hostQueue.head?, 0 < t.after

/-- The next step of the machine fetches this word: it is not the host's turn, no trap stands or is due, and
the word is stored at `pc` in the machine's byte order (41_execution_model.md R240, 20_memory.md R84). -/
def fetchesNext (s : State) (w : InsnWord) : Prop :=
  hostWaits s ∧ s.trap = none ∧ pcAligned s = true ∧ pendingDue s = false ∧
    fetchBytes s 4 s.pc = .ok (bytesOfWord s.insnByteOrder w)

/-- It is the turn of this host operation, and `rest` are the turns after it: no instruction is left before
it, or a trap has stopped the machine (00_scope.md R13; log 8). -/
def hostActs (s : State) (op : HostOp) (rest : List HostTurn) : Prop :=
  pcAligned s = true ∧ ∃ n, s.hostQueue = ⟨n, op⟩ :: rest ∧ (n = 0 ∨ s.trap ≠ none)

/-- The host write changes this bit from 0 to 1. -/
def writesUp (mask value old : Dword) (b : FpscrBit) : Prop :=
  getBit old b = false ∧ getBit mask b = true ∧ getBit value b = true

/-- A host write that 10_state.md R48 admits: by mtfsfi or mtfsf, or of at most one exception bit, but of
Inexact also together with Overflow or with Underflow. -/
def writeAdmitted (insn : FpscrInsn) (mask value old : Dword) : Prop :=
  insn = .mtfsfi ∨ insn = .mtfsf ∨
  ∀ b ∈ exceptionBits, ∀ b' ∈ exceptionBits, b.index < b'.index →
    writesUp mask value old b → writesUp mask value old b' → (b = .ox ∨ b = .ux) ∧ b' = .xx

/-! Values, rounding and forms, over the rationals. -/

/-- The value `(-1)^s * c * 10^e` of a finite number (40_data_formats.md R154, 00_scope.md R16). -/
def finiteValue (s : Bool) (c : Nat) (e : Int) : ℚ := (if s then -1 else 1) * ((c : ℚ) * 10 ^ e)

/-- The value of an exact magnitude. -/
def Mag.value (v : Mag) : ℚ := (v.num : ℚ) / v.den * 10 ^ v.exp

/-- `n` is what a mode makes of the magnitude `x` of a number of sign `s` when the permissible values are
the integers (41_execution_model.md R201 to R208): `x` itself if it is one, else one of its neighbours. -/
def roundsTo (mode : Mode) (s : Bool) (x : ℚ) (n : Nat) : Prop :=
  ((∃ k : Nat, x = k) → x = n) ∧
  ((¬ ∃ k : Nat, x = k) → |(n : ℚ) - x| < 1 ∧
    match mode with
    | .rne => |(n : ℚ) - x| ≤ 1 / 2 ∧ (|(n : ℚ) - x| = 1 / 2 → n % 2 = 0)
    | .rtz => (n : ℚ) < x
    | .rtpi => if s then (n : ℚ) < x else x < n
    | .rtmi => if s then x < n else (n : ℚ) < x
    | .rnaz => |(n : ℚ) - x| ≤ 1 / 2 ∧ (|(n : ℚ) - x| = 1 / 2 → x < n)
    | .rntz => |(n : ℚ) - x| ≤ 1 / 2 ∧ (|(n : ℚ) - x| = 1 / 2 → (n : ℚ) < x)
    | .rafz => x < n
    | .rfsp => x < n ↔ ⌊x⌋₊ % 10 = 0 ∨ ⌊x⌋₊ % 10 = 5)

/-- `n * 10^q` is the magnitude `x > 0` rounded to `p` digits with an unbounded exponent range: the
quantum `10^q` leaves `p` digits before the point (41_execution_model.md R230, "q"). -/
def unboundedRounding (p : Nat) (mode : Mode) (s : Bool) (x : ℚ) (n : Nat) (q : Int) : Prop :=
  (10 : ℚ) ^ (p - 1) ≤ x / 10 ^ q ∧ x / 10 ^ q < 10 ^ p ∧ roundsTo mode s (x / 10 ^ q) n

/-- `c * 10^e` is a form with at most `p` digits and an exponent in `xmin .. xmax`
(40_data_formats.md R155). -/
def isForm (p : Nat) (xmin xmax : Int) (c : Nat) (e : Int) : Prop :=
  c < 10 ^ p ∧ xmin ≤ e ∧ e ≤ xmax

/-- `c * 10^e` is the form of its value that is delivered (41_execution_model.md R216): of an exact
result the one with the exponent closest to the ideal one, of an inexact one that with the smallest. -/
def deliveredForm (p : Nat) (xmin xmax : Int) (exact : Prop) (ideal : Int) (c : Nat) (e : Int) : Prop :=
  isForm p xmin xmax c e ∧
  ∀ (c' : Nat) (e' : Int), isForm p xmin xmax c' e' → (c' : ℚ) * 10 ^ e' = (c : ℚ) * 10 ^ e →
    (exact → |e - ideal| ≤ |e' - ideal|) ∧ (¬ exact → e ≤ e')

/-- Figure 14: the rounding mode that FPSCR bits 29:31, DRN, select (41_execution_model.md R210). -/
def figure14 (w : Dword) : Mode :=
  match w.getMsbD 29, w.getMsbD 30, w.getMsbD 31 with
  | false, false, false => .rne
  | false, false, true => .rtz
  | false, true, false => .rtpi
  | false, true, true => .rtmi
  | true, false, false => .rnaz
  | true, false, true => .rntz
  | true, true, false => .rafz
  | true, true, true => .rfsp

/-- Figures 15 (R = 0) and 16 (R = 1): the rounding mode that RMC selects (41_execution_model.md R210,
R211). -/
def figure15 (r : Bool) (rmc : BitVec 2) (w : Dword) : Mode :=
  match r, rmc.getMsbD 0, rmc.getMsbD 1 with
  | false, false, false => .rne
  | false, false, true => .rtz
  | false, true, false => .rnaz
  | false, true, true => figure14 w
  | true, false, false => .rtpi
  | true, false, true => .rtmi
  | true, true, false => .rafz
  | true, true, true => .rntz

/-- Figure 18: a disabled overflow of this sign delivers an infinity, not Nmax (60_exceptions.md R543). -/
def figure18 (mode : Mode) (s : Bool) : Bool :=
  match mode, s with
  | .rne, _ => true
  | .rtz, _ => false
  | .rtpi, false => true
  | .rtpi, true => false
  | .rtmi, false => false
  | .rtmi, true => true
  | .rnaz, _ => true
  | .rntz, _ => true
  | .rafz, _ => true
  | .rfsp, _ => false

/-- The largest finite number of a format, Nmax (40_data_formats.md R162). -/
def nmax (f : Fmt) : ℚ := ((10 ^ f.precision - 1 : Nat) : ℚ) * 10 ^ f.xmax

/-- The smallest normal number of a format, Nmin (40_data_formats.md R162). -/
def nmin (f : Fmt) : ℚ := (10 : ℚ) ^ (f.xmin + f.precision - 1)

/-- Figure 1: the code C FL FG FE FU of the class of a datum (10_state.md R40, 40_data_formats.md R181). -/
def figure1 (f : Fmt) (d : Datum) : BitVec 5 :=
  match d with
  | .snan _ _ => 0b00001#5
  | .qnan _ _ => 0b10001#5
  | .inf s _ => if s then 0b01001#5 else 0b00101#5
  | .finite s c e =>
    if finiteValue s c e = 0 then (if s then 0b10010#5 else 0b00010#5)
    else if |finiteValue s c e| < nmin f then (if s then 0b11000#5 else 0b10100#5)
    else (if s then 0b01000#5 else 0b00100#5)

/-! The instructions, as the tables of the spec describe them. -/

/-- The basic form of an instruction or its quad form (41_execution_model.md R245). -/
def sized (quad : Bool) (basic quadForm : Instr) : Instr := if quad then quadForm else basic

/-- The format of a basic form is DFP64, of a quad form DFP128 (42_arithmetic.md R260). -/
def fmtOf (quad : Bool) : Fmt := if quad then .dfp128 else .dfp64

/-- The two registers of a pair (10_state.md R23). -/
def pairOf (i : FprNum) : List FprNum := [i, pairLow i]

/-- The FPRs an instruction may write: FRT, or the pair FRTp (30_encoding.md R106, R110). -/
def targets (i : Instr) : List FprNum :=
  match i with
  | .dadd frt _ _ _ => [frt]
  | .daddq frt _ _ _ => pairOf frt
  | .dsub frt _ _ _ => [frt]
  | .dsubq frt _ _ _ => pairOf frt
  | .dmul frt _ _ _ => [frt]
  | .dmulq frt _ _ _ => pairOf frt
  | .ddiv frt _ _ _ => [frt]
  | .ddivq frt _ _ _ => pairOf frt
  | .dcmpu _ _ _ => []
  | .dcmpuq _ _ _ => []
  | .dcmpo _ _ _ => []
  | .dcmpoq _ _ _ => []
  | .dtstdc _ _ _ => []
  | .dtstdcq _ _ _ => []
  | .dtstdg _ _ _ => []
  | .dtstdgq _ _ _ => []
  | .dtstex _ _ _ => []
  | .dtstexq _ _ _ => []
  | .dtstsf _ _ _ => []
  | .dtstsfq _ _ _ => []
  | .dquai _ frt _ _ _ => [frt]
  | .dquaiq _ frt _ _ _ => pairOf frt
  | .dqua frt _ _ _ _ => [frt]
  | .dquaq frt _ _ _ _ => pairOf frt
  | .drrnd frt _ _ _ _ => [frt]
  | .drrndq frt _ _ _ _ => pairOf frt
  | .drintx _ frt _ _ _ => [frt]
  | .drintxq _ frt _ _ _ => pairOf frt
  | .drintn _ frt _ _ _ => [frt]
  | .drintnq _ frt _ _ _ => pairOf frt
  | .dctdp frt _ _ => [frt]
  | .dctqpq frt _ _ => pairOf frt
  | .drsp frt _ _ => [frt]
  | .drdpq frt _ _ => pairOf frt
  | .dcffixq frt _ _ => pairOf frt
  | .dctfix frt _ _ => [frt]
  | .dctfixq frt _ _ => [frt]
  | .ddedpd _ frt _ _ => [frt]
  | .ddedpdq _ frt _ _ => pairOf frt
  | .denbcd _ frt _ _ => [frt]
  | .denbcdq _ frt _ _ => pairOf frt
  | .dxex frt _ _ => [frt]
  | .dxexq frt _ _ => [frt]
  | .diex frt _ _ _ => [frt]
  | .diexq frt _ _ _ => pairOf frt
  | .dscli frt _ _ _ => [frt]
  | .dscliq frt _ _ _ => pairOf frt
  | .dscri frt _ _ _ => [frt]
  | .dscriq frt _ _ _ => pairOf frt

/-- The CR field BF of a compare or a test (10_state.md R51). -/
def bfOf (i : Instr) : Option CrNum :=
  match i with
  | .dadd _ _ _ _ => none
  | .daddq _ _ _ _ => none
  | .dsub _ _ _ _ => none
  | .dsubq _ _ _ _ => none
  | .dmul _ _ _ _ => none
  | .dmulq _ _ _ _ => none
  | .ddiv _ _ _ _ => none
  | .ddivq _ _ _ _ => none
  | .dcmpu bf _ _ => some bf
  | .dcmpuq bf _ _ => some bf
  | .dcmpo bf _ _ => some bf
  | .dcmpoq bf _ _ => some bf
  | .dtstdc bf _ _ => some bf
  | .dtstdcq bf _ _ => some bf
  | .dtstdg bf _ _ => some bf
  | .dtstdgq bf _ _ => some bf
  | .dtstex bf _ _ => some bf
  | .dtstexq bf _ _ => some bf
  | .dtstsf bf _ _ => some bf
  | .dtstsfq bf _ _ => some bf
  | .dquai _ _ _ _ _ => none
  | .dquaiq _ _ _ _ _ => none
  | .dqua _ _ _ _ _ => none
  | .dquaq _ _ _ _ _ => none
  | .drrnd _ _ _ _ _ => none
  | .drrndq _ _ _ _ _ => none
  | .drintx _ _ _ _ _ => none
  | .drintxq _ _ _ _ _ => none
  | .drintn _ _ _ _ _ => none
  | .drintnq _ _ _ _ _ => none
  | .dctdp _ _ _ => none
  | .dctqpq _ _ _ => none
  | .drsp _ _ _ => none
  | .drdpq _ _ _ => none
  | .dcffixq _ _ _ => none
  | .dctfix _ _ _ => none
  | .dctfixq _ _ _ => none
  | .ddedpd _ _ _ _ => none
  | .ddedpdq _ _ _ _ => none
  | .denbcd _ _ _ _ => none
  | .denbcdq _ _ _ _ => none
  | .dxex _ _ _ => none
  | .dxexq _ _ _ => none
  | .diex _ _ _ _ => none
  | .diexq _ _ _ _ => none
  | .dscli _ _ _ _ => none
  | .dscliq _ _ _ _ => none
  | .dscri _ _ _ _ => none
  | .dscriq _ _ _ _ => none

/-- The record bit of an instruction that has one (10_state.md R52). -/
def rcOf (i : Instr) : Option Bool :=
  match i with
  | .dadd _ _ _ rc => some rc
  | .daddq _ _ _ rc => some rc
  | .dsub _ _ _ rc => some rc
  | .dsubq _ _ _ rc => some rc
  | .dmul _ _ _ rc => some rc
  | .dmulq _ _ _ rc => some rc
  | .ddiv _ _ _ rc => some rc
  | .ddivq _ _ _ rc => some rc
  | .dcmpu _ _ _ => none
  | .dcmpuq _ _ _ => none
  | .dcmpo _ _ _ => none
  | .dcmpoq _ _ _ => none
  | .dtstdc _ _ _ => none
  | .dtstdcq _ _ _ => none
  | .dtstdg _ _ _ => none
  | .dtstdgq _ _ _ => none
  | .dtstex _ _ _ => none
  | .dtstexq _ _ _ => none
  | .dtstsf _ _ _ => none
  | .dtstsfq _ _ _ => none
  | .dquai _ _ _ _ rc => some rc
  | .dquaiq _ _ _ _ rc => some rc
  | .dqua _ _ _ _ rc => some rc
  | .dquaq _ _ _ _ rc => some rc
  | .drrnd _ _ _ _ rc => some rc
  | .drrndq _ _ _ _ rc => some rc
  | .drintx _ _ _ _ rc => some rc
  | .drintxq _ _ _ _ rc => some rc
  | .drintn _ _ _ _ rc => some rc
  | .drintnq _ _ _ _ rc => some rc
  | .dctdp _ _ rc => some rc
  | .dctqpq _ _ rc => some rc
  | .drsp _ _ rc => some rc
  | .drdpq _ _ rc => some rc
  | .dcffixq _ _ rc => some rc
  | .dctfix _ _ rc => some rc
  | .dctfixq _ _ rc => some rc
  | .ddedpd _ _ _ rc => some rc
  | .ddedpdq _ _ _ rc => some rc
  | .denbcd _ _ _ rc => some rc
  | .denbcdq _ _ _ rc => some rc
  | .dxex _ _ rc => some rc
  | .dxexq _ _ rc => some rc
  | .diex _ _ _ rc => some rc
  | .diexq _ _ _ rc => some rc
  | .dscli _ _ _ rc => some rc
  | .dscliq _ _ _ rc => some rc
  | .dscri _ _ _ rc => some rc
  | .dscriq _ _ _ rc => some rc

/-- The CR fields an instruction may write: BF, or field 1 when Rc = 1 (41_execution_model.md R244). -/
def crTargets (i : Instr) : List CrNum :=
  (match bfOf i with
   | some bf => [bf]
   | none => []) ++ (if rcOf i = some true then [1] else [])

/-- The column "FR FI" of 10_state.md R45. -/
inductive FrFiUse where
  | untouched | cleared | written
  deriving DecidableEq, Repr

/-- One row of 10_state.md R45: which FPSCR fields an instruction touches. -/
structure FpscrUse where
  fprf : Bool
  frfi : FrFiUse
  fpcc : Bool
  exc : List FpscrBit
  deriving DecidableEq, Repr

/-- 10_state.md R45, row by row. -/
def fpscrUse (i : Instr) : FpscrUse :=
  match i with
  | .dadd _ _ _ _ => ⟨true, .written, false, [.ox, .ux, .xx, .vxsnan, .vxisi]⟩
  | .daddq _ _ _ _ => ⟨true, .written, false, [.ox, .ux, .xx, .vxsnan, .vxisi]⟩
  | .dsub _ _ _ _ => ⟨true, .written, false, [.ox, .ux, .xx, .vxsnan, .vxisi]⟩
  | .dsubq _ _ _ _ => ⟨true, .written, false, [.ox, .ux, .xx, .vxsnan, .vxisi]⟩
  | .dmul _ _ _ _ => ⟨true, .written, false, [.ox, .ux, .xx, .vxsnan, .vximz]⟩
  | .dmulq _ _ _ _ => ⟨true, .written, false, [.ox, .ux, .xx, .vxsnan, .vximz]⟩
  | .ddiv _ _ _ _ => ⟨true, .written, false, [.ox, .ux, .zx, .xx, .vxsnan, .vxidi, .vxzdz]⟩
  | .ddivq _ _ _ _ => ⟨true, .written, false, [.ox, .ux, .zx, .xx, .vxsnan, .vxidi, .vxzdz]⟩
  | .dcmpu _ _ _ => ⟨false, .untouched, true, [.vxsnan]⟩
  | .dcmpuq _ _ _ => ⟨false, .untouched, true, [.vxsnan]⟩
  | .dcmpo _ _ _ => ⟨false, .untouched, true, [.vxsnan, .vxvc]⟩
  | .dcmpoq _ _ _ => ⟨false, .untouched, true, [.vxsnan, .vxvc]⟩
  | .dtstdc _ _ _ => ⟨false, .untouched, true, []⟩
  | .dtstdcq _ _ _ => ⟨false, .untouched, true, []⟩
  | .dtstdg _ _ _ => ⟨false, .untouched, true, []⟩
  | .dtstdgq _ _ _ => ⟨false, .untouched, true, []⟩
  | .dtstex _ _ _ => ⟨false, .untouched, true, []⟩
  | .dtstexq _ _ _ => ⟨false, .untouched, true, []⟩
  | .dtstsf _ _ _ => ⟨false, .untouched, true, []⟩
  | .dtstsfq _ _ _ => ⟨false, .untouched, true, []⟩
  | .dquai _ _ _ _ _ => ⟨true, .written, false, [.xx, .vxsnan, .vxcvi]⟩
  | .dquaiq _ _ _ _ _ => ⟨true, .written, false, [.xx, .vxsnan, .vxcvi]⟩
  | .dqua _ _ _ _ _ => ⟨true, .written, false, [.xx, .vxsnan, .vxcvi]⟩
  | .dquaq _ _ _ _ _ => ⟨true, .written, false, [.xx, .vxsnan, .vxcvi]⟩
  | .drrnd _ _ _ _ _ => ⟨true, .written, false, [.xx, .vxsnan, .vxcvi]⟩
  | .drrndq _ _ _ _ _ => ⟨true, .written, false, [.xx, .vxsnan, .vxcvi]⟩
  | .drintx _ _ _ _ _ => ⟨true, .written, false, [.xx, .vxsnan]⟩
  | .drintxq _ _ _ _ _ => ⟨true, .written, false, [.xx, .vxsnan]⟩
  | .drintn _ _ _ _ _ => ⟨true, .cleared, false, [.vxsnan]⟩
  | .drintnq _ _ _ _ _ => ⟨true, .cleared, false, [.vxsnan]⟩
  | .dctdp _ _ _ => ⟨true, .untouched, false, []⟩
  | .dctqpq _ _ _ => ⟨true, .cleared, false, [.vxsnan]⟩
  | .drsp _ _ _ => ⟨true, .written, false, [.ox, .ux, .xx]⟩
  | .drdpq _ _ _ => ⟨true, .written, false, [.ox, .ux, .xx, .vxsnan]⟩
  | .dcffixq _ _ _ => ⟨true, .untouched, false, []⟩
  | .dctfix _ _ _ => ⟨false, .written, false, [.xx, .vxsnan, .vxcvi]⟩
  | .dctfixq _ _ _ => ⟨false, .written, false, [.xx, .vxsnan, .vxcvi]⟩
  | .ddedpd _ _ _ _ => ⟨false, .untouched, false, []⟩
  | .ddedpdq _ _ _ _ => ⟨false, .untouched, false, []⟩
  | .denbcd _ _ _ _ => ⟨true, .cleared, false, [.vxcvi]⟩
  | .denbcdq _ _ _ _ => ⟨true, .cleared, false, [.vxcvi]⟩
  | .dxex _ _ _ => ⟨false, .untouched, false, []⟩
  | .dxexq _ _ _ => ⟨false, .untouched, false, []⟩
  | .diex _ _ _ _ => ⟨false, .untouched, false, []⟩
  | .diexq _ _ _ _ => ⟨false, .untouched, false, []⟩
  | .dscli _ _ _ _ => ⟨false, .untouched, false, []⟩
  | .dscliq _ _ _ _ => ⟨false, .untouched, false, []⟩
  | .dscri _ _ _ _ => ⟨false, .untouched, false, []⟩
  | .dscriq _ _ _ _ => ⟨false, .untouched, false, []⟩

/-- The numbers of the FPSCR bits that a row of 10_state.md R45 lets an instruction change; where an
exception bit may be set, FX, FEX and VX may follow (60_exceptions.md R500). -/
def FpscrUse.bits (u : FpscrUse) : List Nat :=
  (if u.fprf then [47, 48, 49, 50, 51] else [])
    ++ (if u.frfi = .untouched then [] else [45, 46])
    ++ (if u.fpcc then [48, 49, 50, 51] else [])
    ++ u.exc.map FpscrBit.index
    ++ (if u.exc.isEmpty then [] else [32, 33, 34])

/-! What a statement says of the state an instruction leaves. -/

/-- The instruction completes: `pc` moves on and no handler invocation is raised or deferred
(10_state.md R55, 60_exceptions.md R520). -/
def completed (s t : State) : Prop :=
  t.pc = (s.pc + 4) % 2 ^ s.pcWidth ∧ t.trap = s.trap ∧ t.pending = s.pending ∧ t.delays = s.delays ∧ t.delayIndex = s.delayIndex

/-- No handler invocation can arise in this state: Ignore Exceptions Mode, or every exception disabled
(60_exceptions.md R524). -/
def noInvocation (s : State) : Bool :=
  exceptionMode s == .ignore ||
    !(getBit s.fpscr .ve || getBit s.fpscr .oe || getBit s.fpscr .ue || getBit s.fpscr .ze || getBit s.fpscr .xe)

/-- FR and FI say whether the result differs from the exact one and exceeds it in magnitude, XX follows FI,
FPRF is the class of the result (10_state.md R36, R40, R41, R42). -/
def roundedFlags (s t : State) (f : Fmt) (d : Datum) (inexact incremented : Prop) : Prop :=
  (getBit t.fpscr .fi = true ↔ inexact) ∧ (getBit t.fpscr .fr = true ↔ incremented) ∧
  getBit t.fpscr .xx = (getBit s.fpscr .xx || getBit t.fpscr .fi) ∧ fprfOf t.fpscr = figure1 f d

/-- The exception bits are as before, but those listed. -/
def exceptionsKept (s t : State) (but : List FpscrBit) : Prop :=
  ∀ b ∈ exceptionBits, b ∉ but → getBit t.fpscr b = getBit s.fpscr b

/-- What an Invalid Operation of this kind does in an instruction that returns a DFP datum
(60_exceptions.md R531, R532): the bit is set, FR and FI are 0; with VE = 1 nothing is stored, with VE = 0
a quiet NaN is. -/
def invalidOutcome (s t : State) (bit : FpscrBit) (f : Fmt) (frt : FprNum) (d : Datum) : Prop :=
  getBit t.fpscr bit = true ∧ exceptionsKept s t [bit] ∧
  getBit t.fpscr .fr = false ∧ getBit t.fpscr .fi = false ∧
  (getBit s.fpscr .ve = true → t.fpr = s.fpr ∧ fprfOf t.fpscr = fprfOf s.fpscr) ∧
  (getBit s.fpscr .ve = false → readDatum f frt t = d ∧ fprfOf t.fpscr = 0b10001#5)

/-- What an Invalid Operation does in Convert To Fixed (60_exceptions.md R531, R532; 46_conversion.md R400):
the bits are set, FR and FI are 0, FPRF stays; with VE = 1 nothing is stored, with VE = 0 the integer is. -/
def fixedInvalid (s t : State) (bits : List FpscrBit) (frt : FprNum) (n : Int) : Prop :=
  (∀ b ∈ bits, getBit t.fpscr b = true) ∧ exceptionsKept s t bits ∧
  getBit t.fpscr .fr = false ∧ getBit t.fpscr .fi = false ∧ fprfOf t.fpscr = fprfOf s.fpscr ∧
  (getBit s.fpscr .ve = true → t.fpr = s.fpr) ∧
  (getBit s.fpscr .ve = false → (readFpr t frt).toInt = n)

/-- An operand that is returned, or a special result, without exception and without rounding
(92_eei_decisions.md D19, log 17). -/
def exactOutcome (s t : State) (f : Fmt) (frt : FprNum) (d : Datum) : Prop :=
  readDatum f frt t = d ∧ fprfOf t.fpscr = figure1 f d ∧
  getBit t.fpscr .fr = false ∧ getBit t.fpscr .fi = false ∧ exceptionsKept s t []

/-- The pairs of an exception bit and its enable bit (60_exceptions.md R503). -/
def enablePairs : List (FpscrBit × FpscrBit) :=
  invalidBits.map (fun b => (b, .ve)) ++ [(.zx, .ze), (.ox, .oe), (.ux, .ue), (.xx, .xe)]

/-- Of some exception bit and its enable bit, both are 1 now and were not both 1 before
(60_exceptions.md R525). -/
def newlyEnabled (old new : Dword) : Prop :=
  ∃ p ∈ enablePairs, getBit new p.1 = true ∧ getBit new p.2 = true ∧
    ¬ (getBit old p.1 = true ∧ getBit old p.2 = true)

/-- The FPSCR without the record of any exception: FX, FEX, VX and the exception bits are 0. -/
def unrecorded (w : Dword) : Dword :=
  (FpscrBit.fx :: .fex :: .vx :: exceptionBits).foldl (fun w b => setBit w b false) w

/-- The exceptions that occur in an instruction, and the enables: the FPSCR that the instruction leaves at
the same state with no exception recorded. Whether an exception occurs depends only on the instruction and its
source operands, not on what is recorded (60_exceptions.md R504). -/
def occurrences (i : Instr) (s : State) : Dword :=
  match exec i { s with fpscr := unrecorded s.fpscr } with
  | .next t => t.fpscr
  | .fault _ => 0
  | .refused _ => 0

/-- An enabled exception occurs in the instruction itself (60_exceptions.md R500 step 6, R525): FEX where
nothing was recorded before. -/
def enabledOccurs (i : Instr) (s : State) : Prop := getBit (occurrences i s) .fex = true

/-- The causes of an invocation are the enabled exceptions recorded (10_state.md R56). -/
def causesRecorded (w : Dword) (causes : List DfpException) : Prop :=
  (.invalidOperation ∈ causes ↔ getBit w .vx = true ∧ getBit w .ve = true) ∧
  (.zeroDivide ∈ causes ↔ getBit w .zx = true ∧ getBit w .ze = true) ∧
  (.overflow ∈ causes ↔ getBit w .ox = true ∧ getBit w .oe = true) ∧
  (.underflow ∈ causes ↔ getBit w .ux = true ∧ getBit w .ue = true) ∧
  (.inexact ∈ causes ↔ getBit w .xx = true ∧ getBit w .xe = true)

/-! Instructions that round an exact result to the precision of a format. -/

/-- What one of them computes: the target format, the format and the exponent adjustment of a wrapped
result, the target register, the exact result, its ideal exponent, and the sign of an exact zero
(41_execution_model.md R215, R220, R230). -/
structure Exact where
  tgt : Fmt
  wrap : Fmt
  alpha : Int
  frt : FprNum
  value : ℚ
  ideal : Int
  zeroSign : Bool

/-- The sum or the difference of two finite numbers; `sb'` is the sign with which the second takes part
(42_arithmetic.md R261, R263; 41_execution_model.md R220). -/
def exactSum (f : Fmt) (frt : FprNum) (minus : Bool) (mode : Mode) (a b : Datum) : Option Exact :=
  match a, b with
  | .finite sa ca ea, .finite sb cb eb =>
    let sb' := if minus then !sb else sb
    some ⟨f, f, wrapAdjust f, frt, finiteValue sa ca ea + finiteValue sb' cb eb, min ea eb,
      if sa = sb' then sa else decide (mode = .rtmi)⟩
  | _, _ => none

/-- The product of two finite numbers (42_arithmetic.md R265). -/
def exactProduct (f : Fmt) (frt : FprNum) (a b : Datum) : Option Exact :=
  match a, b with
  | .finite sa ca ea, .finite sb cb eb =>
    some ⟨f, f, wrapAdjust f, frt, finiteValue sa ca ea * finiteValue sb cb eb, ea + eb, sa != sb⟩
  | _, _ => none

/-- The quotient of a finite number by a finite number that is not zero (42_arithmetic.md R267). -/
def exactQuotient (f : Fmt) (frt : FprNum) (a b : Datum) : Option Exact :=
  match a, b with
  | .finite sa ca ea, .finite sb cb eb =>
    if cb = 0 then none
    else some ⟨f, f, wrapAdjust f, frt, finiteValue sa ca ea / finiteValue sb cb eb, ea - eb, sa != sb⟩
  | _, _ => none

/-- The source value of a conversion to a narrower format (46_conversion.md R390, R394). -/
def exactNarrow (src tgt : Fmt) (alpha : Int) (frt : FprNum) (b : Datum) : Option Exact :=
  match b with
  | .finite s c e => some ⟨tgt, src, alpha, frt, finiteValue s c e, e, s⟩
  | _ => none

/-- The exact result of an instruction that rounds to the precision of a format and can overflow or
underflow, for finite operands (60_exceptions.md R542, R550). -/
def exactOf (i : Instr) (s : State) : Option Exact :=
  match i with
  | .dadd frt fra frb _ =>
    exactSum .dfp64 frt false (figure14 s.fpscr) (readDatum .dfp64 fra s) (readDatum .dfp64 frb s)
  | .daddq frt fra frb _ =>
    exactSum .dfp128 frt false (figure14 s.fpscr) (readDatum .dfp128 fra s) (readDatum .dfp128 frb s)
  | .dsub frt fra frb _ =>
    exactSum .dfp64 frt true (figure14 s.fpscr) (readDatum .dfp64 fra s) (readDatum .dfp64 frb s)
  | .dsubq frt fra frb _ =>
    exactSum .dfp128 frt true (figure14 s.fpscr) (readDatum .dfp128 fra s) (readDatum .dfp128 frb s)
  | .dmul frt fra frb _ =>
    exactProduct .dfp64 frt (readDatum .dfp64 fra s) (readDatum .dfp64 frb s)
  | .dmulq frt fra frb _ =>
    exactProduct .dfp128 frt (readDatum .dfp128 fra s) (readDatum .dfp128 frb s)
  | .ddiv frt fra frb _ =>
    exactQuotient .dfp64 frt (readDatum .dfp64 fra s) (readDatum .dfp64 frb s)
  | .ddivq frt fra frb _ =>
    exactQuotient .dfp128 frt (readDatum .dfp128 fra s) (readDatum .dfp128 frb s)
  | .drsp frt frb _ =>
    exactNarrow .dfp64 .dfp32 192 frt (readDatum .dfp64 frb s)
  | .drdpq frt frb _ =>
    exactNarrow .dfp128 .dfp64 3072 frt (readDatum .dfp128 frb s)
  | _ => none

/-- The result of the instruction is not wrapped: no enabled overflow and no enabled underflow occurs
(60_exceptions.md R544, R551). -/
def notWrapped (i : Instr) (s : State) : Prop :=
  ∀ x, exactOf i s = some x →
    (getBit s.fpscr .oe = true → ∀ (n : Nat) (q : Int),
      unboundedRounding x.tgt.precision (figure14 s.fpscr) (decide (x.value < 0)) |x.value| n q →
      (n : ℚ) * 10 ^ q ≤ nmax x.tgt) ∧
    (getBit s.fpscr .ue = true → x.value = 0 ∨ nmin x.tgt ≤ |x.value|)

/-! Quantum adjustment of finite numbers. -/

/-- What a quantum-adjustment instruction works on: the format, the target register, the rounding mode,
and the finite operand. -/
structure Adjusting where
  fmt : Fmt
  frt : FprNum
  mode : Mode
  sign : Bool
  coeff : Nat
  exp : Int

/-- The adjustment of an operand, if it is finite. -/
def adjusting (f : Fmt) (frt : FprNum) (mode : Mode) (b : Datum) : Option Adjusting :=
  match b with
  | .finite s c e => some ⟨f, frt, mode, s, c, e⟩
  | _ => none

/-- The same with the target exponent, that of a finite operand a (45_quantum_adjustment.md R343). -/
def adjustingTo (f : Fmt) (frt : FprNum) (mode : Mode) (a b : Datum) : Option (Int × Adjusting) :=
  match a with
  | .finite _ _ te => (adjusting f frt mode b).map fun x => (te, x)
  | _ => none

/-- What Quantize works on, and the target exponent: TE or the exponent of FRA
(45_quantum_adjustment.md R341 to R344). -/
def quantizeOf (i : Instr) (s : State) : Option (Int × Adjusting) :=
  match i with
  | .dquai te frt frb rmc _ =>
    (adjusting .dfp64 frt (figure15 false rmc s.fpscr) (readDatum .dfp64 frb s)).map fun x => (te.toInt, x)
  | .dquaiq te frt frb rmc _ =>
    (adjusting .dfp128 frt (figure15 false rmc s.fpscr) (readDatum .dfp128 frb s)).map fun x => (te.toInt, x)
  | .dqua frt fra frb rmc _ =>
    adjustingTo .dfp64 frt (figure15 false rmc s.fpscr) (readDatum .dfp64 fra s) (readDatum .dfp64 frb s)
  | .dquaq frt fra frb rmc _ =>
    adjustingTo .dfp128 frt (figure15 false rmc s.fpscr) (readDatum .dfp128 fra s) (readDatum .dfp128 frb s)
  | _ => none

/-- What Reround works on, and the referenced significance, bits 58:63 of FRA
(45_quantum_adjustment.md R345, R346). -/
def reroundOf (i : Instr) (s : State) : Option (Nat × Adjusting) :=
  match i with
  | .drrnd frt fra frb rmc _ =>
    (adjusting .dfp64 frt (figure15 false rmc s.fpscr) (readDatum .dfp64 frb s)).map fun x =>
      ((readFpr s fra).toNat % 64, x)
  | .drrndq frt fra frb rmc _ =>
    (adjusting .dfp128 frt (figure15 false rmc s.fpscr) (readDatum .dfp128 frb s)).map fun x =>
      ((readFpr s fra).toNat % 64, x)
  | _ => none

/-- What Round To FP Integer works on, and whether it recognises Inexact
(45_quantum_adjustment.md R347 to R350). -/
def roundToIntOf (i : Instr) (s : State) : Option (Bool × Adjusting) :=
  match i with
  | .drintx r frt frb rmc _ =>
    (adjusting .dfp64 frt (figure15 r rmc s.fpscr) (readDatum .dfp64 frb s)).map fun x => (true, x)
  | .drintxq r frt frb rmc _ =>
    (adjusting .dfp128 frt (figure15 r rmc s.fpscr) (readDatum .dfp128 frb s)).map fun x => (true, x)
  | .drintn r frt frb rmc _ =>
    (adjusting .dfp64 frt (figure15 r rmc s.fpscr) (readDatum .dfp64 frb s)).map fun x => (false, x)
  | .drintnq r frt frb rmc _ =>
    (adjusting .dfp128 frt (figure15 r rmc s.fpscr) (readDatum .dfp128 frb s)).map fun x => (false, x)
  | _ => none

/-! The action tables for operands that are not both finite: the result and, where the table names one,
the Invalid Operation that occurs. -/

/-- The NaN rows and columns of every two-operand table (40_data_formats.md R178). -/
def nanRow (a b : Datum) : Option (Datum × Option FpscrBit) :=
  match a, b with
  | .snan s y, _ => some (.qnan s y, some .vxsnan)
  | _, .snan s y => some (.qnan s y, some .vxsnan)
  | .qnan s y, _ => some (.qnan s y, none)
  | _, .qnan s y => some (.qnan s y, none)
  | _, _ => none

/-- The second operand of a subtraction: its sign is inverted unless it is a NaN (42_arithmetic.md R263,
log 16). -/
def negated (b : Datum) : Datum :=
  match b with
  | .finite s c e => .finite (!s) c e
  | .inf s y => .inf (!s) y
  | .qnan s y => .qnan s y
  | .snan s y => .snan s y

/-- Figure 21, "Actions: Add" (42_arithmetic.md R270), without S(a + b). -/
def figure21 (a b : Datum) : Option (Datum × Option FpscrBit) :=
  match a, b with
  | .inf true _, .inf true _ => some (.inf true 0, none)
  | .inf true _, .finite _ _ _ => some (.inf true 0, none)
  | .inf true _, .inf false _ => some (.qnan false 0, some .vxisi)
  | .finite _ _ _, .inf sb _ => some (.inf sb 0, none)
  | .inf false _, .inf true _ => some (.qnan false 0, some .vxisi)
  | .inf false _, .finite _ _ _ => some (.inf false 0, none)
  | .inf false _, .inf false _ => some (.inf false 0, none)
  | a, b => nanRow a b

/-- Figure 22, "Actions: Multiply" (42_arithmetic.md R271), without S(a * b). -/
def figure22 (a b : Datum) : Option (Datum × Option FpscrBit) :=
  match a, b with
  | .finite sa ca _, .inf sb _ =>
    if ca = 0 then some (.qnan false 0, some .vximz) else some (.inf (sa != sb) 0, none)
  | .inf sa _, .finite sb cb _ =>
    if cb = 0 then some (.qnan false 0, some .vximz) else some (.inf (sa != sb) 0, none)
  | .inf sa _, .inf sb _ => some (.inf (sa != sb) 0, none)
  | a, b => nanRow a b

/-- Figure 23, "Actions: Divide" (42_arithmetic.md R272), without S(a / b) and without Zx. -/
def figure23 (f : Fmt) (a b : Datum) : Option (Datum × Option FpscrBit) :=
  match a, b with
  | .finite _ ca _, .finite _ cb _ =>
    if ca = 0 ∧ cb = 0 then some (.qnan false 0, some .vxzdz) else none
  | .finite sa _ _, .inf sb _ => some (.finite (sa != sb) 0 f.xmin, none)
  | .inf sa _, .finite sb _ _ => some (.inf (sa != sb) 0, none)
  | .inf _ _, .inf _ _ => some (.qnan false 0, some .vxidi)
  | a, b => nanRow a b

/-- Figure 28, "Actions (part 1) Quantize" (45_quantum_adjustment.md R353). -/
def figure28 (a b : Datum) : Option (Datum × Option FpscrBit) :=
  match a, b with
  | .finite _ _ _, .inf _ _ => some (.qnan false 0, some .vxcvi)
  | .inf _ _, .finite _ _ _ => some (.qnan false 0, some .vxcvi)
  | .inf _ _, .inf sb _ => some (.inf sb 0, none)
  | a, b => nanRow a b

/-- The columns of Figure 30 and the rows of Figures 31 and 32 for an operand that is not finite
(45_quantum_adjustment.md R357, R360, R361). -/
def figure31 (b : Datum) : Option (Datum × Option FpscrBit) :=
  match b with
  | .finite _ _ _ => none
  | .inf s _ => some (.inf s 0, none)
  | .qnan s y => some (.qnan s y, none)
  | .snan s y => some (.qnan s y, some .vxsnan)

/-- The rows Convert To DFP128 and Round To DFP64 of Figure 33 (46_conversion.md R388); `p` is the
precision of the target. -/
def figure33Signaling (p : Nat) (b : Datum) : Option (Datum × Option FpscrBit) :=
  match b with
  | .finite _ _ _ => none
  | .inf s _ => some (.inf s 0, none)
  | .qnan s y => some (.qnan s (y % 10 ^ (p - 1)), none)
  | .snan s y => some (.qnan s (y % 10 ^ (p - 1)), some .vxsnan)

/-- The row Round To DFP32 of Figure 33 (46_conversion.md R388). -/
def figure33Quiet (p : Nat) (b : Datum) : Option (Datum × Option FpscrBit) :=
  match b with
  | .finite _ _ _ => none
  | .inf s y => some (.inf s (y % 10 ^ (p - 1)), none)
  | .qnan s y => some (.qnan s (y % 10 ^ (p - 1)), none)
  | .snan s y => some (.snan s (y % 10 ^ (p - 1)), none)

/-- The target format, the target and the table entry of an arithmetic instruction whose operands are not
both finite, or are both zero in a division. -/
def arithmeticSpecial (i : Instr) (s : State) : Fmt × FprNum × Option (Datum × Option FpscrBit) :=
  match i with
  | .dadd frt fra frb _ =>
    (.dfp64, frt, figure21 (readDatum .dfp64 fra s) (readDatum .dfp64 frb s))
  | .daddq frt fra frb _ =>
    (.dfp128, frt, figure21 (readDatum .dfp128 fra s) (readDatum .dfp128 frb s))
  | .dsub frt fra frb _ =>
    (.dfp64, frt, figure21 (readDatum .dfp64 fra s) (negated (readDatum .dfp64 frb s)))
  | .dsubq frt fra frb _ =>
    (.dfp128, frt, figure21 (readDatum .dfp128 fra s) (negated (readDatum .dfp128 frb s)))
  | .dmul frt fra frb _ =>
    (.dfp64, frt, figure22 (readDatum .dfp64 fra s) (readDatum .dfp64 frb s))
  | .dmulq frt fra frb _ =>
    (.dfp128, frt, figure22 (readDatum .dfp128 fra s) (readDatum .dfp128 frb s))
  | .ddiv frt fra frb _ =>
    (.dfp64, frt, figure23 .dfp64 (readDatum .dfp64 fra s) (readDatum .dfp64 frb s))
  | .ddivq frt fra frb _ =>
    (.dfp128, frt, figure23 .dfp128 (readDatum .dfp128 fra s) (readDatum .dfp128 frb s))
  | _ => (.dfp64, 0, none)

/-- The same of the quantum-adjustment instructions and of dctqpq, drsp and drdpq. -/
def adjustSpecial (i : Instr) (s : State) : Fmt × FprNum × Option (Datum × Option FpscrBit) :=
  match i with
  | .dquai te frt frb _ _ => (.dfp64, frt, figure28 (.finite false 1 te.toInt) (readDatum .dfp64 frb s))
  | .dquaiq te frt frb _ _ => (.dfp128, frt, figure28 (.finite false 1 te.toInt) (readDatum .dfp128 frb s))
  | .dqua frt fra frb _ _ => (.dfp64, frt, figure28 (readDatum .dfp64 fra s) (readDatum .dfp64 frb s))
  | .dquaq frt fra frb _ _ => (.dfp128, frt, figure28 (readDatum .dfp128 fra s) (readDatum .dfp128 frb s))
  | .drrnd frt _ frb _ _ => (.dfp64, frt, figure31 (readDatum .dfp64 frb s))
  | .drrndq frt _ frb _ _ => (.dfp128, frt, figure31 (readDatum .dfp128 frb s))
  | .drintx _ frt frb _ _ => (.dfp64, frt, figure31 (readDatum .dfp64 frb s))
  | .drintxq _ frt frb _ _ => (.dfp128, frt, figure31 (readDatum .dfp128 frb s))
  | .drintn _ frt frb _ _ => (.dfp64, frt, figure31 (readDatum .dfp64 frb s))
  | .drintnq _ frt frb _ _ => (.dfp128, frt, figure31 (readDatum .dfp128 frb s))
  | .dctqpq frt frb _ => (.dfp128, frt, figure33Signaling 34 (readDatum .dfp64 frb s))
  | .drsp frt frb _ => (.dfp32, frt, figure33Quiet 7 (readDatum .dfp64 frb s))
  | .drdpq frt frb _ => (.dfp64, frt, figure33Signaling 16 (readDatum .dfp128 frb s))
  | _ => (.dfp64, 0, none)

/-- Figures 24 and 25, the code of a compare (43_compare.md R297, R298). -/
def figure24 (a b : Datum) : BitVec 4 :=
  match a, b with
  | .inf true _, .inf true _ => 0b0010#4
  | .inf true _, .finite _ _ _ => 0b1000#4
  | .inf true _, .inf false _ => 0b1000#4
  | .finite _ _ _, .inf true _ => 0b0100#4
  | .finite sa ca ea, .finite sb cb eb =>
    if finiteValue sa ca ea = finiteValue sb cb eb then 0b0010#4
    else if finiteValue sa ca ea < finiteValue sb cb eb then 0b1000#4
    else 0b0100#4
  | .finite _ _ _, .inf false _ => 0b1000#4
  | .inf false _, .inf true _ => 0b0100#4
  | .inf false _, .finite _ _ _ => 0b0100#4
  | .inf false _, .inf false _ => 0b0010#4
  | _, _ => 0b0001#4

/-- Figure 26, the code of Test Exponent (44_test.md R315). -/
def figure26 (a b : Datum) : BitVec 4 :=
  match a, b with
  | .finite _ _ ea, .finite _ _ eb =>
    if ea = eb then 0b0010#4 else if ea < eb then 0b1000#4 else 0b0100#4
  | .inf _ _, .inf _ _ => 0b0010#4
  | .qnan _ _, .qnan _ _ => 0b0010#4
  | .qnan _ _, .snan _ _ => 0b0010#4
  | .snan _ _, .qnan _ _ => 0b0010#4
  | .snan _ _, .snan _ _ => 0b0010#4
  | _, _ => 0b0001#4

/-- The class of a datum by its value (40_data_formats.md R181 to R185), as the number of its DCM bit
(44_test.md R311). -/
def dcmBit (f : Fmt) (d : Datum) : Nat :=
  match d with
  | .finite s c e => if finiteValue s c e = 0 then 0 else if |finiteValue s c e| < nmin f then 1 else 2
  | .inf _ _ => 3
  | .qnan _ _ => 4
  | .snan _ _ => 5

/-- The group of a datum, as the number of its DGM bit (44_test.md R313). -/
def dgmBit (f : Fmt) (d : Datum) : Nat :=
  match d with
  | .finite s c e =>
    if finiteValue s c e = 0 then (if e = f.xmin ∨ e = f.xmax then 1 else 0)
    else if |finiteValue s c e| < nmin f ∨ e = f.xmin ∨ e = f.xmax then 2
    else if c / 10 ^ (f.precision - 1) = 0 then 3
    else 4
  | .inf _ _ => 5
  | .qnan _ _ => 5
  | .snan _ _ => 5

/-- The coefficient, that of a special datum being the contents of its coefficient-continuation field
(47_format.md R421, R434). -/
def digitsOf (d : Datum) : Nat :=
  match d with
  | .finite _ c _ => c
  | .inf _ y => y
  | .qnan _ y => y
  | .snan _ y => y

/-- The number of digits of the coefficient: one less for a special datum (47_format.md R429, R434). -/
def digitCount (f : Fmt) (d : Datum) : Nat :=
  match d with
  | .finite _ _ _ => f.precision
  | .inf _ _ => f.precision - 1
  | .qnan _ _ => f.precision - 1
  | .snan _ _ => f.precision - 1

/-- The datum with other digits; kind, sign and exponent stay (47_format.md R429, R431). -/
def withDigits (d : Datum) (c : Nat) : Datum :=
  match d with
  | .finite s _ e => .finite s c e
  | .inf s _ => .inf s c
  | .qnan s _ => .qnan s c
  | .snan s _ => .snan s c

/-- The decimal digit of weight `10^j` of a number. -/
def digitAt (n j : Nat) : Nat := n / 10 ^ j % 10

/-- The hexadecimal digit (the nibble) of weight `16^j` of a number. -/
def nibbleAt (n j : Nat) : Nat := n / 16 ^ j % 16

end Sys2Proof.Machine
end

