-- ==== Sys2Proof/Certificates/Slice0/Obligations.lean ====
section
/-! DEFINITION. The statements for the provers, from the numbered rules of the spec. OBLIGATIONS.json lists
them with the rules they rest on. Where a statement rests on a choice of the model, its docstring names the
log entry. -/

open Sys2Proof Sys2Proof.Machine

/-! Encoding. -/

/-- Words written out from the fields of 30_encoding.md R101 to R110, one of each family and layout, decode
to the instructions they stand for. Two words are invalid forms: 0xFC41EBC7 has an odd register in a pair
field (decision D12), and 0xFDC20504, whose pair fields are even, has its reserved bit 9 set (that such a word
is refused is decision D13; both log 11). -/
def Obligations.DecodeSamples : Prop :=
  decode 0xEC221805#32 = .instr (.dadd 1 2 3 true) ∧
  decode 0xFDC20504#32 = .invalidForm ∧
  decode 0xFD820504#32 = .instr (.dcmpuq 3 2 0) ∧
  decode 0xEE02FD84#32 = .instr (.dtstdc 4 2 63#6) ∧
  decode 0xECD02087#32 = .instr (.dquai 16#5 6 4 0#2 true) ∧
  decode 0xFC41EBC7#32 = .invalidForm ∧
  decode 0xFC41E3C7#32 = .instr (.drintnq true 2 28 1#2 true) ∧
  decode 0xFC40F244#32 = .instr (.dctfixq 2 30 false) ∧
  decode 0xED183285#32 = .instr (.ddedpd 3#2 8 6 true) ∧
  decode 0xEC22FC84#32 = .instr (.dscli 1 2 63#6 false)

/-- Decoding the encoding of a well-formed instruction gives the instruction back, whatever its operands
(30_encoding.md R104 to R110). -/
def Obligations.DecodeEncode : Prop :=
  ∀ i : Instr, wellFormed i = true → decode (encode i) = .instr i

/-- A word that decodes to an instruction is the encoding of that instruction, which is well formed: each
instruction has one word, and no bit of a word is dropped (30_encoding.md R107). That it holds of the reserved
bits of a word, because a word with a reserved bit 1 is refused and not executed as if the bit were 0, is the
spec's decision D13 (R109, log 11). -/
def Obligations.EncodeDecode : Prop :=
  ∀ (w : InsnWord) (i : Instr), decode w = .instr i → wellFormed i = true ∧ encode i = w

/-- No word satisfies two of the 49 rows of the opcode map (30_encoding.md R107). -/
def Obligations.OpcodeRowsExclusive : Prop :=
  opcodeRows.length = 49 ∧
  opcodeRows.Pairwise fun r r' => ∀ w : Nat, r.matches w = true → r'.matches w = false

/-- Every instruction with an odd register in a pair field is refused as an invalid form, in every state.
That it is refused is the spec's decision D12 (log 11). -/
def Obligations.InvalidFormsRefused : Prop :=
  ∀ (i : Instr) (s : State), wellFormed i = false → exec i s = .refused .invalidForm

/-- A fetched word that is not a DFP instruction, or is an invalid form, is refused; a word whose primary
opcode is neither 59 nor 63 is not a DFP instruction; a word that satisfies a row and has a reserved bit 1
is an invalid form. The refusals are the spec's decisions D12 and D13 (log 11). -/
def Obligations.RefusedWords : Prop :=
  (∀ (s : State) (w : InsnWord), fetchesNext s w →
    (decode w = .notDfp → step s = .refused .notDfp) ∧
    (decode w = .invalidForm → step s = .refused .invalidForm)) ∧
  (∀ w : InsnWord, w.toNat / 2 ^ 26 ≠ 59 → w.toNat / 2 ^ 26 ≠ 63 → decode w = .notDfp) ∧
  (∀ (w : InsnWord) (r : Row), r ∈ opcodeRows → r.matches w.toNat = true →
    r.reservedClear w.toNat = false → decode w = .invalidForm)

/-! The step. -/

/-- When the next step fetches a word that decodes to an instruction, the step is the meaning of that
instruction at that state, in which one more instruction has begun: a pending invocation and the host's next
turn come nearer by one (log 6, log 8). -/
def Obligations.StepRunsInstruction : Prop :=
  ∀ (s : State) (w : InsnWord) (i : Instr), fetchesNext s w → decode w = .instr i →
    step s = exec i (beginInstruction s) ∧
    (∃ p q, beginInstruction s = { s with pending := p, hostQueue := q } ∧
      p = (s.pending.map fun p => { p with remaining := p.remaining - 1 }) ∧
      ∀ t rest, s.hostQueue = t :: rest → q = { t with after := t.after - 1 } :: rest) ∧
    (s.pending = none → s.hostQueue = [] → step s = exec i s)

/-- The state withFetchWord makes fetches the word and runs exactly its instruction; registers and the
FPSCR are those of the state it was made from, and so is every byte but the four of the word. The model's
own device (log 5). -/
def Obligations.WithFetchWordRuns : Prop :=
  ∀ (s : State) (nbits w : Nat) (i : Instr), decode (BitVec.ofNat 32 (w % 2 ^ nbits)) = .instr i →
    step (s.withFetchWord nbits w) = exec i (beginInstruction (s.withFetchWord nbits w)) ∧
    (s.withFetchWord nbits w).fpr = s.fpr ∧ (s.withFetchWord nbits w).fpscr = s.fpscr ∧
    (s.withFetchWord nbits w).cr = s.cr ∧ (s.withFetchWord nbits w).pcWidth = s.pcWidth ∧
    ∀ a, a / 4 ≠ s.pc / 4 → byteAt (s.withFetchWord nbits w) a = byteAt s a

/-- Every step keeps the invariant: FEX and VX follow from the other bits (10_state.md R33, R34), storage
keeps its canonical form, `pc` stays a multiple of 4 below `2^PCW` (20_memory.md R85, R81), a pending
invocation stays valid (10_state.md R56). It holds for every width PCW of at least 2 (log 2), and whatever the
host does (log 4, log 34). -/
def Obligations.StepKeepsInvariant : Prop :=
  ∀ s t : State, s.Inv = true → step s = .next t → t.Inv = true

/-- The state after reset satisfies the invariant. The values it rests on are the model's choice (log 1). -/
def Obligations.ResetInvariant : Prop := State.reset.Inv = true

/-- After reset no invocation is pending (10_state.md R56) and no trap stands; storage lists nothing; the
registers hold the values the model chose, zero (log 1); PCW and the byte order of instruction words have their
defaults (log 2, log 3). -/
def Obligations.ResetState : Prop :=
  State.reset.pending = none ∧ State.reset.trap = none ∧ (∀ a, byteAt State.reset a = none) ∧
  (∀ r, readFpr State.reset r = 0#64) ∧ State.reset.fpscr = 0#64 ∧ (∀ n, readCr State.reset n = 0#4) ∧
  exceptionMode State.reset = .ignore ∧ State.reset.pc = 0 ∧ State.reset.pcWidth = 64 ∧
  State.reset.insnByteOrder = .big

/-- No instruction and no step writes storage, the order of its bytes or the width of an address: the program
text is immutable (20_memory.md R80, R92; the second is the spec's decision D7). -/
def Obligations.StorageUntouched : Prop :=
  (∀ (i : Instr) (s t : State), exec i s = .next t →
    (∀ a, byteAt t a = byteAt s a) ∧ t.insnByteOrder = s.insnByteOrder ∧ t.pcWidth = s.pcWidth) ∧
  (∀ s t : State, step s = .next t →
    (∀ a, byteAt t a = byteAt s a) ∧ t.insnByteOrder = s.insnByteOrder ∧ t.pcWidth = s.pcWidth)

/-- A `pc` that is not a multiple of 4 is refused in every state, whatever the host or a trap is about to do; a
fetch at an address that holds no byte faults. Both are choices: the spec leaves storage to the host (log 4,
log 5). -/
def Obligations.FetchStops : Prop :=
  ∀ s : State,
    (s.pc % 4 ≠ 0 → step s = .refused .misalignedPc) ∧
    (s.pc % 4 = 0 → hostWaits s → s.trap = none → pendingDue s = false → byteAt s s.pc = none →
      step s = .fault (.fetchUnlisted s.pc))

/-! The host. -/

/-- What each host operation does that touches no FPSCR (00_scope.md R13, 10_state.md R25, R53,
60_exceptions.md R526); reading the FPSCR when nothing is pending has no effect (10_state.md R49). While an
invocation is pending, an operation counts as an instruction and brings it one nearer (log 6); at one at which
it is due the trap is raised and the operation, of whatever kind, is not performed (60_exceptions.md R522;
log 10). Resuming at an address that is not a multiple of 4 is refused (20_memory.md R85; log 4). The queue is
the model's own (log 8). -/
def Obligations.HostOperations : Prop :=
  ∀ (s : State) (op : HostOp) (rest : List HostTurn), hostActs s op rest →
    (pendingDue s = true → step s = .next { s with
      hostQueue := rest, pending := none,
      trap := some { address := s.pc, excepting := false, fpscr := s.fpscr } }) ∧
    (pendingDue s = false → ∀ s' : State, s' = { s with
        hostQueue := rest
        pending := s.pending.map fun p => { p with remaining := p.remaining - 1 } } →
      (∀ r v, op = .writeFpr r v → step s = .next { s' with fpr := s.fpr.set r v }) ∧
      (∀ n v, op = .writeCr n v → step s = .next { s' with cr := s.cr.set n v }) ∧
      (∀ fe0 fe1, op = .setFe fe0 fe1 → step s = .next { s' with fe0 := fe0, fe1 := fe1 }) ∧
      (∀ a p, op = .resume a → p = a % 2 ^ s.pcWidth →
        (p % 4 = 0 → step s = .next { s' with pc := p, trap := none }) ∧
        (p % 4 ≠ 0 → step s = .refused .misalignedPc)) ∧
      (op = .readFpscr → s.pending = none → step s = .next s'))

/-- What a host write of the FPSCR leaves: every bit of the mask but FEX and VX is written, FEX and VX
follow from the others, and FX is also set where the instruction sets it implicitly and an exception bit
goes from 0 to 1 (10_state.md R32, R46; which bits an instruction may write, log 9). A write that sets several
exception bits together against 10_state.md R48 is refused: the host may not make it (00_scope.md R13;
log 34). -/
def Obligations.HostFpscrWrite : Prop :=
  ∀ (s : State) (rest : List HostTurn) (insn : FpscrInsn) (mask value : Dword),
    s.pending = none → hostActs s (.writeFpscr insn mask value) rest →
    (¬ writeAdmitted insn mask value s.fpscr → step s = .refused .hostWriteForbidden) ∧
    (writeAdmitted insn mask value s.fpscr →
      ∃ t, step s = .next t ∧ t.hostQueue = rest ∧ t.fpr = s.fpr ∧ t.cr = s.cr ∧ t.pc = s.pc ∧
        fpscrConsistent t.fpscr = true ∧
        (∀ k < 64, k ∉ [32, 33, 34] →
          t.fpscr.getMsbD k = if mask.getMsbD k then value.getMsbD k else s.fpscr.getMsbD k) ∧
        (getBit t.fpscr .fx = true ↔
          (if mask.getMsbD 32 then value.getMsbD 32 else s.fpscr.getMsbD 32) = true ∨
          (insn ≠ .mtfsfi ∧ insn ≠ .mtfsf ∧
            ∃ b ∈ exceptionBits, getBit s.fpscr b = false ∧ getBit t.fpscr b = true)))

/-- A host write that makes an exception bit and its enable bit both 1 invokes the error handler as an
excepting instruction does: at once in Precise Mode, after the delay in the imprecise modes, never in Ignore
Exceptions Mode (10_state.md R47, 60_exceptions.md R525). Stated of the writes that 10_state.md R48 admits;
the delay is the free value of log 6. -/
def Obligations.HostWriteInvokes : Prop :=
  ∀ (s : State) (rest : List HostTurn) (insn : FpscrInsn) (mask value : Dword),
    s.pending = none → hostActs s (.writeFpscr insn mask value) rest → writeAdmitted insn mask value s.fpscr →
    ∃ t, step s = .next t ∧
      (newlyEnabled s.fpscr t.fpscr →
        (exceptionMode s = .ignore → t.trap = s.trap ∧ t.pending = none) ∧
        (exceptionMode s = .precise ∨ (exceptionMode s ≠ .ignore ∧ nextDelay s = 0) →
          ∃ r, t.trap = some r ∧ r.excepting = true ∧ r.fpscr = t.fpscr ∧ t.pending = none) ∧
        (exceptionMode s ≠ .ignore → exceptionMode s ≠ .precise → nextDelay s ≠ 0 →
          t.trap = s.trap ∧ ∃ p, t.pending = some p ∧ p.remaining = nextDelay s ∧ p.causes ≠ [])) ∧
      (¬ newlyEnabled s.fpscr t.fpscr → t.trap = s.trap ∧ t.pending = none)

/-- While an invocation is pending, a host operation that reads or writes the FPSCR raises the trap before
it proceeds (60_exceptions.md R523). It is stated of every setting of FE0 and FE1: that the trap is forced also
when the host has set Ignore Exceptions Mode meanwhile is the model's choice (log 33), and so are that the
operation is then dropped, and the address (log 9, log 10). -/
def Obligations.FpscrAccessForces : Prop :=
  ∀ (s : State) (rest : List HostTurn) (op : HostOp) (p : PendingTrap), s.pending = some p →
    (op = .readFpscr ∨ ∃ insn mask value, op = .writeFpscr insn mask value) → hostActs s op rest →
    step s = .next { s with
      hostQueue := rest, pending := none,
      trap := some { address := s.pc, excepting := false, fpscr := s.fpscr } }

/-! Completion and frames of the instructions. -/

/-- Where no invocation can arise, in Ignore Exceptions Mode or with every exception disabled, every
well-formed instruction completes: `pc` moves on, and neither a trap nor a pending invocation appears
(60_exceptions.md R524). -/
def Obligations.NoInvocationCompletes : Prop :=
  ∀ (i : Instr) (s : State), wellFormed i = true → noInvocation s = true →
    ∃ t, exec i s = .next t ∧ completed s t

/-- The instructions that raise no exception, the tests, dctdp, dcffixq and the format instructions but
denbcd and denbcdq, complete in every state (44_test.md R319, 46_conversion.md R381, R385, 47_format.md
R433). -/
def Obligations.SilentInstructions : Prop :=
  ∀ (i : Instr) (s : State), wellFormed i = true → (fpscrUse i).exc = [] →
    ∃ t, exec i s = .next t ∧ completed s t ∧ ∀ b ∈ exceptionBits, getBit t.fpscr b = getBit s.fpscr b

/-- The frame of every instruction outside the FPSCR: an FPR that is not its target, a CR field that is
neither its BF nor (with Rc = 1) field 1, FE0, FE1, PCW, the queue, and every byte of storage are unchanged
(41_execution_model.md R244, 10_state.md R51, R52, R53). No instruction stores to memory. -/
def Obligations.RegisterFrame : Prop :=
  ∀ (i : Instr) (s t : State), exec i s = .next t →
    (∀ r, r ∉ targets i → readFpr t r = readFpr s r) ∧
    (∀ n, n ∉ crTargets i → readCr t n = readCr s n) ∧
    t.fe0 = s.fe0 ∧ t.fe1 = s.fe1 ∧ t.pcWidth = s.pcWidth ∧ t.hostQueue = s.hostQueue ∧
    ∀ a, byteAt t a = byteAt s a

/-- The frame of every instruction in the FPSCR: the bits that 10_state.md R45 does not list for it are
unchanged; no exception bit and not FX is cleared (R35, R37); where the table says so FR and FI are 0. That the
bits unchanged include the reserved bits 0:28, 52 and 61 is the spec's decision D15 (R39, log 13). It is stated
of states in which FEX and VX follow from the other bits, an invariant of the machine. -/
def Obligations.FpscrFrame : Prop :=
  ∀ (i : Instr) (s t : State), fpscrConsistent s.fpscr = true → exec i s = .next t →
    (∀ k < 64, k ∉ (fpscrUse i).bits → t.fpscr.getMsbD k = s.fpscr.getMsbD k) ∧
    (∀ b ∈ FpscrBit.fx :: exceptionBits, getBit s.fpscr b = true → getBit t.fpscr b = true) ∧
    ((fpscrUse i).frfi = .cleared → getBit t.fpscr .fr = false ∧ getBit t.fpscr .fi = false)

/-- The record bit: with Rc = 1, CR field 1 receives FX, FEX, VX, OX as they stand after the instruction,
whether or not an exception occurred; with Rc = 0 the CR is unchanged (10_state.md R52). -/
def Obligations.RecordBit : Prop :=
  ∀ (i : Instr) (s t : State) (rc : Bool), rcOf i = some rc → exec i s = .next t →
    (rc = true →
      readCr t 1 = BitVec.ofBool (getBit t.fpscr .fx) ++ BitVec.ofBool (getBit t.fpscr .fex)
        ++ BitVec.ofBool (getBit t.fpscr .vx) ++ BitVec.ofBool (getBit t.fpscr .ox) ∧
      ∀ n, n ≠ 1 → readCr t n = readCr s n) ∧
    (rc = false → t.cr = s.cr)

/-- A compare or a test writes CR field BF and FPCC with the same value, bit order FL, FG, FE, FU; no other
CR field and not the bit C is changed (10_state.md R51, R43). -/
def Obligations.CompareTestField : Prop :=
  ∀ (i : Instr) (s t : State) (bf : CrNum), bfOf i = some bf → exec i s = .next t →
    readCr t bf = BitVec.ofBool (getBit t.fpscr .fl) ++ BitVec.ofBool (getBit t.fpscr .fg)
      ++ BitVec.ofBool (getBit t.fpscr .fe) ++ BitVec.ofBool (getBit t.fpscr .fu) ∧
    (∀ n, n ≠ bf → readCr t n = readCr s n) ∧ getBit t.fpscr .c = getBit s.fpscr .c

/-- XX is the sticky version of FI: an instruction that affects FI sets it to the OR of its old value and
the new FI, another leaves it (10_state.md R36; which instructions affect FI, R45). -/
def Obligations.StickyInexact : Prop :=
  ∀ (i : Instr) (s t : State), exec i s = .next t →
    ((fpscrUse i).frfi ≠ .untouched →
      getBit t.fpscr .xx = (getBit s.fpscr .xx || getBit t.fpscr .fi)) ∧
    ((fpscrUse i).frfi = .untouched →
      getBit t.fpscr .xx = getBit s.fpscr .xx ∧ getBit t.fpscr .fi = getBit s.fpscr .fi ∧
      getBit t.fpscr .fr = getBit s.fpscr .fr)

/-- The summary bits: FX becomes 1 exactly when an exception bit goes from 0 to 1, and otherwise stays; FEX
and VX are the functions of the other bits (10_state.md R32, R33, R34). Which bits are exception bits, bit 54
among them, is the spec's decision D14 (log 12). -/
def Obligations.SummaryBits : Prop :=
  ∀ (i : Instr) (s t : State), exec i s = .next t →
    (getBit t.fpscr .fx = true ↔ getBit s.fpscr .fx = true ∨
      ∃ b ∈ exceptionBits, getBit s.fpscr b = false ∧ getBit t.fpscr b = true) ∧
    (fpscrConsistent s.fpscr = true →
      getBit t.fpscr .vx =
        (getBit t.fpscr .vxsnan || getBit t.fpscr .vxisi || getBit t.fpscr .vxidi || getBit t.fpscr .vxzdz
          || getBit t.fpscr .vximz || getBit t.fpscr .vxvc || getBit t.fpscr .vxsoft
          || getBit t.fpscr .bit54 || getBit t.fpscr .vxcvi) ∧
      getBit t.fpscr .fex =
        (getBit t.fpscr .vx && getBit t.fpscr .ve || getBit t.fpscr .ox && getBit t.fpscr .oe
          || getBit t.fpscr .ux && getBit t.fpscr .ue || getBit t.fpscr .zx && getBit t.fpscr .ze
          || getBit t.fpscr .xx && getBit t.fpscr .xe))

/-- A single instruction sets more than one exception bit only in the four cases of 10_state.md R48. -/
def Obligations.SeveralExceptions : Prop :=
  ∀ (i : Instr) (s t : State) (b b' : FpscrBit), exec i s = .next t →
    b ∈ exceptionBits → b' ∈ exceptionBits → b.index < b'.index →
    getBit s.fpscr b = false → getBit t.fpscr b = true →
    getBit s.fpscr b' = false → getBit t.fpscr b' = true →
    (b = .ox ∧ b' = .xx) ∨ (b = .ux ∧ b' = .xx) ∨
    (b = .vxsnan ∧ b' = .vxvc ∧
      ∃ bf fra frb, i = .dcmpo bf fra frb ∨ i = .dcmpoq bf fra frb) ∨
    (b = .vxsnan ∧ b' = .vxcvi ∧
      ∃ frt frb rc, i = .dctfix frt frb rc ∨ i = .dctfixq frt frb rc)

/-! Invoking the error handler. -/

/-- In Precise Mode an enabled exception that occurs in an instruction raises the trap at that instruction,
after its state changes, with `pc` not advanced; without one the instruction completes. Whether one occurs does
not depend on what the FPSCR already records: one whose bit is already 1 still traps, and a FEX left over from
earlier does not (60_exceptions.md R504, R520, R521, R525; the second is decision D26, log 24; the shape of the
trap is decision D9, log 7). The FPSCR records, besides, what it recorded before. -/
def Obligations.PreciseTrap : Prop :=
  ∀ (i : Instr) (s : State), wellFormed i = true → s.fe0 = true → s.fe1 = true →
    ∃ t, exec i s = .next t ∧
      (enabledOccurs i s →
        t.trap = some { address := s.pc, excepting := true, fpscr := t.fpscr } ∧ t.pc = s.pc ∧
        t.pending = none ∧ t.delays = s.delays) ∧
      (¬ enabledOccurs i s → completed s t) ∧
      ∀ b ∈ exceptionBits, getBit t.fpscr b = (getBit s.fpscr b || getBit (occurrences i s) b)

/-- In the imprecise modes an enabled exception that occurs in an instruction owes one invocation, whatever the
FPSCR already records: with a delay of 0 the trap is raised at the excepting instruction, else it becomes
pending with that delay and the enabled exceptions that occurred as its causes, and the instruction completes.
A FEX left over from earlier owes none (60_exceptions.md R504, R522, R525, 10_state.md R56; decision D26,
log 24). The delay is a free value (log 6). -/
def Obligations.ImpreciseDeferral : Prop :=
  ∀ (i : Instr) (s : State), wellFormed i = true → s.fe0 ≠ s.fe1 → s.pending = none →
    ∃ t, exec i s = .next t ∧
      (enabledOccurs i s → nextDelay s = 0 →
        t.trap = some { address := s.pc, excepting := true, fpscr := t.fpscr } ∧ t.pc = s.pc ∧
        t.pending = none) ∧
      (enabledOccurs i s → nextDelay s ≠ 0 →
        t.trap = s.trap ∧ t.pc = (s.pc + 4) % 2 ^ s.pcWidth ∧
        ∃ p, t.pending = some p ∧ p.remaining = nextDelay s ∧ p.causes ≠ [] ∧
          causesRecorded (occurrences i s) p.causes) ∧
      (¬ enabledOccurs i s → completed s t)

/-- While an invocation is pending, a second enabled exception in an imprecise mode joins it: one trap, the
delay unchanged, and the FPSCR records both in its sticky bits (60_exceptions.md R522; that the delay is the
first one's is the model's choice, log 28). It is stated of every pending state, whatever the FPSCR records:
whether an enabled exception occurs is told by the instruction and its operands (60_exceptions.md R504). -/
def Obligations.SecondExceptionJoins : Prop :=
  ∀ (i : Instr) (s : State) (p : PendingTrap), wellFormed i = true → s.fe0 ≠ s.fe1 → s.pending = some p →
    ∃ t, exec i s = .next t ∧ t.trap = s.trap ∧ t.pc = (s.pc + 4) % 2 ^ s.pcWidth ∧ t.delays = s.delays ∧
      (∀ b ∈ exceptionBits, getBit t.fpscr b = (getBit s.fpscr b || getBit (occurrences i s) b)) ∧
      ∃ p', t.pending = some p' ∧ p'.remaining = p.remaining ∧
        (¬ enabledOccurs i s → p'.causes = p.causes) ∧
        (enabledOccurs i s →
          ∃ more, p'.causes = p.causes ++ more ∧ more ≠ [] ∧ causesRecorded (occurrences i s) more)

/-- A pending invocation that is due is raised before the instruction at `pc` executes; one that is not
comes one instruction nearer (60_exceptions.md R522, R528). That it is raised whatever FE0 and FE1 have become
since is the model's choice (log 29); the form of the trap is decision D9 (log 7). -/
def Obligations.PendingTrapDue : Prop :=
  ∀ (s : State) (p : PendingTrap), s.pending = some p →
    (hostWaits s → s.trap = none → pcAligned s = true → p.remaining ≤ 1 →
      step s = .next { s with
        pending := none,
        trap := some { address := s.pc, excepting := false, fpscr := s.fpscr } }) ∧
    (∀ (w : InsnWord) (i : Instr), fetchesNext s w → decode w = .instr i →
      1 < p.remaining ∧
      step s = exec i { s with
        pending := some { p with remaining := p.remaining - 1 }, hostQueue := tickHost s.hostQueue })

/-- After a trap the machine stops until the host resumes it at an address, a multiple of 4 (60_exceptions.md
R520, R526; the form of the stop is the model's, and that the host then acts at once, log 7, log 8). -/
def Obligations.StopAndResume : Prop :=
  ∀ s : State, s.trap ≠ none → pcAligned s = true →
    (s.hostQueue = [] → step s = .fault .handlerInvoked) ∧
    (∀ n a p rest, s.hostQueue = ⟨n, .resume a⟩ :: rest → s.pending = none → p = a % 2 ^ s.pcWidth →
      p % 4 = 0 → step s = .next { s with hostQueue := rest, pc := p, trap := none })

/-- When Invalid Operation is enabled and occurs, an instruction with a target register leaves every FPR and
FPRF unchanged and sets FR and FI to zero; a compare leaves FR, FI and C unchanged and sets FPCC and CR field
BF to unordered (60_exceptions.md R531). It occurs whether or not its bit is already 1 (R504). -/
def Obligations.InvalidEnabledSuppresses : Prop :=
  ∀ (i : Instr) (s t : State) (b : FpscrBit), exec i s = .next t → getBit s.fpscr .ve = true →
    b ∈ invalidBits → getBit (occurrences i s) b = true →
    getBit t.fpscr b = true ∧ t.fpr = s.fpr ∧
    (bfOf i = none →
      fprfOf t.fpscr = fprfOf s.fpscr ∧ getBit t.fpscr .fr = false ∧ getBit t.fpscr .fi = false) ∧
    (∀ bf, bfOf i = some bf →
      fpccOf t.fpscr = 0b0001#4 ∧ readCr t bf = 0b0001#4 ∧
      getBit t.fpscr .fr = getBit s.fpscr .fr ∧ getBit t.fpscr .fi = getBit s.fpscr .fi ∧
      getBit t.fpscr .c = getBit s.fpscr .c)

/-! Rounded results. -/

/-- Worked encodings of data in the three formats decode to them, and each format's largest number has the
pattern the spec prints (40_data_formats.md R172, 60_exceptions.md R543). The DPD code is presumed (log 18). -/
def Obligations.DatumSamples : Prop :=
  dec .dfp32 0xA2400075 = .finite true 75 (-1) ∧
  dec .dfp64 0x261134B9C1E28E56 = .finite false 1234567890123456 (-10) ∧
  dec .dfp64 0x7BFFFFFFFFFFFFFF = .inf false 999999999999999 ∧
  dec .dfp64 0xFC000000000000A3 = .qnan true 123 ∧
  dec .dfp128 0x7E000000000000000000000000000000 = .snan false 0 ∧
  enc .dfp64 (.finite false (10 ^ 16 - 1) 369) = 0x77FCFF3FCFF3FCFF ∧
  enc .dfp128 (.finite false (10 ^ 34 - 1) 6111) = 0x77FFCFF3FCFF3FCFF3FCFF3FCFF3FCFF ∧
  enc .dfp32 (.finite false 1000000 (-101)) = 0x04000000

/-- The result of the ten instructions that round to the precision of a format, where the exact result is
not tiny and its rounding does not overflow: the rounded value, in the form the ideal exponent selects
(41_execution_model.md R200, R213, R215, R216). -/
def Obligations.RoundedResult : Prop :=
  ∀ (i : Instr) (s : State) (x : Exact) (n : Nat) (q : Int), wellFormed i = true →
    exactOf i s = some x → nmin x.tgt ≤ |x.value| →
    unboundedRounding x.tgt.precision (figure14 s.fpscr) (decide (x.value < 0)) |x.value| n q →
    (n : ℚ) * 10 ^ q ≤ nmax x.tgt →
    ∃ t c e, exec i s = .next t ∧ readDatum x.tgt x.frt t = .finite (decide (x.value < 0)) c e ∧
      (c : ℚ) * 10 ^ e = n * 10 ^ q ∧
      deliveredForm x.tgt.precision x.tgt.xmin x.tgt.xmax ((n : ℚ) * 10 ^ q = |x.value|) x.ideal c e ∧
      roundedFlags s t x.tgt (.finite (decide (x.value < 0)) c e)
        ((n : ℚ) * 10 ^ q ≠ |x.value|) (|x.value| < (n : ℚ) * 10 ^ q) ∧
      exceptionsKept s t [.xx] ∧ (noInvocation s = true → completed s t)

/-- An exact result of zero: the sign rules of addition and multiplication, the exponent closest to the
ideal one, no exception (41_execution_model.md R216, R218, R220). -/
def Obligations.ExactZero : Prop :=
  ∀ (i : Instr) (s : State) (x : Exact), wellFormed i = true → exactOf i s = some x → x.value = 0 →
    ∃ t, exec i s = .next t ∧ completed s t ∧
      exactOutcome s t x.tgt x.frt (.finite x.zeroSign 0 (max x.tgt.xmin (min x.ideal x.tgt.xmax)))

/-- A disabled overflow: OX and XX are set, the result is the infinity or Nmax of Figure 18, FI is 1 and FR
says whether it is the infinity (60_exceptions.md R542, R543). -/
def Obligations.OverflowDisabled : Prop :=
  ∀ (i : Instr) (s : State) (x : Exact) (n : Nat) (q : Int), wellFormed i = true →
    exactOf i s = some x → getBit s.fpscr .oe = false →
    unboundedRounding x.tgt.precision (figure14 s.fpscr) (decide (x.value < 0)) |x.value| n q →
    nmax x.tgt < (n : ℚ) * 10 ^ q →
    ∃ t d, exec i s = .next t ∧ readDatum x.tgt x.frt t = d ∧
      d = (if figure18 (figure14 s.fpscr) (decide (x.value < 0)) then .inf (decide (x.value < 0)) 0
        else .finite (decide (x.value < 0)) (10 ^ x.tgt.precision - 1) x.tgt.xmax) ∧
      getBit t.fpscr .ox = true ∧ getBit t.fpscr .xx = true ∧ getBit t.fpscr .fi = true ∧
      getBit t.fpscr .fr = figure18 (figure14 s.fpscr) (decide (x.value < 0)) ∧
      fprfOf t.fpscr = figure1 x.tgt d ∧ exceptionsKept s t [.ox, .xx] ∧
      (noInvocation s = true → completed s t)

/-- An enabled overflow delivers the wrapped rounded result, the rounded result divided by 10^alpha, in the
form closest to the wrapped ideal exponent if exact, with the smallest exponent if not (60_exceptions.md
R544); for drsp and drdpq in the source format (46_conversion.md R394, decision D24, log 22). -/
def Obligations.OverflowEnabled : Prop :=
  ∀ (i : Instr) (s : State) (x : Exact) (n : Nat) (q : Int), wellFormed i = true →
    exactOf i s = some x → getBit s.fpscr .oe = true →
    unboundedRounding x.tgt.precision (figure14 s.fpscr) (decide (x.value < 0)) |x.value| n q →
    nmax x.tgt < (n : ℚ) * 10 ^ q →
    ∃ t c e, exec i s = .next t ∧ readDatum x.wrap x.frt t = .finite (decide (x.value < 0)) c e ∧
      (c : ℚ) * 10 ^ (e + x.alpha) = n * 10 ^ q ∧
      deliveredForm (if (n : ℚ) * 10 ^ q = |x.value| then x.wrap.precision else x.tgt.precision)
        x.wrap.xmin x.wrap.xmax ((n : ℚ) * 10 ^ q = |x.value|) (x.ideal - x.alpha) c e ∧
      getBit t.fpscr .ox = true ∧
      roundedFlags s t x.wrap (.finite (decide (x.value < 0)) c e)
        ((n : ℚ) * 10 ^ q ≠ |x.value|) (|x.value| < (n : ℚ) * 10 ^ q) ∧
      exceptionsKept s t [.ox, .xx] ∧ (noInvocation s = true → completed s t)

/-- A tiny result with Underflow disabled is rounded at the quantum 10^Xmin; underflow occurs exactly when
that is inexact (60_exceptions.md R550, R552, 41_execution_model.md R216, R230). The form of an inexact
result is that of R216, the smallest exponent (90_conflicts.md C13, log 32). -/
def Obligations.UnderflowDisabled : Prop :=
  ∀ (i : Instr) (s : State) (x : Exact) (n : Nat), wellFormed i = true →
    exactOf i s = some x → getBit s.fpscr .ue = false → x.value ≠ 0 → |x.value| < nmin x.tgt →
    roundsTo (figure14 s.fpscr) (decide (x.value < 0)) (|x.value| / 10 ^ x.tgt.xmin) n →
    ∃ t c e, exec i s = .next t ∧ readDatum x.tgt x.frt t = .finite (decide (x.value < 0)) c e ∧
      (c : ℚ) * 10 ^ e = n * 10 ^ x.tgt.xmin ∧
      deliveredForm x.tgt.precision x.tgt.xmin x.tgt.xmax ((n : ℚ) * 10 ^ x.tgt.xmin = |x.value|)
        x.ideal c e ∧
      (getBit t.fpscr .ux = true ↔
        getBit s.fpscr .ux = true ∨ (n : ℚ) * 10 ^ x.tgt.xmin ≠ |x.value|) ∧
      roundedFlags s t x.tgt (.finite (decide (x.value < 0)) c e)
        ((n : ℚ) * 10 ^ x.tgt.xmin ≠ |x.value|) (|x.value| < (n : ℚ) * 10 ^ x.tgt.xmin) ∧
      exceptionsKept s t [.ux, .xx] ∧ (noInvocation s = true → completed s t)

/-- A tiny result with Underflow enabled delivers the wrapped rounded result, the rounded result multiplied
by 10^alpha, and sets UX, also when it is exact (60_exceptions.md R550, R551); for drsp and drdpq in the
source format (46_conversion.md R394, decision D24, log 22). -/
def Obligations.UnderflowEnabled : Prop :=
  ∀ (i : Instr) (s : State) (x : Exact) (n : Nat) (q : Int), wellFormed i = true →
    exactOf i s = some x → getBit s.fpscr .ue = true → |x.value| < nmin x.tgt →
    unboundedRounding x.tgt.precision (figure14 s.fpscr) (decide (x.value < 0)) |x.value| n q →
    ∃ t c e, exec i s = .next t ∧ readDatum x.wrap x.frt t = .finite (decide (x.value < 0)) c e ∧
      (c : ℚ) * 10 ^ (e - x.alpha) = n * 10 ^ q ∧
      deliveredForm (if (n : ℚ) * 10 ^ q = |x.value| then x.wrap.precision else x.tgt.precision)
        x.wrap.xmin x.wrap.xmax ((n : ℚ) * 10 ^ q = |x.value|) (x.ideal + x.alpha) c e ∧
      getBit t.fpscr .ux = true ∧
      roundedFlags s t x.wrap (.finite (decide (x.value < 0)) c e)
        ((n : ℚ) * 10 ^ q ≠ |x.value|) (|x.value| < (n : ℚ) * 10 ^ q) ∧
      exceptionsKept s t [.ux, .xx] ∧ (noInvocation s = true → completed s t)

/-- Where the rounded result of drsp and drdpq goes when it is not wrapped, whatever the enable bits are: drsp
extends the DFP32 value on the left with zeros, drdpq puts the result in the even register and zero in the odd
one, unless an enabled Invalid Operation suppresses it (46_conversion.md R392, R393). -/
def Obligations.NarrowTargets : Prop :=
  ∀ (s : State) (frt frb : FprNum) (rc : Bool),
    (notWrapped (.drsp frt frb rc) s →
      ∃ t, exec (.drsp frt frb rc) s = .next t ∧ (readFpr t frt).toNat < 2 ^ 32) ∧
    (evenReg frt = true → evenReg frb = true → notWrapped (.drdpq frt frb rc) s →
      ∃ t, exec (.drdpq frt frb rc) s = .next t ∧
        ((readDatum .dfp128 frb s).isSNaN = false ∨ getBit s.fpscr .ve = false →
          readFpr t (frt + 1) = 0#64))

/-! Special operands. -/

/-- The arithmetic instructions on operands that are not both finite, or both zero in a division: Figures 21,
22 and 23, with the actions of an Invalid Operation (42_arithmetic.md R270, R271, R272; 60_exceptions.md
R531, R532). The sign of a NaN in dsub is decision D18 (log 16), FR and FI without rounding D19 (log 17). -/
def Obligations.ArithmeticSpecials : Prop :=
  ∀ (i : Instr) (s : State) (f : Fmt) (frt : FprNum) (d : Datum) (o : Option FpscrBit),
    wellFormed i = true → arithmeticSpecial i s = (f, frt, some (d, o)) →
    ∃ t, exec i s = .next t ∧ (noInvocation s = true → completed s t) ∧
      match o with
      | none => exactOutcome s t f frt d ∧ completed s t
      | some b => invalidOutcome s t b f frt d

/-- The same of the quantum-adjustment instructions, dctqpq, drsp and drdpq: Figures 28, 30 to 32 and 33
(45_quantum_adjustment.md R353, R357, R360, R361; 46_conversion.md R388). The sign of a returned infinity is
decision D22 (log 20), FR and FI without rounding D19 (log 17). -/
def Obligations.AdjustConvertSpecials : Prop :=
  ∀ (i : Instr) (s : State) (f : Fmt) (frt : FprNum) (d : Datum) (o : Option FpscrBit),
    wellFormed i = true → adjustSpecial i s = (f, frt, some (d, o)) →
    ∃ t, exec i s = .next t ∧ (noInvocation s = true → completed s t) ∧
      match o with
      | none => exactOutcome s t f frt d ∧ completed s t
      | some b => invalidOutcome s t b f frt d

/-- A zero divisor with a finite nonzero dividend: ZX is set, FR and FI are zero; with ZE = 1 the target and
FPRF are unchanged, with ZE = 0 the target is the infinity whose sign is the XOR of the operands' signs
(60_exceptions.md R540, R541). -/
def Obligations.ZeroDivide : Prop :=
  ∀ (quad : Bool) (s : State) (frt fra frb : FprNum) (rc : Bool) (sa : Bool) (ca : Nat) (ea : Int)
    (sb : Bool) (eb : Int), wellFormed (sized quad (.ddiv frt fra frb rc) (.ddivq frt fra frb rc)) = true →
    readDatum (fmtOf quad) fra s = .finite sa ca ea → ca ≠ 0 →
    readDatum (fmtOf quad) frb s = .finite sb 0 eb →
    ∃ t, exec (sized quad (.ddiv frt fra frb rc) (.ddivq frt fra frb rc)) s = .next t ∧
      getBit t.fpscr .zx = true ∧ exceptionsKept s t [.zx] ∧
      getBit t.fpscr .fr = false ∧ getBit t.fpscr .fi = false ∧
      (getBit s.fpscr .ze = true → t.fpr = s.fpr ∧ fprfOf t.fpscr = fprfOf s.fpscr) ∧
      (getBit s.fpscr .ze = false → readDatum (fmtOf quad) frt t = .inf (sa != sb) 0 ∧
        fprfOf t.fpscr = figure1 (fmtOf quad) (.inf (sa != sb) 0)) ∧
      (noInvocation s = true → completed s t)

/-! Compare and test. -/

/-- Compare Unordered and Compare Ordered: the code of Figures 24 and 25, the Invalid Operation bits, and
completion whatever the enables are (43_compare.md R290, R295, R297, R298). -/
def Obligations.CompareResult : Prop :=
  ∀ (ordered quad : Bool) (s : State) (bf : CrNum) (fra frb : FprNum) (i : Instr),
    i = (if ordered then sized quad (.dcmpo bf fra frb) (.dcmpoq bf fra frb)
      else sized quad (.dcmpu bf fra frb) (.dcmpuq bf fra frb)) → wellFormed i = true →
    ∀ a b, a = readDatum (fmtOf quad) fra s → b = readDatum (fmtOf quad) frb s →
    ∃ t, exec i s = .next t ∧ readCr t bf = figure24 a b ∧ fpccOf t.fpscr = figure24 a b ∧
      getBit t.fpscr .vxsnan = (getBit s.fpscr .vxsnan || (a.isSNaN || b.isSNaN)) ∧
      getBit t.fpscr .vxvc = (getBit s.fpscr .vxvc || (ordered &&
        if a.isSNaN || b.isSNaN then !getBit s.fpscr .ve else a.isNaN || b.isNaN)) ∧
      exceptionsKept s t [.vxsnan, .vxvc] ∧ t.fpr = s.fpr ∧
      getBit t.fpscr .fr = getBit s.fpscr .fr ∧ getBit t.fpscr .fi = getBit s.fpscr .fi ∧
      getBit t.fpscr .c = getBit s.fpscr .c ∧ (noInvocation s = true → completed s t)

/-- Test Data Class: the sign of the operand and whether the mask bit of its class is one, in CR field BF
and FPCC (44_test.md R311, R312). -/
def Obligations.TestDataClass : Prop :=
  ∀ (quad : Bool) (s : State) (bf : CrNum) (fra : FprNum) (dcm : BitVec 6) (d : Datum),
    wellFormed (sized quad (.dtstdc bf fra dcm) (.dtstdcq bf fra dcm)) = true →
    d = readDatum (fmtOf quad) fra s →
    ∃ t, exec (sized quad (.dtstdc bf fra dcm) (.dtstdcq bf fra dcm)) s = .next t ∧ completed s t ∧
      readCr t bf = BitVec.ofBool d.sign ++ 0#1 ++ BitVec.ofBool (dcm.getMsbD (dcmBit (fmtOf quad) d)) ++ 0#1 ∧
      fpccOf t.fpscr = readCr t bf

/-- Test Data Group: the same for the group of the operand (44_test.md R313, R314). -/
def Obligations.TestDataGroup : Prop :=
  ∀ (quad : Bool) (s : State) (bf : CrNum) (fra : FprNum) (dgm : BitVec 6) (d : Datum),
    wellFormed (sized quad (.dtstdg bf fra dgm) (.dtstdgq bf fra dgm)) = true →
    d = readDatum (fmtOf quad) fra s →
    ∃ t, exec (sized quad (.dtstdg bf fra dgm) (.dtstdgq bf fra dgm)) s = .next t ∧ completed s t ∧
      readCr t bf = BitVec.ofBool d.sign ++ 0#1 ++ BitVec.ofBool (dgm.getMsbD (dgmBit (fmtOf quad) d)) ++ 0#1 ∧
      fpccOf t.fpscr = readCr t bf

/-- Test Exponent: the code of Figure 26 in CR field BF and FPCC (44_test.md R315, R316). -/
def Obligations.TestExponent : Prop :=
  ∀ (quad : Bool) (s : State) (bf : CrNum) (fra frb : FprNum),
    wellFormed (sized quad (.dtstex bf fra frb) (.dtstexq bf fra frb)) = true →
    ∃ t, exec (sized quad (.dtstex bf fra frb) (.dtstexq bf fra frb)) s = .next t ∧ completed s t ∧
      readCr t bf = figure26 (readDatum (fmtOf quad) fra s) (readDatum (fmtOf quad) frb s) ∧
      fpccOf t.fpscr = readCr t bf

/-- Test Significance: the referenced significance k, bits 58:63 of FRA (that the others are ignored is
decision D21, log 19), against the number of significant digits of FRB: Figure 27 (44_test.md R317, R318). -/
def Obligations.TestSignificance : Prop :=
  ∀ (quad : Bool) (s : State) (bf : CrNum) (fra frb : FprNum) (k : Nat),
    wellFormed (sized quad (.dtstsf bf fra frb) (.dtstsfq bf fra frb)) = true →
    k = (readFpr s fra).toNat % 64 →
    ∃ t, exec (sized quad (.dtstsf bf fra frb) (.dtstsfq bf fra frb)) s = .next t ∧ completed s t ∧
      fpccOf t.fpscr = readCr t bf ∧
      match readDatum (fmtOf quad) frb s with
      | .finite _ c _ =>
        (k ≠ 0 → 10 ^ k ≤ c → readCr t bf = 0b1000#4) ∧
        (k = 0 ∨ c < 10 ^ (k - 1) → readCr t bf = 0b0100#4) ∧
        (k ≠ 0 → 10 ^ (k - 1) ≤ c → c < 10 ^ k → readCr t bf = 0b0010#4)
      | _ => readCr t bf = 0b0001#4

/-! Quantum adjustment. -/

/-- Quantize and Quantize Immediate of a finite number: a zero takes the target exponent; a larger or equal
exponent is brought to it exactly, or Invalid Operation (VXCVI) occurs when the coefficient has more than p
digits; a smaller one is rounded to it (45_quantum_adjustment.md R341, R343, R351, R354). The comparison is
of magnitudes, decision D23 (log 21); FR and FI without rounding are D19 (log 17). -/
def Obligations.Quantize : Prop :=
  ∀ (i : Instr) (s : State) (te : Int) (x : Adjusting), wellFormed i = true → quantizeOf i s = some (te, x) →
    (x.coeff = 0 → ∃ t, exec i s = .next t ∧ completed s t ∧
      exactOutcome s t x.fmt x.frt (.finite x.sign 0 te)) ∧
    (te ≤ x.exp → x.coeff ≠ 0 → x.coeff * 10 ^ (x.exp - te).toNat < 10 ^ x.fmt.precision →
      ∃ t, exec i s = .next t ∧ completed s t ∧
        exactOutcome s t x.fmt x.frt (.finite x.sign (x.coeff * 10 ^ (x.exp - te).toNat) te)) ∧
    (te ≤ x.exp → 10 ^ x.fmt.precision ≤ x.coeff * 10 ^ (x.exp - te).toNat →
      ∃ t, exec i s = .next t ∧ (noInvocation s = true → completed s t) ∧
        invalidOutcome s t .vxcvi x.fmt x.frt (.qnan false 0)) ∧
    (x.exp < te → x.coeff ≠ 0 → ∀ n : Nat,
      roundsTo x.mode x.sign ((x.coeff : ℚ) * 10 ^ (x.exp - te)) n →
      ∃ t, exec i s = .next t ∧ (noInvocation s = true → completed s t) ∧
        readDatum x.fmt x.frt t = .finite x.sign n te ∧
        roundedFlags s t x.fmt (.finite x.sign n te)
          ((n : ℚ) * 10 ^ te ≠ x.coeff * 10 ^ x.exp) ((x.coeff : ℚ) * 10 ^ x.exp < n * 10 ^ te) ∧
        exceptionsKept s t [.xx])

/-- Reround of a finite number: unchanged unless it has more than k > 0 significant digits; else rounded to k
digits, with one more in the exponent when rounding carries; Invalid Operation (VXCVI) when the exponent
would exceed Xmax (45_quantum_adjustment.md R345, R351, R357, R358). That bits 0:57 of FRA are ignored is
decision D21 (log 19). -/
def Obligations.Reround : Prop :=
  ∀ (i : Instr) (s : State) (k : Nat) (x : Adjusting), wellFormed i = true → reroundOf i s = some (k, x) →
    (k = 0 ∨ x.coeff < 10 ^ k → ∃ t, exec i s = .next t ∧ completed s t ∧
      exactOutcome s t x.fmt x.frt (.finite x.sign x.coeff x.exp)) ∧
    (∀ (d n : Nat), k ≠ 0 → 0 < d → 10 ^ (k + d - 1) ≤ x.coeff → x.coeff < 10 ^ (k + d) →
      roundsTo x.mode x.sign ((x.coeff : ℚ) / 10 ^ d) n →
      ∀ (c : Nat) (e : Int),
        (c, e) = (if n = 10 ^ k then (10 ^ (k - 1), x.exp + d + 1) else (n, x.exp + d)) →
        (e ≤ x.fmt.xmax → ∃ t, exec i s = .next t ∧ (noInvocation s = true → completed s t) ∧
          readDatum x.fmt x.frt t = .finite x.sign c e ∧
          roundedFlags s t x.fmt (.finite x.sign c e) (n * 10 ^ d ≠ x.coeff) (x.coeff < n * 10 ^ d) ∧
          exceptionsKept s t [.xx]) ∧
        (x.fmt.xmax < e → ∃ t, exec i s = .next t ∧ (noInvocation s = true → completed s t) ∧
          invalidOutcome s t .vxcvi x.fmt x.frt (.qnan false 0)))

/-- Round To FP Integer of a finite number: one with an exponent of 0 or more is returned in its form; another
is rounded to an integer of exponent 0. Without Inexact, FR and FI are 0 and no exception occurs
(45_quantum_adjustment.md R347, R349, R351, R360, R361). -/
def Obligations.RoundToInteger : Prop :=
  ∀ (i : Instr) (s : State) (withInexact : Bool) (x : Adjusting), wellFormed i = true →
    roundToIntOf i s = some (withInexact, x) →
    (0 ≤ x.exp → ∃ t, exec i s = .next t ∧ completed s t ∧
      exactOutcome s t x.fmt x.frt (.finite x.sign x.coeff x.exp)) ∧
    (x.exp < 0 → ∀ n : Nat, roundsTo x.mode x.sign ((x.coeff : ℚ) * 10 ^ x.exp) n →
      ∃ t, exec i s = .next t ∧ (noInvocation s = true → completed s t) ∧
        (withInexact = true → readDatum x.fmt x.frt t = .finite x.sign n 0 ∧
          roundedFlags s t x.fmt (.finite x.sign n 0)
            ((n : ℚ) ≠ x.coeff * 10 ^ x.exp) ((x.coeff : ℚ) * 10 ^ x.exp < n) ∧
          exceptionsKept s t [.xx]) ∧
        (withInexact = false → completed s t ∧ exactOutcome s t x.fmt x.frt (.finite x.sign n 0)))

/-! Conversion. -/

/-- The conversions to a wider format: dctdp keeps class, sign, digits and exponent of every operand, an SNaN
among them, and writes FPRF alone; dctqpq does so of a finite number, with FR and FI 0 (46_conversion.md
R380, R381, R382, R388, R391). -/
def Obligations.Widen : Prop :=
  (∀ (frt frb : FprNum) (rc : Bool) (s : State),
    ∃ t, exec (.dctdp frt frb rc) s = .next t ∧ completed s t ∧
      readDatum .dfp64 frt t = dec .dfp32 ((readFpr s frb).toNat % 2 ^ 32) ∧
      fprfOf t.fpscr = figure1 .dfp64 (dec .dfp32 ((readFpr s frb).toNat % 2 ^ 32)) ∧
      getBit t.fpscr .fr = getBit s.fpscr .fr ∧ getBit t.fpscr .fi = getBit s.fpscr .fi ∧
      exceptionsKept s t []) ∧
  (∀ (frt frb : FprNum) (rc : Bool) (s : State) (sg : Bool) (c : Nat) (e : Int), evenReg frt = true →
    readDatum .dfp64 frb s = .finite sg c e →
    ∃ t, exec (.dctqpq frt frb rc) s = .next t ∧ completed s t ∧
      exactOutcome s t .dfp128 frt (.finite sg c e))

/-- A DFP32 datum in its preferred encoding, converted to DFP64 and back, gives the original bit pattern, with
zeros on its left: for an infinity or a NaN in every state, for a finite number when Underflow is disabled
(46_conversion.md R389). -/
def Obligations.Dfp32RoundTrip : Prop :=
  ∀ (s : State) (r frt frb : FprNum) (rc rc' : Bool) (w : Nat),
    w = (readFpr s frb).toNat % 2 ^ 32 → enc .dfp32 (dec .dfp32 w) = w →
    (getBit s.fpscr .ue = false ∨ ∀ sg c e, dec .dfp32 w ≠ .finite sg c e) →
    ∃ t u, exec (.dctdp r frb rc) s = .next t ∧ exec (.drsp frt r rc') t = .next u ∧
      (readFpr u frt).toNat = w

/-- Convert From Fixed Quad: the signed integer in FRB, exactly, with exponent 0, a zero being plus; FPRF is
its class and nothing else of the FPSCR changes (46_conversion.md R385, R399; log 27). -/
def Obligations.ConvertFromFixed : Prop :=
  ∀ (frt frb : FprNum) (rc : Bool) (s : State) (n : Int), evenReg frt = true →
    n = (readFpr s frb).toInt →
    ∃ t, exec (.dcffixq frt frb rc) s = .next t ∧ completed s t ∧
      readDatum .dfp128 frt t = .finite (decide (n < 0)) n.natAbs 0 ∧
      fprfOf t.fpscr = figure1 .dfp128 (.finite (decide (n < 0)) n.natAbs 0) ∧
      ∀ k < 64, k ∉ [47, 48, 49, 50, 51] → t.fpscr.getMsbD k = s.fpscr.getMsbD k

/-- Convert To Fixed: a finite number is rounded to an integer, which is stored if it is in the range of a
64-bit integer; else, for an infinity and for a NaN, Invalid Operation occurs and with VE = 0 the saturated
integer is stored; FPRF is never written (46_conversion.md R386, R387, R400). -/
def Obligations.ConvertToFixed : Prop :=
  ∀ (quad : Bool) (s : State) (frt frb : FprNum) (rc : Bool) (i : Instr),
    i = sized quad (.dctfix frt frb rc) (.dctfixq frt frb rc) → wellFormed i = true →
    match readDatum (fmtOf quad) frb s with
    | .finite sg c e =>
      ∀ (m : Nat) (n : Int), roundsTo (figure14 s.fpscr) sg ((c : ℚ) * 10 ^ e) m →
        n = (if sg then -(m : Int) else m) →
        ∃ t, exec i s = .next t ∧ (noInvocation s = true → completed s t) ∧
          (-(2 ^ 63) ≤ n → n ≤ 2 ^ 63 - 1 → (readFpr t frt).toInt = n ∧
            (getBit t.fpscr .fi = true ↔ (m : ℚ) ≠ c * 10 ^ e) ∧
            (getBit t.fpscr .fr = true ↔ (c : ℚ) * 10 ^ e < m) ∧
            getBit t.fpscr .xx = (getBit s.fpscr .xx || getBit t.fpscr .fi) ∧
            exceptionsKept s t [.xx] ∧ fprfOf t.fpscr = fprfOf s.fpscr) ∧
          (n < -(2 ^ 63) → fixedInvalid s t [.vxcvi] frt (-(2 ^ 63))) ∧
          (2 ^ 63 - 1 < n → fixedInvalid s t [.vxcvi] frt (2 ^ 63 - 1))
    | .inf sg _ =>
      ∃ t, exec i s = .next t ∧ (noInvocation s = true → completed s t) ∧
        fixedInvalid s t [.vxcvi] frt (if sg then -(2 ^ 63) else 2 ^ 63 - 1)
    | .qnan _ _ =>
      ∃ t, exec i s = .next t ∧ (noInvocation s = true → completed s t) ∧
        fixedInvalid s t [.vxcvi] frt (-(2 ^ 63))
    | .snan _ _ =>
      ∃ t, exec i s = .next t ∧ (noInvocation s = true → completed s t) ∧
        fixedInvalid s t [.vxsnan, .vxcvi] frt (-(2 ^ 63))

/-! Format. -/

/-- Decode DPD To BCD: the rightmost digits of the coefficient as BCD digits, and in the signed form (SP0 = 1)
the sign code on the right; the FPSCR is unchanged (47_format.md R421, R422, R433, R434). -/
def Obligations.DecodeToBcd : Prop :=
  ∀ (quad : Bool) (s : State) (sp : BitVec 2) (frt frb : FprNum) (rc : Bool) (d : Datum),
    wellFormed (sized quad (.ddedpd sp frt frb rc) (.ddedpdq sp frt frb rc)) = true →
    d = readDatum (fmtOf quad) frb s →
    ∃ t v, exec (sized quad (.ddedpd sp frt frb rc) (.ddedpdq sp frt frb rc)) s = .next t ∧
      completed s t ∧ t.fpscr = s.fpscr ∧ v = operandBits (fmtOf quad) frt t ∧
      (sp.getMsbD 0 = false →
        ∀ j < (if quad then 32 else 16), nibbleAt v j = digitAt (digitsOf d) j) ∧
      (sp.getMsbD 0 = true →
        nibbleAt v 0 = (if d.sign then 13 else if sp.getMsbD 1 then 15 else 12) ∧
        ∀ j < (if quad then 31 else 15), nibbleAt v (j + 1) = digitAt (digitsOf d) j)

/-- Encode BCD To DPD: a valid operand becomes the finite number of its digits and sign with exponent 0; an
invalid digit or sign code is an Invalid Operation (VXCVI), with the default quiet NaN, decision D25 (log 23),
when it is disabled (47_format.md R423, R424; 40_data_formats.md R152). -/
def Obligations.EncodeFromBcd : Prop :=
  ∀ (quad signed : Bool) (s : State) (frt frb : FprNum) (rc : Bool) (i : Instr) (v n : Nat),
    i = sized quad (.denbcd signed frt frb rc) (.denbcdq signed frt frb rc) → wellFormed i = true →
    v = operandBits (fmtOf quad) frb s → n = (if quad then 32 else 16) →
    (signed = false → (∀ j < n, nibbleAt v j ≤ 9) →
      ∃ t, exec i s = .next t ∧ completed s t ∧ exactOutcome s t (fmtOf quad) frt
        (.finite false (∑ j ∈ Finset.range n, nibbleAt v j * 10 ^ j) 0)) ∧
    (signed = true → 9 < nibbleAt v 0 → (∀ j < n - 1, nibbleAt v (j + 1) ≤ 9) →
      ∃ t, exec i s = .next t ∧ completed s t ∧ exactOutcome s t (fmtOf quad) frt
        (.finite (decide (nibbleAt v 0 = 11 ∨ nibbleAt v 0 = 13))
          (∑ j ∈ Finset.range (n - 1), nibbleAt v (j + 1) * 10 ^ j) 0)) ∧
    ((signed = false ∧ ∃ j < n, 9 < nibbleAt v j) ∨
      (signed = true ∧ (nibbleAt v 0 ≤ 9 ∨ ∃ j < n - 1, 9 < nibbleAt v (j + 1))) →
      ∃ t, exec i s = .next t ∧ (noInvocation s = true → completed s t) ∧
        invalidOutcome s t .vxcvi (fmtOf quad) frt (.qnan false 0))

/-- Extract Biased Exponent: the biased exponent of a finite number, and -1, -2 or -3 for an infinity, a QNaN
or an SNaN, as a 64-bit integer; the FPSCR is unchanged (47_format.md R425, R426, R433). -/
def Obligations.ExtractExponent : Prop :=
  ∀ (quad : Bool) (s : State) (frt frb : FprNum) (rc : Bool),
    wellFormed (sized quad (.dxex frt frb rc) (.dxexq frt frb rc)) = true →
    ∃ t, exec (sized quad (.dxex frt frb rc) (.dxexq frt frb rc)) s = .next t ∧ completed s t ∧
      t.fpscr = s.fpscr ∧
      (readFpr t frt).toInt =
        (match readDatum (fmtOf quad) frb s with
        | .finite _ _ e => e + (if quad then 6176 else 398)
        | .inf _ _ => -1
        | .qnan _ _ => -2
        | .snan _ _ => -3)

/-- Insert Biased Exponent: the sign of FRB with the class and exponent that the integer in FRA specifies,
Figure 36; the digits are those of FRB, without the leftmost one where a special datum is made
(47_format.md R427, R428, R433, R435, R436). -/
def Obligations.InsertExponent : Prop :=
  ∀ (quad : Bool) (s : State) (frt fra frb : FprNum) (rc : Bool) (a : Int) (d : Datum) (y : Nat),
    wellFormed (sized quad (.diex frt fra frb rc) (.diexq frt fra frb rc)) = true →
    a = (readFpr s fra).toInt → d = readDatum (fmtOf quad) frb s →
    y = digitsOf d % 10 ^ (if quad then 33 else 15) →
    ∃ t, exec (sized quad (.diex frt fra frb rc) (.diexq frt fra frb rc)) s = .next t ∧ completed s t ∧
      t.fpscr = s.fpscr ∧
      readDatum (fmtOf quad) frt t =
        (if 0 ≤ a ∧ a ≤ (if quad then 12287 else 767) then
          .finite d.sign (digitsOf d) (a - (if quad then 6176 else 398))
        else if a = -1 then .inf d.sign y
        else if a = -3 then .snan d.sign y
        else .qnan d.sign y)

/-- Shift Coefficient Left and Right Immediate: each digit moves SH places, digits shifted out are lost and
zeros supplied, among the p digits of a finite number or the p - 1 of a special datum; class, sign and
exponent stay (47_format.md R429 to R432, R433, R437). -/
def Obligations.ShiftCoefficient : Prop :=
  ∀ (left quad : Bool) (s : State) (frt fra : FprNum) (sh : BitVec 6) (rc : Bool) (i : Instr) (d : Datum),
    i = (if left then sized quad (.dscli frt fra sh rc) (.dscliq frt fra sh rc)
      else sized quad (.dscri frt fra sh rc) (.dscriq frt fra sh rc)) → wellFormed i = true →
    d = readDatum (fmtOf quad) fra s →
    ∃ t c, exec i s = .next t ∧ completed s t ∧ t.fpscr = s.fpscr ∧
      readDatum (fmtOf quad) frt t = withDigits d c ∧ c < 10 ^ digitCount (fmtOf quad) d ∧
      ∀ j < digitCount (fmtOf quad) d, digitAt c j =
        (if left then (if j < sh.toNat then 0 else digitAt (digitsOf d) (j - sh.toNat))
        else digitAt (digitsOf d) (j + sh.toNat))
end

