-- ==== Sys2Proof/Laws/Dpd.lean ====
section
/-! SUPPORT. The DPD code and its blocks: decoding undoes encoding (40_data_formats.md R163, R164). -/

namespace Sys2Proof.Machine

theorem dpd_table : ∀ v < 1000, dpdDecode (dpdEncode v) = v ∧ dpdEncode v < 1024 := by
  decide +kernel

theorem dpdDecode_lt : ∀ b < 1024, dpdDecode b < 1000 := by decide +kernel

theorem packBlocks_lt (n y : Nat) : packBlocks n y < 1024 ^ n := by
  induction n generalizing y with
  | zero => simp [packBlocks]
  | succ n ih =>
    unfold packBlocks
    have h1 := ih (y / 1000)
    have h2 := (dpd_table (y % 1000) (Nat.mod_lt _ (by decide))).2
    rw [pow_succ]
    omega

theorem unpackBlocks_lt (n bits : Nat) : unpackBlocks n bits < 1000 ^ n := by
  induction n generalizing bits with
  | zero => simp [unpackBlocks]
  | succ n ih =>
    unfold unpackBlocks
    have h1 := ih (bits / 1024)
    have h2 := dpdDecode_lt (bits % 1024) (Nat.mod_lt _ (by decide))
    rw [pow_succ]
    omega

/-- Unpacking the blocks packed from a number gives its rightmost `3 n` digits. -/
theorem unpack_pack (n y : Nat) : unpackBlocks n (packBlocks n y) = y % 1000 ^ n := by
  induction n generalizing y with
  | zero => simp [unpackBlocks, Nat.mod_one]
  | succ n ih =>
    unfold unpackBlocks packBlocks
    obtain ⟨h1, h2⟩ := dpd_table (y % 1000) (Nat.mod_lt _ (by decide))
    rw [show (packBlocks n (y / 1000) * 1024 + dpdEncode (y % 1000)) / 1024 = packBlocks n (y / 1000) by omega,
      show (packBlocks n (y / 1000) * 1024 + dpdEncode (y % 1000)) % 1024 = dpdEncode (y % 1000) by omega, h1, ih,
      pow_succ, mul_comm (1000 ^ n) 1000, Nat.mod_mul]
    ring

end Sys2Proof.Machine
end

