-- ==== Sys2Proof/Laws/Codec.lean ====
section
/-! SUPPORT. `dec` and `enc` (40_data_formats.md R170, R171): every datum a format can hold is read back
as it was written, and every bit pattern decodes to one. -/

namespace Sys2Proof.Machine

/-- Everything below the combination field and the sign. -/
theorem assemble_lt (f : Fmt) (s : Bool) {comb bec y : Nat} (hc : comb < 32) (hb : bec < 2 ^ f.becWidth) :
    assemble f s comb bec y < 2 ^ (f.tailWidth + 6) := by
  have hp := packBlocks_lt f.blocks y
  cases f <;> cases s <;>
    simp only [assemble, Fmt.tailWidth, Fmt.becWidth, Fmt.ccWidth, Fmt.blocks, Bool.toNat_true, Bool.toNat_false]
      at * <;> norm_num at * <;> omega

/-- The four fields of an assembled datum. -/
theorem fields_assemble (f : Fmt) (s : Bool) {comb bec y : Nat} (hc : comb < 32)
    (hb : bec < 2 ^ f.becWidth) (hy : y < 1000 ^ f.blocks) :
    assemble f s comb bec y / 2 ^ (f.tailWidth + 5) % 2 = s.toNat ∧
    assemble f s comb bec y / 2 ^ f.tailWidth % 32 = comb ∧
    assemble f s comb bec y / 2 ^ f.ccWidth % 2 ^ f.becWidth = bec ∧
    unpackBlocks f.blocks (assemble f s comb bec y % 2 ^ f.ccWidth) = y := by
  have hp := packBlocks_lt f.blocks y
  have hu := unpack_pack f.blocks y
  rw [Nat.mod_eq_of_lt hy] at hu
  have hm : assemble f s comb bec y % 2 ^ f.ccWidth = packBlocks f.blocks y := by
    cases f <;> cases s <;>
      simp only [assemble, Fmt.tailWidth, Fmt.becWidth, Fmt.ccWidth, Fmt.blocks, Bool.toNat_true, Bool.toNat_false]
        at * <;> norm_num at * <;> omega
  refine ⟨?_, ?_, ?_, by rw [hm, hu]⟩ <;> cases f <;> cases s <;>
    simp only [assemble, Fmt.tailWidth, Fmt.becWidth, Fmt.ccWidth, Fmt.blocks, Bool.toNat_true, Bool.toNat_false]
      at * <;> norm_num at * <;> omega

/-- The payload digits of a format are its declets. -/
theorem pow_precision (f : Fmt) : 10 ^ (f.precision - 1) = 1000 ^ f.blocks := by cases f <;> rfl

theorem combination_lt {msb lmd : Nat} (hm : msb < 3) (hl : lmd < 10) : combination msb lmd < 30 := by
  unfold combination; split <;> omega

/-- Figure 9 read back (40_data_formats.md R159). -/
theorem combination_split {msb lmd : Nat} (hm : msb < 3) (hl : lmd < 10) :
    (if combination msb lmd / 8 = 3 then combination msb lmd / 2 % 4 else combination msb lmd / 8) = msb ∧
    (if combination msb lmd / 8 = 3 then 8 + combination msb lmd % 2 else combination msb lmd % 8) = lmd := by
  unfold combination
  constructor <;> split <;> split <;> omega

theorem signBit (s : Bool) : (s.toNat == 1) = s := by cases s <;> rfl

/-- A datum that fits a format is read back as it was written. -/
theorem dec_enc {f : Fmt} {d : Datum} (h : d.fits f = true) : dec f (enc f d) = d := by
  have hw : 0 < 2 ^ f.becWidth := by positivity
  cases d with
  | finite s c e =>
    simp only [Datum.fits, Bool.and_eq_true, decide_eq_true_eq] at h
    obtain ⟨⟨hc, hlo⟩, hhi⟩ := h
    have hbe : ((e + f.bias).toNat : Int) = e + f.bias := by
      apply Int.toNat_of_nonneg
      cases f <;> simp only [Fmt.bias, Fmt.xmin] at * <;> omega
    have hm : (e + f.bias).toNat / 2 ^ f.becWidth < 3 := by
      cases f <;> simp only [Fmt.bias, Fmt.xmin, Fmt.xmax, Fmt.becWidth] at * <;> omega
    have hl : c / 10 ^ (f.precision - 1) < 10 := by
      cases f <;> simp only [Fmt.precision] at * <;> norm_num at * <;> omega
    have hy : c % 10 ^ (f.precision - 1) < 1000 ^ f.blocks := by
      rw [← pow_precision]; exact Nat.mod_lt _ (by positivity)
    obtain ⟨h1, h2, h3, h4⟩ := fields_assemble f s (combination_lt hm hl |>.trans (by decide))
      (Nat.mod_lt (e + f.bias).toNat hw) hy
    obtain ⟨k1, k2⟩ := combination_split hm hl
    simp only [dec, enc, h1, h2, h3, h4, k1, k2, signBit]
    have hlt := combination_lt hm hl
    rw [if_neg (by omega), if_neg (by omega)]
    congr 1
    · exact Nat.div_add_mod' c _
    · rw [Nat.div_add_mod', hbe]; ring
  | inf s y =>
    simp only [Datum.fits, decide_eq_true_eq, pow_precision] at h
    obtain ⟨h1, h2, h3, h4⟩ := fields_assemble f s (show 30 < 32 by decide) hw h
    simp [dec, enc, h1, h2, h4]
  | qnan s y =>
    simp only [Datum.fits, decide_eq_true_eq, pow_precision] at h
    obtain ⟨h1, h2, h3, h4⟩ := fields_assemble f s (show 31 < 32 by decide) hw h
    simp [dec, enc, h1, h2, h3, h4]
  | snan s y =>
    simp only [Datum.fits, decide_eq_true_eq, pow_precision] at h
    obtain ⟨h1, h2, h3, h4⟩ := fields_assemble f s (show 31 < 32 by decide)
      (show 2 ^ (f.becWidth - 1) < 2 ^ f.becWidth from Nat.pow_lt_pow_right (by decide) (by cases f <;> decide)) h
    simp only [dec, enc, h1, h2, h3, h4, signBit]
    rw [if_pos trivial, if_pos (Nat.div_self (by positivity))]

/-- Every bit pattern decodes to a datum of the format. -/
theorem dec_fits (f : Fmt) (bits : Nat) : (dec f bits).fits f = true := by
  have hu := unpackBlocks_lt f.blocks (bits % 2 ^ f.ccWidth)
  unfold dec
  have hc : bits / 2 ^ f.tailWidth % 32 < 32 := Nat.mod_lt _ (by decide)
  have hb : bits / 2 ^ f.ccWidth % 2 ^ f.becWidth < 2 ^ f.becWidth := Nat.mod_lt _ (by positivity)
  generalize bits / 2 ^ f.tailWidth % 32 = comb at *
  generalize bits / 2 ^ f.ccWidth % 2 ^ f.becWidth = bec at *
  generalize unpackBlocks f.blocks (bits % 2 ^ f.ccWidth) = y at *
  dsimp only
  rw [← pow_precision] at hu
  split_ifs <;> simp only [Datum.fits, Bool.and_eq_true, decide_eq_true_eq] <;> try exact hu
  all_goals
    cases f <;> simp only [Fmt.precision, Fmt.becWidth, Fmt.bias, Fmt.xmin, Fmt.xmax] at * <;>
      norm_num at * <;> omega

/-- An encoded datum is as wide as its format. -/
theorem enc_lt {f : Fmt} {d : Datum} (h : d.fits f = true) : enc f d < 2 ^ (f.tailWidth + 6) := by
  have hw : 0 < 2 ^ f.becWidth := by positivity
  cases d with
  | finite s c e =>
    simp only [Datum.fits, Bool.and_eq_true, decide_eq_true_eq] at h
    refine assemble_lt f s (combination_lt ?_ ?_ |>.trans (by decide)) (Nat.mod_lt _ hw)
    · cases f <;> simp only [Fmt.bias, Fmt.xmin, Fmt.xmax, Fmt.becWidth] at * <;> omega
    · cases f <;> simp only [Fmt.precision] at * <;> norm_num at * <;> omega
  | inf s y => exact assemble_lt f s (by decide) hw
  | qnan s y => exact assemble_lt f s (by decide) hw
  | snan s y =>
    exact assemble_lt f s (by decide) (Nat.pow_lt_pow_right (by decide) (by cases f <;> decide))

end Sys2Proof.Machine
end

