-- ==== Sys2Proof/Laws/State.lean ====
section
/-! SUPPORT. One lemma per field per update of the state, and what the shared updates of
`Machine/Ops.lean` leave alone, so that no later proof unfolds a record update. -/

namespace Sys2Proof.Machine


/-! `advance` -/

@[simp] theorem advance_fpr (s : State) : (advance s).fpr = s.fpr := rfl
@[simp] theorem advance_fpscr (s : State) : (advance s).fpscr = s.fpscr := rfl
@[simp] theorem advance_cr (s : State) : (advance s).cr = s.cr := rfl
@[simp] theorem advance_fe0 (s : State) : (advance s).fe0 = s.fe0 := rfl
@[simp] theorem advance_fe1 (s : State) : (advance s).fe1 = s.fe1 := rfl
@[simp] theorem advance_pc (s : State) : (advance s).pc = (s.pc + 4) % 2 ^ s.pcWidth := rfl
@[simp] theorem advance_pending (s : State) : (advance s).pending = s.pending := rfl
@[simp] theorem advance_trap (s : State) : (advance s).trap = s.trap := rfl
@[simp] theorem advance_mem (s : State) : (advance s).mem = s.mem := rfl
@[simp] theorem advance_insnByteOrder (s : State) : (advance s).insnByteOrder = s.insnByteOrder := rfl
@[simp] theorem advance_pcWidth (s : State) : (advance s).pcWidth = s.pcWidth := rfl
@[simp] theorem advance_hostQueue (s : State) : (advance s).hostQueue = s.hostQueue := rfl
@[simp] theorem advance_delays (s : State) : (advance s).delays = s.delays := rfl
@[simp] theorem advance_delayIndex (s : State) : (advance s).delayIndex = s.delayIndex := rfl

/-! `raiseTrap` -/

@[simp] theorem raiseTrap_fpr (x : Bool) (s : State) :
    (raiseTrap x s).fpr = s.fpr := rfl
@[simp] theorem raiseTrap_fpscr (x : Bool) (s : State) :
    (raiseTrap x s).fpscr = s.fpscr := rfl
@[simp] theorem raiseTrap_cr (x : Bool) (s : State) :
    (raiseTrap x s).cr = s.cr := rfl
@[simp] theorem raiseTrap_fe0 (x : Bool) (s : State) :
    (raiseTrap x s).fe0 = s.fe0 := rfl
@[simp] theorem raiseTrap_fe1 (x : Bool) (s : State) :
    (raiseTrap x s).fe1 = s.fe1 := rfl
@[simp] theorem raiseTrap_pc (x : Bool) (s : State) :
    (raiseTrap x s).pc = s.pc := rfl
@[simp] theorem raiseTrap_pending (x : Bool) (s : State) :
    (raiseTrap x s).pending = none := rfl
@[simp] theorem raiseTrap_trap (x : Bool) (s : State) :
    (raiseTrap x s).trap = some { address := s.pc, excepting := x, fpscr := s.fpscr } := rfl
@[simp] theorem raiseTrap_mem (x : Bool) (s : State) :
    (raiseTrap x s).mem = s.mem := rfl
@[simp] theorem raiseTrap_insnByteOrder (x : Bool) (s : State) :
    (raiseTrap x s).insnByteOrder = s.insnByteOrder := rfl
@[simp] theorem raiseTrap_pcWidth (x : Bool) (s : State) :
    (raiseTrap x s).pcWidth = s.pcWidth := rfl
@[simp] theorem raiseTrap_hostQueue (x : Bool) (s : State) :
    (raiseTrap x s).hostQueue = s.hostQueue := rfl
@[simp] theorem raiseTrap_delays (x : Bool) (s : State) :
    (raiseTrap x s).delays = s.delays := rfl
@[simp] theorem raiseTrap_delayIndex (x : Bool) (s : State) :
    (raiseTrap x s).delayIndex = s.delayIndex := rfl

/-! `tickPending` -/

@[simp] theorem tickPending_fpr (s : State) :
    (tickPending s).fpr = s.fpr := rfl
@[simp] theorem tickPending_fpscr (s : State) :
    (tickPending s).fpscr = s.fpscr := rfl
@[simp] theorem tickPending_cr (s : State) :
    (tickPending s).cr = s.cr := rfl
@[simp] theorem tickPending_fe0 (s : State) :
    (tickPending s).fe0 = s.fe0 := rfl
@[simp] theorem tickPending_fe1 (s : State) :
    (tickPending s).fe1 = s.fe1 := rfl
@[simp] theorem tickPending_pc (s : State) :
    (tickPending s).pc = s.pc := rfl
@[simp] theorem tickPending_pending (s : State) :
    (tickPending s).pending = s.pending.map fun p => { p with remaining := p.remaining - 1 } := rfl
@[simp] theorem tickPending_trap (s : State) :
    (tickPending s).trap = s.trap := rfl
@[simp] theorem tickPending_mem (s : State) :
    (tickPending s).mem = s.mem := rfl
@[simp] theorem tickPending_insnByteOrder (s : State) :
    (tickPending s).insnByteOrder = s.insnByteOrder := rfl
@[simp] theorem tickPending_pcWidth (s : State) :
    (tickPending s).pcWidth = s.pcWidth := rfl
@[simp] theorem tickPending_hostQueue (s : State) :
    (tickPending s).hostQueue = s.hostQueue := rfl
@[simp] theorem tickPending_delays (s : State) :
    (tickPending s).delays = s.delays := rfl
@[simp] theorem tickPending_delayIndex (s : State) :
    (tickPending s).delayIndex = s.delayIndex := rfl

/-! `tickHost` and `beginInstruction` -/

@[simp] theorem tickHost_nil : tickHost [] = [] := rfl
@[simp] theorem tickHost_cons (t : HostTurn) (rest : List HostTurn) :
    tickHost (t :: rest) = { t with after := t.after - 1 } :: rest := rfl

@[simp] theorem beginInstruction_fpr (s : State) :
    (beginInstruction s).fpr = s.fpr := rfl
@[simp] theorem beginInstruction_fpscr (s : State) :
    (beginInstruction s).fpscr = s.fpscr := rfl
@[simp] theorem beginInstruction_cr (s : State) :
    (beginInstruction s).cr = s.cr := rfl
@[simp] theorem beginInstruction_fe0 (s : State) :
    (beginInstruction s).fe0 = s.fe0 := rfl
@[simp] theorem beginInstruction_fe1 (s : State) :
    (beginInstruction s).fe1 = s.fe1 := rfl
@[simp] theorem beginInstruction_pcWidth (s : State) :
    (beginInstruction s).pcWidth = s.pcWidth := rfl
@[simp] theorem beginInstruction_pc (s : State) :
    (beginInstruction s).pc = s.pc := rfl
@[simp] theorem beginInstruction_pending (s : State) :
    (beginInstruction s).pending = s.pending.map fun p => { p with remaining := p.remaining - 1 } := rfl
@[simp] theorem beginInstruction_trap (s : State) :
    (beginInstruction s).trap = s.trap := rfl
@[simp] theorem beginInstruction_mem (s : State) :
    (beginInstruction s).mem = s.mem := rfl
@[simp] theorem beginInstruction_insnByteOrder (s : State) :
    (beginInstruction s).insnByteOrder = s.insnByteOrder := rfl
@[simp] theorem beginInstruction_hostQueue (s : State) :
    (beginInstruction s).hostQueue = tickHost s.hostQueue := rfl
@[simp] theorem beginInstruction_delays (s : State) :
    (beginInstruction s).delays = s.delays := rfl
@[simp] theorem beginInstruction_delayIndex (s : State) :
    (beginInstruction s).delayIndex = s.delayIndex := rfl

/-! `applyEffect` -/

@[simp] theorem applyEffect_fpr (rc : Bool) (e : Effect) (s : State) :
    (applyEffect rc e s).fpr = writeFprs e.fprs s.fpr := rfl
@[simp] theorem applyEffect_fpscr (rc : Bool) (e : Effect) (s : State) :
    (applyEffect rc e s).fpscr = e.fpscr := rfl
@[simp] theorem applyEffect_cr (rc : Bool) (e : Effect) (s : State) :
    (applyEffect rc e s).cr = recordCr1 rc e.fpscr (writeCrField e.crf s.cr) := rfl
@[simp] theorem applyEffect_fe0 (rc : Bool) (e : Effect) (s : State) :
    (applyEffect rc e s).fe0 = s.fe0 := rfl
@[simp] theorem applyEffect_fe1 (rc : Bool) (e : Effect) (s : State) :
    (applyEffect rc e s).fe1 = s.fe1 := rfl
@[simp] theorem applyEffect_pc (rc : Bool) (e : Effect) (s : State) :
    (applyEffect rc e s).pc = s.pc := rfl
@[simp] theorem applyEffect_pending (rc : Bool) (e : Effect) (s : State) :
    (applyEffect rc e s).pending = s.pending := rfl
@[simp] theorem applyEffect_trap (rc : Bool) (e : Effect) (s : State) :
    (applyEffect rc e s).trap = s.trap := rfl
@[simp] theorem applyEffect_mem (rc : Bool) (e : Effect) (s : State) :
    (applyEffect rc e s).mem = s.mem := rfl
@[simp] theorem applyEffect_insnByteOrder (rc : Bool) (e : Effect) (s : State) :
    (applyEffect rc e s).insnByteOrder = s.insnByteOrder := rfl
@[simp] theorem applyEffect_pcWidth (rc : Bool) (e : Effect) (s : State) :
    (applyEffect rc e s).pcWidth = s.pcWidth := rfl
@[simp] theorem applyEffect_hostQueue (rc : Bool) (e : Effect) (s : State) :
    (applyEffect rc e s).hostQueue = s.hostQueue := rfl
@[simp] theorem applyEffect_delays (rc : Bool) (e : Effect) (s : State) :
    (applyEffect rc e s).delays = s.delays := rfl
@[simp] theorem applyEffect_delayIndex (rc : Bool) (e : Effect) (s : State) :
    (applyEffect rc e s).delayIndex = s.delayIndex := rfl

/-! `takeDelay` touches the delays only -/

@[simp] theorem takeDelay_fpr (s : State) : (takeDelay s).fpr = s.fpr := by
  unfold takeDelay; split <;> rfl
@[simp] theorem takeDelay_fpscr (s : State) : (takeDelay s).fpscr = s.fpscr := by
  unfold takeDelay; split <;> rfl
@[simp] theorem takeDelay_cr (s : State) : (takeDelay s).cr = s.cr := by
  unfold takeDelay; split <;> rfl
@[simp] theorem takeDelay_fe0 (s : State) : (takeDelay s).fe0 = s.fe0 := by
  unfold takeDelay; split <;> rfl
@[simp] theorem takeDelay_fe1 (s : State) : (takeDelay s).fe1 = s.fe1 := by
  unfold takeDelay; split <;> rfl
@[simp] theorem takeDelay_pc (s : State) : (takeDelay s).pc = s.pc := by
  unfold takeDelay; split <;> rfl
@[simp] theorem takeDelay_pending (s : State) : (takeDelay s).pending = s.pending := by
  unfold takeDelay; split <;> rfl
@[simp] theorem takeDelay_trap (s : State) : (takeDelay s).trap = s.trap := by
  unfold takeDelay; split <;> rfl
@[simp] theorem takeDelay_mem (s : State) : (takeDelay s).mem = s.mem := by
  unfold takeDelay; split <;> rfl
@[simp] theorem takeDelay_insnByteOrder (s : State) : (takeDelay s).insnByteOrder = s.insnByteOrder := by
  unfold takeDelay; split <;> rfl
@[simp] theorem takeDelay_pcWidth (s : State) : (takeDelay s).pcWidth = s.pcWidth := by
  unfold takeDelay; split <;> rfl
@[simp] theorem takeDelay_hostQueue (s : State) : (takeDelay s).hostQueue = s.hostQueue := by
  unfold takeDelay; split <;> rfl

/-! `oweHandler`: what it leaves alone, when what goes on leaves it alone -/

theorem oweHandler_fpr {goOn : State → State} (h : ∀ s, (goOn s).fpr = s.fpr)
    (c : List DfpException) (s : State) : (oweHandler goOn c s).fpr = s.fpr := by
  unfold oweHandler deferTrap
  repeat' split
  all_goals simp [h]
theorem oweHandler_fpscr {goOn : State → State} (h : ∀ s, (goOn s).fpscr = s.fpscr)
    (c : List DfpException) (s : State) : (oweHandler goOn c s).fpscr = s.fpscr := by
  unfold oweHandler deferTrap
  repeat' split
  all_goals simp [h]
theorem oweHandler_cr {goOn : State → State} (h : ∀ s, (goOn s).cr = s.cr)
    (c : List DfpException) (s : State) : (oweHandler goOn c s).cr = s.cr := by
  unfold oweHandler deferTrap
  repeat' split
  all_goals simp [h]
theorem oweHandler_fe0 {goOn : State → State} (h : ∀ s, (goOn s).fe0 = s.fe0)
    (c : List DfpException) (s : State) : (oweHandler goOn c s).fe0 = s.fe0 := by
  unfold oweHandler deferTrap
  repeat' split
  all_goals simp [h]
theorem oweHandler_fe1 {goOn : State → State} (h : ∀ s, (goOn s).fe1 = s.fe1)
    (c : List DfpException) (s : State) : (oweHandler goOn c s).fe1 = s.fe1 := by
  unfold oweHandler deferTrap
  repeat' split
  all_goals simp [h]
theorem oweHandler_mem {goOn : State → State} (h : ∀ s, (goOn s).mem = s.mem)
    (c : List DfpException) (s : State) : (oweHandler goOn c s).mem = s.mem := by
  unfold oweHandler deferTrap
  repeat' split
  all_goals simp [h]
theorem oweHandler_insnByteOrder {goOn : State → State} (h : ∀ s, (goOn s).insnByteOrder = s.insnByteOrder)
    (c : List DfpException) (s : State) : (oweHandler goOn c s).insnByteOrder = s.insnByteOrder := by
  unfold oweHandler deferTrap
  repeat' split
  all_goals simp [h]
theorem oweHandler_pcWidth {goOn : State → State} (h : ∀ s, (goOn s).pcWidth = s.pcWidth)
    (c : List DfpException) (s : State) : (oweHandler goOn c s).pcWidth = s.pcWidth := by
  unfold oweHandler deferTrap
  repeat' split
  all_goals simp [h]
theorem oweHandler_hostQueue {goOn : State → State} (h : ∀ s, (goOn s).hostQueue = s.hostQueue)
    (c : List DfpException) (s : State) : (oweHandler goOn c s).hostQueue = s.hostQueue := by
  unfold oweHandler deferTrap
  repeat' split
  all_goals simp [h]

/-! `commit`: what every instruction does to the registers, whether or not a trap is raised -/

@[simp] theorem commit_fpr (rc : Bool) (e : Effect) (s : State) :
    (commit rc e s).fpr = writeFprs e.fprs s.fpr := by
  unfold commit
  rw [oweHandler_fpr advance_fpr]
  rfl
@[simp] theorem commit_fpscr (rc : Bool) (e : Effect) (s : State) :
    (commit rc e s).fpscr = e.fpscr := by
  unfold commit
  rw [oweHandler_fpscr advance_fpscr]
  rfl
@[simp] theorem commit_cr (rc : Bool) (e : Effect) (s : State) :
    (commit rc e s).cr = recordCr1 rc e.fpscr (writeCrField e.crf s.cr) := by
  unfold commit
  rw [oweHandler_cr advance_cr]
  rfl
@[simp] theorem commit_fe0 (rc : Bool) (e : Effect) (s : State) :
    (commit rc e s).fe0 = s.fe0 := by
  unfold commit
  rw [oweHandler_fe0 advance_fe0]
  rfl
@[simp] theorem commit_fe1 (rc : Bool) (e : Effect) (s : State) :
    (commit rc e s).fe1 = s.fe1 := by
  unfold commit
  rw [oweHandler_fe1 advance_fe1]
  rfl
@[simp] theorem commit_mem (rc : Bool) (e : Effect) (s : State) :
    (commit rc e s).mem = s.mem := by
  unfold commit
  rw [oweHandler_mem advance_mem]
  rfl
@[simp] theorem commit_insnByteOrder (rc : Bool) (e : Effect) (s : State) :
    (commit rc e s).insnByteOrder = s.insnByteOrder := by
  unfold commit
  rw [oweHandler_insnByteOrder advance_insnByteOrder]
  rfl
@[simp] theorem commit_pcWidth (rc : Bool) (e : Effect) (s : State) :
    (commit rc e s).pcWidth = s.pcWidth := by
  unfold commit
  rw [oweHandler_pcWidth advance_pcWidth]
  rfl
@[simp] theorem commit_hostQueue (rc : Bool) (e : Effect) (s : State) :
    (commit rc e s).hostQueue = s.hostQueue := by
  unfold commit
  rw [oweHandler_hostQueue advance_hostQueue]
  rfl

end Sys2Proof.Machine
end

