-- ==== Sys2Proof/Laws/Ops.lean ====
section
/-! SUPPORT. For each shared operation of `Machine/Ops.lean`, what it can do, said once: the end of an
instruction, the error handler, registers, and storage. -/

namespace Sys2Proof.Machine

/-! The outcome of a meaning. -/

/-- A meaning that goes on has a valid form and ends with its effect committed. -/
theorem completes_next {v rc : Bool} {e : Effect} {s t : State} :
    completes v rc e s = .next t ↔ v = true ∧ t = commit rc e s := by
  unfold completes
  cases v <;> simp [eq_comm]

theorem completes_valid (rc : Bool) (e : Effect) (s : State) :
    completes true rc e s = .next (commit rc e s) := rfl

theorem completes_invalid (rc : Bool) (e : Effect) (s : State) :
    completes false rc e s = .refused .invalidForm := rfl

/-! The error handler. -/

@[simp] theorem oweHandler_nil (goOn : State → State) (s : State) : oweHandler goOn [] s = goOn s := rfl

theorem oweHandler_ignore (goOn : State → State) (c : List DfpException) {s : State}
    (h : exceptionMode s = .ignore) : oweHandler goOn c s = goOn s := by
  unfold oweHandler
  cases c <;> simp [h]

theorem oweHandler_precise (goOn : State → State) {c : List DfpException} (hc : c ≠ []) {s : State}
    (h : exceptionMode s = .precise) : oweHandler goOn c s = raiseTrap true s := by
  unfold oweHandler
  cases c <;> simp_all

theorem oweHandler_imprecise (goOn : State → State) {c : List DfpException} (hc : c ≠ []) {s : State}
    (h : exceptionMode s = .impreciseNonrecoverable ∨ exceptionMode s = .impreciseRecoverable) :
    oweHandler goOn c s = deferTrap goOn c s := by
  unfold oweHandler
  rcases h with h | h <;> cases c <;> simp_all

theorem exceptionMode_eq_ignore {s : State} :
    exceptionMode s = .ignore ↔ s.fe0 = false ∧ s.fe1 = false := by
  unfold exceptionMode
  cases s.fe0 <;> cases s.fe1 <;> simp

theorem exceptionMode_eq_precise {s : State} :
    exceptionMode s = .precise ↔ s.fe0 = true ∧ s.fe1 = true := by
  unfold exceptionMode
  cases s.fe0 <;> cases s.fe1 <;> simp

@[simp] theorem exceptionMode_applyEffect (rc : Bool) (e : Effect) (s : State) :
    exceptionMode (applyEffect rc e s) = exceptionMode s := rfl

/-- Everything `oweHandler` can answer: the machine goes on with at most the pending invocation and the
delays changed, or it traps at the excepting instruction. -/
theorem oweHandler_cases (goOn : State → State) (c : List DfpException) (s : State) :
    oweHandler goOn c s = goOn s ∨
    (∃ p, s.pending = some p ∧ c ≠ [] ∧
      oweHandler goOn c s = goOn { s with pending := some { p with causes := p.causes ++ c } }) ∨
    (s.pending = none ∧ c ≠ [] ∧ nextDelay s ≠ 0 ∧ oweHandler goOn c s =
      goOn { takeDelay s with pending := some { remaining := nextDelay s, causes := c } }) ∨
    (c ≠ [] ∧ (oweHandler goOn c s = raiseTrap true s ∨
      oweHandler goOn c s = raiseTrap true (takeDelay s))) := by
  unfold oweHandler
  cases c with
  | nil => simp
  | cons x xs =>
    cases exceptionMode s <;> simp only
    · simp
    · unfold deferTrap
      cases hp : s.pending with
      | some p => simp
      | none => by_cases hd : nextDelay s = 0 <;> simp [hd]
    · unfold deferTrap
      cases hp : s.pending with
      | some p => simp
      | none => by_cases hd : nextDelay s = 0 <;> simp [hd]
    · simp

/-- An instruction without an enabled exception only advances. -/
theorem commit_no_causes (rc : Bool) {e : Effect} (h : e.causes = []) (s : State) :
    commit rc e s = advance (applyEffect rc e s) := by
  unfold commit
  rw [h]
  rfl

/-- In Ignore Exceptions Mode every instruction only advances. -/
theorem commit_ignore (rc : Bool) (e : Effect) {s : State} (h0 : s.fe0 = false) (h1 : s.fe1 = false) :
    commit rc e s = advance (applyEffect rc e s) := by
  unfold commit
  exact oweHandler_ignore _ _ (by simp [exceptionMode_eq_ignore, h0, h1])

/-- In Precise Mode an instruction with an enabled exception traps, its effect kept. -/
theorem commit_precise (rc : Bool) {e : Effect} (hc : e.causes ≠ []) {s : State} (h0 : s.fe0 = true)
    (h1 : s.fe1 = true) : commit rc e s = raiseTrap true (applyEffect rc e s) := by
  unfold commit
  exact oweHandler_precise _ hc (by simp [exceptionMode_eq_precise, h0, h1])

/-- Where `pc` and the trap stand after an instruction. -/
theorem commit_pc_trap (rc : Bool) (e : Effect) (s : State) :
    ((commit rc e s).pc = (s.pc + 4) % 2 ^ s.pcWidth ∧ (commit rc e s).trap = s.trap) ∨
    ((commit rc e s).pc = s.pc ∧ (commit rc e s).pending = none ∧
      (commit rc e s).trap = some { address := s.pc, excepting := true, fpscr := e.fpscr }) := by
  unfold commit
  rcases oweHandler_cases advance e.causes (applyEffect rc e s) with h | ⟨p, -, -, h⟩ | ⟨-, -, -, h⟩ |
    ⟨-, h | h⟩ <;> rw [h] <;> simp

/-! Registers. -/

theorem pairLow_ne {i : FprNum} (h : isEven i = true) : pairLow i ≠ i := by
  revert h; revert i; decide

theorem writeFprs_cons (w : FprNum × Dword) (ws : List (FprNum × Dword)) (r : Vector Dword 32) :
    writeFprs (w :: ws) r = writeFprs ws (r.set w.1 w.2) := rfl

@[simp] theorem writeFprs_nil (r : Vector Dword 32) : writeFprs [] r = r := rfl

/-- A register that no write names keeps its value. -/
theorem writeFprs_of_not_mem {ws : List (FprNum × Dword)} {i : FprNum} (h : ∀ w ∈ ws, w.1 ≠ i)
    (r : Vector Dword 32) : (writeFprs ws r)[i] = r[i] := by
  induction ws generalizing r with
  | nil => rfl
  | cons w ws ih =>
    rw [writeFprs_cons, ih fun v hv => h v (List.mem_cons_of_mem _ hv)]
    have hne : w.1 ≠ i := h w (List.mem_cons_self ..)
    have : (w.1 : Nat) ≠ (i : Nat) := fun hh => hne (Fin.ext hh)
    exact Vector.getElem_set_ne (hi := w.1.isLt) (hj := i.isLt) this

/-- One write. -/
theorem writeFprs_one (i : FprNum) (v : Dword) (r : Vector Dword 32) : (writeFprs [(i, v)] r)[i] = v := by
  simp [writeFprs]

/-- The even register after the writes of a pair. -/
theorem writeFprs_pair_high {i : FprNum} (h : isEven i = true) (a b : Dword) (r : Vector Dword 32) :
    (writeFprs [(i, a), (pairLow i, b)] r)[i] = a := by
  rw [writeFprs_cons, writeFprs_of_not_mem]
  · simp
  · intro w hw
    simp only [List.mem_singleton] at hw
    subst hw
    exact pairLow_ne h

/-- The odd register after the writes of a pair. -/
theorem writeFprs_pair_low (i : FprNum) (a b : Dword) (r : Vector Dword 32) :
    (writeFprs [(i, a), (pairLow i, b)] r)[pairLow i] = b := by
  simp [writeFprs]

/-- The halves of a 128-bit value put together. -/
theorem append_halves (v : Qword) : v.extractLsb' 64 64 ++ v.extractLsb' 0 64 = v := by
  ext i hi
  simp only [BitVec.getElem_append, BitVec.getElem_extractLsb']
  split
  · rw [← BitVec.getLsbD_eq_getElem]
    congr 1
    omega
  · rw [← BitVec.getLsbD_eq_getElem]
    congr 1
    omega

/-- A value put in the register or the pair of a format is the operand read back. -/
theorem operandBits_of_writes {f : Fmt} {i : FprNum} (hv : validReg f i = true) {s t : State} {v : Nat}
    (ht : t.fpr = writeFprs (operandWrites f i v) s.fpr) :
    operandBits f i t = match f with
      | .dfp32 => v % 2 ^ 32
      | .dfp64 => v % 2 ^ 64
      | .dfp128 => v % 2 ^ 128 := by
  cases f with
  | dfp32 =>
    simp only [operandBits, readFpr, ht, operandWrites, writeFprs_one, BitVec.toNat_ofNat]
    omega
  | dfp64 => simp only [operandBits, readFpr, ht, operandWrites, writeFprs_one, BitVec.toNat_ofNat]
  | dfp128 =>
    simp only [operandBits, readPair, readFpr, ht, operandWrites, pairWrites]
    rw [writeFprs_pair_high hv, writeFprs_pair_low, append_halves, BitVec.toNat_ofNat]

/-! The CR. -/

theorem readCr_writeCrField_same (n : CrNum) (v : BitVec 4) (cr : Vector (BitVec 4) 8) :
    (writeCrField (some (n, v)) cr)[n] = v := by
  simp [writeCrField]

theorem readCr_writeCrField_ne {n m : CrNum} (h : n ≠ m) (v : BitVec 4) (cr : Vector (BitVec 4) 8) :
    (writeCrField (some (n, v)) cr)[m] = cr[m] := by
  have : (n : Nat) ≠ (m : Nat) := fun hh => h (Fin.ext hh)
  exact Vector.getElem_set_ne (hi := n.isLt) (hj := m.isLt) this

theorem recordCr1_one (w : Dword) (cr : Vector (BitVec 4) 8) :
    (recordCr1 true w cr)[(1 : CrNum)] = recordBits w := by
  simp [recordCr1]

theorem recordCr1_ne {m : CrNum} (h : m ≠ 1) (rc : Bool) (w : Dword) (cr : Vector (BitVec 4) 8) :
    (recordCr1 rc w cr)[m] = cr[m] := by
  cases rc
  · rfl
  · have : (1 : Nat) ≠ (m : Nat) := fun hh => h (Fin.ext hh.symm)
    exact Vector.getElem_set_ne (hi := by omega) (hj := m.isLt) this

/-! Storage: the canonical form is kept, and a byte written is the byte read. -/

theorem memRead_memPut (m : List Host.Cell) (a : Nat) (b : Byte) (x : Nat) :
    memRead (memPut m a b) x = if x = a then some b else memRead m x := by
  induction m with
  | nil => simp [memPut, memRead, eq_comm]
  | cons c rest ih =>
    unfold memPut
    split
    · simp only [memRead]
      by_cases hx : a = x
      · simp [hx]
      · simp [hx, Ne.symm hx]
    · split
      · rename_i h1 h2
        simp only [memRead]
        by_cases hx : a = x
        · simp [hx]
        · rw [if_neg hx, if_neg (Ne.symm hx), if_neg (by omega)]
      · rename_i h1 h2
        simp only [memRead, ih]
        by_cases hx : c.1 = x
        · rw [if_pos hx, if_neg (by omega), if_pos hx]
        · rw [if_neg hx, if_neg hx]

/-- The canonical form of a list, from its head and its tail. -/
theorem wf_cons_iff (c : Host.Cell) (rest : List Host.Cell) :
    Memory.wf (c :: rest) = true ↔ (∀ d ∈ rest.head?, c.1 < d.1) ∧ Memory.wf rest = true := by
  cases rest <;> simp [Memory.wf]

theorem head_memPut (m : List Host.Cell) (a : Nat) (b : Byte) :
    ∀ d ∈ (memPut m a b).head?, d.1 = a ∨ ∃ c ∈ m.head?, d.1 = c.1 := by
  cases m with
  | nil => simp [memPut]
  | cons c rest =>
    unfold memPut
    split
    · simp
    · split
      · simp
      · simp

/-- A write keeps the canonical form. -/
theorem wf_memPut (m : List Host.Cell) (a : Nat) (b : Byte) (h : Memory.wf m = true) :
    Memory.wf (memPut m a b) = true := by
  induction m with
  | nil => rfl
  | cons c rest ih =>
    have hc := (wf_cons_iff c rest).1 h
    unfold memPut
    split
    · rename_i h1
      exact (wf_cons_iff _ _).2 ⟨by simpa using h1, h⟩
    · split
      · rename_i h1 h2
        exact (wf_cons_iff _ _).2 ⟨fun d hd => h2 ▸ hc.1 d hd, hc.2⟩
      · rename_i h1 h2
        refine (wf_cons_iff _ _).2 ⟨?_, ih hc.2⟩
        intro d hd
        rcases head_memPut rest a b d hd with h3 | ⟨e, he, h3⟩
        · omega
        · have := hc.1 e he
          omega

/-- A write below `2^width` stays in the space of `2^width` addresses. -/
theorem within_memPut {width : Nat} (m : List Host.Cell) {a : Nat} (b : Byte) (ha : a < 2 ^ width)
    (h : Memory.within width m = true) : Memory.within width (memPut m a b) = true := by
  simp only [Memory.within, List.all_eq_true, decide_eq_true_eq] at *
  induction m with
  | nil => simpa [memPut] using ha
  | cons c rest ih =>
    simp only [List.forall_mem_cons] at h
    unfold memPut
    split
    · exact List.forall_mem_cons.2 ⟨ha, List.forall_mem_cons.2 h⟩
    · split
      · exact List.forall_mem_cons.2 ⟨ha, h.2⟩
      · exact List.forall_mem_cons.2 ⟨h.1, ih h.2⟩

theorem wf_memWriteBytes (m : List Host.Cell) (a : Nat) (bs : List Byte) (h : Memory.wf m = true) :
    Memory.wf (memWriteBytes m a bs) = true := by
  induction bs generalizing m a with
  | nil => exact h
  | cons b rest ih => exact ih _ _ (wf_memPut m a b h)

theorem within_memWriteBytes {width : Nat} (m : List Host.Cell) (a : Nat) (bs : List Byte)
    (ha : a + bs.length ≤ 2 ^ width) (h : Memory.within width m = true) :
    Memory.within width (memWriteBytes m a bs) = true := by
  induction bs generalizing m a with
  | nil => exact h
  | cons b rest ih =>
    simp only [List.length_cons] at ha
    exact ih _ _ (by omega) (within_memPut m b (by omega) h)

/-- A byte outside the bytes written is as before. -/
theorem memRead_memWriteBytes_of_not_mem (m : List Host.Cell) (a : Nat) (bs : List Byte) {x : Nat}
    (hx : x < a ∨ a + bs.length ≤ x) : memRead (memWriteBytes m a bs) x = memRead m x := by
  induction bs generalizing m a with
  | nil => rfl
  | cons b rest ih =>
    simp only [List.length_cons] at hx
    rw [memWriteBytes, ih _ _ (by omega), memRead_memPut, if_neg (by omega)]

/-! The step. -/

/-- Everything a host operation can do: the trap of a pending invocation, or the operation itself, at which an
invocation that is pending comes one nearer. -/
theorem hostStep_next {op : HostOp} {rest : List HostTurn} {s t : State} (h : hostStep op rest s = .next t) :
    (hostOpTraps op { s with hostQueue := rest } = true ∧ t = raiseTrap false { s with hostQueue := rest }) ∨
    (hostOpTraps op { s with hostQueue := rest } = false ∧
      performHostOp op (tickPending { s with hostQueue := rest }) = .next t) := by
  unfold hostStep at h
  simp only at h
  split at h
  · rename_i h1
    exact .inl ⟨h1, by simpa using h.symm⟩
  · rename_i h1
    exact .inr ⟨by simpa using h1, h⟩

/-- Everything a host operation can do when it is performed. -/
theorem performHostOp_next {op : HostOp} {s t : State} (h : performHostOp op s = .next t) :
    (∃ i v, op = .writeFpr i v ∧ t = { s with fpr := writeFprs [(i, v)] s.fpr }) ∨
    (∃ n v, op = .writeCr n v ∧ t = { s with cr := writeCrField (some (n, v)) s.cr }) ∨
    (∃ a b, op = .setFe a b ∧ t = { s with fe0 := a, fe1 := b }) ∨
    (∃ a p, op = .resume a ∧ p = a % 2 ^ s.pcWidth ∧ p % 4 = 0 ∧ t = { s with pc := p, trap := none }) ∨
    (op = .readFpscr ∧ t = s) ∨
    (∃ insn mask value, op = .writeFpscr insn mask value ∧
      hostWriteAllowed insn mask value s.fpscr = true ∧ t = writeFpscrOp insn mask value s) := by
  cases op <;> simp only [performHostOp] at h
  · exact .inl ⟨_, _, rfl, by simpa using h.symm⟩
  · exact .inr (.inl ⟨_, _, rfl, by simpa using h.symm⟩)
  · exact .inr (.inr (.inl ⟨_, _, rfl, by simpa using h.symm⟩))
  · split at h
    · rename_i h1
      exact .inr (.inr (.inr (.inl ⟨_, _, rfl, rfl, h1, by simpa using h.symm⟩)))
    · simp at h
  · exact .inr (.inr (.inr (.inr (.inl ⟨rfl, by simpa using h.symm⟩))))
  · split at h
    · rename_i h1
      exact .inr (.inr (.inr (.inr (.inr ⟨_, _, _, rfl, h1, by simpa using h.symm⟩))))
    · simp at h

/-- Everything an instruction step can do: it runs the meaning of the instruction at `pc`. -/
theorem instructionStep_next {s t : State} (h : instructionStep s = .next t) :
    ∃ bs i, fetchBytes s 4 s.pc = .ok bs ∧ decodeBytes s.insnByteOrder bs = .instr i ∧
      exec i (beginInstruction s) = .next t := by
  unfold instructionStep at h
  split at h
  · simp at h
  · rename_i bs hb
    split at h
    · rename_i i hi
      exact ⟨bs, i, hb, hi, h⟩
    all_goals simp at h

/-- Everything a step can do: the host's operation, the trap of an invocation that is due, or the instruction
at `pc`. -/
theorem step_next {s t : State} (h : step s = .next t) :
    pcAligned s = true ∧
    ((∃ op rest, hostNext s = some (op, rest) ∧ hostStep op rest s = .next t) ∨
     (hostNext s = none ∧ s.trap = none ∧ pendingDue s = true ∧ t = raiseTrap false s) ∨
     (hostNext s = none ∧ s.trap = none ∧ pendingDue s = false ∧ instructionStep s = .next t)) := by
  unfold step stepState at h
  split at h
  · simp at h
  · rename_i ha
    refine ⟨by simpa using ha, ?_⟩
    split at h
    · rename_i op rest hn
      exact .inl ⟨op, rest, hn, h⟩
    · rename_i hn
      split at h
      · simp at h
      · rename_i ht
        have ht' : s.trap = none := by simpa using ht
        split at h
        · rename_i hd
          exact .inr (.inl ⟨hn, ht', hd, by simpa using h.symm⟩)
        · rename_i hd
          exact .inr (.inr ⟨hn, ht', by simpa using hd, h⟩)

/-- Whose turn it is, in terms of the queue. -/
theorem hostNext_eq_some {s : State} {op : HostOp} {rest : List HostTurn} :
    hostNext s = some (op, rest) ↔ ∃ n, s.hostQueue = ⟨n, op⟩ :: rest ∧ (n = 0 ∨ s.trap ≠ none) := by
  unfold hostNext
  split
  · simp_all
  · rename_i t r hq
    rw [hq]
    obtain ⟨n, o⟩ := t
    by_cases hn : n = 0 <;> cases ht : s.trap <;> simp [hn]

theorem hostNext_eq_none {s : State} (ht : s.trap = none) : hostNext s = none ↔ hostWaits s := by
  unfold hostNext hostWaits
  split
  · simp_all
  · rename_i t r hq
    simp [hq, ht, Nat.pos_iff_ne_zero]

end Sys2Proof.Machine
end

