-- ==== Sys2Proof/Laws/Datum.lean ====
section
/-! SUPPORT. A datum written to a register or a pair is read back (10_state.md R23,
40_data_formats.md R171). -/

namespace Sys2Proof.Machine

theorem readDatum_of_writes {f : Fmt} {i : FprNum} (hv : validReg f i = true) {s t : State} {d : Datum}
    (hf : d.fits f = true) (ht : t.fpr = writeFprs (datumWrites f i d) s.fpr) : readDatum f i t = d := by
  have hlt := enc_lt hf
  have h : operandBits f i t = enc f d := by
    rw [operandBits_of_writes hv ht]
    cases f <;> exact Nat.mod_eq_of_lt hlt
  rw [readDatum, h, dec_enc hf]

/-- Reading needs only the registers. -/
theorem readDatum_congr (f : Fmt) (i : FprNum) {s t : State} (h : t.fpr = s.fpr) :
    readDatum f i t = readDatum f i s := by
  cases f <;> simp only [readDatum, operandBits, readPair, readFpr, h]

theorem readDatum_fits (f : Fmt) (i : FprNum) (s : State) : (readDatum f i s).fits f = true := dec_fits f _

end Sys2Proof.Machine
end

