-- ==== Sys2Proof/Laws/Digits.lean ====
section
/-! SUPPORT. Decimal digits: what `floorLog10`, `numDigits` and `trailingZeros` say about a number. -/

namespace Sys2Proof.Machine

theorem floorLog10From_spec (steps n : Nat) (h0 : 1 ≤ n) (h : n < 10 ^ 2 ^ (steps + 1)) :
    10 ^ floorLog10From steps n ≤ n ∧ n < 10 ^ (floorLog10From steps n + 1) := by
  induction steps generalizing n with
  | zero =>
    unfold floorLog10From
    split <;> simp_all
  | succ k ih =>
    unfold floorLog10From
    split
    · rename_i hle
      have hp : 0 < 10 ^ 2 ^ (k + 1) := by positivity
      have h1 : 1 ≤ n / 10 ^ 2 ^ (k + 1) := (Nat.one_le_div_iff hp).2 hle
      have h2 : n / 10 ^ 2 ^ (k + 1) < 10 ^ 2 ^ (k + 1) := by
        rw [Nat.div_lt_iff_lt_mul hp, ← pow_add, ← two_mul, ← pow_succ']
        exact h
      obtain ⟨ha, hb⟩ := ih _ h1 h2
      rw [Nat.le_div_iff_mul_le hp] at ha
      rw [Nat.div_lt_iff_lt_mul hp] at hb
      rw [pow_add, Nat.add_assoc, pow_add 10 (2 ^ (k + 1))]
      exact ⟨by linarith, by linarith⟩
    · exact ih n h0 (by omega)

/-- `10^k <= n < 10^(k+1)` for `k = floor(log10(n))`. -/
theorem floorLog10_spec {n : Nat} (h : 0 < n) :
    10 ^ floorLog10 n ≤ n ∧ n < 10 ^ (floorLog10 n + 1) := by
  refine floorLog10From_spec _ n h ?_
  have h1 : n < 2 ^ (n.log2 + 1) := Nat.lt_log2_self
  have h2 : n.log2 < 2 ^ (n.log2.log2 + 1) := Nat.lt_log2_self
  calc n < 2 ^ (n.log2 + 1) := h1
    _ ≤ 2 ^ 2 ^ (n.log2.log2 + 1) := Nat.pow_le_pow_right (by decide) h2
    _ ≤ 10 ^ 2 ^ (n.log2.log2 + 1) := Nat.pow_le_pow_left (by decide) _

theorem numDigits_zero : numDigits 0 = 0 := rfl

theorem lt_pow_numDigits (c : Nat) : c < 10 ^ numDigits c := by
  unfold numDigits
  split
  · simp_all
  · exact (floorLog10_spec (by omega)).2

theorem pow_le_of_numDigits {c : Nat} (h : 0 < c) : 10 ^ (numDigits c - 1) ≤ c := by
  unfold numDigits
  rw [if_neg (by omega)]
  exact (floorLog10_spec h).1

theorem numDigits_pos {c : Nat} (h : 0 < c) : 0 < numDigits c := by
  unfold numDigits
  rw [if_neg (by omega)]
  omega

/-- A number has at most `p` digits exactly when it is below `10^p`. -/
theorem numDigits_le_iff {c p : Nat} : numDigits c ≤ p ↔ c < 10 ^ p := by
  constructor
  · exact fun h => lt_of_lt_of_le (lt_pow_numDigits c) (Nat.pow_le_pow_right (by decide) h)
  · intro h
    by_contra hn
    rcases Nat.eq_zero_or_pos c with h0 | h0
    · subst h0; simp [numDigits_zero] at hn
    · have h1 := pow_le_of_numDigits h0
      have h2 : 10 ^ p ≤ 10 ^ (numDigits c - 1) := Nat.pow_le_pow_right (by decide) (by omega)
      omega

/-- The number of digits of `c` is the only `k` with `10^(k-1) <= c < 10^k`. -/
theorem numDigits_eq {c k : Nat} (hk : 0 < k) (h1 : 10 ^ (k - 1) ≤ c) (h2 : c < 10 ^ k) :
    numDigits c = k := by
  have h3 : numDigits c ≤ k := numDigits_le_iff.2 h2
  by_contra hn
  have h4 : c < 10 ^ (k - 1) := numDigits_le_iff.1 (by omega)
  omega

theorem pow_trailingZeros_dvd (limit c : Nat) : 10 ^ trailingZeros limit c ∣ c := by
  induction limit generalizing c with
  | zero => simp [trailingZeros]
  | succ k ih =>
    unfold trailingZeros
    split
    · rename_i h
      obtain ⟨m, hm⟩ := ih (c / 10)
      refine ⟨m, ?_⟩
      have : c = 10 * (c / 10) := by omega
      rw [pow_succ, mul_right_comm, ← hm]
      omega
    · simp

/-- `trailingZeros` counts all the trailing zeros of a non-zero number below `10^limit`. -/
theorem le_trailingZeros {limit c k : Nat} (h0 : 0 < c) (h : c < 10 ^ limit) (hd : 10 ^ k ∣ c) :
    k ≤ trailingZeros limit c := by
  induction limit generalizing c k with
  | zero => simp at h; omega
  | succ l ih =>
    cases k with
    | zero => exact Nat.zero_le _
    | succ k =>
      obtain ⟨m, hm⟩ := hd
      have h10 : c = 10 * (10 ^ k * m) := by rw [hm, pow_succ]; ring
      unfold trailingZeros
      rw [if_pos (by omega)]
      have := ih (c := c / 10) (k := k) (by omega) (by rw [pow_succ] at h; omega) ⟨m, by omega⟩
      omega

end Sys2Proof.Machine
end

