-- ==== Sys2Proof/Laws/Rounding.lean ====
section
/-! SUPPORT. What the rounding functions compute, over the rationals (41_execution_model.md R209, R217,
R230). -/

namespace Sys2Proof.Machine

/-- `RoundInt` rounds, and says whether it changed and whether it raised the magnitude
(41_execution_model.md R209). -/
theorem roundInt_spec (num : Nat) {den : Nat} (hd : 0 < den) (mode : Mode) (s : Bool) :
    roundsTo mode s ((num : ℚ) / den) (roundInt num den mode s).n ∧
    ((roundInt num den mode s).inexact = true ↔ (num : ℚ) / den ≠ (roundInt num den mode s).n) ∧
    ((roundInt num den mode s).incremented = true ↔ (num : ℚ) / den < (roundInt num den mode s).n) := by
  have hdq : (0 : ℚ) < den := by exact_mod_cast hd
  obtain ⟨fl, hfl⟩ : ∃ fl, fl = num / den := ⟨_, rfl⟩
  obtain ⟨rem, hrem⟩ : ∃ rem, rem = num % den := ⟨_, rfl⟩
  have hlt : rem < den := hrem ▸ Nat.mod_lt _ hd
  have hsum : num = den * fl + rem := by rw [hfl, hrem, Nat.div_add_mod]
  have hx : (num : ℚ) / den = fl + rem / den := by
    rw [hsum]; push_cast; field_simp
  unfold roundInt
  rw [← hfl, ← hrem]
  clear hfl hrem hsum
  rw [hx]
  by_cases h0 : rem = 0
  · subst h0
    simp [roundsTo]
  have hr0 : (0 : ℚ) < (rem : ℚ) / den := by
    apply div_pos _ hdq; exact_mod_cast Nat.pos_of_ne_zero h0
  have hr1 : (rem : ℚ) / den < 1 := by
    rw [div_lt_one hdq]; exact_mod_cast hlt
  have hhalf : (rem : ℚ) / den < 1 / 2 ↔ 2 * rem < den := by
    rw [div_lt_div_iff₀ hdq (by norm_num)]
    constructor <;> intro h
    · have : ((2 * rem : Nat) : ℚ) < den := by push_cast; linarith
      exact_mod_cast this
    · have : ((2 * rem : Nat) : ℚ) < den := by exact_mod_cast h
      push_cast at this; linarith
  have heq : (rem : ℚ) / den = 1 / 2 ↔ 2 * rem = den := by
    rw [div_eq_div_iff hdq.ne' (by norm_num)]
    constructor <;> intro h
    · have : ((2 * rem : Nat) : ℚ) = den := by push_cast; linarith
      exact_mod_cast this
    · have : ((2 * rem : Nat) : ℚ) = den := by exact_mod_cast h
      push_cast at this; linarith
  generalize (rem : ℚ) / den = y at *
  have hnot : ¬ ∃ k : Nat, (fl : ℚ) + y = k := by
    rintro ⟨k, hk⟩
    have h1 : (fl : ℚ) < k := by linarith
    have h2 : (k : ℚ) < fl + 1 := by linarith
    have h3 : fl < k := by exact_mod_cast h1
    have h4 : k < fl + 1 := by exact_mod_cast h2
    omega
  have hfloor : ⌊(fl : ℚ) + y⌋₊ = fl := by
    rw [Nat.floor_eq_iff (by positivity)]; constructor <;> linarith
  rw [if_neg h0]
  have habs1 : |((fl + 1 : Nat) : ℚ) - (fl + y)| = 1 - y := by
    rw [abs_of_nonneg] <;> push_cast <;> linarith
  have habs0 : |(fl : ℚ) - (fl + y)| = y := by
    rw [abs_of_nonpos] <;> linarith
  have hcast : ((fl + 1 : Nat) : ℚ) = fl + 1 := by push_cast; ring
  split
  · rename_i hup
    refine ⟨⟨fun h => absurd h hnot, fun _ => ?_⟩, ?_, ?_⟩
    · simp only [habs1]
      refine ⟨by linarith, ?_⟩
      cases mode <;> cases s <;>
        simp only [roundsUp, Bool.or_eq_true, Bool.and_eq_true, decide_eq_true_eq, beq_iff_eq, Bool.not_false,
          Bool.not_true, Bool.false_eq_true, if_true, if_false, hcast, hfloor] at hup ⊢ <;>
        first
        | linarith
        | (constructor
           · by_contra hcon
             have : y < 1 / 2 := by linarith
             rw [hhalf] at this; omega
           · intro h
             have : y = 1 / 2 := by linarith
             rw [heq] at this
             first | linarith | omega)
        | exact ⟨fun _ => hup, fun _ => by linarith⟩
    · simp only [hcast, ne_eq, true_iff]; intro h; linarith
    · simp only [hcast, true_iff]; linarith
  · rename_i hup
    refine ⟨⟨fun h => absurd h hnot, fun _ => ?_⟩, ?_, ?_⟩
    · simp only [habs0]
      refine ⟨by linarith, ?_⟩
      cases mode <;> cases s <;>
        simp only [roundsUp, Bool.or_eq_true, Bool.and_eq_true, decide_eq_true_eq, beq_iff_eq, Bool.not_false,
          Bool.not_true, Bool.false_eq_true, if_true, if_false, not_true_eq_false, hfloor] at hup ⊢ <;>
        first
        | linarith
        | (constructor
           · by_contra hcon
             have h1 : ¬ y < 1 / 2 := by linarith
             have h2 : ¬ y = 1 / 2 := by intro h; linarith
             rw [hhalf] at h1; rw [heq] at h2; omega
           · intro h
             rw [heq] at h
             first | linarith | omega)
        | exact ⟨fun h => by linarith, fun h => absurd h hup⟩
    · simp only [ne_eq, true_iff]; intro h; linarith
    · simp only [Bool.false_eq_true, false_iff]; intro h; linarith

/-- Rounding at the quantum `10^q`. -/
theorem roundAt_spec {v : Mag} (hd : 0 < v.den) (q : Int) (mode : Mode) (s : Bool) :
    roundsTo mode s (v.value / 10 ^ q) (roundAt v q mode s).n ∧
    ((roundAt v q mode s).inexact = true ↔ v.value / 10 ^ q ≠ (roundAt v q mode s).n) ∧
    ((roundAt v q mode s).incremented = true ↔ v.value / 10 ^ q < (roundAt v q mode s).n) := by
  unfold roundAt
  split
  · rename_i h
    have hv : v.value / 10 ^ q = ((v.num * 10 ^ (v.exp - q).toNat : Nat) : ℚ) / v.den := by
      have he : v.exp = q + ((v.exp - q).toNat : Int) := by omega
      unfold Mag.value
      conv_lhs => rw [he]
      rw [zpow_add₀ (by norm_num), zpow_natCast]
      push_cast
      field_simp
    rw [hv]
    exact roundInt_spec _ hd mode s
  · rename_i h
    have hv : v.value / 10 ^ q = (v.num : ℚ) / ((v.den * 10 ^ (q - v.exp).toNat : Nat) : ℚ) := by
      have he : q = v.exp + ((q - v.exp).toNat : Int) := by omega
      unfold Mag.value
      conv_lhs => rw [he]
      rw [zpow_add₀ (by norm_num), zpow_natCast]
      push_cast
      field_simp
    rw [hv]
    exact roundInt_spec _ (by positivity) mode s

theorem Mag.value_pos {v : Mag} (hn : 0 < v.num) (hd : 0 < v.den) : 0 < v.value := by
  unfold Mag.value
  have : (0 : ℚ) < v.num := by exact_mod_cast hn
  have : (0 : ℚ) < v.den := by exact_mod_cast hd
  positivity

/-- `10^k <= v < 10^(k+1)` for `k = floor(log10(v))`. -/
theorem Mag.floorLog10_spec {v : Mag} (hn : 0 < v.num) (hd : 0 < v.den) :
    (10 : ℚ) ^ v.floorLog10 ≤ v.value ∧ v.value < 10 ^ (v.floorLog10 + 1) := by
  obtain ⟨k, hk⟩ : ∃ k, k = numDigits v.den := ⟨_, rfl⟩
  have hden : v.den < 10 ^ k := hk ▸ lt_pow_numDigits v.den
  obtain ⟨z, hz⟩ : ∃ z, z = v.num * 10 ^ k / v.den := ⟨_, rfl⟩
  have hz0 : 0 < z := by
    rw [hz]
    apply Nat.div_pos _ hd
    calc v.den ≤ 1 * 10 ^ k := by omega
      _ ≤ v.num * 10 ^ k := Nat.mul_le_mul_right _ hn
  obtain ⟨h1, h2⟩ := Sys2Proof.Machine.floorLog10_spec hz0
  have h3 : 10 ^ Sys2Proof.Machine.floorLog10 z * v.den ≤ v.num * 10 ^ k :=
    (Nat.mul_le_mul_right _ h1).trans (hz ▸ Nat.div_mul_le_self _ _)
  have h4 : v.num * 10 ^ k < 10 ^ (Sys2Proof.Machine.floorLog10 z + 1) * v.den := by
    rw [← Nat.div_lt_iff_lt_mul hd, ← hz]; exact h2
  have hdq : (0 : ℚ) < v.den := by exact_mod_cast hd
  have hfl : v.floorLog10 = (Sys2Proof.Machine.floorLog10 z : Int) + (v.exp - k) := by
    simp only [Mag.floorLog10, ← hk, ← hz]; ring
  have hval : v.value = (((v.num * 10 ^ k : Nat) : ℚ) / v.den) * 10 ^ (v.exp - k) := by
    unfold Mag.value
    rw [zpow_sub₀ (by norm_num), zpow_natCast]
    push_cast
    field_simp
  rw [hval, hfl]
  have hpos : (0 : ℚ) < 10 ^ (v.exp - (k : Int)) := by positivity
  constructor
  · rw [zpow_add₀ (by norm_num), zpow_natCast]
    apply mul_le_mul_of_nonneg_right _ hpos.le
    rw [le_div_iff₀ hdq]
    exact_mod_cast h3
  · rw [add_right_comm, zpow_add₀ (by norm_num)]
    apply mul_lt_mul_of_pos_right _ hpos
    rw [div_lt_iff₀ hdq]
    exact_mod_cast h4

/-- `v < 10^k` is decided as over the rationals. -/
theorem Mag.belowPow10_iff {v : Mag} (hd : 0 < v.den) (k : Int) :
    v.belowPow10 k = true ↔ v.value < 10 ^ k := by
  have hdq : (0 : ℚ) < v.den := by exact_mod_cast hd
  unfold Mag.belowPow10
  split
  · rename_i h
    have he : v.exp = k + ((v.exp - k).toNat : Int) := by omega
    have hv : v.value = (((v.num * 10 ^ (v.exp - k).toNat : Nat) : ℚ) / v.den) * 10 ^ k := by
      unfold Mag.value
      conv_lhs => rw [he]
      rw [zpow_add₀ (by norm_num), zpow_natCast]
      push_cast; ring
    rw [hv, decide_eq_true_eq]
    have hp : (0 : ℚ) < 10 ^ k := by positivity
    rw [mul_lt_iff_lt_one_left hp, div_lt_one hdq]
    norm_cast
  · rename_i h
    have he : k = v.exp + ((k - v.exp).toNat : Int) := by omega
    have hp : (0 : ℚ) < 10 ^ v.exp := by positivity
    rw [decide_eq_true_eq]
    conv_rhs => rw [he]
    rw [zpow_add₀ (by norm_num), zpow_natCast, mul_comm ((10 : ℚ) ^ v.exp)]
    unfold Mag.value
    rw [mul_lt_mul_iff_left₀ hp, div_lt_iff₀ hdq]
    constructor <;> intro h
    · have : ((v.num : Nat) : ℚ) < ((v.den * 10 ^ (k - v.exp).toNat : Nat) : ℚ) := by exact_mod_cast h
      push_cast at this; linarith
    · have : ((v.num : Nat) : ℚ) < ((v.den * 10 ^ (k - v.exp).toNat : Nat) : ℚ) := by push_cast; linarith
      exact_mod_cast this

/-- The rounded value is the integer below or the one above. -/
theorem roundsTo_bounds {mode : Mode} {s : Bool} {x : ℚ} {n : Nat} (h : roundsTo mode s x n) (k : Nat) :
    ((k : ℚ) ≤ x → k ≤ n) ∧ (x ≤ k → n ≤ k) := by
  by_cases hx : ∃ k : Nat, x = k
  · have := h.1 hx
    rw [this]
    exact ⟨fun h => by exact_mod_cast h, fun h => by exact_mod_cast h⟩
  · have h1 := (h.2 hx).1
    rw [abs_lt] at h1
    constructor <;> intro hk <;> by_contra hcon
    · have h2 : ((n + 1 : Nat) : ℚ) ≤ k := by exact_mod_cast (by omega : n + 1 ≤ k)
      push_cast at h2; linarith
    · have h2 : ((k + 1 : Nat) : ℚ) ≤ n := by exact_mod_cast (by omega : k + 1 ≤ n)
      push_cast at h2; linarith

/-- A mode has one answer. -/
theorem roundsTo_unique {mode : Mode} {s : Bool} {x : ℚ} {m n : Nat} (hm : roundsTo mode s x m)
    (hn : roundsTo mode s x n) : m = n := by
  by_cases hx : ∃ k : Nat, x = k
  · have h1 := hm.1 hx
    have h2 := hn.1 hx
    exact_mod_cast h1.symm.trans h2
  obtain ⟨a1, a2⟩ := hm.2 hx
  obtain ⟨b1, b2⟩ := hn.2 hx
  rw [abs_lt] at a1 b1
  by_contra hne
  have hnx : (n : ℚ) ≠ x := fun h => hx ⟨n, h.symm⟩
  have hmx : (m : ℚ) ≠ x := fun h => hx ⟨m, h.symm⟩
  wlog hlt : m < n generalizing m n
  · exact this hn hm b1 b2 a1 a2 (Ne.symm hne) hmx hnx (by omega)
  have h1 : n = m + 1 := by
    by_contra hcon
    have h2 : ((m + 2 : Nat) : ℚ) ≤ n := by exact_mod_cast (by omega : m + 2 ≤ n)
    push_cast at h2; linarith
  subst h1
  push_cast at *
  have hm' : (m : ℚ) < x := by
    rcases lt_or_gt_of_ne hmx with h | h
    · exact h
    · linarith
  have hn' : x < (m : ℚ) + 1 := by
    rcases lt_or_gt_of_ne hnx with h | h
    · linarith
    · exact h
  have e1 : |(m : ℚ) - x| = x - m := by rw [abs_of_neg] <;> linarith
  have e2 : |(m : ℚ) + 1 - x| = m + 1 - x := by rw [abs_of_pos]; linarith
  rw [e1] at a2; rw [e2] at b2
  cases mode <;> simp only at a2 b2
  · have h1 : x - m = 1 / 2 := by linarith
    have h2 := a2.2 h1
    have h3 := b2.2 (by linarith)
    omega
  · linarith
  · cases s <;> simp at a2 b2 <;> linarith
  · cases s <;> simp at a2 b2 <;> linarith
  · have h1 : x - m = 1 / 2 := by linarith
    have := a2.2 h1; linarith
  · have h1 : x - m = 1 / 2 := by linarith
    have := b2.2 (by linarith); linarith
  · linarith
  · have := a2.2 (b2.1 (by linarith)); linarith

end Sys2Proof.Machine
end

