-- ==== Sys2Proof/Laws/Delivery.lean ====
section
/-! SUPPORT. What `pickForm`, `roundUnbounded` and `roundDeliver` deliver, over the rationals
(41_execution_model.md R216, R217, R230). -/

namespace Sys2Proof.Machine

theorem Fmt.precision_pos (f : Fmt) : 0 < f.precision := by cases f <;> decide

/-- The number of digits grows by one for each factor 10. -/
theorem numDigits_mul_pow {c : Nat} (h : 0 < c) (k : Nat) : numDigits (c * 10 ^ k) = numDigits c + k := by
  have h1 := pow_le_of_numDigits h
  have h2 := lt_pow_numDigits c
  have h3 := numDigits_pos h
  apply numDigits_eq (by omega)
  · rw [show numDigits c + k - 1 = numDigits c - 1 + k by omega, pow_add]
    exact Nat.mul_le_mul_right _ h1
  · rw [pow_add]
    exact Nat.mul_lt_mul_of_pos_right h2 (by positivity)

/-- Two forms of one value: the one of smaller exponent has the padded coefficient. -/
theorem form_pad {c c' : Nat} {e e' : Int} (h : (c' : ℚ) * 10 ^ e' = (c : ℚ) * 10 ^ e) (he : e' ≤ e) :
    c' = c * 10 ^ (e - e').toNat := by
  have h1 : e = e' + ((e - e').toNat : Int) := by omega
  have hp : (0 : ℚ) < 10 ^ e' := by positivity
  have h2 : (c' : ℚ) * 10 ^ e' = ((c * 10 ^ (e - e').toNat : Nat) : ℚ) * 10 ^ e' := by
    rw [h]
    conv_lhs => rw [h1]
    rw [zpow_add₀ (by norm_num), zpow_natCast]
    push_cast; ring
  exact_mod_cast mul_right_cancel₀ hp.ne' h2

theorem pad_value (c : Nat) {e e' : Int} (he : e' ≤ e) :
    ((c * 10 ^ (e - e').toNat : Nat) : ℚ) * 10 ^ e' = (c : ℚ) * 10 ^ e := by
  have h1 : e = e' + ((e - e').toNat : Int) := by omega
  conv_rhs => rw [h1]
  rw [zpow_add₀ (by norm_num), zpow_natCast]
  push_cast; ring

/-- The exponents of the forms of `c * 10^e` with at most `p` digits (40_data_formats.md R155). -/
theorem form_range {p c c' : Nat} {e e' : Int} (hc : 0 < c) (hcp : c < 10 ^ p) (hc' : c' < 10 ^ p)
    (h : (c' : ℚ) * 10 ^ e' = (c : ℚ) * 10 ^ e) :
    e - ((p : Int) - numDigits c) ≤ e' ∧ e' ≤ e + trailingZeros p c := by
  have hnd : numDigits c ≤ p := numDigits_le_iff.2 hcp
  rcases le_total e' e with he | he
  · have h1 := form_pad h he
    have h2 := numDigits_mul_pow hc (e - e').toNat
    rw [← h1] at h2
    have h3 : numDigits c' ≤ p := numDigits_le_iff.2 hc'
    omega
  · have h1 := form_pad h.symm he
    have h2 : 10 ^ (e' - e).toNat ∣ c := ⟨c', by rw [h1]; ring⟩
    have h3 := le_trailingZeros hc hcp h2
    omega

/-- `PickForm` delivers the form of R216 (41_execution_model.md R217). -/
theorem pickForm_spec {p : Nat} {xmin xmax : Int} {c : Nat} {e ideal : Int} {exact : Bool} (hc : 0 < c)
    (hcp : c < 10 ^ p)
    (hform : ∃ c' e', isForm p xmin xmax c' e' ∧ (c' : ℚ) * 10 ^ e' = (c : ℚ) * 10 ^ e) :
    ((pickForm p xmin xmax c e ideal exact).1 : ℚ) * 10 ^ (pickForm p xmin xmax c e ideal exact).2
      = (c : ℚ) * 10 ^ e ∧
    deliveredForm p xmin xmax (exact = true) ideal (pickForm p xmin xmax c e ideal exact).1
      (pickForm p xmin xmax c e ideal exact).2 := by
  have hnd : numDigits c ≤ p := numDigits_le_iff.2 hcp
  obtain ⟨lo, hlo⟩ : ∃ lo, lo = max xmin (e - ((p : Int) - numDigits c)) := ⟨_, rfl⟩
  obtain ⟨hi, hhi⟩ : ∃ hi, hi = min xmax (e + trailingZeros p c) := ⟨_, rfl⟩
  have hall : ∀ c' e', isForm p xmin xmax c' e' → (c' : ℚ) * 10 ^ e' = (c : ℚ) * 10 ^ e → lo ≤ e' ∧ e' ≤ hi := by
    intro c' e' ⟨h1, h2, h3⟩ h4
    have := form_range hc hcp h1 h4
    omega
  have hle : lo ≤ hi := by
    obtain ⟨c', e', h1, h2⟩ := hform
    have := hall c' e' h1 h2
    omega
  obtain ⟨e', he'⟩ : ∃ e', e' = if exact then clampInt lo hi ideal else lo := ⟨_, rfl⟩
  have hrange : lo ≤ e' ∧ e' ≤ hi := by
    rw [he']; unfold clampInt; split <;> omega
  obtain ⟨c', hc'⟩ : ∃ c', c' = if e' ≤ e then c * 10 ^ (e - e').toNat else c / 10 ^ (e' - e).toNat := ⟨_, rfl⟩
  have hpick : pickForm p xmin xmax c e ideal exact = (c', e') := by
    simp only [pickForm, ← hlo, ← hhi, ← he', ← hc']
  rw [hpick]
  have hval : (c' : ℚ) * 10 ^ e' = (c : ℚ) * 10 ^ e ∧ c' < 10 ^ p := by
    rw [hc']
    split
    · rename_i h
      refine ⟨pad_value c h, ?_⟩
      rw [← numDigits_le_iff, numDigits_mul_pow hc]
      omega
    · rename_i h
      have hd : 10 ^ (e' - e).toNat ∣ c := by
        apply dvd_trans _ (pow_trailingZeros_dvd p c)
        exact pow_dvd_pow 10 (by omega)
      obtain ⟨m, hm⟩ := hd
      have hm' : c / 10 ^ (e' - e).toNat = m := by
        rw [hm]; exact Nat.mul_div_cancel_left _ (by positivity)
      rw [hm']
      constructor
      · rw [← pad_value m (by omega : e ≤ e'), hm]; push_cast; ring
      · calc m ≤ 10 ^ (e' - e).toNat * m := Nat.le_mul_of_pos_left _ (by positivity)
          _ = c := hm.symm
          _ < 10 ^ p := hcp
  refine ⟨hval.1, ⟨hval.2, by omega, by omega⟩, ?_⟩
  intro c'' e'' h1 h2
  have h3 := hall c'' e'' h1 (h2.trans hval.1)
  cases exact
  · simp only [Bool.false_eq_true, if_false] at he'
    simp only [Bool.false_eq_true, false_imp_iff, true_and]
    intro; omega
  · simp only [if_true] at he'
    simp only [not_true_eq_false, false_imp_iff, and_true]
    intro
    unfold clampInt at he'
    rcases abs_cases (e' - ideal) with ⟨h4, h5⟩ | ⟨h4, h5⟩ <;>
      rcases abs_cases (e'' - ideal) with ⟨h6, h7⟩ | ⟨h6, h7⟩ <;> omega

theorem zpow10_lt_iff {a b : Int} : (10 : ℚ) ^ a < 10 ^ b ↔ a < b := zpow_lt_zpow_iff_right₀ (by norm_num)

theorem zpow10_le_iff {a b : Int} : (10 : ℚ) ^ a ≤ 10 ^ b ↔ a ≤ b := zpow_le_zpow_iff_right₀ (by norm_num)

theorem zpow10_add_nat (a : Int) (n : Nat) : (10 : ℚ) ^ (a + n) = 10 ^ a * 10 ^ n := by
  rw [zpow_add₀ (by norm_num), zpow_natCast]

/-- The bounds of an unbounded rounding place the value between two powers of ten. -/
theorem unboundedRounding_bounds {p : Nat} {mode : Mode} {s : Bool} {x : ℚ} {n : Nat} {q : Int}
    (h : unboundedRounding p mode s x n q) :
    (10 : ℚ) ^ (q + (p - 1 : Nat)) ≤ x ∧ x < 10 ^ (q + p) ∧ 10 ^ (p - 1) ≤ n ∧ n ≤ 10 ^ p := by
  obtain ⟨h1, h2, h3⟩ := h
  have hq : (0 : ℚ) < 10 ^ q := by positivity
  refine ⟨?_, ?_, ?_, ?_⟩
  · rw [le_div_iff₀ hq] at h1
    rw [zpow10_add_nat]; linarith
  · rw [div_lt_iff₀ hq] at h2
    rw [zpow10_add_nat]; linarith
  · exact (roundsTo_bounds h3 _).1 (by push_cast; exact h1)
  · exact (roundsTo_bounds h3 _).2 (by push_cast; exact h2.le)

/-- The unbounded rounding of a magnitude is unique. -/
theorem unboundedRounding_unique {p : Nat} {mode : Mode} {s : Bool} {x : ℚ} {n m : Nat}
    {q r : Int} (h : unboundedRounding p mode s x n q) (h' : unboundedRounding p mode s x m r) :
    n = m ∧ q = r := by
  obtain ⟨a1, a2, -, -⟩ := unboundedRounding_bounds h
  obtain ⟨b1, b2, -, -⟩ := unboundedRounding_bounds h'
  have h1 := zpow10_lt_iff.1 (a1.trans_lt b2)
  have h2 := zpow10_lt_iff.1 (b1.trans_lt a2)
  have hq : q = r := by omega
  subst hq
  exact ⟨roundsTo_unique h.2.2 h'.2.2, rfl⟩

/-- What `roundUnbounded` returns: the rounded value with exactly `p` digits, and whether rounding
changed or raised it. -/
theorem roundUnbounded_spec {p : Nat} (hp : 0 < p) {v : Mag} (hn : 0 < v.num) (hd : 0 < v.den) (mode : Mode)
    (s : Bool) {r : Rounded} {e : Int} (h : roundUnbounded p v mode s = (r, e)) :
    ∃ n q, unboundedRounding p mode s v.value n q ∧ (r.n : ℚ) * 10 ^ e = (n : ℚ) * 10 ^ q ∧
      10 ^ (p - 1) ≤ r.n ∧ r.n < 10 ^ p ∧ q ≤ e ∧
      (r.inexact = true ↔ v.value ≠ (n : ℚ) * 10 ^ q) ∧ (r.incremented = true ↔ v.value < (n : ℚ) * 10 ^ q) := by
  obtain ⟨q, hqdef⟩ : ∃ q, q = v.floorLog10 - ((p : Int) - 1) := ⟨_, rfl⟩
  obtain ⟨h1, h2⟩ := Mag.floorLog10_spec hn hd
  have hq : (0 : ℚ) < 10 ^ q := by positivity
  rw [show v.floorLog10 = q + (p - 1 : Nat) by omega] at h1
  rw [show v.floorLog10 + 1 = q + p by omega] at h2
  obtain ⟨k1, k2, k3⟩ := roundAt_spec hd q mode s
  have hu : unboundedRounding p mode s v.value (roundAt v q mode s).n q := by
    refine ⟨?_, ?_, k1⟩
    · rw [le_div_iff₀ hq, mul_comm, ← zpow10_add_nat]; exact h1
    · rw [div_lt_iff₀ hq, mul_comm, ← zpow10_add_nat]; exact h2
  obtain ⟨-, -, b3, b4⟩ := unboundedRounding_bounds hu
  have hin : (roundAt v q mode s).inexact = true ↔ v.value ≠ ((roundAt v q mode s).n : ℚ) * 10 ^ q := by
    rw [k2, ne_eq, ne_eq, div_eq_iff hq.ne']
  have hinc : (roundAt v q mode s).incremented = true ↔ v.value < ((roundAt v q mode s).n : ℚ) * 10 ^ q := by
    rw [k3, div_lt_iff₀ hq]
  refine ⟨_, q, hu, ?_⟩
  simp only [roundUnbounded, ← hqdef] at h
  split at h
  · rename_i hc
    obtain ⟨rfl, rfl⟩ := Prod.mk.inj h
    refine ⟨?_, le_refl _, Nat.pow_lt_pow_right (by decide) (by omega), by omega, hin, hinc⟩
    rw [hc, show q + 1 = q + (1 : Nat) by norm_num, zpow10_add_nat]
    obtain ⟨k, rfl⟩ : ∃ k, p = k + 1 := ⟨p - 1, by omega⟩
    rw [Nat.add_sub_cancel]
    push_cast [pow_succ]
    ring
  · rename_i hc
    obtain ⟨rfl, rfl⟩ := Prod.mk.inj h
    exact ⟨rfl, b3, by omega, le_refl _, hin, hinc⟩

/-- Carrying out of rounding raises the exponent by one at most. -/
theorem roundUnbounded_le {p : Nat} {v : Mag} {mode : Mode} {s : Bool} {r : Rounded} {e : Int}
    {n : Nat} {q : Int}
    (hval : (r.n : ℚ) * 10 ^ e = (n : ℚ) * 10 ^ q) (hlo : 10 ^ (p - 1) ≤ r.n)
    (hu : unboundedRounding p mode s v.value n q) : e ≤ q + 1 := by
  obtain ⟨-, -, -, hn⟩ := unboundedRounding_bounds hu
  by_contra hcon
  have h1 : (10 : ℚ) ^ (e + (p - 1 : Nat)) ≤ (r.n : ℚ) * 10 ^ e := by
    rw [zpow10_add_nat, mul_comm]
    apply mul_le_mul_of_nonneg_right _ (by positivity)
    exact_mod_cast hlo
  have h2 : (n : ℚ) * 10 ^ q ≤ 10 ^ (q + p) := by
    rw [zpow10_add_nat, mul_comm ((10 : ℚ) ^ q)]
    apply mul_le_mul_of_nonneg_right _ (by positivity)
    exact_mod_cast hn
  have h3 := zpow10_le_iff.1 ((h1.trans hval.le).trans h2)
  omega

/-- The largest finite magnitude of a format, Nmax (40_data_formats.md R162). -/
theorem le_nmax_iff {p : Nat} (hp : 0 < p) {n : Nat} (h1 : 10 ^ (p - 1) ≤ n) (h2 : n < 10 ^ p) (e xmax : Int) :
    (n : ℚ) * 10 ^ e ≤ ((10 ^ p - 1 : Nat) : ℚ) * 10 ^ xmax ↔ e ≤ xmax := by
  constructor
  · intro h
    by_contra hcon
    have h3 : (10 : ℚ) ^ (xmax + p) ≤ (n : ℚ) * 10 ^ e := by
      calc (10 : ℚ) ^ (xmax + p) ≤ 10 ^ (e + (p - 1 : Nat)) := zpow10_le_iff.2 (by omega)
        _ = ((10 ^ (p - 1) : Nat) : ℚ) * 10 ^ e := by rw [zpow10_add_nat]; push_cast; ring
        _ ≤ (n : ℚ) * 10 ^ e := by
          apply mul_le_mul_of_nonneg_right _ (by positivity)
          exact_mod_cast h1
    have h4 : ((10 ^ p - 1 : Nat) : ℚ) * 10 ^ xmax < (10 : ℚ) ^ (xmax + p) := by
      rw [zpow10_add_nat, mul_comm]
      apply mul_lt_mul_of_pos_left _ (by positivity)
      have : 10 ^ p - 1 < 10 ^ p := by have := Nat.pow_pos (n := p) (show 0 < 10 by decide); omega
      exact_mod_cast this
    linarith
  · intro h
    calc (n : ℚ) * 10 ^ e ≤ ((10 ^ p - 1 : Nat) : ℚ) * 10 ^ e := by
          apply mul_le_mul_of_nonneg_right _ (by positivity)
          exact_mod_cast (by omega : n ≤ 10 ^ p - 1)
      _ ≤ ((10 ^ p - 1 : Nat) : ℚ) * 10 ^ xmax := by
          apply mul_le_mul_of_nonneg_left (zpow10_le_iff.2 h) (by positivity)

/-- A normal result: neither overflow nor tiny (41_execution_model.md R230, last lines). -/
theorem roundDeliver_normal {f w : Fmt} {alpha : Int} {oe ue s : Bool} {v : Mag} {ideal : Int} {mode : Mode}
    (hn : 0 < v.num) (hd : 0 < v.den) {n : Nat} {q : Int}
    (hu : unboundedRounding f.precision mode s v.value n q)
    (hmin : (10 : ℚ) ^ (f.xmin + f.precision - 1) ≤ v.value)
    (hmax : (n : ℚ) * 10 ^ q ≤ ((10 ^ f.precision - 1 : Nat) : ℚ) * 10 ^ f.xmax) :
    ∃ c e fi fr, roundDeliver f w alpha oe ue s v ideal mode = ⟨.finite s c e, f, false, false, fi, fr⟩ ∧
      (c : ℚ) * 10 ^ e = (n : ℚ) * 10 ^ q ∧
      deliveredForm f.precision f.xmin f.xmax (v.value = (n : ℚ) * 10 ^ q) ideal c e ∧
      (fi = true ↔ v.value ≠ (n : ℚ) * 10 ^ q) ∧ (fr = true ↔ v.value < (n : ℚ) * 10 ^ q) := by
  have hp := f.precision_pos
  obtain ⟨⟨r, e⟩, hr⟩ : ∃ x, roundUnbounded f.precision v mode s = x := ⟨_, rfl⟩
  obtain ⟨n', q', hu', hval, hlo, hhi, hqe, hin, hinc⟩ := roundUnbounded_spec hp hn hd mode s hr
  obtain ⟨rfl, rfl⟩ := unboundedRounding_unique hu hu'
  have hemax : e ≤ f.xmax := by
    rw [← le_nmax_iff hp hlo hhi, hval]; exact hmax
  have hemin : f.xmin ≤ e := by
    have h1 := (unboundedRounding_bounds hu).2.1
    have h2 := zpow10_lt_iff.1 (hmin.trans_lt h1)
    omega
  have hnt : ¬ v.belowPow10 (f.xmin + f.precision - 1) = true := by
    rw [Mag.belowPow10_iff hd]; linarith
  have hpos : 0 < r.n := lt_of_lt_of_le (by positivity) hlo
  obtain ⟨k1, k2⟩ := pickForm_spec (p := f.precision) (xmin := f.xmin) (xmax := f.xmax) (e := e)
    (ideal := ideal) (exact := !r.inexact) hpos hhi ⟨r.n, e, ⟨hhi, hemin, hemax⟩, rfl⟩
  refine ⟨_, _, r.inexact, r.incremented, ?_, k1.trans hval, ?_, hin, hinc⟩
  · simp only [roundDeliver, hr]
    rw [if_neg (by omega), if_neg hnt]
  · have hex : ((!r.inexact) = true) = (v.value = (n : ℚ) * 10 ^ q) := by
      rw [eq_iff_iff, Bool.not_eq_true', ← Bool.not_eq_true, hin, not_not]
    rw [hex] at k2
    exact k2

/-- A disabled overflow (60_exceptions.md R543). -/
theorem roundDeliver_overflow_disabled {f w : Fmt} {alpha : Int} {ue s : Bool} {v : Mag} {ideal : Int}
    {mode : Mode} (hn : 0 < v.num) (hd : 0 < v.den) {n : Nat} {q : Int}
    (hu : unboundedRounding f.precision mode s v.value n q)
    (hmax : ((10 ^ f.precision - 1 : Nat) : ℚ) * 10 ^ f.xmax < (n : ℚ) * 10 ^ q) :
    roundDeliver f w alpha false ue s v ideal mode =
      if overflowsToInf mode s then ⟨.inf s 0, f, true, false, true, true⟩
      else ⟨.finite s (10 ^ f.precision - 1) f.xmax, f, true, false, true, false⟩ := by
  have hp := f.precision_pos
  obtain ⟨⟨r, e⟩, hr⟩ : ∃ x, roundUnbounded f.precision v mode s = x := ⟨_, rfl⟩
  obtain ⟨n', q', hu', hval, hlo, hhi, hqe, hin, hinc⟩ := roundUnbounded_spec hp hn hd mode s hr
  obtain ⟨rfl, rfl⟩ := unboundedRounding_unique hu hu'
  have hemax : f.xmax < e := by
    by_contra hcon
    have := (le_nmax_iff hp hlo hhi e f.xmax).2 (by omega)
    rw [hval] at this; linarith
  simp only [roundDeliver, hr]
  rw [if_pos hemax]
  simp

/-- The wrapped rounded result of an enabled overflow or underflow (60_exceptions.md R544, R551;
46_conversion.md R394). -/
theorem wrapped_spec {p : Nat} {w : Fmt} {r : Rounded} {e shift ideal : Int} {s : Bool}
    (hlo : 10 ^ (p - 1) ≤ r.n) (hhi : r.n < 10 ^ p) (hpw : p ≤ w.precision) (h1 : w.xmin ≤ e + shift)
    (h2 : e + shift ≤ w.xmax) :
    ∃ c e', wrapped p w s r e shift ideal = .finite s c e' ∧ (c : ℚ) * 10 ^ e' = (r.n : ℚ) * 10 ^ (e + shift) ∧
      (r.inexact = false → deliveredForm w.precision w.xmin w.xmax True (ideal + shift) c e') ∧
      (r.inexact = true → deliveredForm p w.xmin w.xmax False (ideal + shift) c e') := by
  have hpos : 0 < r.n := lt_of_lt_of_le (by positivity) hlo
  have hhi' : r.n < 10 ^ w.precision := hhi.trans_le (Nat.pow_le_pow_right (by decide) hpw)
  cases hr : r.inexact
  · obtain ⟨k1, k2⟩ := pickForm_spec (p := w.precision) (xmin := w.xmin) (xmax := w.xmax) (e := e + shift)
      (ideal := ideal + shift) (exact := true) hpos hhi' ⟨r.n, e + shift, ⟨hhi', h1, h2⟩, rfl⟩
    refine ⟨_, _, ?_, k1, fun _ => by simpa using k2, fun h => by simp at h⟩
    simp only [wrapped, hr]; rfl
  · obtain ⟨k1, k2⟩ := pickForm_spec (p := p) (xmin := w.xmin) (xmax := w.xmax) (e := e + shift)
      (ideal := ideal + shift) (exact := false) hpos hhi ⟨r.n, e + shift, ⟨hhi, h1, h2⟩, rfl⟩
    refine ⟨_, _, ?_, k1, fun h => by simp at h, fun _ => by simpa using k2⟩
    simp only [wrapped, hr]; rfl

/-- An enabled overflow (60_exceptions.md R544), where the wrapped exponent is in range. -/
theorem roundDeliver_overflow_enabled {f w : Fmt} {alpha : Int} {ue s : Bool} {v : Mag} {ideal : Int}
    {mode : Mode} (hn : 0 < v.num) (hd : 0 < v.den) {n : Nat} {q : Int}
    (hu : unboundedRounding f.precision mode s v.value n q)
    (hmax : ((10 ^ f.precision - 1 : Nat) : ℚ) * 10 ^ f.xmax < (n : ℚ) * 10 ^ q)
    (hpw : f.precision ≤ w.precision) (h1 : w.xmin ≤ q - alpha) (h2 : q + 1 - alpha ≤ w.xmax) :
    ∃ c e fi fr, roundDeliver f w alpha true ue s v ideal mode = ⟨.finite s c e, w, true, false, fi, fr⟩ ∧
      (c : ℚ) * 10 ^ (e + alpha) = (n : ℚ) * 10 ^ q ∧
      (v.value = (n : ℚ) * 10 ^ q → deliveredForm w.precision w.xmin w.xmax True (ideal - alpha) c e) ∧
      (v.value ≠ (n : ℚ) * 10 ^ q → deliveredForm f.precision w.xmin w.xmax False (ideal - alpha) c e) ∧
      (fi = true ↔ v.value ≠ (n : ℚ) * 10 ^ q) ∧ (fr = true ↔ v.value < (n : ℚ) * 10 ^ q) := by
  have hp := f.precision_pos
  obtain ⟨⟨r, e⟩, hr⟩ : ∃ x, roundUnbounded f.precision v mode s = x := ⟨_, rfl⟩
  obtain ⟨n', q', hu', hval, hlo, hhi, hqe, hin, hinc⟩ := roundUnbounded_spec hp hn hd mode s hr
  obtain ⟨rfl, rfl⟩ := unboundedRounding_unique hu hu'
  have hemax : f.xmax < e := by
    by_contra hcon
    have := (le_nmax_iff hp hlo hhi e f.xmax).2 (by omega)
    rw [hval] at this; linarith
  have heq : e ≤ q + 1 := roundUnbounded_le hval hlo hu
  obtain ⟨c, e', k1, k2, k3, k4⟩ := wrapped_spec (w := w) (s := s) (e := e) (shift := -alpha) (ideal := ideal) hlo hhi hpw
    (by omega) (by omega)
  refine ⟨c, e', r.inexact, r.incremented, ?_, ?_, ?_, ?_, hin, hinc⟩
  · simp only [roundDeliver, hr]
    rw [if_pos hemax, if_pos trivial, k1]
  · rw [zpow_add₀ (by norm_num), ← mul_assoc, k2, mul_assoc, ← zpow_add₀ (by norm_num), ← hval]
    congr 2; omega
  · intro h
    exact k3 (by rw [← Bool.not_eq_true, hin, not_not]; exact h)
  · exact fun h => k4 (hin.2 h)

/-- An enabled underflow (60_exceptions.md R551), where the wrapped exponent is in range. -/
theorem roundDeliver_underflow_enabled {f w : Fmt} {alpha : Int} {oe s : Bool} {v : Mag} {ideal : Int}
    {mode : Mode} (hn : 0 < v.num) (hd : 0 < v.den) {n : Nat} {q : Int}
    (hu : unboundedRounding f.precision mode s v.value n q)
    (hmin : v.value < (10 : ℚ) ^ (f.xmin + f.precision - 1))
    (hpw : f.precision ≤ w.precision) (h1 : w.xmin ≤ q + alpha) (h2 : q + 1 + alpha ≤ w.xmax) :
    ∃ c e fi fr, roundDeliver f w alpha oe true s v ideal mode = ⟨.finite s c e, w, false, true, fi, fr⟩ ∧
      (c : ℚ) * 10 ^ (e - alpha) = (n : ℚ) * 10 ^ q ∧
      (v.value = (n : ℚ) * 10 ^ q → deliveredForm w.precision w.xmin w.xmax True (ideal + alpha) c e) ∧
      (v.value ≠ (n : ℚ) * 10 ^ q → deliveredForm f.precision w.xmin w.xmax False (ideal + alpha) c e) ∧
      (fi = true ↔ v.value ≠ (n : ℚ) * 10 ^ q) ∧ (fr = true ↔ v.value < (n : ℚ) * 10 ^ q) := by
  have hp := f.precision_pos
  obtain ⟨⟨r, e⟩, hr⟩ : ∃ x, roundUnbounded f.precision v mode s = x := ⟨_, rfl⟩
  obtain ⟨n', q', hu', hval, hlo, hhi, hqe, hin, hinc⟩ := roundUnbounded_spec hp hn hd mode s hr
  obtain ⟨rfl, rfl⟩ := unboundedRounding_unique hu hu'
  have heq : e ≤ q + 1 := roundUnbounded_le hval hlo hu
  have hemax : ¬ f.xmax < e := by
    have h3 := zpow10_lt_iff.1 ((unboundedRounding_bounds hu).1.trans_lt hmin)
    cases f <;> simp only [Fmt.xmin, Fmt.xmax, Fmt.precision] at * <;> omega
  have ht : v.belowPow10 (f.xmin + f.precision - 1) = true := (Mag.belowPow10_iff hd _).2 hmin
  obtain ⟨c, e', k1, k2, k3, k4⟩ := wrapped_spec (w := w) (s := s) (e := e) (shift := alpha) (ideal := ideal) hlo hhi hpw
    (by omega) (by omega)
  refine ⟨c, e', r.inexact, r.incremented, ?_, ?_, ?_, ?_, hin, hinc⟩
  · simp only [roundDeliver, hr]
    rw [if_neg hemax, if_pos ht, if_pos trivial, k1]
  · rw [sub_eq_add_neg, zpow_add₀ (by norm_num), ← mul_assoc, k2, mul_assoc, ← zpow_add₀ (by norm_num), ← hval]
    congr 2; omega
  · intro h
    exact k3 (by rw [← Bool.not_eq_true, hin, not_not]; exact h)
  · exact fun h => k4 (hin.2 h)

/-- A tiny result with underflow disabled: rounded at the quantum `10^Xmin`, underflow only when it is
inexact (60_exceptions.md R550, R552; 41_execution_model.md R230). -/
theorem roundDeliver_tiny {f w : Fmt} {alpha : Int} {oe s : Bool} {v : Mag} {ideal : Int}
    {mode : Mode} (hn : 0 < v.num) (hd : 0 < v.den) {n : Nat}
    (hu : roundsTo mode s (v.value / 10 ^ f.xmin) n)
    (hmin : v.value < (10 : ℚ) ^ (f.xmin + f.precision - 1)) :
    ∃ c e fi fr, roundDeliver f w alpha oe false s v ideal mode = ⟨.finite s c e, f, false, fi, fi, fr⟩ ∧
      (c : ℚ) * 10 ^ e = (n : ℚ) * 10 ^ f.xmin ∧
      deliveredForm f.precision f.xmin f.xmax (v.value = (n : ℚ) * 10 ^ f.xmin) ideal c e ∧
      (fi = true ↔ v.value ≠ (n : ℚ) * 10 ^ f.xmin) ∧ (fr = true ↔ v.value < (n : ℚ) * 10 ^ f.xmin) := by
  have hp := f.precision_pos
  have hq : (0 : ℚ) < 10 ^ f.xmin := by positivity
  have hv := Mag.value_pos hn hd
  obtain ⟨⟨r, e⟩, hr⟩ : ∃ x, roundUnbounded f.precision v mode s = x := ⟨_, rfl⟩
  obtain ⟨n', q', hu', hval, hlo, hhi, hqe, -, -⟩ := roundUnbounded_spec hp hn hd mode s hr
  have heq : e ≤ q' + 1 := roundUnbounded_le hval hlo hu'
  have hemax : ¬ f.xmax < e := by
    have h3 := zpow10_lt_iff.1 ((unboundedRounding_bounds hu').1.trans_lt hmin)
    cases f <;> simp only [Fmt.xmin, Fmt.xmax, Fmt.precision] at * <;> omega
  have ht : v.belowPow10 (f.xmin + f.precision - 1) = true := (Mag.belowPow10_iff hd _).2 hmin
  obtain ⟨k1, k2, k3⟩ := roundAt_spec hd f.xmin mode s
  have hnr := roundsTo_unique hu k1
  rw [← hnr] at k2 k3
  have hin : (roundAt v f.xmin mode s).inexact = true ↔ v.value ≠ (n : ℚ) * 10 ^ f.xmin := by
    rw [k2, ne_eq, ne_eq, div_eq_iff hq.ne']
  have hinc : (roundAt v f.xmin mode s).incremented = true ↔ v.value < (n : ℚ) * 10 ^ f.xmin := by
    rw [k3, div_lt_iff₀ hq]
  have hnp : n < 10 ^ f.precision := by
    have h1 : v.value / 10 ^ f.xmin ≤ ((10 ^ (f.precision - 1) : Nat) : ℚ) := by
      rw [div_le_iff₀ hq]
      have h2 : (10 : ℚ) ^ (f.xmin + f.precision - 1) = 10 ^ (f.precision - 1) * 10 ^ f.xmin := by
        rw [show f.xmin + (f.precision : Int) - 1 = f.xmin + ((f.precision - 1 : Nat) : Int) by omega,
          zpow10_add_nat, mul_comm]
      push_cast; linarith
    have h2 := (roundsTo_bounds hu _).2 h1
    have h3 : 10 ^ (f.precision - 1) < 10 ^ f.precision := Nat.pow_lt_pow_right (by decide) (by omega)
    omega
  have hrange : f.xmin ≤ f.xmax := by cases f <;> decide
  by_cases h0 : n = 0
  · have hne : v.value ≠ (n : ℚ) * 10 ^ f.xmin := by rw [h0]; simp; exact hv.ne'
    refine ⟨0, f.xmin, (roundAt v f.xmin mode s).inexact, (roundAt v f.xmin mode s).incremented, ?_, ?_, ?_, hin, hinc⟩
    · simp only [roundDeliver, hr]
      rw [if_neg hemax, if_pos ht, if_neg (by decide), if_pos (by rw [← hnr, h0])]
    · rw [h0]
    · refine ⟨⟨by positivity, le_refl _, hrange⟩, ?_⟩
      intro c' e' h1 _
      exact ⟨fun h => absurd h hne, fun _ => h1.2.1⟩
  · obtain ⟨j1, j2⟩ := pickForm_spec (p := f.precision) (xmin := f.xmin) (xmax := f.xmax) (e := f.xmin)
      (ideal := ideal) (exact := !(roundAt v f.xmin mode s).inexact) (Nat.pos_of_ne_zero h0) hnp
      ⟨n, f.xmin, ⟨hnp, le_refl _, hrange⟩, rfl⟩
    refine ⟨_, _, (roundAt v f.xmin mode s).inexact, (roundAt v f.xmin mode s).incremented, ?_, j1, ?_, hin, hinc⟩
    · simp only [roundDeliver, hr]
      rw [if_neg hemax, if_pos ht, if_neg (by decide), if_neg (by rw [← hnr]; exact h0), ← hnr]
    · have hex : ((!(roundAt v f.xmin mode s).inexact) = true) = (v.value = (n : ℚ) * 10 ^ f.xmin) := by
        rw [eq_iff_iff, Bool.not_eq_true', ← Bool.not_eq_true, hin, not_not]
      rw [hex] at j2
      exact j2

end Sys2Proof.Machine
end

