-- ==== Sys2Proof/Laws/Fpscr.lean ====
section
/-! SUPPORT. Bits of the FPSCR after the updates of `Machine/Flags.lean`. -/

namespace Sys2Proof.Machine

theorem index_lt (b : FpscrBit) : b.index < 64 := by cases b <;> decide

theorem index_inj {a b : FpscrBit} (h : a.index = b.index) : a = b := by
  cases a <;> cases b <;> first | rfl | (exact absurd h (by decide))

theorem index_eq_iff {a b : FpscrBit} : a.index = b.index ↔ a = b := ⟨index_inj, fun h => h ▸ rfl⟩

/-- Every bit, by its number from the left, after one bit is written. -/
theorem getMsbD_setBit (w : Dword) (b : FpscrBit) (v : Bool) {k : Nat} (hk : k < 64) :
    (setBit w b v).getMsbD k = if k = b.index then v else w.getMsbD k := by
  have hb := index_lt b
  unfold setBit
  cases v
  · simp only [BitVec.getMsbD_eq_getLsbD, hk, decide_true, Bool.true_and, if_false, Bool.false_eq_true,
      BitVec.getLsbD_and, BitVec.getLsbD_not, BitVec.getLsbD_shiftLeft, BitVec.getLsbD_one]
    by_cases h : k = b.index
    · subst h
      simp
    · have : ¬ (64 - 1 - k - (63 - b.index) = 0 ∧ ¬ (64 - 1 - k < 63 - b.index)) := by omega
      by_cases h2 : 64 - 1 - k < 63 - b.index
      · simp [h, h2]
        omega
      · have h3 : ¬ (64 - 1 - k - (63 - b.index) = 0) := by omega
        simp [h, h3]
        omega
  · simp only [BitVec.getMsbD_eq_getLsbD, hk, decide_true, Bool.true_and, if_true,
      BitVec.getLsbD_or, BitVec.getLsbD_shiftLeft, BitVec.getLsbD_one]
    by_cases h : k = b.index
    · subst h
      simp
      omega
    · by_cases h2 : 64 - 1 - k < 63 - b.index
      · simp [h, h2]
      · have h3 : ¬ (64 - 1 - k - (63 - b.index) = 0) := by omega
        simp [h, h3]

/-- A bit that is not the one written, by its number. -/
theorem getMsbD_setBit_ne (w : Dword) (b : FpscrBit) (v : Bool) {k : Nat} (hk : k < 64)
    (h : k ≠ b.index) : (setBit w b v).getMsbD k = w.getMsbD k := by
  rw [getMsbD_setBit _ _ _ hk, if_neg h]

@[simp] theorem getBit_setBit (w : Dword) (b d : FpscrBit) (v : Bool) :
    getBit (setBit w b v) d = if d = b then v else getBit w d := by
  unfold getBit
  rw [getMsbD_setBit _ _ _ (index_lt d)]
  simp [index_eq_iff]

/-- Two words with the same 64 bits are equal. -/
theorem eq_of_getMsbD {a b : Dword} (h : ∀ k < 64, a.getMsbD k = b.getMsbD k) : a = b :=
  BitVec.eq_of_getMsbD_eq h

@[simp] theorem getBit_setFpcc (w : Dword) (code : BitVec 4) (b : FpscrBit) :
    getBit (setFpcc w code) b =
      if b = .fu then code.getMsbD 3 else if b = .fe then code.getMsbD 2
      else if b = .fg then code.getMsbD 1 else if b = .fl then code.getMsbD 0 else getBit w b := by
  simp [setFpcc]

@[simp] theorem getBit_setFprf (w : Dword) (code : BitVec 5) (b : FpscrBit) :
    getBit (setFprf w code) b =
      if b = .fu then (code.extractLsb' 0 4).getMsbD 3
      else if b = .fe then (code.extractLsb' 0 4).getMsbD 2
      else if b = .fg then (code.extractLsb' 0 4).getMsbD 1
      else if b = .fl then (code.extractLsb' 0 4).getMsbD 0
      else if b = .c then code.getMsbD 0 else getBit w b := by
  simp [setFprf]

/-- A bit that no rule of FPCC names keeps its value, by its number. -/
theorem getMsbD_setFpcc (w : Dword) (code : BitVec 4) {k : Nat} (hk : k < 64) (h : k < 48 ∨ 51 < k) :
    (setFpcc w code).getMsbD k = w.getMsbD k := by
  unfold setFpcc
  rw [getMsbD_setBit_ne _ _ _ hk (by simp only [FpscrBit.index]; omega),
    getMsbD_setBit_ne _ _ _ hk (by simp only [FpscrBit.index]; omega),
    getMsbD_setBit_ne _ _ _ hk (by simp only [FpscrBit.index]; omega),
    getMsbD_setBit_ne _ _ _ hk (by simp only [FpscrBit.index]; omega)]

/-- A bit outside FPRF keeps its value, by its number. -/
theorem getMsbD_setFprf (w : Dword) (code : BitVec 5) {k : Nat} (hk : k < 64) (h : k < 47 ∨ 51 < k) :
    (setFprf w code).getMsbD k = w.getMsbD k := by
  unfold setFprf
  rw [getMsbD_setFpcc _ _ hk (by omega),
    getMsbD_setBit_ne _ _ _ hk (by simp only [FpscrBit.index]; omega)]

/-- FPCC by its bits. -/
theorem getMsbD_fpccOf (w : Dword) {i : Nat} (hi : i < 4) : (fpccOf w).getMsbD i = w.getMsbD (48 + i) := by
  simp only [fpccOf, BitVec.getMsbD_eq_getLsbD, BitVec.getLsbD_extractLsb']
  rw [show 12 + (4 - 1 - i) = 64 - 1 - (48 + i) by omega]
  simp [hi, show 48 + i < 64 by omega, show 4 - 1 - i < 4 by omega]

/-- FPRF by its bits. -/
theorem getMsbD_fprfOf (w : Dword) {i : Nat} (hi : i < 5) : (fprfOf w).getMsbD i = w.getMsbD (47 + i) := by
  simp only [fprfOf, BitVec.getMsbD_eq_getLsbD, BitVec.getLsbD_extractLsb']
  rw [show 12 + (5 - 1 - i) = 64 - 1 - (47 + i) by omega]
  simp [hi, show 47 + i < 64 by omega, show 5 - 1 - i < 5 by omega]

/-- The last four bits of an FPRF code, by their numbers. -/
theorem getMsbD_codeTail (code : BitVec 5) {j : Nat} (hj : j < 4) :
    (code.extractLsb' 0 4).getMsbD j = code.getMsbD (j + 1) := by
  simp only [BitVec.getMsbD_eq_getLsbD, BitVec.getLsbD_extractLsb']
  rw [show 0 + (4 - 1 - j) = 5 - 1 - (j + 1) by omega]
  simp [hj, show j + 1 < 5 by omega, show 4 - 1 - j < 4 by omega]

/-- FPCC reads back what was written. -/
theorem fpccOf_setFpcc (w : Dword) (code : BitVec 4) : fpccOf (setFpcc w code) = code := by
  apply BitVec.eq_of_getMsbD_eq
  intro i hi
  rw [getMsbD_fpccOf _ hi]
  have h : ∀ b : FpscrBit, (setFpcc w code).getMsbD b.index = getBit (setFpcc w code) b := fun _ => rfl
  rcases (by omega : i = 0 ∨ i = 1 ∨ i = 2 ∨ i = 3) with rfl | rfl | rfl | rfl
  · exact (h .fl).trans (by simp)
  · exact (h .fg).trans (by simp)
  · exact (h .fe).trans (by simp)
  · exact (h .fu).trans (by simp)

/-- FPRF reads back what was written. -/
theorem fprfOf_setFprf (w : Dword) (code : BitVec 5) : fprfOf (setFprf w code) = code := by
  apply BitVec.eq_of_getMsbD_eq
  intro i hi
  rw [getMsbD_fprfOf _ hi]
  have h : ∀ b : FpscrBit, (setFprf w code).getMsbD b.index = getBit (setFprf w code) b := fun _ => rfl
  have ht := fun j hj => getMsbD_codeTail code (j := j) hj
  rcases (by omega : i = 0 ∨ i = 1 ∨ i = 2 ∨ i = 3 ∨ i = 4) with rfl | rfl | rfl | rfl | rfl
  · exact (h .c).trans (by rw [getBit_setFprf]; simp)
  · exact (h .fl).trans (by rw [getBit_setFprf, ← ht 0 (by omega)]; simp)
  · exact (h .fg).trans (by rw [getBit_setFprf, ← ht 1 (by omega)]; simp)
  · exact (h .fe).trans (by rw [getBit_setFprf, ← ht 2 (by omega)]; simp)
  · exact (h .fu).trans (by rw [getBit_setFprf, ← ht 3 (by omega)]; simp)

/-- VX and FEX follow from the other bits after they are recomputed. -/
@[simp] theorem getBit_summarize (w : Dword) (b : FpscrBit) :
    getBit (summarize w) b =
      if b = .fex then fexValue (setBit w .vx (vxValue w)) else if b = .vx then vxValue w else getBit w b := by
  simp [summarize]

@[simp] theorem vxValue_setBit_fex (w : Dword) (v : Bool) : vxValue (setBit w .fex v) = vxValue w := by
  simp [vxValue, invalidBits]

@[simp] theorem vxValue_setBit_vx (w : Dword) (v : Bool) : vxValue (setBit w .vx v) = vxValue w := by
  simp [vxValue, invalidBits]

@[simp] theorem vxValue_setBit_fx (w : Dword) (v : Bool) : vxValue (setBit w .fx v) = vxValue w := by
  simp [vxValue, invalidBits]

@[simp] theorem fexValue_setBit_fex (w : Dword) (v : Bool) : fexValue (setBit w .fex v) = fexValue w := by
  simp [fexValue]

@[simp] theorem fexValue_setBit_fx (w : Dword) (v : Bool) : fexValue (setBit w .fx v) = fexValue w := by
  simp [fexValue]

theorem fpscrConsistent_summarize (w : Dword) : fpscrConsistent (summarize w) = true := by
  unfold fpscrConsistent
  simp [summarize]

theorem fpscrConsistent_setBit_fx {w : Dword} (h : fpscrConsistent w = true) (v : Bool) :
    fpscrConsistent (setBit w .fx v) = true := by
  unfold fpscrConsistent at *
  simpa using h

/-- Every word `SetFPSCR` leaves has FEX and VX as the other bits make them. -/
theorem fpscrConsistent_setFpscr (exc : List FpscrBit) (frfi : FrFi) (fprf : Fprf) (old : Dword) :
    fpscrConsistent (setFpscr exc frfi fprf old) = true := by
  unfold setFpscr
  dsimp only
  split
  · exact fpscrConsistent_setBit_fx (fpscrConsistent_summarize _) _
  · exact fpscrConsistent_summarize _

/-- A write of FPCC leaves FEX and VX consistent. -/
theorem fpscrConsistent_setFpcc {w : Dword} (h : fpscrConsistent w = true) (code : BitVec 4) :
    fpscrConsistent (setFpcc w code) = true := by
  unfold fpscrConsistent vxValue fexValue invalidBits at *
  simpa using h

/-- A write of FPRF leaves FEX and VX consistent. -/
theorem fpscrConsistent_setFprf {w : Dword} (h : fpscrConsistent w = true) (code : BitVec 5) :
    fpscrConsistent (setFprf w code) = true := by
  unfold fpscrConsistent vxValue fexValue invalidBits at *
  simpa using h

/-- Every word a host write leaves has FEX and VX as the other bits make them. -/
theorem fpscrConsistent_hostFpscrValue (i : FpscrInsn) (mask value old : Dword) :
    fpscrConsistent (hostFpscrValue i mask value old) = true := by
  unfold hostFpscrValue
  dsimp only
  split
  · exact fpscrConsistent_setBit_fx (fpscrConsistent_summarize _) _
  · exact fpscrConsistent_summarize _

/-- The bits after the exceptions that occur are set. -/
@[simp] theorem getBit_setExceptions (exc : List FpscrBit) (w : Dword) (b : FpscrBit) :
    getBit (setExceptions exc w) b = (exc.contains b || getBit w b) := by
  unfold setExceptions
  induction exc generalizing w with
  | nil => simp
  | cons a l ih =>
    rw [List.foldl_cons, ih]
    by_cases h : b = a
    · simp [h]
    · simp [h]

/-- Every bit that `SetFPSCR` does not name keeps its value, by its number. -/
theorem getMsbD_setFpscr {exc : List FpscrBit} {frfi : FrFi} {fprf : Fprf} {old : Dword} {k : Nat}
    (hk : k < 64) (hexc : ∀ b ∈ exc, b.index ≠ k)
    (hsum : k < 32 ∨ 34 < k) (hfi : frfi = .unchanged ∨ (k ≠ 38 ∧ k ≠ 45 ∧ k ≠ 46))
    (hrf : fprf = .unchanged ∨ k < 47 ∨ 51 < k) :
    (setFpscr exc frfi fprf old).getMsbD k = old.getMsbD k := by
  have h1 : ∀ (l : List FpscrBit) (w : Dword), (∀ b ∈ l, b.index ≠ k) →
      (setExceptions l w).getMsbD k = w.getMsbD k := by
    intro l
    unfold setExceptions
    induction l with
    | nil => intro w _; rfl
    | cons a l ih =>
      intro w h
      rw [List.foldl_cons, ih _ fun b hb => h b (List.mem_cons_of_mem _ hb), getMsbD_setBit _ _ _ hk,
        if_neg (Ne.symm (h a (List.mem_cons_self ..)))]
  have h2 : ∀ w : Dword, (setFrFi frfi w).getMsbD k = w.getMsbD k := by
    intro w
    cases frfi with
    | unchanged => rfl
    | set fr fi =>
      have hn : k ≠ 38 ∧ k ≠ 45 ∧ k ≠ 46 := by simpa using hfi
      simp only [setFrFi]
      rw [getMsbD_setBit_ne _ _ _ hk (by simp only [FpscrBit.index]; omega),
        getMsbD_setBit_ne _ _ _ hk (by simp only [FpscrBit.index]; omega),
        getMsbD_setBit_ne _ _ _ hk (by simp only [FpscrBit.index]; omega)]
  have h3 : ∀ w : Dword, (setFprfField fprf w).getMsbD k = w.getMsbD k := by
    intro w
    cases fprf with
    | unchanged => rfl
    | cls c =>
      have hn : k < 47 ∨ 51 < k := by simpa using hrf
      exact getMsbD_setFprf w c hk hn
    | fpcc c =>
      have hn : k < 47 ∨ 51 < k := by simpa using hrf
      exact getMsbD_setFpcc w c hk (by omega)
  have h4 : ∀ w : Dword, (summarize w).getMsbD k = w.getMsbD k := by
    intro w
    simp only [summarize]
    rw [getMsbD_setBit_ne _ _ _ hk (by simp only [FpscrBit.index]; omega),
      getMsbD_setBit_ne _ _ _ hk (by simp only [FpscrBit.index]; omega)]
  have h5 : (summarize (setFprfField fprf (setFrFi frfi (setExceptions exc old)))).getMsbD k
      = old.getMsbD k := by
    rw [h4, h3, h2, h1 _ _ hexc]
  unfold setFpscr
  simp only
  split
  · rw [getMsbD_setBit_ne _ _ _ hk (by simp only [FpscrBit.index]; omega), h5]
  · exact h5

end Sys2Proof.Machine
end

