-- ==== Sys2Proof/Laws/Exec.lean ====
section
/-! SUPPORT. Every meaning in one form: `exec` completes with one effect, and what that effect can be. -/

namespace Sys2Proof.Machine

/-- The effect of an instruction, computed before anything is written (41_execution_model.md R240). -/
def effectOf (i : Instr) (s : State) : Effect :=
  match i with
  | .dadd frt fra frb _ =>
    deliver (fun g d => datumWrites g frt d) (arithResult addResult .dfp64 fra frb s) s.fpscr
  | .daddq frt fra frb _ =>
    deliver (fun g d => datumWrites g frt d) (arithResult addResult .dfp128 fra frb s) s.fpscr
  | .dsub frt fra frb _ =>
    deliver (fun g d => datumWrites g frt d) (arithResult subResult .dfp64 fra frb s) s.fpscr
  | .dsubq frt fra frb _ =>
    deliver (fun g d => datumWrites g frt d) (arithResult subResult .dfp128 fra frb s) s.fpscr
  | .dmul frt fra frb _ =>
    deliver (fun g d => datumWrites g frt d) (arithResult mulResult .dfp64 fra frb s) s.fpscr
  | .dmulq frt fra frb _ =>
    deliver (fun g d => datumWrites g frt d) (arithResult mulResult .dfp128 fra frb s) s.fpscr
  | .ddiv frt fra frb _ =>
    deliver (fun g d => datumWrites g frt d) (arithResult divResult .dfp64 fra frb s) s.fpscr
  | .ddivq frt fra frb _ =>
    deliver (fun g d => datumWrites g frt d) (arithResult divResult .dfp128 fra frb s) s.fpscr
  | .dcmpu bf fra frb =>
    compareEffect false bf (readDatum .dfp64 fra s) (readDatum .dfp64 frb s) s.fpscr
  | .dcmpuq bf fra frb =>
    compareEffect false bf (readDatum .dfp128 fra s) (readDatum .dfp128 frb s) s.fpscr
  | .dcmpo bf fra frb =>
    compareEffect true bf (readDatum .dfp64 fra s) (readDatum .dfp64 frb s) s.fpscr
  | .dcmpoq bf fra frb =>
    compareEffect true bf (readDatum .dfp128 fra s) (readDatum .dfp128 frb s) s.fpscr
  | .dtstdc bf fra dcm =>
    testEffect bf (classTestCode .dfp64 dcm (readDatum .dfp64 fra s)) s.fpscr
  | .dtstdcq bf fra dcm =>
    testEffect bf (classTestCode .dfp128 dcm (readDatum .dfp128 fra s)) s.fpscr
  | .dtstdg bf fra dgm =>
    testEffect bf (groupTestCode .dfp64 dgm (readDatum .dfp64 fra s)) s.fpscr
  | .dtstdgq bf fra dgm =>
    testEffect bf (groupTestCode .dfp128 dgm (readDatum .dfp128 fra s)) s.fpscr
  | .dtstex bf fra frb =>
    testEffect bf (exponentTestCode (readDatum .dfp64 fra s) (readDatum .dfp64 frb s)) s.fpscr
  | .dtstexq bf fra frb =>
    testEffect bf (exponentTestCode (readDatum .dfp128 fra s) (readDatum .dfp128 frb s)) s.fpscr
  | .dtstsf bf fra frb =>
    testEffect bf (significanceTestCode (significance fra s) (readDatum .dfp64 frb s)) s.fpscr
  | .dtstsfq bf fra frb =>
    testEffect bf (significanceTestCode (significance fra s) (readDatum .dfp128 frb s)) s.fpscr
  | .dquai te frt frb rmc _ =>
    deliver (fun g d => datumWrites g frt d)
      (quantizeResult .dfp64 (rmcMode rmc false s) (immediateQuantum te) (readDatum .dfp64 frb s)) s.fpscr
  | .dquaiq te frt frb rmc _ =>
    deliver (fun g d => datumWrites g frt d)
      (quantizeResult .dfp128 (rmcMode rmc false s) (immediateQuantum te) (readDatum .dfp128 frb s)) s.fpscr
  | .dqua frt fra frb rmc _ =>
    deliver (fun g d => datumWrites g frt d)
      (quantizeResult .dfp64 (rmcMode rmc false s) (readDatum .dfp64 fra s) (readDatum .dfp64 frb s)) s.fpscr
  | .dquaq frt fra frb rmc _ =>
    deliver (fun g d => datumWrites g frt d)
      (quantizeResult .dfp128 (rmcMode rmc false s) (readDatum .dfp128 fra s) (readDatum .dfp128 frb s)) s.fpscr
  | .drrnd frt fra frb rmc _ =>
    deliver (fun g d => datumWrites g frt d)
      (reroundResult .dfp64 (rmcMode rmc false s) (significance fra s) (readDatum .dfp64 frb s)) s.fpscr
  | .drrndq frt fra frb rmc _ =>
    deliver (fun g d => datumWrites g frt d)
      (reroundResult .dfp128 (rmcMode rmc false s) (significance fra s) (readDatum .dfp128 frb s)) s.fpscr
  | .drintx r frt frb rmc _ =>
    deliver (fun g d => datumWrites g frt d)
      (roundToIntResult .dfp64 (rmcMode rmc r s) true (readDatum .dfp64 frb s)) s.fpscr
  | .drintxq r frt frb rmc _ =>
    deliver (fun g d => datumWrites g frt d)
      (roundToIntResult .dfp128 (rmcMode rmc r s) true (readDatum .dfp128 frb s)) s.fpscr
  | .drintn r frt frb rmc _ =>
    deliver (fun g d => datumWrites g frt d)
      (roundToIntResult .dfp64 (rmcMode rmc r s) false (readDatum .dfp64 frb s)) s.fpscr
  | .drintnq r frt frb rmc _ =>
    deliver (fun g d => datumWrites g frt d)
      (roundToIntResult .dfp128 (rmcMode rmc r s) false (readDatum .dfp128 frb s)) s.fpscr
  | .dctdp frt frb _ =>
    dctdpEffect frt (widenResult .dfp64 false (readDatum .dfp32 frb s)).datum s.fpscr
  | .dctqpq frt frb _ =>
    deliver (fun g d => datumWrites g frt d) (widenResult .dfp128 true (readDatum .dfp64 frb s)) s.fpscr
  | .drsp frt frb _ =>
    deliver (fun g d => datumWrites g frt d)
      (narrowResult .dfp64 .dfp32 192 false (roundEnv s.fpscr) (readDatum .dfp64 frb s)) s.fpscr
  | .drdpq frt frb _ =>
    deliver (drdpqWrites frt)
      (narrowResult .dfp128 .dfp64 3072 true (roundEnv s.fpscr) (readDatum .dfp128 frb s)) s.fpscr
  | .dcffixq frt frb _ =>
    dcffixqEffect frt (readInt frb s) s.fpscr
  | .dctfix frt frb _ =>
    toFixedEffect frt (toFixed (drnMode s.fpscr) (readDatum .dfp64 frb s)) s.fpscr
  | .dctfixq frt frb _ =>
    toFixedEffect frt (toFixed (drnMode s.fpscr) (readDatum .dfp128 frb s)) s.fpscr
  | .ddedpd sp frt frb _ =>
    plainEffect (operandWrites .dfp64 frt (dpdToBcd .dfp64 sp (readDatum .dfp64 frb s))) s.fpscr
  | .ddedpdq sp frt frb _ =>
    plainEffect (operandWrites .dfp128 frt (dpdToBcd .dfp128 sp (readDatum .dfp128 frb s))) s.fpscr
  | .denbcd s_ frt frb _ =>
    deliver (fun g d => datumWrites g frt d) (bcdToDpdResult .dfp64 s_ (operandBits .dfp64 frb s)) s.fpscr
  | .denbcdq s_ frt frb _ =>
    deliver (fun g d => datumWrites g frt d) (bcdToDpdResult .dfp128 s_ (operandBits .dfp128 frb s)) s.fpscr
  | .dxex frt frb _ =>
    plainEffect (intWrites frt (extractedExponent .dfp64 (readDatum .dfp64 frb s))) s.fpscr
  | .dxexq frt frb _ =>
    plainEffect (intWrites frt (extractedExponent .dfp128 (readDatum .dfp128 frb s))) s.fpscr
  | .diex frt fra frb _ =>
    plainEffect (datumWrites .dfp64 frt (insertExponent .dfp64 (readInt fra s) (readDatum .dfp64 frb s))) s.fpscr
  | .diexq frt fra frb _ =>
    plainEffect (datumWrites .dfp128 frt (insertExponent .dfp128 (readInt fra s) (readDatum .dfp128 frb s))) s.fpscr
  | .dscli frt fra sh _ =>
    plainEffect (datumWrites .dfp64 frt (shiftCoefficient shiftDigitsLeft .dfp64 sh.toNat (readDatum .dfp64 fra s)))
      s.fpscr
  | .dscliq frt fra sh _ =>
    plainEffect (datumWrites .dfp128 frt (shiftCoefficient shiftDigitsLeft .dfp128 sh.toNat (readDatum .dfp128 fra s)))
      s.fpscr
  | .dscri frt fra sh _ =>
    plainEffect (datumWrites .dfp64 frt (shiftCoefficient shiftDigitsRight .dfp64 sh.toNat (readDatum .dfp64 fra s)))
      s.fpscr
  | .dscriq frt fra sh _ =>
    plainEffect (datumWrites .dfp128 frt (shiftCoefficient shiftDigitsRight .dfp128 sh.toNat (readDatum .dfp128 fra s)))
      s.fpscr

/-- Every instruction completes with its effect if its form is valid. -/
theorem exec_eq (i : Instr) (s : State) :
    exec i s = completes (wellFormed i) (rcOf i == some true) (effectOf i s) s := by
  cases i <;> first | rfl | (rename_i rc; cases rc <;> rfl)

/-- What an instruction that goes on leaves. -/
theorem exec_next {i : Instr} {s t : State} :
    exec i s = .next t ↔ wellFormed i = true ∧ t = commit (rcOf i == some true) (effectOf i s) s := by
  rw [exec_eq, completes_next]

/-- A well-formed instruction goes on. -/
theorem exec_wellFormed {i : Instr} (h : wellFormed i = true) (s : State) :
    exec i s = .next (commit (rcOf i == some true) (effectOf i s) s) :=
  exec_next.2 ⟨h, rfl⟩

end Sys2Proof.Machine
end

