-- ==== Sys2Proof/Laws/Effects.lean ====
section
/-! SUPPORT. What the effect of an instruction can be: its exceptions, the FPSCR it leaves, the registers it
writes. -/

namespace Sys2Proof.Machine

/-! The exceptions of the results. -/


/-- The exceptions of a result are among those listed, and come alone or as Overflow or Underflow with
Inexact; an Invalid Operation or a Zero Divide leaves FR and FI at 0. -/
def Result.within (r : Result) (l : List FpscrBit) : Prop :=
  (∀ b ∈ r.exc, b ∈ l) ∧ (r.fi = true → .xx ∈ l) ∧
  ((r.exc = [] ) ∨
   (∃ b, (b ∈ invalidBits ∨ b = .zx) ∧ r.exc = [b] ∧ r.fr = false ∧ r.fi = false) ∨
   (r.exc ∈ [[FpscrBit.xx], [.ox, .xx], [.ux, .xx]] ∧ r.fi = true) ∨
   (r.exc ∈ [[FpscrBit.ox], [.ux]] ∧ r.fi = false))

theorem exactResult_within (f : Fmt) (d : Datum) (l : List FpscrBit) : (exactResult f d).within l := by
  simp [exactResult, Result.within]

theorem exceptionResult_within (f : Fmt) {b : FpscrBit} (d : Datum) {l : List FpscrBit} (hl : b ∈ l)
    (h : b ∈ invalidBits ∨ b = .zx) : (exceptionResult f b d).within l := by
  simp only [exceptionResult, Result.within, List.mem_singleton, forall_eq, hl, true_and, reduceCtorEq,
    false_implies, false_or]
  simp [h]

theorem roundedResult_within (f : Fmt) (d : Datum) (r : Rounded) {l : List FpscrBit} (hl : .xx ∈ l) :
    (roundedResult f d r).within l := by
  simp [roundedResult, Result.within, hl]

theorem withNaNs_within {f : Fmt} {a b : Datum} {r : Result} {l : List FpscrBit} (hl : .vxsnan ∈ l)
    (h : r.within l) : (withNaNs f a b r).within l := by
  unfold withNaNs
  split
  · exact exceptionResult_within _ _ hl (by decide)
  · exact exactResult_within ..
  · exact h

theorem roundDeliver_bits (f w : Fmt) (alpha : Int) (oe ue s : Bool) (v : Mag) (ideal : Int) (mode : Mode) :
    (roundDeliver f w alpha oe ue s v ideal mode).ox = false ∨
    (roundDeliver f w alpha oe ue s v ideal mode).ux = false := by
  unfold roundDeliver
  dsimp only
  repeat' split
  all_goals simp

theorem deliveredResult_within {d : Delivered} (hd : d.ox = false ∨ d.ux = false) {l : List FpscrBit}
    (hl : ∀ b ∈ [FpscrBit.ox, .ux, .xx], b ∈ l) : (deliveredResult d).within l := by
  have h1 := hl .ox (by decide)
  have h2 := hl .ux (by decide)
  have h3 := hl .xx (by decide)
  obtain ⟨dat, fmt, ox, ux, fi, fr⟩ := d
  cases ox <;> cases ux <;> cases fi <;> simp_all [deliveredResult, Result.within]

theorem addResult_within (f : Fmt) (env : RoundEnv) (a b : Datum) :
    (addResult f env a b).within [.ox, .ux, .xx, .vxsnan, .vxisi] := by
  unfold addResult
  refine withNaNs_within (by decide) ?_
  split
  · unfold addFinite
    dsimp only
    split
    · exact exactResult_within ..
    · exact deliveredResult_within (roundDeliver_bits ..) (by decide)
  · exact exactResult_within ..
  · exact exactResult_within ..
  · split
    · exact exactResult_within ..
    · exact exceptionResult_within _ _ (by decide) (by decide)
  · exact exactResult_within ..

theorem mulResult_within (f : Fmt) (env : RoundEnv) (a b : Datum) :
    (mulResult f env a b).within [.ox, .ux, .xx, .vxsnan, .vximz] := by
  unfold mulResult
  refine withNaNs_within (by decide) ?_
  unfold mulFinite infTimes
  repeat' split
  all_goals first
    | exact exactResult_within ..
    | exact deliveredResult_within (roundDeliver_bits ..) (by decide)
    | exact exceptionResult_within _ _ (by decide) (by decide)

theorem divResult_within (f : Fmt) (env : RoundEnv) (a b : Datum) :
    (divResult f env a b).within [.ox, .ux, .zx, .xx, .vxsnan, .vxidi, .vxzdz] := by
  unfold divResult
  refine withNaNs_within (by decide) ?_
  unfold divFinite
  repeat' split
  all_goals first
    | exact exactResult_within ..
    | exact deliveredResult_within (roundDeliver_bits ..) (by decide)
    | exact exceptionResult_within _ _ (by decide) (by decide)

theorem quantizeResult_within (f : Fmt) (mode : Mode) (a b : Datum) :
    (quantizeResult f mode a b).within [.xx, .vxsnan, .vxcvi] := by
  unfold quantizeResult
  refine withNaNs_within (by decide) ?_
  unfold quantizeFinite
  repeat' split
  all_goals first
    | exact exactResult_within ..
    | exact roundedResult_within _ _ _ (by decide)
    | exact exceptionResult_within _ _ (by decide) (by decide)

theorem reroundResult_within (f : Fmt) (mode : Mode) (k : Nat) (b : Datum) :
    (reroundResult f mode k b).within [.xx, .vxsnan, .vxcvi] := by
  unfold reroundResult reroundFinite
  dsimp only
  repeat' split
  all_goals first
    | exact exactResult_within ..
    | exact roundedResult_within _ _ _ (by decide)
    | exact exceptionResult_within _ _ (by decide) (by decide)

theorem roundToIntResult_within (f : Fmt) (mode : Mode) (b : Datum) :
    (roundToIntResult f mode true b).within [.xx, .vxsnan] ∧
    (roundToIntResult f mode false b).within [.vxsnan] ∧
    (roundToIntResult f mode false b).fr = false ∧ (roundToIntResult f mode false b).fi = false := by
  unfold roundToIntResult
  dsimp only
  repeat' split
  all_goals first
    | exact ⟨exactResult_within .., exactResult_within .., rfl, rfl⟩
    | exact ⟨exceptionResult_within _ _ (by decide) (by decide),
        exceptionResult_within _ _ (by decide) (by decide), rfl, rfl⟩
    | exact ⟨roundedResult_within _ _ _ (by decide), exactResult_within .., rfl, rfl⟩
    | simp_all

theorem widenResult_within (f : Fmt) (b : Datum) :
    (widenResult f true b).within [.vxsnan] ∧
    (widenResult f true b).fr = false ∧ (widenResult f true b).fi = false := by
  unfold widenResult convertResult
  repeat' split
  all_goals first
    | exact ⟨exactResult_within .., rfl, rfl⟩
    | exact ⟨exceptionResult_within _ _ (by decide) (by decide), rfl, rfl⟩

theorem narrowResult_within (f g : Fmt) (alpha : Int) (signals : Bool) (env : RoundEnv) (b : Datum) :
    (narrowResult f g alpha signals env b).within
      (if signals then [.ox, .ux, .xx, .vxsnan] else [.ox, .ux, .xx]) := by
  unfold narrowResult convertResult
  cases signals <;> dsimp only <;> (repeat' split)
  all_goals first
    | exact exactResult_within ..
    | exact exceptionResult_within _ _ (by decide) (by decide)
    | exact deliveredResult_within (roundDeliver_bits ..) (by decide)

theorem bcdToDpdResult_within (f : Fmt) (signed : Bool) (bits : Nat) :
    (bcdToDpdResult f signed bits).within [.vxcvi] ∧
    (bcdToDpdResult f signed bits).fr = false ∧ (bcdToDpdResult f signed bits).fi = false := by
  unfold bcdToDpdResult
  split
  · exact ⟨exactResult_within .., rfl, rfl⟩
  · exact ⟨exceptionResult_within _ _ (by decide) (by decide), rfl, rfl⟩

/-- The exceptions of Convert To Fixed: none, VXCVI, or VXSNAN with VXCVI; FR and FI are 0 with them. -/
theorem toFixed_exc (mode : Mode) (b : Datum) :
    (toFixed mode b).exc = [] ∨
    ((toFixed mode b).exc ∈ [[FpscrBit.vxcvi], [.vxsnan, .vxcvi]] ∧ (toFixed mode b).fr = false ∧
      (toFixed mode b).fi = false) := by
  unfold toFixed
  dsimp only
  repeat' split
  all_goals simp

/-! The FPSCR that `SetFPSCR` leaves, bit by bit. -/

theorem exceptionBits_ne {b : FpscrBit} (h : b ∈ exceptionBits) :
    b ≠ .fx ∧ b ≠ .fex ∧ b ≠ .vx ∧ b ≠ .fr ∧ b ≠ .fi ∧ b ≠ .c ∧ b ≠ .fl ∧ b ≠ .fg ∧ b ≠ .fe ∧ b ≠ .fu := by
  revert h
  cases b <;> decide

theorem getBit_setFprfField {b : FpscrBit}
    (h : b ≠ .c ∧ b ≠ .fl ∧ b ≠ .fg ∧ b ≠ .fe ∧ b ≠ .fu) (fprf : Fprf) (w : Dword) :
    getBit (setFprfField fprf w) b = getBit w b := by
  cases fprf <;> simp [setFprfField, h]

/-- An exception bit after `SetFPSCR`: set if it occurs, else kept; XX also follows FI. -/
theorem getBit_setFpscr_exception (exc : List FpscrBit) (frfi : FrFi) (fprf : Fprf) (old : Dword)
    {b : FpscrBit} (hb : b ∈ exceptionBits) :
    getBit (setFpscr exc frfi fprf old) b =
      (exc.contains b || getBit old b || (decide (b = .xx) && frfi.inexact)) := by
  obtain ⟨h1, h2, h3, h4, h5, h6, h7, h8, h9, h10⟩ := exceptionBits_ne hb
  have h : ∀ w, getBit (summarize (setFprfField fprf (setFrFi frfi w))) b =
      (getBit w b || (decide (b = .xx) && frfi.inexact)) := by
    intro w
    rw [getBit_summarize, if_neg h2, if_neg h3, getBit_setFprfField ⟨h6, h7, h8, h9, h10⟩]
    cases frfi with
    | unchanged => simp [setFrFi, FrFi.inexact]
    | set fr fi =>
      by_cases hx : b = .xx
      · subst hx; simp [setFrFi, FrFi.inexact]
      · simp [setFrFi, FrFi.inexact, h4, h5, hx]
  unfold setFpscr
  dsimp only
  split
  · rw [getBit_setBit, if_neg h1, h, getBit_setExceptions]
  · rw [h, getBit_setExceptions]

/-- FX after `SetFPSCR`: set if an exception bit goes from 0 to 1, else kept. -/
theorem getBit_setFpscr_fx {exc : List FpscrBit} (hexc : .fx ∉ exc) (frfi : FrFi) (fprf : Fprf)
    (old : Dword) :
    getBit (setFpscr exc frfi fprf old) .fx =
      (getBit old .fx || raisesException old (setFpscr exc frfi fprf old)) := by
  have hr : ∀ w, raisesException old (setBit w .fx true) = raisesException old w := by
    intro w
    unfold raisesException
    rw [Bool.eq_iff_iff, List.any_eq_true, List.any_eq_true]
    constructor <;> rintro ⟨b, hb, h⟩ <;> refine ⟨b, hb, ?_⟩ <;> simpa [(exceptionBits_ne hb).1] using h
  have h : getBit (summarize (setFprfField fprf (setFrFi frfi (setExceptions exc old)))) .fx =
      getBit old .fx := by
    rw [getBit_summarize, if_neg (by decide), if_neg (by decide), getBit_setFprfField (by decide)]
    cases frfi <;> simp [setFrFi, hexc]
  unfold setFpscr
  dsimp only
  split
  · rename_i hh
    rw [hr, hh]
    simp
  · rename_i hh
    rw [h]
    simp [hh]

theorem setBit_fx_fields (w : Dword) (v : Bool) :
    getBit (setBit w .fx v) .fr = getBit w .fr ∧ getBit (setBit w .fx v) .fi = getBit w .fi ∧
    fprfOf (setBit w .fx v) = fprfOf w := by
  refine ⟨by simp, by simp, ?_⟩
  apply BitVec.eq_of_getMsbD_eq
  intro i hi
  rw [getMsbD_fprfOf _ hi, getMsbD_fprfOf _ hi, getMsbD_setBit_ne _ _ _ (by omega)]
  simp only [FpscrBit.index]
  omega

theorem summarize_fields (w : Dword) :
    getBit (summarize w) .fr = getBit w .fr ∧ getBit (summarize w) .fi = getBit w .fi ∧
    fprfOf (summarize w) = fprfOf w := by
  refine ⟨by simp, by simp, ?_⟩
  apply BitVec.eq_of_getMsbD_eq
  intro i hi
  rw [getMsbD_fprfOf _ hi, getMsbD_fprfOf _ hi]
  simp only [summarize]
  rw [getMsbD_setBit_ne _ _ _ (by omega) (by simp only [FpscrBit.index]; omega),
    getMsbD_setBit_ne _ _ _ (by omega) (by simp only [FpscrBit.index]; omega)]

/-- The fields of `setFpscr` that do not depend on FX. -/
theorem setFpscr_fields (exc : List FpscrBit) (frfi : FrFi) (fprf : Fprf) (old : Dword) :
    getBit (setFpscr exc frfi fprf old) .fr =
      getBit (setFprfField fprf (setFrFi frfi (setExceptions exc old))) .fr ∧
    getBit (setFpscr exc frfi fprf old) .fi =
      getBit (setFprfField fprf (setFrFi frfi (setExceptions exc old))) .fi ∧
    fprfOf (setFpscr exc frfi fprf old) =
      fprfOf (setFprfField fprf (setFrFi frfi (setExceptions exc old))) := by
  unfold setFpscr
  dsimp only
  split
  · obtain ⟨a, b, c⟩ := setBit_fx_fields
      (summarize (setFprfField fprf (setFrFi frfi (setExceptions exc old)))) true
    obtain ⟨a', b', c'⟩ := summarize_fields (setFprfField fprf (setFrFi frfi (setExceptions exc old)))
    exact ⟨a.trans a', b.trans b', c.trans c'⟩
  · exact summarize_fields _

/-- FR and FI after `SetFPSCR` when they are written. -/
theorem setFpscr_frfi (exc : List FpscrBit) (fr fi : Bool) (fprf : Fprf) (old : Dword) :
    getBit (setFpscr exc (.set fr fi) fprf old) .fr = fr ∧
    getBit (setFpscr exc (.set fr fi) fprf old) .fi = fi := by
  obtain ⟨h1, h2, -⟩ := setFpscr_fields exc (.set fr fi) fprf old
  rw [h1, h2, getBit_setFprfField (by decide), getBit_setFprfField (by decide)]
  simp [setFrFi]

/-- FR and FI after `SetFPSCR` when they are not written. -/
theorem setFpscr_frfi_unchanged {exc : List FpscrBit} (h1 : .fr ∉ exc) (h2 : .fi ∉ exc) (fprf : Fprf)
    (old : Dword) :
    getBit (setFpscr exc .unchanged fprf old) .fr = getBit old .fr ∧
    getBit (setFpscr exc .unchanged fprf old) .fi = getBit old .fi := by
  obtain ⟨h3, h4, -⟩ := setFpscr_fields exc .unchanged fprf old
  rw [h3, h4, getBit_setFprfField (by decide), getBit_setFprfField (by decide)]
  simp [setFrFi, h1, h2]

/-- FPRF after `SetFPSCR` when it is set to a class. -/
theorem setFpscr_cls (exc : List FpscrBit) (frfi : FrFi) (code : BitVec 5) (old : Dword) :
    fprfOf (setFpscr exc frfi (.cls code) old) = code := by
  rw [(setFpscr_fields _ _ _ _).2.2, setFprfField, fprfOf_setFprf]

/-- FPRF after `SetFPSCR` when it is not written. -/
theorem setFpscr_fprf_unchanged {exc : List FpscrBit}
    (h : ∀ b ∈ exc, b.index < 47 ∨ 51 < b.index) (frfi : FrFi) (old : Dword) :
    fprfOf (setFpscr exc frfi .unchanged old) = fprfOf old := by
  apply BitVec.eq_of_getMsbD_eq
  intro i hi
  rw [getMsbD_fprfOf _ hi, getMsbD_fprfOf _ hi]
  refine getMsbD_setFpscr (by omega) ?_ (by omega) (.inr (by omega)) (.inl rfl)
  intro b hb
  have := h b hb
  omega

/-- The field FPCC from FPRF. -/
theorem fpccOf_eq (w : Dword) : fpccOf w = (fprfOf w).extractLsb' 0 4 := by
  apply BitVec.eq_of_getMsbD_eq
  intro i hi
  rw [getMsbD_fpccOf _ hi, getMsbD_codeTail _ hi, getMsbD_fprfOf _ (by omega)]
  congr 1
  omega

/-- FPCC after `SetFPSCR` of a compare. -/
theorem setFpscr_fpcc (exc : List FpscrBit) (frfi : FrFi) (code : BitVec 4) (old : Dword) :
    fpccOf (setFpscr exc frfi (.fpcc code) old) = code := by
  rw [fpccOf_eq, (setFpscr_fields _ _ _ _).2.2, ← fpccOf_eq, setFprfField, fpccOf_setFpcc]

/-! The shape of an effect. -/

/-- What the effect of an instruction can be: a delivered result, a compare, a test, an integer result, or
one of the effects that raise nothing. -/
inductive Shape (i : Instr) (s : State) (e : Effect) : Prop
  | deliver (writes : Fmt → Datum → List (FprNum × Dword)) (r : Result) (he : e = deliver writes r s.fpscr)
      (hbf : bfOf i = none) (hw : ∀ w ∈ writes r.fmt r.datum, w.1 ∈ targets i)
      (hr : r.within (fpscrUse i).exc) (hrf : (fpscrUse i).fprf = true)
      (hfi : (fpscrUse i).frfi = .written ∨ ((fpscrUse i).frfi = .cleared ∧ r.fr = false ∧ r.fi = false))
  | compare (ordered : Bool) (bf : CrNum) (a b : Datum) (he : e = compareEffect ordered bf a b s.fpscr)
      (hbf : bfOf i = some bf)
      (hu : fpscrUse i = ⟨false, .untouched, true, if ordered then [.vxsnan, .vxvc] else [.vxsnan]⟩)
      (hi : ordered = true → ∃ fra frb, i = .dcmpo bf fra frb ∨ i = .dcmpoq bf fra frb)
  | test (bf : CrNum) (code : BitVec 4) (he : e = testEffect bf code s.fpscr) (hbf : bfOf i = some bf)
      (hu : fpscrUse i = ⟨false, .untouched, true, []⟩)
  | toFixed (frt : FprNum) (x : Fixed) (he : e = toFixedEffect frt x s.fpscr) (hbf : bfOf i = none)
      (ht : targets i = [frt]) (hu : fpscrUse i = ⟨false, .written, false, [.xx, .vxsnan, .vxcvi]⟩)
      (hx : x.exc = [] ∨ (x.exc ∈ [[FpscrBit.vxcvi], [.vxsnan, .vxcvi]] ∧ x.fr = false ∧ x.fi = false))
      (hi : ∃ frb rc, i = .dctfix frt frb rc ∨ i = .dctfixq frt frb rc)
  | dctdp (frt : FprNum) (d : Datum) (he : e = dctdpEffect frt d s.fpscr) (hbf : bfOf i = none)
      (ht : targets i = [frt]) (hu : fpscrUse i = ⟨true, .untouched, false, []⟩)
  | dcffixq (frt : FprNum) (n : Int) (he : e = dcffixqEffect frt n s.fpscr) (hbf : bfOf i = none)
      (ht : targets i = pairOf frt) (hu : fpscrUse i = ⟨true, .untouched, false, []⟩)
  | plain (ws : List (FprNum × Dword)) (he : e = plainEffect ws s.fpscr) (hbf : bfOf i = none)
      (hw : ∀ w ∈ ws, w.1 ∈ targets i) (hu : fpscrUse i = ⟨false, .untouched, false, []⟩)

/-! The format of a result. -/

theorem withNaNs_fmt {f : Fmt} {a b : Datum} {r : Result} (h : r.fmt = f) : (withNaNs f a b r).fmt = f := by
  unfold withNaNs
  split
  · rfl
  · rfl
  · exact h

theorem roundDeliver_fmt (f w : Fmt) (alpha : Int) (oe ue s : Bool) (v : Mag) (ideal : Int) (mode : Mode) :
    (roundDeliver f w alpha oe ue s v ideal mode).fmt = f ∨
    (roundDeliver f w alpha oe ue s v ideal mode).fmt = w := by
  unfold roundDeliver
  dsimp only
  repeat' split
  all_goals simp

theorem roundTo_fmt (f : Fmt) (env : RoundEnv) (s : Bool) (v : Mag) (ideal : Int) :
    (roundTo f env s v ideal).fmt = f := by
  unfold roundTo deliveredResult
  rcases roundDeliver_fmt f f (wrapAdjust f) env.oe env.ue s v ideal env.mode with h | h <;> exact h

theorem addResult_fmt (f : Fmt) (env : RoundEnv) (a b : Datum) : (addResult f env a b).fmt = f := by
  unfold addResult
  refine withNaNs_fmt ?_
  unfold addFinite
  dsimp only
  repeat' split
  all_goals first | rfl | exact roundTo_fmt ..

theorem mulResult_fmt (f : Fmt) (env : RoundEnv) (a b : Datum) : (mulResult f env a b).fmt = f := by
  unfold mulResult
  refine withNaNs_fmt ?_
  unfold mulFinite infTimes
  repeat' split
  all_goals first | rfl | exact roundTo_fmt ..

theorem divResult_fmt (f : Fmt) (env : RoundEnv) (a b : Datum) : (divResult f env a b).fmt = f := by
  unfold divResult
  refine withNaNs_fmt ?_
  unfold divFinite
  repeat' split
  all_goals first | rfl | exact roundTo_fmt ..

theorem quantizeResult_fmt (f : Fmt) (mode : Mode) (a b : Datum) : (quantizeResult f mode a b).fmt = f := by
  unfold quantizeResult
  refine withNaNs_fmt ?_
  unfold quantizeFinite
  dsimp only
  repeat' split
  all_goals rfl

theorem reroundResult_fmt (f : Fmt) (mode : Mode) (k : Nat) (b : Datum) :
    (reroundResult f mode k b).fmt = f := by
  unfold reroundResult reroundFinite
  dsimp only
  repeat' split
  all_goals rfl

theorem roundToIntResult_fmt (f : Fmt) (mode : Mode) (x : Bool) (b : Datum) :
    (roundToIntResult f mode x b).fmt = f := by
  unfold roundToIntResult
  dsimp only
  repeat' split
  all_goals rfl

theorem widenResult_fmt (f : Fmt) (x : Bool) (b : Datum) : (widenResult f x b).fmt = f := by
  unfold widenResult convertResult
  repeat' split
  all_goals rfl

theorem narrowResult_fmt (f g : Fmt) (alpha : Int) (x : Bool) (env : RoundEnv) (b : Datum) :
    (narrowResult f g alpha x env b).fmt = g ∨ (narrowResult f g alpha x env b).fmt = f := by
  unfold narrowResult convertResult
  repeat' split
  all_goals first
    | exact .inl rfl
    | exact roundDeliver_fmt ..

theorem bcdToDpdResult_fmt (f : Fmt) (x : Bool) (n : Nat) : (bcdToDpdResult f x n).fmt = f := by
  unfold bcdToDpdResult
  split <;> rfl

/-! The registers an effect writes. -/

theorem datumWrites_one {f : Fmt} {frt : FprNum} (hf : f ≠ .dfp128) (d : Datum) :
    ∀ w ∈ datumWrites f frt d, w.1 ∈ [frt] := by
  cases f <;> simp_all [datumWrites, operandWrites]

theorem datumWrites_pair (f : Fmt) (frt : FprNum) (d : Datum) :
    ∀ w ∈ datumWrites f frt d, w.1 ∈ pairOf frt := by
  cases f <;> simp [datumWrites, operandWrites, pairWrites, pairOf]

theorem drdpqWrites_pair (frt : FprNum) (f : Fmt) (d : Datum) :
    ∀ w ∈ drdpqWrites frt f d, w.1 ∈ pairOf frt := by
  cases f <;> simp [drdpqWrites, datumWrites, operandWrites, pairWrites, pairOf]

theorem operandWrites_pair (frt : FprNum) (v : Nat) :
    ∀ w ∈ operandWrites .dfp128 frt v, w.1 ∈ pairOf frt := by
  simp [operandWrites, pairWrites, pairOf]

theorem Shape.deliverOne {i : Instr} {s : State} {e : Effect} {frt : FprNum} {r : Result}
    (he : e = Machine.deliver (fun g d => datumWrites g frt d) r s.fpscr) (hbf : bfOf i = none)
    (ht : targets i = [frt]) (hf : r.fmt ≠ .dfp128) (hr : r.within (fpscrUse i).exc)
    (hrf : (fpscrUse i).fprf = true)
    (hfi : (fpscrUse i).frfi = .written ∨ ((fpscrUse i).frfi = .cleared ∧ r.fr = false ∧ r.fi = false)) :
    Shape i s e :=
  .deliver _ r he hbf (ht ▸ datumWrites_one hf _) hr hrf hfi

theorem Shape.deliverPair {i : Instr} {s : State} {e : Effect} {frt : FprNum} {r : Result}
    (he : e = Machine.deliver (fun g d => datumWrites g frt d) r s.fpscr) (hbf : bfOf i = none)
    (ht : targets i = pairOf frt) (hr : r.within (fpscrUse i).exc) (hrf : (fpscrUse i).fprf = true)
    (hfi : (fpscrUse i).frfi = .written ∨ ((fpscrUse i).frfi = .cleared ∧ r.fr = false ∧ r.fi = false)) :
    Shape i s e :=
  .deliver _ r he hbf (ht ▸ datumWrites_pair _ _ _) hr hrf hfi

/-- Every effect has one of these shapes. -/
theorem effectOf_shape (i : Instr) (s : State) : Shape i s (effectOf i s) := by
  cases i with
  | dadd frt fra frb rc =>
    exact .deliverOne rfl rfl rfl (by unfold arithResult; rw [addResult_fmt]; decide) (addResult_within ..) rfl (.inl rfl)
  | daddq frt fra frb rc =>
    exact .deliverPair rfl rfl rfl (addResult_within ..) rfl (.inl rfl)
  | dsub frt fra frb rc =>
    exact .deliverOne rfl rfl rfl (by unfold arithResult subResult; rw [addResult_fmt]; decide) (addResult_within ..) rfl (.inl rfl)
  | dsubq frt fra frb rc =>
    exact .deliverPair rfl rfl rfl (addResult_within ..) rfl (.inl rfl)
  | dmul frt fra frb rc =>
    exact .deliverOne rfl rfl rfl (by unfold arithResult; rw [mulResult_fmt]; decide) (mulResult_within ..) rfl (.inl rfl)
  | dmulq frt fra frb rc =>
    exact .deliverPair rfl rfl rfl (mulResult_within ..) rfl (.inl rfl)
  | ddiv frt fra frb rc =>
    exact .deliverOne rfl rfl rfl (by unfold arithResult; rw [divResult_fmt]; decide) (divResult_within ..) rfl (.inl rfl)
  | ddivq frt fra frb rc =>
    exact .deliverPair rfl rfl rfl (divResult_within ..) rfl (.inl rfl)
  | dcmpu bf fra frb =>
    exact .compare false _ _ _ rfl rfl rfl (by simp)
  | dcmpuq bf fra frb =>
    exact .compare false _ _ _ rfl rfl rfl (by simp)
  | dcmpo bf fra frb =>
    exact .compare true _ _ _ rfl rfl rfl (fun _ => ⟨_, _, .inl rfl⟩)
  | dcmpoq bf fra frb =>
    exact .compare true _ _ _ rfl rfl rfl (fun _ => ⟨_, _, .inr rfl⟩)
  | dtstdc bf fra dcm =>
    exact .test _ _ rfl rfl rfl
  | dtstdcq bf fra dcm =>
    exact .test _ _ rfl rfl rfl
  | dtstdg bf fra dgm =>
    exact .test _ _ rfl rfl rfl
  | dtstdgq bf fra dgm =>
    exact .test _ _ rfl rfl rfl
  | dtstex bf fra frb =>
    exact .test _ _ rfl rfl rfl
  | dtstexq bf fra frb =>
    exact .test _ _ rfl rfl rfl
  | dtstsf bf fra frb =>
    exact .test _ _ rfl rfl rfl
  | dtstsfq bf fra frb =>
    exact .test _ _ rfl rfl rfl
  | dquai te frt frb rmc rc =>
    exact .deliverOne rfl rfl rfl (by rw [quantizeResult_fmt]; decide) (quantizeResult_within ..) rfl (.inl rfl)
  | dquaiq te frt frb rmc rc =>
    exact .deliverPair rfl rfl rfl (quantizeResult_within ..) rfl (.inl rfl)
  | dqua frt fra frb rmc rc =>
    exact .deliverOne rfl rfl rfl (by rw [quantizeResult_fmt]; decide) (quantizeResult_within ..) rfl (.inl rfl)
  | dquaq frt fra frb rmc rc =>
    exact .deliverPair rfl rfl rfl (quantizeResult_within ..) rfl (.inl rfl)
  | drrnd frt fra frb rmc rc =>
    exact .deliverOne rfl rfl rfl (by rw [reroundResult_fmt]; decide) (reroundResult_within ..) rfl (.inl rfl)
  | drrndq frt fra frb rmc rc =>
    exact .deliverPair rfl rfl rfl (reroundResult_within ..) rfl (.inl rfl)
  | drintx r frt frb rmc rc =>
    exact .deliverOne rfl rfl rfl (by rw [roundToIntResult_fmt]; decide) ((roundToIntResult_within ..).1) rfl (.inl rfl)
  | drintxq r frt frb rmc rc =>
    exact .deliverPair rfl rfl rfl ((roundToIntResult_within ..).1) rfl (.inl rfl)
  | drintn r frt frb rmc rc =>
    exact .deliverOne rfl rfl rfl (by rw [roundToIntResult_fmt]; decide) ((roundToIntResult_within ..).2.1) rfl (.inr ⟨rfl, (roundToIntResult_within ..).2.2⟩)
  | drintnq r frt frb rmc rc =>
    exact .deliverPair rfl rfl rfl ((roundToIntResult_within ..).2.1) rfl (.inr ⟨rfl, (roundToIntResult_within ..).2.2⟩)
  | dctdp frt frb rc =>
    exact .dctdp _ _ rfl rfl rfl rfl
  | dctqpq frt frb rc =>
    exact .deliverPair rfl rfl rfl ((widenResult_within ..).1) rfl (.inr ⟨rfl, (widenResult_within ..).2⟩)
  | drsp frt frb rc =>
    exact .deliverOne rfl rfl rfl (by rcases narrowResult_fmt .dfp64 .dfp32 192 false (roundEnv s.fpscr) (readDatum .dfp64 frb s) with h | h <;> rw [h] <;> decide) (narrowResult_within .dfp64 .dfp32 192 false _ _) rfl (.inl rfl)
  | drdpq frt frb rc =>
    exact .deliver _ _ rfl rfl (drdpqWrites_pair _ _ _) (narrowResult_within .dfp128 .dfp64 3072 true _ _) rfl (.inl rfl)
  | dcffixq frt frb rc =>
    exact .dcffixq _ _ rfl rfl rfl rfl
  | dctfix frt frb rc =>
    exact .toFixed _ _ rfl rfl rfl rfl (toFixed_exc ..) ⟨_, _, .inl rfl⟩
  | dctfixq frt frb rc =>
    exact .toFixed _ _ rfl rfl rfl rfl (toFixed_exc ..) ⟨_, _, .inr rfl⟩
  | ddedpd sp frt frb rc =>
    exact .plain _ rfl rfl (by simp [operandWrites, targets]) rfl
  | ddedpdq sp frt frb rc =>
    exact .plain _ rfl rfl (operandWrites_pair _ _) rfl
  | denbcd sb frt frb rc =>
    exact .deliverOne rfl rfl rfl (by rw [bcdToDpdResult_fmt]; decide) ((bcdToDpdResult_within ..).1) rfl (.inr ⟨rfl, (bcdToDpdResult_within ..).2⟩)
  | denbcdq sb frt frb rc =>
    exact .deliverPair rfl rfl rfl ((bcdToDpdResult_within ..).1) rfl (.inr ⟨rfl, (bcdToDpdResult_within ..).2⟩)
  | dxex frt frb rc =>
    exact .plain _ rfl rfl (by simp [intWrites, targets]) rfl
  | dxexq frt frb rc =>
    exact .plain _ rfl rfl (by simp [intWrites, targets]) rfl
  | diex frt fra frb rc =>
    exact .plain _ rfl rfl (datumWrites_one (by decide) _) rfl
  | diexq frt fra frb rc =>
    exact .plain _ rfl rfl (datumWrites_pair _ _ _) rfl
  | dscli frt fra sh rc =>
    exact .plain _ rfl rfl (datumWrites_one (by decide) _) rfl
  | dscliq frt fra sh rc =>
    exact .plain _ rfl rfl (datumWrites_pair _ _ _) rfl
  | dscri frt fra sh rc =>
    exact .plain _ rfl rfl (datumWrites_one (by decide) _) rfl
  | dscriq frt fra sh rc =>
    exact .plain _ rfl rfl (datumWrites_pair _ _ _) rfl

end Sys2Proof.Machine
end

