-- ==== Sys2Proof/Laws/PerInstr.lean ====
section
/-! SUPPORT. The family `RecordPlace`, one lemma per instruction: where the record bit stands in the
encoding and which primary opcode the encoding has. -/

namespace Sys2Proof.Laws.RecordPlace

open Sys2Proof.Machine

/-- In the word of an instruction bit 31 is the record bit, or 0 where there is none, and the primary
opcode is 59 or 63 (30_encoding.md R100, R105, R110). -/
def Statement (i : Instr) : Prop :=
  bitAt (encode i).toNat 31 = (rcOf i == some true) ∧
  (field (encode i).toNat 0 6 = 59 ∨ field (encode i).toNat 0 6 = 63)

/-- The word of an X-form encoding. -/
theorem xWord_fields (opcd f6 f11 f16 xo : Nat) (b : Bool) (ho : opcd < 64) (h6 : f6 < 32) (h11 : f11 < 32)
    (h16 : f16 < 32) (hx : xo < 1024) :
    bitAt (xWord opcd f6 f11 f16 xo (bitNat b)).toNat 31 = b ∧
    field (xWord opcd f6 f11 f16 xo (bitNat b)).toNat 0 6 = opcd := by
  cases b <;> simp [xWord, bitAt, field, bitNat, BitVec.toNat_ofNat] <;> omega

/-- The word of a Z22-form encoding. -/
theorem z22Word_fields (opcd f6 f11 imm xo : Nat) (b : Bool) (ho : opcd < 64) (h6 : f6 < 32) (h11 : f11 < 32)
    (hi : imm < 64) (hx : xo < 512) :
    bitAt (z22Word opcd f6 f11 imm xo (bitNat b)).toNat 31 = b ∧
    field (z22Word opcd f6 f11 imm xo (bitNat b)).toNat 0 6 = opcd := by
  cases b <;> simp [z22Word, bitAt, field, bitNat, BitVec.toNat_ofNat] <;> omega

/-- The word of a Z23-form encoding. -/
theorem z23Word_fields (opcd f6 f11 f16 rmc xo : Nat) (b : Bool) (ho : opcd < 64) (h6 : f6 < 32)
    (h11 : f11 < 32) (h16 : f16 < 32) (hr : rmc < 4) (hx : xo < 256) :
    bitAt (z23Word opcd f6 f11 f16 rmc xo (bitNat b)).toNat 31 = b ∧
    field (z23Word opcd f6 f11 f16 rmc xo (bitNat b)).toNat 0 6 = opcd := by
  cases b <;> simp [z23Word, bitAt, field, bitNat, BitVec.toNat_ofNat] <;> omega

theorem bitNat_lt (b : Bool) : bitNat b < 2 := by cases b <;> decide

theorem some_beq (b : Bool) : (some b == some true) = b := by cases b <;> rfl

theorem dadd (frt : FprNum) (fra : FprNum) (frb : FprNum) (rc : Bool) :
    Statement (.dadd frt fra frb rc) := by
  have h := xWord_fields 59 frt.val fra.val frb.val 2 rc (by omega) (by omega) (by omega) (by omega) (by omega)
  exact ⟨h.1.trans (some_beq rc).symm, .inl h.2⟩

theorem daddq (frt : FprNum) (fra : FprNum) (frb : FprNum) (rc : Bool) :
    Statement (.daddq frt fra frb rc) := by
  have h := xWord_fields 63 frt.val fra.val frb.val 2 rc (by omega) (by omega) (by omega) (by omega) (by omega)
  exact ⟨h.1.trans (some_beq rc).symm, .inr h.2⟩

theorem dsub (frt : FprNum) (fra : FprNum) (frb : FprNum) (rc : Bool) :
    Statement (.dsub frt fra frb rc) := by
  have h := xWord_fields 59 frt.val fra.val frb.val 514 rc (by omega) (by omega) (by omega) (by omega) (by omega)
  exact ⟨h.1.trans (some_beq rc).symm, .inl h.2⟩

theorem dsubq (frt : FprNum) (fra : FprNum) (frb : FprNum) (rc : Bool) :
    Statement (.dsubq frt fra frb rc) := by
  have h := xWord_fields 63 frt.val fra.val frb.val 514 rc (by omega) (by omega) (by omega) (by omega) (by omega)
  exact ⟨h.1.trans (some_beq rc).symm, .inr h.2⟩

theorem dmul (frt : FprNum) (fra : FprNum) (frb : FprNum) (rc : Bool) :
    Statement (.dmul frt fra frb rc) := by
  have h := xWord_fields 59 frt.val fra.val frb.val 34 rc (by omega) (by omega) (by omega) (by omega) (by omega)
  exact ⟨h.1.trans (some_beq rc).symm, .inl h.2⟩

theorem dmulq (frt : FprNum) (fra : FprNum) (frb : FprNum) (rc : Bool) :
    Statement (.dmulq frt fra frb rc) := by
  have h := xWord_fields 63 frt.val fra.val frb.val 34 rc (by omega) (by omega) (by omega) (by omega) (by omega)
  exact ⟨h.1.trans (some_beq rc).symm, .inr h.2⟩

theorem ddiv (frt : FprNum) (fra : FprNum) (frb : FprNum) (rc : Bool) :
    Statement (.ddiv frt fra frb rc) := by
  have h := xWord_fields 59 frt.val fra.val frb.val 546 rc (by omega) (by omega) (by omega) (by omega) (by omega)
  exact ⟨h.1.trans (some_beq rc).symm, .inl h.2⟩

theorem ddivq (frt : FprNum) (fra : FprNum) (frb : FprNum) (rc : Bool) :
    Statement (.ddivq frt fra frb rc) := by
  have h := xWord_fields 63 frt.val fra.val frb.val 546 rc (by omega) (by omega) (by omega) (by omega) (by omega)
  exact ⟨h.1.trans (some_beq rc).symm, .inr h.2⟩

theorem dcmpu (bf : CrNum) (fra : FprNum) (frb : FprNum) :
    Statement (.dcmpu bf fra frb) := by
  have := bf.isLt
  have h := xWord_fields 59 (bf.val * 4) fra.val frb.val 642 false (by omega) (by omega) (by omega) (by omega) (by omega)
  exact ⟨h.1, .inl h.2⟩

theorem dcmpuq (bf : CrNum) (fra : FprNum) (frb : FprNum) :
    Statement (.dcmpuq bf fra frb) := by
  have := bf.isLt
  have h := xWord_fields 63 (bf.val * 4) fra.val frb.val 642 false (by omega) (by omega) (by omega) (by omega) (by omega)
  exact ⟨h.1, .inr h.2⟩

theorem dcmpo (bf : CrNum) (fra : FprNum) (frb : FprNum) :
    Statement (.dcmpo bf fra frb) := by
  have := bf.isLt
  have h := xWord_fields 59 (bf.val * 4) fra.val frb.val 130 false (by omega) (by omega) (by omega) (by omega) (by omega)
  exact ⟨h.1, .inl h.2⟩

theorem dcmpoq (bf : CrNum) (fra : FprNum) (frb : FprNum) :
    Statement (.dcmpoq bf fra frb) := by
  have := bf.isLt
  have h := xWord_fields 63 (bf.val * 4) fra.val frb.val 130 false (by omega) (by omega) (by omega) (by omega) (by omega)
  exact ⟨h.1, .inr h.2⟩

theorem dtstdc (bf : CrNum) (fra : FprNum) (dcm : BitVec 6) :
    Statement (.dtstdc bf fra dcm) := by
  have := bf.isLt; have := dcm.isLt
  have h := z22Word_fields 59 (bf.val * 4) fra.val dcm.toNat 194 false (by omega) (by omega) (by omega) (by omega) (by omega)
  exact ⟨h.1, .inl h.2⟩

theorem dtstdcq (bf : CrNum) (fra : FprNum) (dcm : BitVec 6) :
    Statement (.dtstdcq bf fra dcm) := by
  have := bf.isLt; have := dcm.isLt
  have h := z22Word_fields 63 (bf.val * 4) fra.val dcm.toNat 194 false (by omega) (by omega) (by omega) (by omega) (by omega)
  exact ⟨h.1, .inr h.2⟩

theorem dtstdg (bf : CrNum) (fra : FprNum) (dgm : BitVec 6) :
    Statement (.dtstdg bf fra dgm) := by
  have := bf.isLt; have := dgm.isLt
  have h := z22Word_fields 59 (bf.val * 4) fra.val dgm.toNat 226 false (by omega) (by omega) (by omega) (by omega) (by omega)
  exact ⟨h.1, .inl h.2⟩

theorem dtstdgq (bf : CrNum) (fra : FprNum) (dgm : BitVec 6) :
    Statement (.dtstdgq bf fra dgm) := by
  have := bf.isLt; have := dgm.isLt
  have h := z22Word_fields 63 (bf.val * 4) fra.val dgm.toNat 226 false (by omega) (by omega) (by omega) (by omega) (by omega)
  exact ⟨h.1, .inr h.2⟩

theorem dtstex (bf : CrNum) (fra : FprNum) (frb : FprNum) :
    Statement (.dtstex bf fra frb) := by
  have := bf.isLt
  have h := xWord_fields 59 (bf.val * 4) fra.val frb.val 162 false (by omega) (by omega) (by omega) (by omega) (by omega)
  exact ⟨h.1, .inl h.2⟩

theorem dtstexq (bf : CrNum) (fra : FprNum) (frb : FprNum) :
    Statement (.dtstexq bf fra frb) := by
  have := bf.isLt
  have h := xWord_fields 63 (bf.val * 4) fra.val frb.val 162 false (by omega) (by omega) (by omega) (by omega) (by omega)
  exact ⟨h.1, .inr h.2⟩

theorem dtstsf (bf : CrNum) (fra : FprNum) (frb : FprNum) :
    Statement (.dtstsf bf fra frb) := by
  have := bf.isLt
  have h := xWord_fields 59 (bf.val * 4) fra.val frb.val 674 false (by omega) (by omega) (by omega) (by omega) (by omega)
  exact ⟨h.1, .inl h.2⟩

theorem dtstsfq (bf : CrNum) (fra : FprNum) (frb : FprNum) :
    Statement (.dtstsfq bf fra frb) := by
  have := bf.isLt
  have h := xWord_fields 63 (bf.val * 4) fra.val frb.val 674 false (by omega) (by omega) (by omega) (by omega) (by omega)
  exact ⟨h.1, .inr h.2⟩

theorem dquai (te : BitVec 5) (frt : FprNum) (frb : FprNum) (rmc : BitVec 2) (rc : Bool) :
    Statement (.dquai te frt frb rmc rc) := by
  have := te.isLt; have := rmc.isLt
  have h := z23Word_fields 59 frt.val te.toNat frb.val rmc.toNat 67 rc (by omega) (by omega) (by omega) (by omega) (by omega) (by omega)
  exact ⟨h.1.trans (some_beq rc).symm, .inl h.2⟩

theorem dquaiq (te : BitVec 5) (frt : FprNum) (frb : FprNum) (rmc : BitVec 2) (rc : Bool) :
    Statement (.dquaiq te frt frb rmc rc) := by
  have := te.isLt; have := rmc.isLt
  have h := z23Word_fields 63 frt.val te.toNat frb.val rmc.toNat 67 rc (by omega) (by omega) (by omega) (by omega) (by omega) (by omega)
  exact ⟨h.1.trans (some_beq rc).symm, .inr h.2⟩

theorem dqua (frt : FprNum) (fra : FprNum) (frb : FprNum) (rmc : BitVec 2) (rc : Bool) :
    Statement (.dqua frt fra frb rmc rc) := by
  have := rmc.isLt
  have h := z23Word_fields 59 frt.val fra.val frb.val rmc.toNat 3 rc (by omega) (by omega) (by omega) (by omega) (by omega) (by omega)
  exact ⟨h.1.trans (some_beq rc).symm, .inl h.2⟩

theorem dquaq (frt : FprNum) (fra : FprNum) (frb : FprNum) (rmc : BitVec 2) (rc : Bool) :
    Statement (.dquaq frt fra frb rmc rc) := by
  have := rmc.isLt
  have h := z23Word_fields 63 frt.val fra.val frb.val rmc.toNat 3 rc (by omega) (by omega) (by omega) (by omega) (by omega) (by omega)
  exact ⟨h.1.trans (some_beq rc).symm, .inr h.2⟩

theorem drrnd (frt : FprNum) (fra : FprNum) (frb : FprNum) (rmc : BitVec 2) (rc : Bool) :
    Statement (.drrnd frt fra frb rmc rc) := by
  have := rmc.isLt
  have h := z23Word_fields 59 frt.val fra.val frb.val rmc.toNat 35 rc (by omega) (by omega) (by omega) (by omega) (by omega) (by omega)
  exact ⟨h.1.trans (some_beq rc).symm, .inl h.2⟩

theorem drrndq (frt : FprNum) (fra : FprNum) (frb : FprNum) (rmc : BitVec 2) (rc : Bool) :
    Statement (.drrndq frt fra frb rmc rc) := by
  have := rmc.isLt
  have h := z23Word_fields 63 frt.val fra.val frb.val rmc.toNat 35 rc (by omega) (by omega) (by omega) (by omega) (by omega) (by omega)
  exact ⟨h.1.trans (some_beq rc).symm, .inr h.2⟩

theorem drintx (r : Bool) (frt : FprNum) (frb : FprNum) (rmc : BitVec 2) (rc : Bool) :
    Statement (.drintx r frt frb rmc rc) := by
  have := bitNat_lt r; have := rmc.isLt
  have h := z23Word_fields 59 frt.val (bitNat r) frb.val rmc.toNat 99 rc (by omega) (by omega) (by omega) (by omega) (by omega) (by omega)
  exact ⟨h.1.trans (some_beq rc).symm, .inl h.2⟩

theorem drintxq (r : Bool) (frt : FprNum) (frb : FprNum) (rmc : BitVec 2) (rc : Bool) :
    Statement (.drintxq r frt frb rmc rc) := by
  have := bitNat_lt r; have := rmc.isLt
  have h := z23Word_fields 63 frt.val (bitNat r) frb.val rmc.toNat 99 rc (by omega) (by omega) (by omega) (by omega) (by omega) (by omega)
  exact ⟨h.1.trans (some_beq rc).symm, .inr h.2⟩

theorem drintn (r : Bool) (frt : FprNum) (frb : FprNum) (rmc : BitVec 2) (rc : Bool) :
    Statement (.drintn r frt frb rmc rc) := by
  have := bitNat_lt r; have := rmc.isLt
  have h := z23Word_fields 59 frt.val (bitNat r) frb.val rmc.toNat 227 rc (by omega) (by omega) (by omega) (by omega) (by omega) (by omega)
  exact ⟨h.1.trans (some_beq rc).symm, .inl h.2⟩

theorem drintnq (r : Bool) (frt : FprNum) (frb : FprNum) (rmc : BitVec 2) (rc : Bool) :
    Statement (.drintnq r frt frb rmc rc) := by
  have := bitNat_lt r; have := rmc.isLt
  have h := z23Word_fields 63 frt.val (bitNat r) frb.val rmc.toNat 227 rc (by omega) (by omega) (by omega) (by omega) (by omega) (by omega)
  exact ⟨h.1.trans (some_beq rc).symm, .inr h.2⟩

theorem dctdp (frt : FprNum) (frb : FprNum) (rc : Bool) :
    Statement (.dctdp frt frb rc) := by
  have h := xWord_fields 59 frt.val 0 frb.val 258 rc (by omega) (by omega) (by omega) (by omega) (by omega)
  exact ⟨h.1.trans (some_beq rc).symm, .inl h.2⟩

theorem dctqpq (frt : FprNum) (frb : FprNum) (rc : Bool) :
    Statement (.dctqpq frt frb rc) := by
  have h := xWord_fields 63 frt.val 0 frb.val 258 rc (by omega) (by omega) (by omega) (by omega) (by omega)
  exact ⟨h.1.trans (some_beq rc).symm, .inr h.2⟩

theorem drsp (frt : FprNum) (frb : FprNum) (rc : Bool) :
    Statement (.drsp frt frb rc) := by
  have h := xWord_fields 59 frt.val 0 frb.val 770 rc (by omega) (by omega) (by omega) (by omega) (by omega)
  exact ⟨h.1.trans (some_beq rc).symm, .inl h.2⟩

theorem drdpq (frt : FprNum) (frb : FprNum) (rc : Bool) :
    Statement (.drdpq frt frb rc) := by
  have h := xWord_fields 63 frt.val 0 frb.val 770 rc (by omega) (by omega) (by omega) (by omega) (by omega)
  exact ⟨h.1.trans (some_beq rc).symm, .inr h.2⟩

theorem dcffixq (frt : FprNum) (frb : FprNum) (rc : Bool) :
    Statement (.dcffixq frt frb rc) := by
  have h := xWord_fields 63 frt.val 0 frb.val 802 rc (by omega) (by omega) (by omega) (by omega) (by omega)
  exact ⟨h.1.trans (some_beq rc).symm, .inr h.2⟩

theorem dctfix (frt : FprNum) (frb : FprNum) (rc : Bool) :
    Statement (.dctfix frt frb rc) := by
  have h := xWord_fields 59 frt.val 0 frb.val 290 rc (by omega) (by omega) (by omega) (by omega) (by omega)
  exact ⟨h.1.trans (some_beq rc).symm, .inl h.2⟩

theorem dctfixq (frt : FprNum) (frb : FprNum) (rc : Bool) :
    Statement (.dctfixq frt frb rc) := by
  have h := xWord_fields 63 frt.val 0 frb.val 290 rc (by omega) (by omega) (by omega) (by omega) (by omega)
  exact ⟨h.1.trans (some_beq rc).symm, .inr h.2⟩

theorem ddedpd (sp : BitVec 2) (frt : FprNum) (frb : FprNum) (rc : Bool) :
    Statement (.ddedpd sp frt frb rc) := by
  have := sp.isLt
  have h := xWord_fields 59 frt.val (sp.toNat * 8) frb.val 322 rc (by omega) (by omega) (by omega) (by omega) (by omega)
  exact ⟨h.1.trans (some_beq rc).symm, .inl h.2⟩

theorem ddedpdq (sp : BitVec 2) (frt : FprNum) (frb : FprNum) (rc : Bool) :
    Statement (.ddedpdq sp frt frb rc) := by
  have := sp.isLt
  have h := xWord_fields 63 frt.val (sp.toNat * 8) frb.val 322 rc (by omega) (by omega) (by omega) (by omega) (by omega)
  exact ⟨h.1.trans (some_beq rc).symm, .inr h.2⟩

theorem denbcd (s : Bool) (frt : FprNum) (frb : FprNum) (rc : Bool) :
    Statement (.denbcd s frt frb rc) := by
  have := bitNat_lt s
  have h := xWord_fields 59 frt.val (bitNat s * 16) frb.val 834 rc (by omega) (by omega) (by omega) (by omega) (by omega)
  exact ⟨h.1.trans (some_beq rc).symm, .inl h.2⟩

theorem denbcdq (s : Bool) (frt : FprNum) (frb : FprNum) (rc : Bool) :
    Statement (.denbcdq s frt frb rc) := by
  have := bitNat_lt s
  have h := xWord_fields 63 frt.val (bitNat s * 16) frb.val 834 rc (by omega) (by omega) (by omega) (by omega) (by omega)
  exact ⟨h.1.trans (some_beq rc).symm, .inr h.2⟩

theorem dxex (frt : FprNum) (frb : FprNum) (rc : Bool) :
    Statement (.dxex frt frb rc) := by
  have h := xWord_fields 59 frt.val 0 frb.val 354 rc (by omega) (by omega) (by omega) (by omega) (by omega)
  exact ⟨h.1.trans (some_beq rc).symm, .inl h.2⟩

theorem dxexq (frt : FprNum) (frb : FprNum) (rc : Bool) :
    Statement (.dxexq frt frb rc) := by
  have h := xWord_fields 63 frt.val 0 frb.val 354 rc (by omega) (by omega) (by omega) (by omega) (by omega)
  exact ⟨h.1.trans (some_beq rc).symm, .inr h.2⟩

theorem diex (frt : FprNum) (fra : FprNum) (frb : FprNum) (rc : Bool) :
    Statement (.diex frt fra frb rc) := by
  have h := xWord_fields 59 frt.val fra.val frb.val 866 rc (by omega) (by omega) (by omega) (by omega) (by omega)
  exact ⟨h.1.trans (some_beq rc).symm, .inl h.2⟩

theorem diexq (frt : FprNum) (fra : FprNum) (frb : FprNum) (rc : Bool) :
    Statement (.diexq frt fra frb rc) := by
  have h := xWord_fields 63 frt.val fra.val frb.val 866 rc (by omega) (by omega) (by omega) (by omega) (by omega)
  exact ⟨h.1.trans (some_beq rc).symm, .inr h.2⟩

theorem dscli (frt : FprNum) (fra : FprNum) (sh : BitVec 6) (rc : Bool) :
    Statement (.dscli frt fra sh rc) := by
  have := sh.isLt
  have h := z22Word_fields 59 frt.val fra.val sh.toNat 66 rc (by omega) (by omega) (by omega) (by omega) (by omega)
  exact ⟨h.1.trans (some_beq rc).symm, .inl h.2⟩

theorem dscliq (frt : FprNum) (fra : FprNum) (sh : BitVec 6) (rc : Bool) :
    Statement (.dscliq frt fra sh rc) := by
  have := sh.isLt
  have h := z22Word_fields 63 frt.val fra.val sh.toNat 66 rc (by omega) (by omega) (by omega) (by omega) (by omega)
  exact ⟨h.1.trans (some_beq rc).symm, .inr h.2⟩

theorem dscri (frt : FprNum) (fra : FprNum) (sh : BitVec 6) (rc : Bool) :
    Statement (.dscri frt fra sh rc) := by
  have := sh.isLt
  have h := z22Word_fields 59 frt.val fra.val sh.toNat 98 rc (by omega) (by omega) (by omega) (by omega) (by omega)
  exact ⟨h.1.trans (some_beq rc).symm, .inl h.2⟩

theorem dscriq (frt : FprNum) (fra : FprNum) (sh : BitVec 6) (rc : Bool) :
    Statement (.dscriq frt fra sh rc) := by
  have := sh.isLt
  have h := z22Word_fields 63 frt.val fra.val sh.toNat 98 rc (by omega) (by omega) (by omega) (by omega) (by omega)
  exact ⟨h.1.trans (some_beq rc).symm, .inr h.2⟩

end Sys2Proof.Laws.RecordPlace
end

