-- ==== Sys2Proof/Tests/Slice0.lean ====
section
/-! SUPPORT. Tests. Words are written out from the encodings of 30_encoding.md; expected results are those of
95_test_vectors.md or are computed by hand from the rule a test names. After them one witness for each
statement that has hypotheses. -/

namespace Sys2Proof.Machine

-- The theorems are checked one after another: many small kernel evaluations at once exhaust the threads.
set_option Elab.async false

/-- A machine with these FPRs, the others holding a pattern, and this FPSCR. -/
def testState (fprs : List (FprNum × Dword)) (fpscr : Dword) : State :=
  { State.reset with
    fpr := writeFprs fprs (Vector.replicate 32 0xDEADBEEFDEADBEEF#64)
    fpscr := fpscr }

/-- A DFP64 datum as a register holds it. -/
def dfp64 (d : Datum) : Dword := BitVec.ofNat 64 (enc .dfp64 d)

/-- What one instruction leaves: the listed registers, the FPSCR and the CR. -/
def run1 (i : Instr) (fprs : List (FprNum × Dword)) (fpscr : Dword) (regs : List FprNum) :
    Option (List Dword × Dword × BitVec 32) :=
  match exec i (testState fprs fpscr) with
  | .next t => some (regs.map (readFpr t), t.fpscr, crWord t)
  | .fault _ => none
  | .refused _ => none

/-! WellFormed: each field that names a pair, odd (30_encoding.md R108, R110). -/

theorem test_wellFormed_daddq :
    wellFormed (.daddq 3 4 6 false) = false ∧
    wellFormed (.daddq 2 5 6 false) = false ∧
    wellFormed (.daddq 2 4 7 false) = false := by decide

theorem test_wellFormed_dsubq :
    wellFormed (.dsubq 3 4 6 false) = false ∧
    wellFormed (.dsubq 2 5 6 false) = false ∧
    wellFormed (.dsubq 2 4 7 false) = false := by decide

theorem test_wellFormed_dmulq :
    wellFormed (.dmulq 3 4 6 false) = false ∧
    wellFormed (.dmulq 2 5 6 false) = false ∧
    wellFormed (.dmulq 2 4 7 false) = false := by decide

theorem test_wellFormed_ddivq :
    wellFormed (.ddivq 3 4 6 false) = false ∧
    wellFormed (.ddivq 2 5 6 false) = false ∧
    wellFormed (.ddivq 2 4 7 false) = false := by decide

theorem test_wellFormed_dcmpuq :
    wellFormed (.dcmpuq 1 5 6) = false ∧
    wellFormed (.dcmpuq 1 4 7) = false := by decide

theorem test_wellFormed_dcmpoq :
    wellFormed (.dcmpoq 1 5 6) = false ∧
    wellFormed (.dcmpoq 1 4 7) = false := by decide

theorem test_wellFormed_dtstdcq : wellFormed (.dtstdcq 1 5 1#6) = false := by decide

theorem test_wellFormed_dtstdgq : wellFormed (.dtstdgq 1 5 1#6) = false := by decide

theorem test_wellFormed_dtstexq :
    wellFormed (.dtstexq 1 5 6) = false ∧
    wellFormed (.dtstexq 1 4 7) = false := by decide

theorem test_wellFormed_dtstsfq : wellFormed (.dtstsfq 1 4 7) = false := by decide

theorem test_wellFormed_dquaiq :
    wellFormed (.dquaiq 3#5 3 6 0#2 false) = false ∧
    wellFormed (.dquaiq 3#5 2 7 0#2 false) = false := by decide

theorem test_wellFormed_dquaq :
    wellFormed (.dquaq 3 4 6 0#2 false) = false ∧
    wellFormed (.dquaq 2 5 6 0#2 false) = false ∧
    wellFormed (.dquaq 2 4 7 0#2 false) = false := by decide

theorem test_wellFormed_drrndq :
    wellFormed (.drrndq 3 4 6 0#2 false) = false ∧
    wellFormed (.drrndq 2 4 7 0#2 false) = false := by decide

theorem test_wellFormed_drintxq :
    wellFormed (.drintxq true 3 6 0#2 false) = false ∧
    wellFormed (.drintxq true 2 7 0#2 false) = false := by decide

theorem test_wellFormed_drintnq :
    wellFormed (.drintnq true 3 6 0#2 false) = false ∧
    wellFormed (.drintnq true 2 7 0#2 false) = false := by decide

theorem test_wellFormed_dctqpq : wellFormed (.dctqpq 3 6 false) = false := by decide

theorem test_wellFormed_drdpq :
    wellFormed (.drdpq 3 6 false) = false ∧
    wellFormed (.drdpq 2 7 false) = false := by decide

theorem test_wellFormed_dcffixq : wellFormed (.dcffixq 3 6 false) = false := by decide

theorem test_wellFormed_dctfixq : wellFormed (.dctfixq 2 7 false) = false := by decide

theorem test_wellFormed_ddedpdq :
    wellFormed (.ddedpdq 0#2 3 6 false) = false ∧
    wellFormed (.ddedpdq 0#2 2 7 false) = false := by decide

theorem test_wellFormed_denbcdq :
    wellFormed (.denbcdq true 3 6 false) = false ∧
    wellFormed (.denbcdq true 2 7 false) = false := by decide

theorem test_wellFormed_dxexq : wellFormed (.dxexq 2 7 false) = false := by decide

theorem test_wellFormed_diexq :
    wellFormed (.diexq 3 4 6 false) = false ∧
    wellFormed (.diexq 2 4 7 false) = false := by decide

theorem test_wellFormed_dscliq :
    wellFormed (.dscliq 3 4 1#6 false) = false ∧
    wellFormed (.dscliq 2 5 1#6 false) = false := by decide

theorem test_wellFormed_dscriq :
    wellFormed (.dscriq 3 4 1#6 false) = false ∧
    wellFormed (.dscriq 2 5 1#6 false) = false := by decide

/-! Decoding and encoding: one word of each instruction. -/

theorem test_decode_dadd :
    decode 0xECC22004#32 = .instr (.dadd 6 2 4 false) ∧ encode (.dadd 6 2 4 false) = 0xECC22004#32 := by
  decide +kernel

theorem test_decode_daddq :
    decode 0xFCC22004#32 = .instr (.daddq 6 2 4 false) ∧ encode (.daddq 6 2 4 false) = 0xFCC22004#32 := by
  decide +kernel

theorem test_decode_dsub :
    decode 0xECC22404#32 = .instr (.dsub 6 2 4 false) ∧ encode (.dsub 6 2 4 false) = 0xECC22404#32 := by
  decide +kernel

theorem test_decode_dsubq :
    decode 0xFCC22404#32 = .instr (.dsubq 6 2 4 false) ∧ encode (.dsubq 6 2 4 false) = 0xFCC22404#32 := by
  decide +kernel

theorem test_decode_dmul :
    decode 0xECC22044#32 = .instr (.dmul 6 2 4 false) ∧ encode (.dmul 6 2 4 false) = 0xECC22044#32 := by
  decide +kernel

theorem test_decode_dmulq :
    decode 0xFCC22044#32 = .instr (.dmulq 6 2 4 false) ∧ encode (.dmulq 6 2 4 false) = 0xFCC22044#32 := by
  decide +kernel

theorem test_decode_ddiv :
    decode 0xECC22444#32 = .instr (.ddiv 6 2 4 false) ∧ encode (.ddiv 6 2 4 false) = 0xECC22444#32 := by
  decide +kernel

theorem test_decode_ddivq :
    decode 0xFCC22445#32 = .instr (.ddivq 6 2 4 true) ∧ encode (.ddivq 6 2 4 true) = 0xFCC22445#32 := by
  decide +kernel

theorem test_decode_dcmpu :
    decode 0xEC022504#32 = .instr (.dcmpu 0 2 4) ∧ encode (.dcmpu 0 2 4) = 0xEC022504#32 := by
  decide +kernel

theorem test_decode_dcmpuq :
    decode 0xFC822504#32 = .instr (.dcmpuq 1 2 4) ∧ encode (.dcmpuq 1 2 4) = 0xFC822504#32 := by
  decide +kernel

theorem test_decode_dcmpo :
    decode 0xEC022104#32 = .instr (.dcmpo 0 2 4) ∧ encode (.dcmpo 0 2 4) = 0xEC022104#32 := by
  decide +kernel

theorem test_decode_dcmpoq :
    decode 0xFC841104#32 = .instr (.dcmpoq 1 4 2) ∧ encode (.dcmpoq 1 4 2) = 0xFC841104#32 := by
  decide +kernel

theorem test_decode_dtstdc :
    decode 0xEE02FD84#32 = .instr (.dtstdc 4 2 63#6) ∧ encode (.dtstdc 4 2 63#6) = 0xEE02FD84#32 := by
  decide +kernel

theorem test_decode_dtstdcq :
    decode 0xFC824184#32 = .instr (.dtstdcq 1 2 16#6) ∧ encode (.dtstdcq 1 2 16#6) = 0xFC824184#32 := by
  decide +kernel

theorem test_decode_dtstdg :
    decode 0xEC0221C4#32 = .instr (.dtstdg 0 2 8#6) ∧ encode (.dtstdg 0 2 8#6) = 0xEC0221C4#32 := by
  decide +kernel

theorem test_decode_dtstdgq :
    decode 0xFC0209C4#32 = .instr (.dtstdgq 0 2 2#6) ∧ encode (.dtstdgq 0 2 2#6) = 0xFC0209C4#32 := by
  decide +kernel

theorem test_decode_dtstex :
    decode 0xEC022144#32 = .instr (.dtstex 0 2 4) ∧ encode (.dtstex 0 2 4) = 0xEC022144#32 := by
  decide +kernel

theorem test_decode_dtstexq :
    decode 0xFC022144#32 = .instr (.dtstexq 0 2 4) ∧ encode (.dtstexq 0 2 4) = 0xFC022144#32 := by
  decide +kernel

theorem test_decode_dtstsf :
    decode 0xEC022544#32 = .instr (.dtstsf 0 2 4) ∧ encode (.dtstsf 0 2 4) = 0xEC022544#32 := by
  decide +kernel

theorem test_decode_dtstsfq :
    decode 0xFC072544#32 = .instr (.dtstsfq 0 7 4) ∧ encode (.dtstsfq 0 7 4) = 0xFC072544#32 := by
  decide +kernel

theorem test_decode_dquai :
    decode 0xECD02087#32 = .instr (.dquai 16#5 6 4 0#2 true) ∧ encode (.dquai 16#5 6 4 0#2 true) = 0xECD02087#32 := by
  decide +kernel

theorem test_decode_dquaiq :
    decode 0xFCD02087#32 = .instr (.dquaiq 16#5 6 4 0#2 true) ∧ encode (.dquaiq 16#5 6 4 0#2 true) = 0xFCD02087#32 := by
  decide +kernel

theorem test_decode_dqua :
    decode 0xECC22006#32 = .instr (.dqua 6 2 4 0#2 false) ∧ encode (.dqua 6 2 4 0#2 false) = 0xECC22006#32 := by
  decide +kernel

theorem test_decode_dquaq :
    decode 0xFCC22006#32 = .instr (.dquaq 6 2 4 0#2 false) ∧ encode (.dquaq 6 2 4 0#2 false) = 0xFCC22006#32 := by
  decide +kernel

theorem test_decode_drrnd :
    decode 0xECC22047#32 = .instr (.drrnd 6 2 4 0#2 true) ∧ encode (.drrnd 6 2 4 0#2 true) = 0xECC22047#32 := by
  decide +kernel

theorem test_decode_drrndq :
    decode 0xFCC22046#32 = .instr (.drrndq 6 2 4 0#2 false) ∧ encode (.drrndq 6 2 4 0#2 false) = 0xFCC22046#32 := by
  decide +kernel

theorem test_decode_drintx :
    decode 0xECC026C6#32 = .instr (.drintx false 6 4 3#2 false) ∧ encode (.drintx false 6 4 3#2 false) = 0xECC026C6#32 := by
  decide +kernel

theorem test_decode_drintxq :
    decode 0xFCC020C6#32 = .instr (.drintxq false 6 4 0#2 false) ∧ encode (.drintxq false 6 4 0#2 false) = 0xFCC020C6#32 := by
  decide +kernel

theorem test_decode_drintn :
    decode 0xECC021C6#32 = .instr (.drintn false 6 4 0#2 false) ∧ encode (.drintn false 6 4 0#2 false) = 0xECC021C6#32 := by
  decide +kernel

theorem test_decode_drintnq :
    decode 0xFCC125C6#32 = .instr (.drintnq true 6 4 2#2 false) ∧ encode (.drintnq true 6 4 2#2 false) = 0xFCC125C6#32 := by
  decide +kernel

theorem test_decode_dctdp :
    decode 0xECC02205#32 = .instr (.dctdp 6 4 true) ∧ encode (.dctdp 6 4 true) = 0xECC02205#32 := by
  decide +kernel

theorem test_decode_dctqpq :
    decode 0xFCC02204#32 = .instr (.dctqpq 6 4 false) ∧ encode (.dctqpq 6 4 false) = 0xFCC02204#32 := by
  decide +kernel

theorem test_decode_drsp :
    decode 0xECC02605#32 = .instr (.drsp 6 4 true) ∧ encode (.drsp 6 4 true) = 0xECC02605#32 := by
  decide +kernel

theorem test_decode_drdpq :
    decode 0xFCC02605#32 = .instr (.drdpq 6 4 true) ∧ encode (.drdpq 6 4 true) = 0xFCC02605#32 := by
  decide +kernel

theorem test_decode_dcffixq :
    decode 0xFCC02644#32 = .instr (.dcffixq 6 4 false) ∧ encode (.dcffixq 6 4 false) = 0xFCC02644#32 := by
  decide +kernel

theorem test_decode_dctfix :
    decode 0xECC02245#32 = .instr (.dctfix 6 4 true) ∧ encode (.dctfix 6 4 true) = 0xECC02245#32 := by
  decide +kernel

theorem test_decode_dctfixq :
    decode 0xFCC02244#32 = .instr (.dctfixq 6 4 false) ∧ encode (.dctfixq 6 4 false) = 0xFCC02244#32 := by
  decide +kernel

theorem test_decode_ddedpd :
    decode 0xECC02285#32 = .instr (.ddedpd 0#2 6 4 true) ∧ encode (.ddedpd 0#2 6 4 true) = 0xECC02285#32 := by
  decide +kernel

theorem test_decode_ddedpdq :
    decode 0xFCD02284#32 = .instr (.ddedpdq 2#2 6 4 false) ∧ encode (.ddedpdq 2#2 6 4 false) = 0xFCD02284#32 := by
  decide +kernel

theorem test_decode_denbcd :
    decode 0xECC02685#32 = .instr (.denbcd false 6 4 true) ∧ encode (.denbcd false 6 4 true) = 0xECC02685#32 := by
  decide +kernel

theorem test_decode_denbcdq :
    decode 0xFCD02684#32 = .instr (.denbcdq true 6 4 false) ∧ encode (.denbcdq true 6 4 false) = 0xFCD02684#32 := by
  decide +kernel

theorem test_decode_dxex :
    decode 0xECC022C4#32 = .instr (.dxex 6 4 false) ∧ encode (.dxex 6 4 false) = 0xECC022C4#32 := by
  decide +kernel

theorem test_decode_dxexq :
    decode 0xFCE022C5#32 = .instr (.dxexq 7 4 true) ∧ encode (.dxexq 7 4 true) = 0xFCE022C5#32 := by
  decide +kernel

theorem test_decode_diex :
    decode 0xECC226C4#32 = .instr (.diex 6 2 4 false) ∧ encode (.diex 6 2 4 false) = 0xECC226C4#32 := by
  decide +kernel

theorem test_decode_diexq :
    decode 0xFCC226C4#32 = .instr (.diexq 6 2 4 false) ∧ encode (.diexq 6 2 4 false) = 0xFCC226C4#32 := by
  decide +kernel

theorem test_decode_dscli :
    decode 0xECC20485#32 = .instr (.dscli 6 2 1#6 true) ∧ encode (.dscli 6 2 1#6 true) = 0xECC20485#32 := by
  decide +kernel

theorem test_decode_dscliq :
    decode 0xFCC21084#32 = .instr (.dscliq 6 2 4#6 false) ∧ encode (.dscliq 6 2 4#6 false) = 0xFCC21084#32 := by
  decide +kernel

theorem test_decode_dscri :
    decode 0xECC20CC4#32 = .instr (.dscri 6 2 3#6 false) ∧ encode (.dscri 6 2 3#6 false) = 0xECC20CC4#32 := by
  decide +kernel

theorem test_decode_dscriq :
    decode 0xFCC288C5#32 = .instr (.dscriq 6 2 34#6 true) ∧ encode (.dscriq 6 2 34#6 true) = 0xFCC288C5#32 := by
  decide +kernel

/-- A reserved bit that is 1 (R109) and an odd pair field (R108): the form is invalid. -/
theorem test_decode_invalidForm :
    decode 0xEC020505#32 = .invalidForm ∧ decode 0xEC322100#32 = .notDfp ∧
    decode 0xEC220204#32 = .invalidForm ∧ decode 0xFC620004#32 = .invalidForm := by decide +kernel

/-- Words of other instructions (R111): another primary opcode, and an extended opcode of no row. -/
theorem test_decode_notDfp :
    decode 0x00000000#32 = .notDfp ∧ decode 0x7C221A14#32 = .notDfp ∧ decode 0xEC22182A#32 = .notDfp := by
  decide +kernel

theorem test_decodeTableWord : decodeTableWord 32 0xEC221805 = some (.dadd 1 2 3 true) ∧
    decodeTableWord 32 0x00000000 = none := by decide +kernel

/-- The two byte orders of storage (20_memory.md R84). -/
theorem test_byteOrder : bytesOfWord .big 0xEC221805#32 = [0xEC#8, 0x22#8, 0x18#8, 0x05#8] ∧
    decodeBytes .little [0x05#8, 0x18#8, 0x22#8, 0xEC#8] = .instr (.dadd 1 2 3 true) := by decide +kernel

/-! One step of each instruction. -/

/-- 95_test_vectors.md: inexact, nearest-even rounds up -/
theorem test_run_dadd :
    run1 (.dadd 6 2 4 false)
      [(2, 0x6E38FF3FCFF3FCFF#64), (4, 0x2234000000000006#64)] 0x0#64 [6]
      = some ([0x263C000000000000#64], 0x82064000#64, 0x00000000#32) := by
  decide +kernel

/-- 95_test_vectors.md: VXISI, VE=1, mode (0,0) -/
theorem test_run_dadd_also :
    run1 (.dadd 6 2 4 true)
      [(2, 0x7800000000000000#64), (4, 0xF800000000000000#64)] 0x80#64 [6]
      = some ([0xDEADBEEFDEADBEEF#64], 0xE0800080#64, 0x0E000000#32) := by
  decide +kernel

/-- 95_test_vectors.md: Nmax + Nmax, OE=0, nearest-even -/
theorem test_run_daddq :
    run1 (.daddq 6 2 4 false)
      [(2, 0x77FFCFF3FCFF3FCF#64), (3, 0xF3FCFF3FCFF3FCFF#64), (4, 0x77FFCFF3FCFF3FCF#64), (5, 0xF3FCFF3FCFF3FCFF#64)] 0x0#64 [6, 7]
      = some ([0x7800000000000000#64, 0x0000000000000000#64], 0x92065000#64, 0x00000000#32) := by
  decide +kernel

/-- 95_test_vectors.md: quad 1 + 3 -/
theorem test_run_daddq_also :
    run1 (.daddq 6 2 4 false)
      [(2, 0x2208000000000000#64), (3, 0x0000000000000001#64), (4, 0x2208000000000000#64), (5, 0x0000000000000003#64)] 0x0#64 [6, 7]
      = some ([0x2208000000000000#64, 0x0000000000000004#64], 0x4000#64, 0x00000000#32) := by
  decide +kernel

/-- 95_test_vectors.md: the sign of a NaN operand is not inverted by subtract (decision D18) -/
theorem test_run_dsub :
    run1 (.dsub 6 2 4 false)
      [(2, 0x2238000000000001#64), (4, 0x7C00000000000009#64)] 0x0#64 [6]
      = some ([0x7C00000000000009#64], 0x11000#64, 0x00000000#32) := by
  decide +kernel

/-- 95_test_vectors.md: their difference is +0E5 (ideal exponent min(5, 10)) -/
theorem test_run_dsub_also :
    run1 (.dsub 6 2 4 false)
      [(2, 0x224C000000100000#64), (4, 0x2260000000000010#64)] 0x0#64 [6]
      = some ([0x224C000000000000#64], 0x2000#64, 0x00000000#32) := by
  decide +kernel

/-- 95_test_vectors.md: quad 1 - 3 = -2 -/
theorem test_run_dsubq :
    run1 (.dsubq 6 2 4 false)
      [(2, 0x2208000000000000#64), (3, 0x0000000000000001#64), (4, 0x2208000000000000#64), (5, 0x0000000000000003#64)] 0x0#64 [6, 7]
      = some ([0xA208000000000000#64, 0x0000000000000002#64], 0x8000#64, 0x00000000#32) := by
  decide +kernel

/-- 95_test_vectors.md: 1.2 x -0.30 = -360E-3 -/
theorem test_run_dmul :
    run1 (.dmul 6 2 4 false)
      [(2, 0x2234000000000012#64), (4, 0xA230000000000030#64)] 0x0#64 [6]
      = some ([0xA22C0000000001E0#64], 0x8000#64, 0x00000000#32) := by
  decide +kernel

/-- 95_test_vectors.md: UE=1 -/
theorem test_run_dmul_also :
    run1 (.dmul 6 2 4 false)
      [(2, 0x071934B9C1E28E56#64), (4, 0x030C000000000001#64)] 0x20#64 [6]
      = some ([0x44ED34B9C1E28E56#64], 0xC8004020#64, 0x00000000#32) := by
  decide +kernel

/-- 95_test_vectors.md: quad 1 x 3 -/
theorem test_run_dmulq :
    run1 (.dmulq 6 2 4 false)
      [(2, 0x2208000000000000#64), (3, 0x0000000000000001#64), (4, 0x2208000000000000#64), (5, 0x0000000000000003#64)] 0x0#64 [6, 7]
      = some ([0x2208000000000000#64, 0x0000000000000003#64], 0x4000#64, 0x00000000#32) := by
  decide +kernel

/-- 95_test_vectors.md: 2/3 = 6666666666666667E-16, FR=1 -/
theorem test_run_ddiv :
    run1 (.ddiv 6 2 4 false)
      [(2, 0x2238000000000002#64), (4, 0x2238000000000003#64)] 0x0#64 [6]
      = some ([0x39FB66D9B66D9B67#64], 0x82064000#64, 0x00000000#32) := by
  decide +kernel

/-- 95_test_vectors.md: finite/0, ZE=0 -/
theorem test_run_ddiv_also :
    run1 (.ddiv 6 2 4 false)
      [(2, 0xA238000000000007#64), (4, 0x2244000000000000#64)] 0x0#64 [6]
      = some ([0xF800000000000000#64], 0x84009000#64, 0x00000000#32) := by
  decide +kernel

/-- 95_test_vectors.md: DRN=010 (toward +inf) -/
theorem test_run_ddivq :
    run1 (.ddivq 6 2 4 true)
      [(2, 0x2208000000000000#64), (3, 0x0000000000000001#64), (4, 0x2208000000000000#64), (5, 0x0000000000000003#64)] 0x200000000#64 [6, 7]
      = some ([0x2DFF9B36CDB36CDB#64, 0x36CDB36CDB36CDB4#64], 0x282064000#64, 0x08000000#32) := by
  decide +kernel

/-- 95_test_vectors.md: quad 1/3 to 34 digits -/
theorem test_run_ddivq_also :
    run1 (.ddivq 6 2 4 false)
      [(2, 0x2208000000000000#64), (3, 0x0000000000000001#64), (4, 0x2208000000000000#64), (5, 0x0000000000000003#64)] 0x0#64 [6, 7]
      = some ([0x2DFF9B36CDB36CDB#64, 0x36CDB36CDB36CDB3#64], 0x82024000#64, 0x00000000#32) := by
  decide +kernel

/-- 95_test_vectors.md: the two forms compare equal (0b0010) -/
theorem test_run_dcmpu :
    run1 (.dcmpu 0 2 4)
      [(2, 0x224C000000100000#64), (4, 0x2260000000000010#64)] 0x0#64 []
      = some ([], 0x2000#64, 0x20000000#32) := by
  decide +kernel

/-- 95_test_vectors.md: SNaN -/
theorem test_run_dcmpu_also :
    run1 (.dcmpu 5 2 4)
      [(2, 0x7E00000000000000#64), (4, 0x2238000000000001#64)] 0x0#64 []
      = some ([], 0xA1001000#64, 0x00000100#32) := by
  decide +kernel

/-- 95_test_vectors.md: quad -/
theorem test_run_dcmpuq :
    run1 (.dcmpuq 1 2 4)
      [(2, 0x0000000000000000#64), (3, 0x0000000000000001#64), (4, 0x43FFC00000000000#64), (5, 0x0000000000000001#64)] 0x0#64 []
      = some ([], 0x8000#64, 0x08000000#32) := by
  decide +kernel

/-- 95_test_vectors.md: FPSCR bit 47 (C) is kept, bits 48 -/
theorem test_run_dcmpo :
    run1 (.dcmpo 0 2 4)
      [(2, 0x2238000000000001#64), (4, 0x2238000000000001#64)] 0x1F000#64 []
      = some ([], 0x12000#64, 0x20000000#32) := by
  decide +kernel

/-- 95_test_vectors.md: ordered, SNaN, VE=1, mode (0,0) -/
theorem test_run_dcmpo_also :
    run1 (.dcmpo 5 2 4)
      [(2, 0x7E00000000000000#64), (4, 0x2238000000000001#64)] 0x80#64 []
      = some ([], 0xE1001080#64, 0x00000100#32) := by
  decide +kernel

/-- 95_test_vectors.md: quad ordered, operands exchanged -/
theorem test_run_dcmpoq :
    run1 (.dcmpoq 1 4 2)
      [(2, 0x0000000000000000#64), (3, 0x0000000000000001#64), (4, 0x43FFC00000000000#64), (5, 0x0000000000000001#64)] 0x0#64 []
      = some ([], 0x4000#64, 0x04000000#32) := by
  decide +kernel

/-- 95_test_vectors.md: all classes selected -/
theorem test_run_dtstdc :
    run1 (.dtstdc 4 2 63#6)
      [(2, 0x2238000000000007#64)] 0x8201F000#64 []
      = some ([], 0x82012000#64, 0x00002000#32) := by
  decide +kernel

/-- 95_test_vectors.md: negative zero -/
theorem test_run_dtstdc_also :
    run1 (.dtstdc 0 2 32#6)
      [(2, 0xA238000000000000#64)] 0x0#64 []
      = some ([], 0xA000#64, 0xA0000000#32) := by
  decide +kernel

/-- 95_test_vectors.md: quad negative subnormal -/
theorem test_run_dtstdcq :
    run1 (.dtstdcq 1 2 16#6)
      [(2, 0x8000000000000000#64), (3, 0x0000000000000001#64)] 0x0#64 []
      = some ([], 0xA000#64, 0x0A000000#32) := by
  decide +kernel

/-- 95_test_vectors.md: an extreme exponent decides before the leftmost digit -/
theorem test_run_dtstdg :
    run1 (.dtstdg 0 2 8#6)
      [(2, 0x47FD34B9C1E28E56#64)] 0x0#64 []
      = some ([], 0x2000#64, 0x20000000#32) := by
  decide +kernel

/-- 95_test_vectors.md: zero, extreme exponent (Xmax), negative -/
theorem test_run_dtstdg_also :
    run1 (.dtstdg 0 2 16#6)
      [(2, 0xC3FC000000000000#64)] 0x0#64 []
      = some ([], 0xA000#64, 0xA0000000#32) := by
  decide +kernel

/-- 95_test_vectors.md: quad, 34 digits, leftmost digit 1 -/
theorem test_run_dtstdgq :
    run1 (.dtstdgq 0 2 2#6)
      [(2, 0x2608000000000000#64), (3, 0x0000000000000000#64)] 0x0#64 []
      = some ([], 0x2000#64, 0x20000000#32) := by
  decide +kernel

/-- 95_test_vectors.md: exponent 3 < 5 -/
theorem test_run_dtstex :
    run1 (.dtstex 0 2 4)
      [(2, 0x2244000000000001#64), (4, 0xA24C0000000000FF#64)] 0x0#64 []
      = some ([], 0x8000#64, 0x80000000#32) := by
  decide +kernel

/-- 95_test_vectors.md: 5 > 3 -/
theorem test_run_dtstex_also :
    run1 (.dtstex 0 2 4)
      [(2, 0x224C000000000001#64), (4, 0xA2440000000000FF#64)] 0x0#64 []
      = some ([], 0x4000#64, 0x40000000#32) := by
  decide +kernel

/-- 95_test_vectors.md: quad -/
theorem test_run_dtstexq :
    run1 (.dtstexq 0 2 4)
      [(2, 0x0000000000000000#64), (3, 0x0000000000000001#64), (4, 0x43FFC00000000000#64), (5, 0x0000000000000001#64)] 0x0#64 []
      = some ([], 0x8000#64, 0x80000000#32) := by
  decide +kernel

/-- 95_test_vectors.md: k=63 -/
theorem test_run_dtstsf :
    run1 (.dtstsf 0 2 4)
      [(2, 0x000000000000003F#64), (4, 0x22380000000049C5#64)] 0x0#64 []
      = some ([], 0x4000#64, 0x40000000#32) := by
  decide +kernel

/-- 95_test_vectors.md: the first form has 7 significant digits (k = 7 -/
theorem test_run_dtstsf_also :
    run1 (.dtstsf 0 3 2)
      [(3, 0x0000000000000007#64), (2, 0x224C000000100000#64)] 0x0#64 []
      = some ([], 0x2000#64, 0x20000000#32) := by
  decide +kernel

/-- 95_test_vectors.md: FRA is single and may be odd -/
theorem test_run_dtstsfq :
    run1 (.dtstsfq 0 7 4)
      [(7, 0x0000000000000021#64), (4, 0x2608000000000000#64), (5, 0x0000000000000000#64)] 0x0#64 []
      = some ([], 0x8000#64, 0x80000000#32) := by
  decide +kernel

/-- 95_test_vectors.md: quad -/
theorem test_run_dtstsfq_also :
    run1 (.dtstsfq 0 2 4)
      [(2, 0x0000000000000022#64), (4, 0x2608000000000000#64), (5, 0x0000000000000000#64)] 0x0#64 []
      = some ([], 0x2000#64, 0x20000000#32) := by
  decide +kernel

/-- 96_test_vectors_2.md: same with VE=1, mode (0,0) -/
theorem test_run_dquai :
    run1 (.dquai 16#5 6 4 0#2 true)
      [(4, 0x2238000000000001#64)] 0x80#64 [6]
      = some ([0xDEADBEEFDEADBEEF#64], 0xE0000180#64, 0x0E000000#32) := by
  decide +kernel

/-- 96_test_vectors_2.md: DRN=111 -/
theorem test_run_dquai_also :
    run1 (.dquai 30#5 6 4 3#2 false)
      [(4, 0x222C000000000985#64)] 0x700000000#64 [6]
      = some ([0x2230000000000131#64], 0x782064000#64, 0x00000000#32) := by
  decide +kernel

/-- 96_test_vectors_2.md: quad has room for 17 digits -/
theorem test_run_dquaiq :
    run1 (.dquaiq 16#5 6 4 0#2 true)
      [(4, 0x2208000000000000#64), (5, 0x0000000000000001#64)] 0x0#64 [6, 7]
      = some ([0x2204000000000000#64, 0x0040000000000000#64], 0x4000#64, 0x00000000#32) := by
  decide +kernel

/-- 96_test_vectors_2.md: quad immediate, ties away from 0 -/
theorem test_run_dquaiq_also :
    run1 (.dquaiq 30#5 6 4 2#2 false)
      [(4, 0x2207400000000000#64), (5, 0x00000000000009C5#64)] 0x0#64 [6, 7]
      = some ([0x2207800000000000#64, 0x0000000000000135#64], 0x82064000#64, 0x00000000#32) := by
  decide +kernel

/-- 96_test_vectors_2.md: 1 to exponent 369 -/
theorem test_run_dqua :
    run1 (.dqua 6 2 4 0#2 false)
      [(2, 0x43FC000000000001#64), (4, 0x2238000000000001#64)] 0x0#64 [6]
      = some ([0x43FC000000000000#64], 0x82022000#64, 0x00000000#32) := by
  decide +kernel

/-- 96_test_vectors_2.md: infinite reference, finite operand -/
theorem test_run_dqua_also :
    run1 (.dqua 6 2 4 0#2 false)
      [(2, 0x7800000000000000#64), (4, 0x2238000000000001#64)] 0x0#64 [6]
      = some ([0x7C00000000000000#64], 0xA0011100#64, 0x00000000#32) := by
  decide +kernel

/-- 96_test_vectors_2.md: quad -/
theorem test_run_dquaq :
    run1 (.dquaq 6 2 4 0#2 false)
      [(2, 0x2207800000000000#64), (3, 0x0000000000000001#64), (4, 0x2207400000000000#64), (5, 0x00000000000009C5#64)] 0x0#64 [6, 7]
      = some ([0x2207800000000000#64, 0x0000000000000134#64], 0x82024000#64, 0x00000000#32) := by
  decide +kernel

/-- 96_test_vectors_2.md: subnormal operand -/
theorem test_run_drrnd :
    run1 (.drrnd 6 2 4 0#2 true)
      [(2, 0x0000000000000003#64), (4, 0x00000000000049C5#64)] 0x0#64 [6]
      = some ([0x00080000000000A3#64], 0x82034000#64, 0x08000000#32) := by
  decide +kernel

/-- 96_test_vectors_2.md: zero -/
theorem test_run_drrnd_also :
    run1 (.drrnd 6 2 4 0#2 false)
      [(2, 0x0000000000000003#64), (4, 0x2254000000000000#64)] 0x0#64 [6]
      = some ([0x2254000000000000#64], 0x2000#64, 0x00000000#32) := by
  decide +kernel

/-- 96_test_vectors_2.md: quad -/
theorem test_run_drrndq :
    run1 (.drrndq 6 2 4 0#2 false)
      [(2, 0x0000000000000003#64), (4, 0x2208000000000000#64), (5, 0x00000000000049C5#64)] 0x0#64 [6, 7]
      = some ([0x2208800000000000#64, 0x00000000000000A3#64], 0x82024000#64, 0x00000000#32) := by
  decide +kernel

/-- 96_test_vectors_2.md: FRA = f5 is also the low half of FRBp -/
theorem test_run_drrndq_also :
    run1 (.drrndq 6 5 4 1#2 false)
      [(4, 0x2208000000000000#64), (5, 0x00000000000049C3#64)] 0x0#64 [6, 7]
      = some ([0x2208800000000000#64, 0x00000000000000A3#64], 0x82024000#64, 0x00000000#32) := by
  decide +kernel

/-- 96_test_vectors_2.md: R=0 RMC=11 -/
theorem test_run_drintx :
    run1 (.drintx false 6 4 3#2 false)
      [(4, 0x2234000000000025#64)] 0x300000000#64 [6]
      = some ([0x2238000000000002#64], 0x382024000#64, 0x00000000#32) := by
  decide +kernel

/-- 96_test_vectors_2.md: SNaN -/
theorem test_run_drintx_also :
    run1 (.drintx false 6 4 0#2 false)
      [(4, 0x7E00000000000003#64)] 0x0#64 [6]
      = some ([0x7C00000000000003#64], 0xA1011000#64, 0x00000000#32) := by
  decide +kernel

/-- 96_test_vectors_2.md: quad -/
theorem test_run_drintxq :
    run1 (.drintxq false 6 4 0#2 false)
      [(4, 0x2207C00000000000#64), (5, 0x0000000000000025#64)] 0x0#64 [6, 7]
      = some ([0x2208000000000000#64, 0x0000000000000002#64], 0x82024000#64, 0x00000000#32) := by
  decide +kernel

/-- 96_test_vectors_2.md: drintn -/
theorem test_run_drintn :
    run1 (.drintn false 6 4 0#2 false)
      [(4, 0x2234000000000025#64)] 0x0#64 [6]
      = some ([0x2238000000000002#64], 0x4000#64, 0x00000000#32) := by
  decide +kernel

/-- 96_test_vectors_2.md: drintn signals on an SNaN too -/
theorem test_run_drintn_also :
    run1 (.drintn false 6 4 0#2 false)
      [(4, 0x7E00000000000003#64)] 0x0#64 [6]
      = some ([0x7C00000000000003#64], 0xA1011000#64, 0x00000000#32) := by
  decide +kernel

/-- 96_test_vectors_2.md: quad, away from 0, no inexact -/
theorem test_run_drintnq :
    run1 (.drintnq true 6 4 2#2 false)
      [(4, 0x2207C00000000000#64), (5, 0x0000000000000025#64)] 0x0#64 [6, 7]
      = some ([0x2208000000000000#64, 0x0000000000000003#64], 0x4000#64, 0x00000000#32) := by
  decide +kernel

/-- 96_test_vectors_2.md: round trip, first half -/
theorem test_run_dctdp :
    run1 (.dctdp 6 4 true)
      [(4, 0x00000000FE0000A3#64)] 0x0#64 [6]
      = some ([0xFE000000000000A3#64], 0x1000#64, 0x00000000#32) := by
  decide +kernel

/-- 96_test_vectors_2.md: DFP32 +1234567E0 widened -/
theorem test_run_dctdp_also :
    run1 (.dctdp 6 4 false)
      [(4, 0x000000002654D2E7#64)] 0x0#64 [6]
      = some ([0x223800000014D2E7#64], 0x4000#64, 0x00000000#32) := by
  decide +kernel

/-- 96_test_vectors_2.md: DFP64 -Nmax widened exactly -/
theorem test_run_dctqpq :
    run1 (.dctqpq 6 4 false)
      [(4, 0xF7FCFF3FCFF3FCFF#64)] 0x0#64 [6, 7]
      = some ([0xA264400000000000#64, 0x0024FF3FCFF3FCFF#64], 0x8000#64, 0x00000000#32) := by
  decide +kernel

/-- 96_test_vectors_2.md: dctqpq signals -/
theorem test_run_dctqpq_also :
    run1 (.dctqpq 6 4 false)
      [(4, 0x7E00000000000007#64)] 0x0#64 [6, 7]
      = some ([0x7C00000000000000#64, 0x0000000000000007#64], 0xA1011000#64, 0x00000000#32) := by
  decide +kernel

/-- 96_test_vectors_2.md: OE=1 -/
theorem test_run_drsp :
    run1 (.drsp 6 4 true)
      [(4, 0x23BC000000000001#64)] 0x40#64 [6]
      = some ([0x20BC000000000001#64], 0xD0004040#64, 0x0D000000#32) := by
  decide +kernel

/-- 96_test_vectors_2.md: DRN=010 (toward +inf) -/
theorem test_run_drsp_also :
    run1 (.drsp 6 4 false)
      [(4, 0x20A0000000000001#64)] 0x200000000#64 [6]
      = some ([0x0000000000000001#64], 0x28A074000#64, 0x00000000#32) := by
  decide +kernel

/-- 96_test_vectors_2.md: VE=1 -/
theorem test_run_drdpq :
    run1 (.drdpq 6 4 true)
      [(4, 0x7E00000000000000#64), (5, 0x0000000000000007#64)] 0x80#64 [6, 7]
      = some ([0xDEADBEEFDEADBEEF#64, 0xDEADBEEFDEADBEEF#64], 0xE1000080#64, 0x0E000000#32) := by
  decide +kernel

/-- 96_test_vectors_2.md: overflow, OE=0, nearest-even -/
theorem test_run_drdpq_also :
    run1 (.drdpq 6 4 false)
      [(4, 0x226C000000000000#64), (5, 0x0000000000000001#64)] 0x0#64 [6, 7]
      = some ([0x7800000000000000#64, 0x0000000000000000#64], 0x92065000#64, 0x00000000#32) := by
  decide +kernel

/-- 96_test_vectors_2.md: 1 -/
theorem test_run_dcffixq :
    run1 (.dcffixq 6 4 false)
      [(4, 0x0000000000000001#64)] 0x0#64 [6, 7]
      = some ([0x2208000000000000#64, 0x0000000000000001#64], 0x4000#64, 0x00000000#32) := by
  decide +kernel

/-- 96_test_vectors_2.md: 0 -> +0E0 -/
theorem test_run_dcffixq_also :
    run1 (.dcffixq 6 4 false)
      [(4, 0x0000000000000000#64)] 0x0#64 [6, 7]
      = some ([0x2208000000000000#64, 0x0000000000000000#64], 0x2000#64, 0x00000000#32) := by
  decide +kernel

/-- 96_test_vectors_2.md: VE=1, mode (0,0) -/
theorem test_run_dctfix :
    run1 (.dctfix 6 4 true)
      [(4, 0x6E45237C836973F6#64)] 0x80#64 [6]
      = some ([0xDEADBEEFDEADBEEF#64], 0xE0000180#64, 0x0E000000#32) := by
  decide +kernel

/-- 96_test_vectors_2.md: 123E2 -> 12300, exact -/
theorem test_run_dctfix_also :
    run1 (.dctfix 6 4 false)
      [(4, 0x22400000000000A3#64)] 0x1F000#64 [6]
      = some ([0x000000000000300C#64], 0x1F000#64, 0x00000000#32) := by
  decide +kernel

/-- 96_test_vectors_2.md: toward 0 -/
theorem test_run_dctfixq :
    run1 (.dctfixq 6 4 false)
      [(4, 0x2207C00000000003#64), (5, 0xA4CFA07A2C7F6075#64)] 0x100000000#64 [6]
      = some ([0x7FFFFFFFFFFFFFFF#64], 0x182020000#64, 0x00000000#32) := by
  decide +kernel

/-- 96_test_vectors_2.md: 2^63-1+0.5, nearest-even gives 2^63 -/
theorem test_run_dctfixq_also :
    run1 (.dctfixq 6 4 false)
      [(4, 0x2207C00000000003#64), (5, 0xA4CFA07A2C7F6075#64)] 0x0#64 [6]
      = some ([0x7FFFFFFFFFFFFFFF#64], 0xA0000100#64, 0x00000000#32) := by
  decide +kernel

/-- 96_test_vectors_2.md: infinity -/
theorem test_run_ddedpd :
    run1 (.ddedpd 0#2 6 4 true)
      [(4, 0x7800000000000000#64)] 0x8201F000#64 [6]
      = some ([0x0000000000000000#64], 0x8201F000#64, 0x08000000#32) := by
  decide +kernel

/-- 96_test_vectors_2.md: SP=0b00 unsigned -/
theorem test_run_ddedpd_also :
    run1 (.ddedpd 0#2 6 4 false)
      [(4, 0x263934B9C1E28E56#64)] 0x0#64 [6]
      = some ([0x1234567890123456#64], 0x0#64, 0x00000000#32) := by
  decide +kernel

/-- 96_test_vectors_2.md: quad signed -/
theorem test_run_ddedpdq :
    run1 (.ddedpdq 2#2 6 4 false)
      [(4, 0xA608134B9C1E28E5#64), (5, 0x6F3C127177823534#64)] 0x0#64 [6, 7]
      = some ([0x4567890123456789#64, 0x012345678901234D#64], 0x0#64, 0x00000000#32) := by
  decide +kernel

/-- 96_test_vectors_2.md: VE=1, mode (0,0) -/
theorem test_run_denbcd :
    run1 (.denbcd false 6 4 true)
      [(4, 0x000000000000000A#64)] 0x80#64 [6]
      = some ([0xDEADBEEFDEADBEEF#64], 0xE0000180#64, 0x0E000000#32) := by
  decide +kernel

/-- 96_test_vectors_2.md: alternate minus 1011 -/
theorem test_run_denbcd_also :
    run1 (.denbcd true 6 4 false)
      [(4, 0x000000000000000B#64)] 0x0#64 [6]
      = some ([0xA238000000000000#64], 0x12000#64, 0x00000000#32) := by
  decide +kernel

/-- 96_test_vectors_2.md: quad signed, negative -/
theorem test_run_denbcdq :
    run1 (.denbcdq true 6 4 false)
      [(4, 0x1234567890123456#64), (5, 0x789012345678901D#64)] 0x0#64 [6, 7]
      = some ([0xA2080014D2E7078A#64, 0x395BCF049C5DE08D#64], 0x8000#64, 0x00000000#32) := by
  decide +kernel

/-- 96_test_vectors_2.md: quad unsigned, 32 digits -/
theorem test_run_denbcdq_also :
    run1 (.denbcdq false 6 4 false)
      [(4, 0x1234567890123456#64), (5, 0x7890123456789012#64)] 0x0#64 [6, 7]
      = some ([0x2208012717782353#64, 0x4B9C1E28E56F3C12#64], 0x4000#64, 0x00000000#32) := by
  decide +kernel

/-- 96_test_vectors_2.md: 767 -/
theorem test_run_dxex :
    run1 (.dxex 6 4 false)
      [(4, 0x43FC000000000005#64)] 0x0#64 [6]
      = some ([0x00000000000002FF#64], 0x0#64, 0x00000000#32) := by
  decide +kernel

/-- 96_test_vectors_2.md: biased exponent 398 -/
theorem test_run_dxex_also :
    run1 (.dxex 6 4 false)
      [(4, 0x2238000000000001#64)] 0x0#64 [6]
      = some ([0x000000000000018E#64], 0x0#64, 0x00000000#32) := by
  decide +kernel

/-- 96_test_vectors_2.md: quad -/
theorem test_run_dxexq :
    run1 (.dxexq 7 4 true)
      [(4, 0x43FFC00000000000#64), (5, 0x0000000000000001#64)] 0x92000000#64 [7]
      = some ([0x0000000000002FFF#64], 0x92000000#64, 0x09000000#32) := by
  decide +kernel

/-- 96_test_vectors_2.md: quad -/
theorem test_run_dxexq_also :
    run1 (.dxexq 6 4 false)
      [(4, 0x2208000000000000#64), (5, 0x0000000000000001#64)] 0x0#64 [6]
      = some ([0x0000000000001820#64], 0x0#64, 0x00000000#32) := by
  decide +kernel

/-- 96_test_vectors_2.md: finite b keeps its leftmost digit 9 -/
theorem test_run_diex :
    run1 (.diex 6 2 4 false)
      [(2, 0x000000000000018E#64), (4, 0x6E3934B9C1E28E56#64)] 0x0#64 [6]
      = some ([0x6E3934B9C1E28E56#64], 0x0#64, 0x00000000#32) := by
  decide +kernel

/-- 96_test_vectors_2.md: exponent replaced -/
theorem test_run_diex_also :
    run1 (.diex 6 2 4 false)
      [(2, 0x000000000000018E#64), (4, 0xA254000000000534#64)] 0x0#64 [6]
      = some ([0xA238000000000534#64], 0x0#64, 0x00000000#32) := by
  decide +kernel

/-- 96_test_vectors_2.md: quad -/
theorem test_run_diexq :
    run1 (.diexq 6 2 4 false)
      [(2, 0x0000000000001820#64), (4, 0x2203000000000000#64), (5, 0x0000000000000007#64)] 0x0#64 [6, 7]
      = some ([0x2208000000000000#64, 0x0000000000000007#64], 0x0#64, 0x00000000#32) := by
  decide +kernel

/-- 96_test_vectors_2.md: FRA is single and may be odd -/
theorem test_run_diexq_also :
    run1 (.diexq 6 3 4 false)
      [(3, 0x0000000000003000#64), (4, 0x2203000000000000#64), (5, 0x0000000000000007#64)] 0x0#64 [6, 7]
      = some ([0x7C00000000000000#64, 0x0000000000000007#64], 0x0#64, 0x00000000#32) := by
  decide +kernel

/-- 96_test_vectors_2.md: NaN -/
theorem test_run_dscli :
    run1 (.dscli 6 2 1#6 true)
      [(2, 0x7C000000000049C5#64)] 0x8201F000#64 [6]
      = some ([0x7C00000000028E50#64], 0x8201F000#64, 0x08000000#32) := by
  decide +kernel

/-- 96_test_vectors_2.md: shift by 0 -/
theorem test_run_dscli_also :
    run1 (.dscli 6 2 0#6 false)
      [(2, 0x264D34B9C1E28E56#64)] 0x0#64 [6]
      = some ([0x264D34B9C1E28E56#64], 0x0#64, 0x00000000#32) := by
  decide +kernel

/-- 96_test_vectors_2.md: quad left 4 -/
theorem test_run_dscliq :
    run1 (.dscliq 6 2 4#6 false)
      [(2, 0x2608134B9C1E28E5#64), (3, 0x6F3C127177823534#64)] 0x0#64 [6, 7]
      = some ([0x360837823534B9C1#64, 0xE28E56F3C1270000#64], 0x0#64, 0x00000000#32) := by
  decide +kernel

/-- 96_test_vectors_2.md: right 3 -/
theorem test_run_dscri :
    run1 (.dscri 6 2 3#6 false)
      [(2, 0x264D34B9C1E28E56#64)] 0x0#64 [6]
      = some ([0x224C014D2E7078A3#64], 0x0#64, 0x00000000#32) := by
  decide +kernel

/-- 96_test_vectors_2.md: right 15 -/
theorem test_run_dscri_also :
    run1 (.dscri 6 2 15#6 false)
      [(2, 0x6E4D34B9C1E28E56#64)] 0x0#64 [6]
      = some ([0x224C000000000009#64], 0x0#64, 0x00000000#32) := by
  decide +kernel

/-- 96_test_vectors_2.md: quad right 34 -/
theorem test_run_dscriq :
    run1 (.dscriq 6 2 34#6 true)
      [(2, 0x8400134B9C1E28E5#64), (3, 0x6F3C127177823534#64)] 0x0#64 [6, 7]
      = some ([0x8000000000000000#64, 0x0000000000000000#64], 0x0#64, 0x00000000#32) := by
  decide +kernel

/-- 96_test_vectors_2.md: quad right 33 -/
theorem test_run_dscriq_also :
    run1 (.dscriq 6 2 33#6 false)
      [(2, 0x2608134B9C1E28E5#64), (3, 0x6F3C127177823534#64)] 0x0#64 [6, 7]
      = some ([0x2208000000000000#64, 0x0000000000000001#64], 0x0#64, 0x00000000#32) := by
  decide +kernel

/-! Witnesses: for each statement with hypotheses, concrete data that meet all of them together. -/

/-- The outcome is a next state of which a test holds. -/
def nextWith (o : Host.Outcome State Fault Refusal) (p : State → Bool) : Bool :=
  match o with
  | .next t => p t
  | .fault _ => false
  | .refused _ => false

theorem nextWith_exists {o : Host.Outcome State Fault Refusal} {p : State → Bool} (h : nextWith o p = true) :
    ∃ t, o = .next t ∧ p t = true := by
  cases o <;> simp_all [nextWith]

theorem witness_DecodeEncode : wellFormed (.dscriq 30 0 63#6 true) = true := by decide

theorem witness_EncodeDecode : decode 0xFFC0FCC5#32 = .instr (.dscriq 30 0 63#6 true) := by decide +kernel

theorem witness_InvalidFormsRefused : wellFormed (.dscriq 31 0 0#6 false) = false := by decide

theorem witness_OpcodeRowsExclusive : ∃ r ∈ opcodeRows, r.matches (0xEC221805#32).toNat = true := by
  decide +kernel

/-- A state whose next step fetches a word. -/
theorem fetchesNext_of {w : InsnWord} (h : fetchBytes (State.reset.withFetchWord 32 w.toNat) 4 0 =
    .ok (bytesOfWord .big w)) : fetchesNext (State.reset.withFetchWord 32 w.toNat) w :=
  ⟨fun _ h => (nomatch h), rfl, rfl, rfl, h⟩

theorem witness_RefusedWords_notDfp :
    fetchesNext (State.reset.withFetchWord 32 0x60000000) 0x60000000#32 ∧ decode 0x60000000#32 = .notDfp :=
  ⟨fetchesNext_of (w := 0x60000000#32) rfl, by decide +kernel⟩

theorem witness_RefusedWords_invalidForm :
    fetchesNext (State.reset.withFetchWord 32 0xFC220004) 0xFC220004#32 ∧
    decode 0xFC220004#32 = .invalidForm :=
  ⟨fetchesNext_of (w := 0xFC220004#32) rfl, by decide +kernel⟩

theorem witness_RefusedWords_opcode :
    (0xE8000004#32).toNat / 2 ^ 26 = 58 ∧ (0xF0000004#32).toNat / 2 ^ 26 = 60 ∧
    (0xF8000004#32).toNat / 2 ^ 26 = 62 := by decide

theorem witness_RefusedWords_reserved : ∃ r ∈ opcodeRows,
    r.matches (0xEC000505#32).toNat = true ∧ r.reservedClear (0xEC000505#32).toNat = false := by
  decide +kernel

theorem witness_StepRunsInstruction :
    fetchesNext (State.reset.withFetchWord 32 0xEC221805) 0xEC221805#32 ∧
    decode 0xEC221805#32 = .instr (.dadd 1 2 3 true) :=
  ⟨fetchesNext_of (w := 0xEC221805#32) rfl, by decide +kernel⟩

theorem witness_WithFetchWordRuns :
    decode (BitVec.ofNat 32 (0xEC221805 % 2 ^ 32)) = .instr (.dadd 1 2 3 true) := by decide +kernel

theorem witness_StepKeepsInvariant : ∃ t, (State.reset.withFetchWord 32 0xEC221805).Inv = true ∧
    step (State.reset.withFetchWord 32 0xEC221805) = .next t := by
  obtain ⟨t, h, -⟩ := nextWith_exists (o := step (State.reset.withFetchWord 32 0xEC221805))
    (p := fun _ => true) (by decide +kernel)
  exact ⟨t, by decide +kernel, h⟩

theorem witness_StorageUntouched : ∃ t u, exec (.dadd 1 2 3 true) State.reset = .next t ∧
    step (State.reset.withFetchWord 32 0xEC221805) = .next u := by
  obtain ⟨t, h, -⟩ := nextWith_exists (o := exec (.dadd 1 2 3 true) State.reset)
    (p := fun _ => true) (by decide +kernel)
  obtain ⟨u, k, -⟩ := nextWith_exists (o := step (State.reset.withFetchWord 32 0xEC221805))
    (p := fun _ => true) (by decide +kernel)
  exact ⟨t, u, h, k⟩

theorem witness_FetchStops_misaligned : ({ State.reset with pc := 3 } : State).pc % 4 ≠ 0 := by decide

theorem witness_FetchStops_unlisted : State.reset.pc % 4 = 0 ∧ hostWaits State.reset ∧
    State.reset.trap = none ∧ pendingDue State.reset = false ∧ byteAt State.reset State.reset.pc = none :=
  ⟨rfl, fun _ h => (nomatch h), rfl, rfl, rfl⟩

/-- A state in which it is the turn of a host operation. -/
def hostState (op : HostOp) (s : State) : State := { s with hostQueue := [⟨0, op⟩] }

theorem hostActs_hostState (op : HostOp) {s : State} (h : pcAligned s = true) :
    hostActs (hostState op s) op [] := ⟨h, 0, rfl, .inl rfl⟩

/-- A machine in which an invocation is pending, due at the n-th instruction from now. -/
def pendingState (n : Nat) (s : State) : State := { s with pending := some ⟨n, [.invalidOperation]⟩ }

/-- A machine that has trapped. -/
def trapped : State := { State.reset with trap := some ⟨0, true, 0x61000080#64⟩ }

theorem witness_HostOperations_due :
    hostActs (hostState (.writeCr 7 9#4) (pendingState 1 State.reset)) (.writeCr 7 9#4) [] ∧
    pendingDue (hostState (.writeCr 7 9#4) (pendingState 1 State.reset)) = true :=
  ⟨hostActs_hostState _ rfl, rfl⟩

theorem witness_HostOperations_pending :
    hostActs (hostState (.writeFpr 31 7#64) (pendingState 2 State.reset)) (.writeFpr 31 7#64) [] ∧
    hostActs (hostState (.writeCr 7 9#4) (pendingState 2 State.reset)) (.writeCr 7 9#4) [] ∧
    hostActs (hostState (.setFe true false) (pendingState 2 State.reset)) (.setFe true false) [] ∧
    hostActs (hostState (.resume 8) (pendingState 2 State.reset)) (.resume 8) [] ∧
    pendingDue (hostState (.resume 8) (pendingState 2 State.reset)) = false ∧
    8 % 2 ^ (pendingState 2 State.reset).pcWidth % 4 = 0 :=
  ⟨hostActs_hostState _ rfl, hostActs_hostState _ rfl, hostActs_hostState _ rfl, hostActs_hostState _ rfl, rfl, rfl⟩

theorem witness_HostOperations_read : hostActs (hostState .readFpscr State.reset) .readFpscr [] ∧
    pendingDue (hostState .readFpscr State.reset) = false ∧ (hostState .readFpscr State.reset).pending = none :=
  ⟨hostActs_hostState _ rfl, rfl, rfl⟩

/-- After a trap the host acts at once; an address that is not a multiple of 4. -/
theorem witness_HostOperations_misaligned :
    hostActs { trapped with hostQueue := [⟨5, .resume 7⟩] } (.resume 7) [] ∧
    pendingDue { trapped with hostQueue := [⟨5, .resume 7⟩] } = false ∧ 7 % 2 ^ trapped.pcWidth % 4 ≠ 0 :=
  ⟨⟨rfl, 5, rfl, .inr (by decide)⟩, rfl, by decide⟩

/-- The host acts between two instructions: after the next one (00_scope.md R13). -/
theorem test_host_after_one_instruction :
    nextWith (step { State.reset.withFetchWord 32 0xEC221805 with hostQueue := [⟨1, .writeFpr 9 7#64⟩] })
      (fun t => t.pc == 4 && t.hostQueue == [⟨0, .writeFpr 9 7#64⟩] && readFpr t 9 == 0#64) = true ∧
    nextWith (step { State.reset.withFetchWord 32 0xEC221805 with hostQueue := [⟨0, .writeFpr 9 7#64⟩] })
      (fun t => t.pc == 0 && t.hostQueue == [] && readFpr t 9 == 7#64) = true := by decide +kernel

/-- `pc` wraps at `2^PCW`, whatever PCW is (10_state.md R55; log 2). -/
theorem test_pc_wraps : (advance { State.reset with pcWidth := 5, pc := 28 }).pc = 0 ∧
    (advance { State.reset with pc := 28 }).pc = 32 := by decide

/-- VE and VXSNAN, bits 56 and 39, written by one mtfsf. -/
def writeSnan : HostOp := .writeFpscr .mtfsf 0x01000080#64 0x01000080#64

theorem writeAdmitted_writeSnan (old : Dword) : writeAdmitted .mtfsf 0x01000080#64 0x01000080#64 old :=
  .inr (.inl rfl)

theorem witness_HostFpscrWrite : (hostState writeSnan State.reset).pending = none ∧
    hostActs (hostState writeSnan State.reset) writeSnan [] ∧
    writeAdmitted .mtfsf 0x01000080#64 0x01000080#64 State.reset.fpscr :=
  ⟨rfl, hostActs_hostState _ rfl, writeAdmitted_writeSnan _⟩

/-- Overflow with Inexact by mtfsb1 is admitted, Overflow with Zero Divide is not (10_state.md R48). -/
theorem witness_HostFpscrWrite_several :
    writeAdmitted .mtfsb1 0x12000000#64 0x12000000#64 0#64 ∧
    ¬ writeAdmitted .mtfsb1 0x14000000#64 0x14000000#64 0#64 ∧
    hostActs (hostState (.writeFpscr .mtfsb1 0x14000000#64 0x14000000#64) State.reset)
      (.writeFpscr .mtfsb1 0x14000000#64 0x14000000#64) [] := by
  refine ⟨?_, ?_, hostActs_hostState _ rfl⟩ <;> unfold writeAdmitted writesUp <;> decide +kernel

/-- A machine in one of the four modes, with delays listed. -/
def modeState (fe0 fe1 : Bool) (delays : List Nat) (s : State) : State :=
  { s with fe0 := fe0, fe1 := fe1, delays := delays }

theorem newlyEnabled_snan : newlyEnabled 0#64 0x61000080#64 := by
  unfold newlyEnabled; decide +kernel

theorem not_newlyEnabled_zero : ¬ newlyEnabled 0#64 0#64 := by
  unfold newlyEnabled; decide +kernel

theorem witness_HostWriteInvokes_ignore : ∃ t, step (hostState writeSnan State.reset) = .next t ∧
    newlyEnabled State.reset.fpscr t.fpscr ∧ exceptionMode (hostState writeSnan State.reset) = .ignore := by
  obtain ⟨t, h, k⟩ := nextWith_exists (o := step (hostState writeSnan State.reset))
    (p := fun t => t.fpscr == 0x61000080#64) (by decide +kernel)
  exact ⟨t, h, by rw [eq_of_beq k]; exact newlyEnabled_snan, rfl⟩

theorem witness_HostWriteInvokes_precise : ∃ t,
    step (hostState writeSnan (modeState true true [] State.reset)) = .next t ∧
    newlyEnabled State.reset.fpscr t.fpscr ∧
    exceptionMode (hostState writeSnan (modeState true true [] State.reset)) = .precise := by
  obtain ⟨t, h, k⟩ := nextWith_exists (o := step (hostState writeSnan (modeState true true [] State.reset)))
    (p := fun t => t.fpscr == 0x61000080#64) (by decide +kernel)
  exact ⟨t, h, by rw [eq_of_beq k]; exact newlyEnabled_snan, rfl⟩

theorem witness_HostWriteInvokes : (hostState writeSnan (modeState true true [] State.reset)).pending = none ∧
    hostActs (hostState writeSnan (modeState true true [] State.reset)) writeSnan [] ∧
    writeAdmitted .mtfsf 0x01000080#64 0x01000080#64 State.reset.fpscr :=
  ⟨rfl, hostActs_hostState _ rfl, writeAdmitted_writeSnan _⟩

theorem witness_HostWriteInvokes_imprecise : ∃ t u,
    step (hostState writeSnan (modeState true false [0] State.reset)) = .next t ∧
    newlyEnabled State.reset.fpscr t.fpscr ∧
    nextDelay (hostState writeSnan (modeState true false [0] State.reset)) = 0 ∧
    step (hostState writeSnan (modeState false true [1] State.reset)) = .next u ∧
    newlyEnabled State.reset.fpscr u.fpscr ∧
    nextDelay (hostState writeSnan (modeState false true [1] State.reset)) ≠ 0 := by
  obtain ⟨t, h, k⟩ := nextWith_exists (o := step (hostState writeSnan (modeState true false [0] State.reset)))
    (p := fun t => t.fpscr == 0x61000080#64) (by decide +kernel)
  obtain ⟨u, h', k'⟩ := nextWith_exists (o := step (hostState writeSnan (modeState false true [1] State.reset)))
    (p := fun t => t.fpscr == 0x61000080#64) (by decide +kernel)
  exact ⟨t, u, h, by rw [eq_of_beq k]; exact newlyEnabled_snan, rfl, h',
    by rw [eq_of_beq k']; exact newlyEnabled_snan, by decide⟩

theorem witness_HostWriteInvokes_none : ∃ t,
    step (hostState (.writeFpscr .mtfsb1 0#64 0#64) State.reset) = .next t ∧
    ¬ newlyEnabled State.reset.fpscr t.fpscr := by
  obtain ⟨t, h, k⟩ := nextWith_exists (o := step (hostState (.writeFpscr .mtfsb1 0#64 0#64) State.reset))
    (p := fun t => t.fpscr == 0#64) (by decide +kernel)
  exact ⟨t, h, by rw [eq_of_beq k]; exact not_newlyEnabled_zero⟩

theorem witness_FpscrAccessForces :
    (pendingState 5 State.reset).pending = some ⟨5, [.invalidOperation]⟩ ∧
    exceptionMode (pendingState 5 State.reset) = .ignore ∧
    hostActs (hostState .readFpscr (pendingState 5 State.reset)) .readFpscr [] ∧
    hostActs (hostState writeSnan (pendingState 5 (modeState true false [] State.reset))) writeSnan [] :=
  ⟨rfl, rfl, hostActs_hostState _ rfl, hostActs_hostState _ rfl⟩

theorem witness_NoInvocationCompletes : wellFormed (.daddq 0 2 4 true) = true ∧
    noInvocation (testState [] 0xFF#64) = true ∧
    noInvocation (modeState true true [] (testState [] 0#64)) = true := by decide +kernel

theorem witness_SilentInstructions : wellFormed (.dscriq 30 0 63#6 true) = true ∧
    (fpscrUse (.dscriq 30 0 63#6 true)).exc = [] := by decide

/-- 1 divided by 3, inexact: a frame, the record bit and the sticky XX at work. -/
def oneThird : State := testState [(2, 0x2238000000000001#64), (4, 0x2238000000000003#64)] 0#64

theorem witness_RegisterFrame : ∃ t, exec (.ddiv 6 2 4 true) oneThird = .next t := by
  obtain ⟨t, h, -⟩ := nextWith_exists (o := exec (.ddiv 6 2 4 true) oneThird) (p := fun _ => true)
    (by decide +kernel)
  exact ⟨t, h⟩

theorem witness_FpscrFrame : ∃ t u, fpscrConsistent oneThird.fpscr = true ∧
    exec (.ddiv 6 2 4 true) oneThird = .next t ∧
    (fpscrUse (.drintn false 6 2 1#2 false)).frfi = .cleared ∧
    exec (.drintn false 6 2 1#2 false) oneThird = .next u := by
  obtain ⟨t, h, -⟩ := nextWith_exists (o := exec (.ddiv 6 2 4 true) oneThird) (p := fun _ => true)
    (by decide +kernel)
  obtain ⟨u, k, -⟩ := nextWith_exists (o := exec (.drintn false 6 2 1#2 false) oneThird)
    (p := fun _ => true) (by decide +kernel)
  exact ⟨t, u, by decide +kernel, h, rfl, k⟩

theorem witness_RecordBit : ∃ t u, rcOf (.ddiv 6 2 4 true) = some true ∧
    exec (.ddiv 6 2 4 true) oneThird = .next t ∧ rcOf (.ddiv 6 2 4 false) = some false ∧
    exec (.ddiv 6 2 4 false) oneThird = .next u := by
  obtain ⟨t, h, -⟩ := nextWith_exists (o := exec (.ddiv 6 2 4 true) oneThird) (p := fun _ => true)
    (by decide +kernel)
  obtain ⟨u, k, -⟩ := nextWith_exists (o := exec (.ddiv 6 2 4 false) oneThird) (p := fun _ => true)
    (by decide +kernel)
  exact ⟨t, u, rfl, h, rfl, k⟩

theorem witness_CompareTestField : ∃ t u, bfOf (.dcmpo 7 2 4) = some 7 ∧
    exec (.dcmpo 7 2 4) oneThird = .next t ∧ bfOf (.dtstsf 0 2 4) = some 0 ∧
    exec (.dtstsf 0 2 4) oneThird = .next u := by
  obtain ⟨t, h, -⟩ := nextWith_exists (o := exec (.dcmpo 7 2 4) oneThird) (p := fun _ => true)
    (by decide +kernel)
  obtain ⟨u, k, -⟩ := nextWith_exists (o := exec (.dtstsf 0 2 4) oneThird) (p := fun _ => true)
    (by decide +kernel)
  exact ⟨t, u, rfl, h, rfl, k⟩

theorem witness_StickyInexact : ∃ t u, exec (.ddiv 6 2 4 true) oneThird = .next t ∧
    (fpscrUse (.ddiv 6 2 4 true)).frfi ≠ .untouched ∧ exec (.dctdp 6 2 true) oneThird = .next u ∧
    (fpscrUse (.dctdp 6 2 true)).frfi = .untouched := by
  obtain ⟨t, h, -⟩ := nextWith_exists (o := exec (.ddiv 6 2 4 true) oneThird) (p := fun _ => true)
    (by decide +kernel)
  obtain ⟨u, k, -⟩ := nextWith_exists (o := exec (.dctdp 6 2 true) oneThird) (p := fun _ => true)
    (by decide +kernel)
  exact ⟨t, u, h, by decide, k, rfl⟩

theorem witness_SummaryBits : ∃ t, exec (.ddiv 6 2 4 true) oneThird = .next t ∧
    fpscrConsistent oneThird.fpscr = true := by
  obtain ⟨t, h, -⟩ := nextWith_exists (o := exec (.ddiv 6 2 4 true) oneThird) (p := fun _ => true)
    (by decide +kernel)
  exact ⟨t, h, by decide +kernel⟩

/-- The largest DFP64 number in FPR 2, the smallest in FPR 4, an SNaN in FPR 8. -/
def extremes (fpscr : Dword) : State :=
  testState [(2, dfp64 (.finite false (10 ^ 16 - 1) 369)), (4, dfp64 (.finite false 1 (-398))),
    (8, dfp64 (.snan true 7)), (10, dfp64 (.finite false 5 (-1)))] fpscr

theorem witness_SeveralExceptions_overflow : ∃ t, exec (.dadd 6 2 2 true) (extremes 0#64) = .next t ∧
    FpscrBit.ox.index < FpscrBit.xx.index ∧ getBit (extremes 0#64).fpscr .ox = false ∧
    getBit t.fpscr .ox = true ∧ getBit (extremes 0#64).fpscr .xx = false ∧ getBit t.fpscr .xx = true := by
  obtain ⟨t, h, k⟩ := nextWith_exists (o := exec (.dadd 6 2 2 true) (extremes 0#64))
    (p := fun t => getBit t.fpscr .ox && getBit t.fpscr .xx) (by decide +kernel)
  rw [Bool.and_eq_true] at k
  exact ⟨t, h, by decide, by decide, k.1, by decide, k.2⟩

theorem witness_SeveralExceptions_underflow : ∃ t, exec (.dmul 6 4 10 true) (extremes 0#64) = .next t ∧
    FpscrBit.ux.index < FpscrBit.xx.index ∧ getBit (extremes 0#64).fpscr .ux = false ∧
    getBit t.fpscr .ux = true ∧ getBit (extremes 0#64).fpscr .xx = false ∧ getBit t.fpscr .xx = true := by
  obtain ⟨t, h, k⟩ := nextWith_exists (o := exec (.dmul 6 4 10 true) (extremes 0#64))
    (p := fun t => getBit t.fpscr .ux && getBit t.fpscr .xx) (by decide +kernel)
  rw [Bool.and_eq_true] at k
  exact ⟨t, h, by decide, by decide, k.1, by decide, k.2⟩

theorem witness_SeveralExceptions_compare : ∃ t, exec (.dcmpo 1 8 4) (extremes 0#64) = .next t ∧
    FpscrBit.vxsnan.index < FpscrBit.vxvc.index ∧ getBit (extremes 0#64).fpscr .vxsnan = false ∧
    getBit t.fpscr .vxsnan = true ∧ getBit (extremes 0#64).fpscr .vxvc = false ∧
    getBit t.fpscr .vxvc = true := by
  obtain ⟨t, h, k⟩ := nextWith_exists (o := exec (.dcmpo 1 8 4) (extremes 0#64))
    (p := fun t => getBit t.fpscr .vxsnan && getBit t.fpscr .vxvc) (by decide +kernel)
  rw [Bool.and_eq_true] at k
  exact ⟨t, h, by decide, by decide, k.1, by decide, k.2⟩

theorem witness_SeveralExceptions_toFixed : ∃ t, exec (.dctfix 6 8 false) (extremes 0#64) = .next t ∧
    FpscrBit.vxsnan.index < FpscrBit.vxcvi.index ∧ getBit (extremes 0#64).fpscr .vxsnan = false ∧
    getBit t.fpscr .vxsnan = true ∧ getBit (extremes 0#64).fpscr .vxcvi = false ∧
    getBit t.fpscr .vxcvi = true := by
  obtain ⟨t, h, k⟩ := nextWith_exists (o := exec (.dctfix 6 8 false) (extremes 0#64))
    (p := fun t => getBit t.fpscr .vxsnan && getBit t.fpscr .vxcvi) (by decide +kernel)
  rw [Bool.and_eq_true] at k
  exact ⟨t, h, by decide, by decide, k.1, by decide, k.2⟩

/-! Witnesses about the error handler. In `recorded` an enabled SNaN exception was recorded earlier: FX, FEX,
VX, VXSNAN and VE are 1. -/

/-- A state in which FEX is left over from earlier. -/
def recorded : State := extremes 0xE1000080#64

theorem occurs_snan (s : State) (h : getBit (occurrences (.dadd 6 8 4 false) s) .fex = true) :
    enabledOccurs (.dadd 6 8 4 false) s := h

theorem not_occurs_sum (s : State) (h : getBit (occurrences (.dadd 6 4 4 false) s) .fex = false) :
    ¬ enabledOccurs (.dadd 6 4 4 false) s := by unfold enabledOccurs; simp [h]

theorem witness_PreciseTrap : wellFormed (.dadd 6 8 4 false) = true ∧
    enabledOccurs (.dadd 6 8 4 false) (modeState true true [] (extremes 0x80#64)) ∧
    enabledOccurs (.dadd 6 8 4 false) (modeState true true [] recorded) ∧
    ¬ enabledOccurs (.dadd 6 4 4 false) (modeState true true [] recorded) :=
  ⟨rfl, occurs_snan _ (by decide +kernel), occurs_snan _ (by decide +kernel), not_occurs_sum _ (by decide +kernel)⟩

/-- A recorded SNaN exception traps again, a left-over FEX does not (60_exceptions.md R504, R525). -/
theorem test_precise_recorded :
    nextWith (exec (.dadd 6 8 4 false) (modeState true true [] recorded)) (fun t => t.trap.isSome) = true ∧
    nextWith (exec (.dadd 6 4 4 false) (modeState true true [] recorded))
      (fun t => t.trap.isNone && t.pc == 4 && getBit t.fpscr .fex) = true := by decide +kernel

theorem witness_ImpreciseDeferral :
    enabledOccurs (.dadd 6 8 4 false) (modeState true false [0] recorded) ∧
    nextDelay (modeState true false [0] recorded) = 0 ∧
    enabledOccurs (.dadd 6 8 4 false) (modeState false true [1] recorded) ∧
    nextDelay (modeState false true [1] recorded) ≠ 0 ∧
    ¬ enabledOccurs (.dadd 6 4 4 false) (modeState false true [1] recorded) ∧
    (modeState false true [1] recorded).pending = none ∧
    (modeState false true [1] recorded).fe0 ≠ (modeState false true [1] recorded).fe1 :=
  ⟨occurs_snan _ (by decide +kernel), rfl, occurs_snan _ (by decide +kernel), by decide,
    not_occurs_sum _ (by decide +kernel), rfl, by decide⟩

/-- A pending state as a run reaches it: the exception that is pending is recorded. -/
theorem witness_SecondExceptionJoins :
    (pendingState 2 (modeState true false [] recorded)).pending = some ⟨2, [.invalidOperation]⟩ ∧
    causesRecorded recorded.fpscr [.invalidOperation] ∧
    enabledOccurs (.dadd 6 8 4 false) (pendingState 2 (modeState true false [] recorded)) ∧
    ¬ enabledOccurs (.dadd 6 4 4 false) (pendingState 2 (modeState true false [] recorded)) := by
  refine ⟨rfl, ?_, occurs_snan _ (by decide +kernel), not_occurs_sum _ (by decide +kernel)⟩
  unfold causesRecorded
  decide +kernel

theorem witness_PendingTrapDue :
    hostWaits (pendingState 1 State.reset) ∧ (pendingState 1 State.reset).trap = none ∧
    pcAligned (pendingState 1 State.reset) = true ∧
    fetchesNext (pendingState 2 (State.reset.withFetchWord 32 0xEC221805)) 0xEC221805#32 :=
  ⟨fun _ h => (nomatch h), rfl, rfl, fun _ h => (nomatch h), rfl, rfl, rfl, rfl⟩

theorem witness_StopAndResume : trapped.trap ≠ none ∧ pcAligned trapped = true ∧ trapped.hostQueue = [] ∧
    (hostState (.resume 4) trapped).trap ≠ none ∧
    (hostState (.resume 4) trapped).hostQueue = ⟨0, .resume 4⟩ :: [] ∧
    (hostState (.resume 4) trapped).pending = none ∧ 4 % 2 ^ trapped.pcWidth % 4 = 0 := by decide

theorem witness_InvalidEnabledSuppresses : ∃ t u, exec (.dadd 6 8 4 false) recorded = .next t ∧
    getBit recorded.fpscr .ve = true ∧ getBit (occurrences (.dadd 6 8 4 false) recorded) .vxsnan = true ∧
    bfOf (.dadd 6 8 4 false) = none ∧ exec (.dcmpu 3 8 4) recorded = .next u ∧
    getBit (occurrences (.dcmpu 3 8 4) recorded) .vxsnan = true ∧ bfOf (.dcmpu 3 8 4) = some 3 := by
  obtain ⟨t, h, -⟩ := nextWith_exists (o := exec (.dadd 6 8 4 false) recorded) (p := fun _ => true)
    (by decide +kernel)
  obtain ⟨u, k, -⟩ := nextWith_exists (o := exec (.dcmpu 3 8 4) recorded) (p := fun _ => true)
    (by decide +kernel)
  exact ⟨t, u, h, by decide, by decide +kernel, rfl, k, by decide +kernel, rfl⟩

/-! Witnesses about rounded results. -/

/-- An exact magnitude of p digits is its own rounding. -/
theorem unboundedRounding_exact {p : Nat} (mode : Mode) (s : Bool) {n : Nat} {q : Int}
    (h1 : 10 ^ (p - 1) ≤ n) (h2 : n < 10 ^ p) : unboundedRounding p mode s ((n : ℚ) * 10 ^ q) n q := by
  have h : (n : ℚ) * 10 ^ q / 10 ^ q = n := mul_div_cancel_right₀ _ (by positivity)
  refine ⟨?_, ?_, ?_, ?_⟩ <;> rw [h]
  · exact_mod_cast h1
  · exact_mod_cast h2
  · exact fun _ => rfl
  · exact fun k => absurd ⟨n, rfl⟩ k

theorem roundsTo_exact (mode : Mode) (s : Bool) (n : Nat) : roundsTo mode s n n :=
  ⟨fun _ => rfl, fun k => absurd ⟨n, rfl⟩ k⟩

/-- Two DFP64 operands, in FPR 2 and FPR 4. -/
def operands (a b : Datum) (fpscr : Dword) : State := testState [(2, dfp64 a), (4, dfp64 b)] fpscr

/-- What dadd computes of two finite numbers. -/
theorem exactOf_dadd {s : State} {sa sb : Bool} {ca cb : Nat} {ea eb : Int}
    (ha : readDatum .dfp64 2 s = .finite sa ca ea) (hb : readDatum .dfp64 4 s = .finite sb cb eb) :
    exactOf (.dadd 6 2 4 false) s = some ⟨.dfp64, .dfp64, wrapAdjust .dfp64, 6,
      finiteValue sa ca ea + finiteValue sb cb eb, min ea eb,
      if sa = sb then sa else decide (figure14 s.fpscr = .rtmi)⟩ := by
  simp [exactOf, ha, hb, exactSum]

/-- The sum of two numbers that are not negative. -/
theorem sum_value {ca cb n : Nat} {ea eb q : Int} (h : (ca : ℚ) * 10 ^ ea + (cb : ℚ) * 10 ^ eb = n * 10 ^ q) :
    finiteValue false ca ea + finiteValue false cb eb = n * 10 ^ q := by
  simpa [finiteValue] using h

/-- Both hypotheses of a rounded result, of a sum with a known value. -/
theorem sum_rounds {s : State} {ca cb n : Nat} {ea eb q : Int}
    (ha : readDatum .dfp64 2 s = .finite false ca ea) (hb : readDatum .dfp64 4 s = .finite false cb eb)
    (h : (ca : ℚ) * 10 ^ ea + (cb : ℚ) * 10 ^ eb = n * 10 ^ q) (h1 : 10 ^ 15 ≤ n) (h2 : n < 10 ^ 16) :
    ∃ x, exactOf (.dadd 6 2 4 false) s = some x ∧ x.tgt = .dfp64 ∧ |x.value| = n * 10 ^ q ∧
      unboundedRounding x.tgt.precision (figure14 s.fpscr) (decide (x.value < 0)) |x.value| n q := by
  have hv : |(n : ℚ) * 10 ^ q| = n * 10 ^ q := abs_of_nonneg (by positivity)
  refine ⟨_, exactOf_dadd ha hb, rfl, ?_, ?_⟩
  · rw [sum_value h, hv]
  · rw [sum_value h, hv]
    exact unboundedRounding_exact _ _ h1 h2

theorem nmin_dfp64 : nmin .dfp64 = (10 ^ 15 : Nat) * (10 : ℚ) ^ (-398 : Int) := by
  unfold nmin
  rw [show Fmt.dfp64.xmin + Fmt.dfp64.precision - 1 = 15 + (-398) from rfl, zpow_add₀ (by norm_num)]
  norm_num

theorem nmax_dfp64 : nmax .dfp64 = (10 ^ 16 - 1 : Nat) * (10 : ℚ) ^ (369 : Int) := rfl

/-- The least normal number, as a sum. -/
def leastNormal : State := operands (.finite false (10 ^ 15) (-398)) (.finite false 0 0) 0#64

theorem witness_RoundedResult_least : ∃ x, exactOf (.dadd 6 2 4 false) leastNormal = some x ∧
    nmin x.tgt ≤ |x.value| ∧
    unboundedRounding x.tgt.precision (figure14 leastNormal.fpscr) (decide (x.value < 0)) |x.value|
      (10 ^ 15) (-398) ∧
    ((10 ^ 15 : Nat) : ℚ) * 10 ^ (-398 : Int) ≤ nmax x.tgt := by
  obtain ⟨x, h, ht, hv, hr⟩ := sum_rounds (s := leastNormal) (n := 10 ^ 15) (q := -398)
    (ca := 10 ^ 15) (ea := -398) (cb := 0) (eb := 0)
    (by decide +kernel) (by decide +kernel) (by simp) (by norm_num) (by norm_num)
  refine ⟨x, h, ?_, hr, ?_⟩
  · rw [ht, hv, nmin_dfp64]
  · rw [ht, nmax_dfp64]
    exact mul_le_mul (by norm_num) (zpow_le_zpow_right₀ (by norm_num) (by norm_num)) (by positivity) (by norm_num)

/-- The largest number, as a sum. -/
def largest : State := operands (.finite false (10 ^ 16 - 1) 369) (.finite false 0 369) 0#64

theorem witness_RoundedResult_largest : ∃ x, exactOf (.dadd 6 2 4 false) largest = some x ∧
    nmin x.tgt ≤ |x.value| ∧
    unboundedRounding x.tgt.precision (figure14 largest.fpscr) (decide (x.value < 0)) |x.value|
      (10 ^ 16 - 1) 369 ∧
    ((10 ^ 16 - 1 : Nat) : ℚ) * 10 ^ (369 : Int) ≤ nmax x.tgt := by
  obtain ⟨x, h, ht, hv, hr⟩ := sum_rounds (s := largest) (n := 10 ^ 16 - 1) (q := 369)
    (ca := 10 ^ 16 - 1) (ea := 369) (cb := 0) (eb := 369)
    (by decide +kernel) (by decide +kernel) (by simp) (by norm_num) (by norm_num)
  refine ⟨x, h, ?_, hr, ?_⟩
  · rw [ht, hv, nmin_dfp64]
    exact mul_le_mul (by norm_num) (zpow_le_zpow_right₀ (by norm_num) (by norm_num)) (by positivity) (by norm_num)
  · rw [ht, nmax_dfp64]

theorem witness_ExactZero : ∃ x, exactOf (.dadd 6 2 4 false)
    (operands (.finite false 7 0) (.finite true 70 (-1)) 0x300000000#64) = some x ∧ x.value = 0 := by
  refine ⟨_, exactOf_dadd (sa := false) (ca := 7) (ea := 0) (sb := true) (cb := 70) (eb := -1)
    (by decide +kernel) (by decide +kernel), ?_⟩
  norm_num [finiteValue]

/-- Ten times a power of ten above the largest number, OE as given. -/
def overflowing (fpscr : Dword) : State :=
  operands (.finite false (10 ^ 16 - 1) 369) (.finite false 1 369) fpscr

theorem pow370 : (10 : ℚ) ^ (370 : Int) = 10 * 10 ^ (369 : Int) := by
  rw [show (370 : Int) = 369 + 1 from rfl, zpow_add_one₀ (by norm_num), mul_comm]

theorem overflowing_rounds (fpscr : Dword)
    (ha : readDatum .dfp64 2 (overflowing fpscr) = .finite false (10 ^ 16 - 1) 369)
    (hb : readDatum .dfp64 4 (overflowing fpscr) = .finite false 1 369) :
    ∃ x, exactOf (.dadd 6 2 4 false) (overflowing fpscr) = some x ∧
    unboundedRounding x.tgt.precision (figure14 (overflowing fpscr).fpscr) (decide (x.value < 0)) |x.value|
      (10 ^ 15) 370 ∧
    nmax x.tgt < ((10 ^ 15 : Nat) : ℚ) * 10 ^ (370 : Int) := by
  obtain ⟨x, h, ht, -, hr⟩ := sum_rounds (n := 10 ^ 15) (q := 370) ha hb
    (by rw [pow370]; generalize (10 : ℚ) ^ (369 : Int) = z; push_cast; ring) (by norm_num) (by norm_num)
  refine ⟨x, h, hr, ?_⟩
  rw [ht, nmax_dfp64, pow370, ← mul_assoc]
  exact mul_lt_mul_of_pos_right (by norm_num) (by positivity)

theorem witness_OverflowDisabled : getBit (overflowing 0#64).fpscr .oe = false ∧
    ∃ x, exactOf (.dadd 6 2 4 false) (overflowing 0#64) = some x ∧
    unboundedRounding x.tgt.precision (figure14 (overflowing 0#64).fpscr) (decide (x.value < 0)) |x.value|
      (10 ^ 15) 370 ∧
    nmax x.tgt < ((10 ^ 15 : Nat) : ℚ) * 10 ^ (370 : Int) :=
  ⟨by decide, overflowing_rounds _ (by decide +kernel) (by decide +kernel)⟩

theorem witness_OverflowEnabled : getBit (overflowing 0x40#64).fpscr .oe = true ∧
    ∃ x, exactOf (.dadd 6 2 4 false) (overflowing 0x40#64) = some x ∧
    unboundedRounding x.tgt.precision (figure14 (overflowing 0x40#64).fpscr) (decide (x.value < 0)) |x.value|
      (10 ^ 15) 370 ∧
    nmax x.tgt < ((10 ^ 15 : Nat) : ℚ) * 10 ^ (370 : Int) :=
  ⟨by decide, overflowing_rounds _ (by decide +kernel) (by decide +kernel)⟩

/-- The largest subnormal number, UE as given. -/
def subnormalSum (fpscr : Dword) : State :=
  operands (.finite false (10 ^ 15 - 1) (-398)) (.finite false 0 0) fpscr

theorem tiny_lt : ((10 ^ 15 - 1 : Nat) : ℚ) * 10 ^ (-398 : Int) < nmin .dfp64 := by
  rw [nmin_dfp64]
  exact mul_lt_mul_of_pos_right (by norm_num) (by positivity)

theorem witness_UnderflowDisabled : getBit (subnormalSum 0#64).fpscr .ue = false ∧
    ∃ x, exactOf (.dadd 6 2 4 false) (subnormalSum 0#64) = some x ∧ x.value ≠ 0 ∧ |x.value| < nmin x.tgt ∧
    roundsTo (figure14 (subnormalSum 0#64).fpscr) (decide (x.value < 0)) (|x.value| / 10 ^ x.tgt.xmin)
      (10 ^ 15 - 1) := by
  have hs := sum_value (ca := 10 ^ 15 - 1) (ea := -398) (cb := 0) (eb := 0) (n := 10 ^ 15 - 1) (q := -398) (by simp)
  have hv : |((10 ^ 15 - 1 : Nat) : ℚ) * 10 ^ (-398 : Int)| = (10 ^ 15 - 1 : Nat) * (10 : ℚ) ^ (-398 : Int) :=
    abs_of_nonneg (by positivity)
  refine ⟨by decide, _, exactOf_dadd (sa := false) (ca := 10 ^ 15 - 1) (ea := -398) (sb := false) (cb := 0)
    (eb := 0) (by decide +kernel) (by decide +kernel), ?_, ?_, ?_⟩
  · rw [hs]
    exact mul_ne_zero (by norm_num) (by positivity)
  · rw [hs, hv]
    exact tiny_lt
  · rw [hs, hv, show Fmt.dfp64.xmin = -398 from rfl, mul_div_cancel_right₀ _ (by positivity)]
    exact roundsTo_exact _ _ _

theorem witness_UnderflowEnabled : getBit (subnormalSum 0x20#64).fpscr .ue = true ∧
    ∃ x, exactOf (.dadd 6 2 4 false) (subnormalSum 0x20#64) = some x ∧ |x.value| < nmin x.tgt ∧
    unboundedRounding x.tgt.precision (figure14 (subnormalSum 0x20#64).fpscr) (decide (x.value < 0)) |x.value|
      ((10 ^ 15 - 1) * 10) (-399) := by
  have e : ((10 ^ 15 - 1 : Nat) : ℚ) * 10 ^ (-398 : Int) = ((10 ^ 15 - 1) * 10 : Nat) * (10 : ℚ) ^ (-399 : Int) := by
    rw [show (-398 : Int) = 1 + -399 from rfl, zpow_add₀ (by norm_num), Nat.cast_mul, zpow_one]
    generalize (10 : ℚ) ^ (-399 : Int) = z
    push_cast
    ring
  obtain ⟨x, h, ht, hv, hr⟩ := sum_rounds (s := subnormalSum 0x20#64) (n := (10 ^ 15 - 1) * 10) (q := -399)
    (ca := 10 ^ 15 - 1) (ea := -398) (cb := 0) (eb := 0)
    (by decide +kernel) (by decide +kernel) (by rw [← e]; simp) (by norm_num) (by norm_num)
  refine ⟨by decide, x, h, ?_, hr⟩
  rw [ht, hv, ← e]
  exact tiny_lt

/-- A DFP128 datum in the pair FPR 2, 3. -/
def quadState (d : Datum) : State :=
  testState [(2, BitVec.ofNat 64 (enc .dfp128 d / 2 ^ 64)), (3, BitVec.ofNat 64 (enc .dfp128 d))] 0#64

/-- Both enables set and a result that neither overflows nor underflows: 5 * 10^-1 in FPR 10. -/
theorem witness_NarrowTargets : notWrapped (.drsp 6 10 false) (extremes 0x60#64) ∧
    getBit (extremes 0x60#64).fpscr .oe = true ∧ getBit (extremes 0x60#64).fpscr .ue = true := by
  refine ⟨?_, by decide, by decide⟩
  have hd : readDatum .dfp64 10 (extremes 0x60#64) = .finite false 5 (-1) := by decide +kernel
  have hv : finiteValue false 5 (-1) = 1 / 2 := by norm_num [finiteValue]
  have hmax : (1 : ℚ) ≤ nmax .dfp32 := by norm_num [nmax, Fmt.precision, Fmt.xmax]
  have hmin : nmin .dfp32 ≤ 1 / 2 := by norm_num [nmin, Fmt.precision, Fmt.xmin]
  intro x hx
  simp only [exactOf, hd, exactNarrow, Option.some.injEq, hv] at hx
  subst hx
  simp only [show |(1 / 2 : ℚ)| = 1 / 2 by norm_num]
  refine ⟨fun _ n q hr => le_trans ?_ hmax, fun _ => .inr hmin⟩
  obtain ⟨h1, -, h3, h4⟩ := hr
  have hq : (0 : ℚ) < 10 ^ q := by positivity
  have hle : (n : ℚ) ≤ 1 / 2 / 10 ^ q + 1 := by
    by_cases hk : ∃ k : Nat, (1 / 2 : ℚ) / 10 ^ q = k
    · rw [← h3 hk]; linarith
    · linarith [(abs_lt.1 (h4 hk).1).2]
  have h5 : (10 : ℚ) ^ (7 - 1) * 10 ^ q ≤ 1 / 2 := (le_div_iff₀ hq).1 h1
  calc (n : ℚ) * 10 ^ q ≤ (1 / 2 / 10 ^ q + 1) * 10 ^ q := mul_le_mul_of_nonneg_right hle hq.le
    _ = 1 / 2 + 10 ^ q := by field_simp
    _ ≤ 1 := by linarith

theorem witness_NarrowTargets_quad : notWrapped (.drdpq 6 2 false) (quadState (.inf true 0)) ∧
    evenReg 6 = true ∧ evenReg 2 = true ∧
    (readDatum .dfp128 2 (quadState (.inf true 0))).isSNaN = false := by
  have hd : readDatum .dfp128 2 (quadState (.inf true 0)) = .inf true 0 := by decide +kernel
  exact ⟨fun x hx => by simp [exactOf, hd, exactNarrow] at hx, by decide, by decide, by decide +kernel⟩

/-! Witnesses about special operands, compares and tests. -/

theorem witness_ArithmeticSpecials :
    arithmeticSpecial (.dadd 6 2 4 false) (operands (.inf true 3) (.finite true 0 0) 0#64)
      = (.dfp64, 6, some (.inf true 0, none)) ∧
    arithmeticSpecial (.dmul 6 2 4 false) (operands (.inf true 3) (.finite true 0 0) 0#64)
      = (.dfp64, 6, some (.qnan false 0, some .vximz)) ∧
    arithmeticSpecial (.ddiv 6 2 4 false) (operands (.finite true 0 3) (.finite false 0 0) 0#64)
      = (.dfp64, 6, some (.qnan false 0, some .vxzdz)) :=
  ⟨by decide +kernel, by decide +kernel, by decide +kernel⟩

theorem witness_AdjustConvertSpecials :
    adjustSpecial (.dqua 6 2 4 0#2 false) (operands (.inf true 3) (.inf false 4) 0#64)
      = (.dfp64, 6, some (.inf false 0, none)) ∧
    adjustSpecial (.dquai 16#5 6 2 0#2 false) (operands (.inf true 3) (.inf false 4) 0#64)
      = (.dfp64, 6, some (.qnan false 0, some .vxcvi)) ∧
    adjustSpecial (.drsp 6 2 false) (operands (.snan true 1000001) (.inf false 4) 0#64)
      = (.dfp32, 6, some (.snan true 1, none)) :=
  ⟨by decide +kernel, by decide +kernel, by decide +kernel⟩

theorem witness_ZeroDivide : wellFormed (sized false (.ddiv 6 2 4 true) (.ddivq 6 2 4 true)) = true ∧
    readDatum (fmtOf false) 2 (operands (.finite true 1 0) (.finite true 0 5) 0#64) = .finite true 1 0 ∧
    (1 : Nat) ≠ 0 ∧
    readDatum (fmtOf false) 4 (operands (.finite true 1 0) (.finite true 0 5) 0#64) = .finite true 0 5 := by
  decide +kernel

theorem witness_CompareResult :
    wellFormed (sized true (.dcmpo 7 30 0) (.dcmpoq 7 30 0)) = true ∧
    wellFormed (sized false (.dcmpu 7 31 1) (.dcmpuq 7 31 1)) = true := by decide

theorem witness_TestDataClass : wellFormed (sized true (.dtstdc 7 30 63#6) (.dtstdcq 7 30 63#6)) = true := by
  decide

theorem witness_TestDataGroup : wellFormed (sized true (.dtstdg 7 30 63#6) (.dtstdgq 7 30 63#6)) = true := by
  decide

theorem witness_TestExponent : wellFormed (sized true (.dtstex 7 30 0) (.dtstexq 7 30 0)) = true := by decide

/-- A significance in FPR 2 and a datum in FPR 4. -/
def significanceOf (k : Nat) (d : Datum) : State := testState [(2, BitVec.ofNat 64 k), (4, dfp64 d)] 0#64

theorem witness_TestSignificance :
    wellFormed (sized false (.dtstsf 0 2 4) (.dtstsfq 0 2 4)) = true ∧
    (readFpr (significanceOf 3 (.finite false 1000 0)) 2).toNat % 64 = 3 ∧
    readDatum (fmtOf false) 4 (significanceOf 3 (.finite false 1000 0)) = .finite false 1000 0 ∧
    ((3 : Nat) ≠ 0 ∧ 10 ^ 3 ≤ 1000) ∧
    readDatum (fmtOf false) 4 (significanceOf 3 (.finite false 99 0)) = .finite false 99 0 ∧
    99 < 10 ^ (3 - 1) ∧
    readDatum (fmtOf false) 4 (significanceOf 3 (.finite false 999 0)) = .finite false 999 0 ∧
    (10 ^ (3 - 1) ≤ 999 ∧ 999 < 10 ^ 3) ∧
    (readFpr (significanceOf 64 (.finite false 0 0)) 2).toNat % 64 = 0 ∧
    readDatum (fmtOf false) 4 (significanceOf 3 (.inf true 0)) = .inf true 0 := by decide +kernel

/-! Witnesses about quantum adjustment. -/

theorem quantizeOf_dqua {s : State} {sa sb : Bool} {ca cb : Nat} {ea eb : Int}
    (ha : readDatum .dfp64 2 s = .finite sa ca ea) (hb : readDatum .dfp64 4 s = .finite sb cb eb) :
    quantizeOf (.dqua 6 2 4 0#2 false) s = some (ea, ⟨.dfp64, 6, .rne, sb, cb, eb⟩) := by
  simp [quantizeOf, ha, hb, adjustingTo, adjusting, figure15]

theorem witness_Quantize_zero :
    quantizeOf (.dqua 6 2 4 0#2 false) (operands (.finite false 1 369) (.finite true 0 (-398)) 0#64)
      = some (369, ⟨.dfp64, 6, .rne, true, 0, -398⟩) :=
  quantizeOf_dqua (sa := false) (ca := 1) (by decide +kernel) (by decide +kernel)

theorem witness_Quantize_exact :
    quantizeOf (.dqua 6 2 4 0#2 false) (operands (.finite false 1 0) (.finite true 1 15) 0#64)
      = some (0, ⟨.dfp64, 6, .rne, true, 1, 15⟩) ∧
    (0 : Int) ≤ 15 ∧ (1 : Nat) ≠ 0 ∧ 1 * 10 ^ (15 - 0 : Int).toNat < 10 ^ Fmt.dfp64.precision :=
  ⟨quantizeOf_dqua (sa := false) (ca := 1) (by decide +kernel) (by decide +kernel), by decide⟩

theorem witness_Quantize_invalid :
    quantizeOf (.dqua 6 2 4 0#2 false) (operands (.finite false 1 0) (.finite true 1 16) 0#64)
      = some (0, ⟨.dfp64, 6, .rne, true, 1, 16⟩) ∧
    (0 : Int) ≤ 16 ∧ 10 ^ Fmt.dfp64.precision ≤ 1 * 10 ^ (16 - 0 : Int).toNat :=
  ⟨quantizeOf_dqua (sa := false) (ca := 1) (by decide +kernel) (by decide +kernel), by decide⟩

theorem witness_Quantize_rounds :
    quantizeOf (.dqua 6 2 4 0#2 false) (operands (.finite false 1 0) (.finite true 70 (-1)) 0#64)
      = some (0, ⟨.dfp64, 6, .rne, true, 70, -1⟩) ∧
    (-1 : Int) < 0 ∧ (70 : Nat) ≠ 0 ∧
    roundsTo .rne true (((70 : Nat) : ℚ) * 10 ^ (-1 - 0 : Int)) 7 := by
  refine ⟨quantizeOf_dqua (sa := false) (ca := 1) (by decide +kernel) (by decide +kernel), by decide, by decide, ?_⟩
  rw [show ((70 : Nat) : ℚ) * 10 ^ (-1 - 0 : Int) = (7 : Nat) by norm_num]
  exact roundsTo_exact _ _ _

theorem reroundOf_drrnd {s : State} {sb : Bool} {k cb : Nat} {eb : Int}
    (ha : (readFpr s 2).toNat % 64 = k) (hb : readDatum .dfp64 4 s = .finite sb cb eb) :
    reroundOf (.drrnd 6 2 4 0#2 false) s = some (k, ⟨.dfp64, 6, .rne, sb, cb, eb⟩) := by
  simp [reroundOf, ha, hb, adjusting, figure15]

theorem witness_Reround_kept :
    reroundOf (.drrnd 6 2 4 0#2 false) (significanceOf 3 (.finite true 999 5))
      = some (3, ⟨.dfp64, 6, .rne, true, 999, 5⟩) ∧ 999 < 10 ^ 3 :=
  ⟨reroundOf_drrnd (by decide +kernel) (by decide +kernel), by decide⟩

/-- 9996 to three digits is 1000, a carry. -/
theorem rounds_9996 : roundsTo .rne true (((9996 : Nat) : ℚ) / 10 ^ 1) 1000 := by
  refine ⟨?_, fun _ => ⟨by norm_num [abs_lt], ?_⟩⟩
  · rintro ⟨k, hk⟩
    have : (9996 : ℚ) = 10 * k := by rw [← hk]; norm_num
    have : 9996 = 10 * k := by exact_mod_cast this
    omega
  · norm_num [abs_le]

theorem witness_Reround_carry :
    reroundOf (.drrnd 6 2 4 0#2 false) (significanceOf 3 (.finite true 9996 367))
      = some (3, ⟨.dfp64, 6, .rne, true, 9996, 367⟩) ∧
    (3 : Nat) ≠ 0 ∧ 0 < 1 ∧ 10 ^ (3 + 1 - 1) ≤ 9996 ∧ 9996 < 10 ^ (3 + 1) ∧
    roundsTo .rne true (((9996 : Nat) : ℚ) / 10 ^ 1) 1000 ∧
    ((10 ^ (3 - 1) : Nat), (367 + (1 : Nat) + 1 : Int)) =
      (if 1000 = 10 ^ 3 then (10 ^ (3 - 1), (367 + (1 : Nat) + 1 : Int)) else (1000, (367 + (1 : Nat) : Int))) ∧
    (367 + (1 : Nat) + 1 : Int) ≤ Fmt.dfp64.xmax :=
  ⟨reroundOf_drrnd (by decide +kernel) (by decide +kernel), by decide, by decide, by decide, by decide, rounds_9996,
    by decide, by decide⟩

theorem witness_Reround_invalid :
    reroundOf (.drrnd 6 2 4 0#2 false) (significanceOf 3 (.finite true 9996 368))
      = some (3, ⟨.dfp64, 6, .rne, true, 9996, 368⟩) ∧
    roundsTo .rne true (((9996 : Nat) : ℚ) / 10 ^ 1) 1000 ∧
    Fmt.dfp64.xmax < (368 + (1 : Nat) + 1 : Int) :=
  ⟨reroundOf_drrnd (by decide +kernel) (by decide +kernel), rounds_9996, by decide⟩

theorem witness_RoundToInteger :
    roundToIntOf (.drintx true 6 2 0#2 false) (operands (.finite true 7 0) (.inf false 0) 0#64)
      = some (true, ⟨.dfp64, 6, .rtpi, true, 7, 0⟩) ∧
    roundToIntOf (.drintn true 6 2 0#2 false) (operands (.finite true 70 (-1)) (.inf false 0) 0#64)
      = some (false, ⟨.dfp64, 6, .rtpi, true, 70, -1⟩) ∧
    roundToIntOf (.drintx true 6 2 0#2 false) (operands (.finite true 70 (-1)) (.inf false 0) 0#64)
      = some (true, ⟨.dfp64, 6, .rtpi, true, 70, -1⟩) ∧
    (-1 : Int) < 0 ∧ roundsTo .rtpi true (((70 : Nat) : ℚ) * 10 ^ (-1 : Int)) 7 := by
  have h1 : readDatum .dfp64 2 (operands (.finite true 7 0) (.inf false 0) 0#64) = .finite true 7 0 := by
    decide +kernel
  have h2 : readDatum .dfp64 2 (operands (.finite true 70 (-1)) (.inf false 0) 0#64) = .finite true 70 (-1) := by
    decide +kernel
  refine ⟨by simp [roundToIntOf, h1, adjusting, figure15], by simp [roundToIntOf, h2, adjusting, figure15],
    by simp [roundToIntOf, h2, adjusting, figure15], by decide, ?_⟩
  rw [show ((70 : Nat) : ℚ) * 10 ^ (-1 : Int) = (7 : Nat) by norm_num]
  exact roundsTo_exact _ _ _

/-! Witnesses about conversion and format. -/

theorem witness_Widen : evenReg 30 = true ∧
    readDatum .dfp64 2 (extremes 0#64) = .finite false (10 ^ 16 - 1) 369 := by decide +kernel

theorem witness_Dfp32RoundTrip :
    (readFpr (testState [(2, 0xDEADBEEF77F3FCFF#64)] 0#64) 2).toNat % 2 ^ 32 = 0x77F3FCFF ∧
    enc .dfp32 (dec .dfp32 0x77F3FCFF) = 0x77F3FCFF ∧
    getBit (testState [(2, 0xDEADBEEF77F3FCFF#64)] 0#64).fpscr .ue = false ∧
    enc .dfp32 (dec .dfp32 0xFE000000) = 0xFE000000 ∧ dec .dfp32 0xFE000000 = .snan true 0 := by decide +kernel

theorem witness_ConvertFromFixed : evenReg 30 = true ∧
    (readFpr (testState [(2, 0x8000000000000000#64)] 0#64) 2).toInt = -(2 ^ 63) := by decide +kernel

/-- The five kinds of operand of Convert To Fixed, the integers at the ends of the range. -/
theorem witness_ConvertToFixed :
    wellFormed (sized true (.dctfix 6 2 false) (.dctfixq 6 2 false)) = true ∧
    readDatum (fmtOf true) 2 (quadState (.finite false (2 ^ 63 - 1) 0)) = .finite false (2 ^ 63 - 1) 0 ∧
    readDatum (fmtOf true) 2 (quadState (.finite true (2 ^ 63) 0)) = .finite true (2 ^ 63) 0 ∧
    readDatum (fmtOf true) 2 (quadState (.finite false (2 ^ 63) 0)) = .finite false (2 ^ 63) 0 ∧
    readDatum (fmtOf true) 2 (quadState (.finite true (2 ^ 63 + 1) 0)) = .finite true (2 ^ 63 + 1) 0 ∧
    readDatum (fmtOf true) 2 (quadState (.inf true 0)) = .inf true 0 ∧
    readDatum (fmtOf true) 2 (quadState (.qnan true 1)) = .qnan true 1 ∧
    readDatum (fmtOf true) 2 (quadState (.snan true 1)) = .snan true 1 := by decide +kernel

theorem witness_ConvertToFixed_rounds (n : Nat) :
    roundsTo (figure14 (0#64 : Dword)) false ((n : ℚ) * 10 ^ (0 : Int)) n := by
  rw [zpow_zero, mul_one]
  exact roundsTo_exact _ _ _

theorem witness_DecodeToBcd : wellFormed (sized true (.ddedpd 2#2 30 0 true) (.ddedpdq 2#2 30 0 true)) = true ∧
    (2#2).getMsbD 0 = true ∧ (1#2).getMsbD 0 = false := by decide

theorem witness_EncodeFromBcd :
    wellFormed (sized true (.denbcd true 30 0 true) (.denbcdq true 30 0 true)) = true ∧
    (∀ j < 16, nibbleAt 0x9999999999999999 j ≤ 9) ∧
    (9 < nibbleAt 0x999999999999999A 0 ∧ ∀ j < 15, nibbleAt 0x999999999999999A (j + 1) ≤ 9) ∧
    (∃ j < 16, 9 < nibbleAt 0xA999999999999999 j) ∧ nibbleAt 0x9999999999999999 0 ≤ 9 ∧
    ∃ j < 15, 9 < nibbleAt 0xA99999999999999C (j + 1) := by decide +kernel

theorem witness_ExtractExponent : wellFormed (sized true (.dxex 31 30 true) (.dxexq 31 30 true)) = true := by decide

/-- The specified exponents at the ends of each row of Figure 36. -/
theorem witness_InsertExponent :
    wellFormed (sized false (.diex 31 30 29 true) (.diexq 31 30 29 true)) = true ∧
    (767#64).toInt = 767 ∧ (768#64).toInt = 768 ∧ (0#64).toInt = 0 ∧ (0xFFFFFFFFFFFFFFFF#64).toInt = -1 ∧
    (0xFFFFFFFFFFFFFFFE#64).toInt = -2 ∧ (0xFFFFFFFFFFFFFFFD#64).toInt = -3 ∧
    (0xFFFFFFFFFFFFFFFC#64).toInt = -4 := by decide +kernel

theorem witness_ShiftCoefficient :
    wellFormed (sized true (.dscli 30 0 63#6 true) (.dscliq 30 0 63#6 true)) = true ∧
    wellFormed (sized false (.dscri 31 1 0#6 true) (.dscriq 31 1 0#6 true)) = true := by decide

end Sys2Proof.Machine
end

section
/-! What every instruction does to the CR, to FR, FI and XX, and to the exception bits, said once from the
shape of its effect; the statements of 10_state.md R36, R48, R51 and R52 follow. -/

namespace Sys2Proof.Machine

/-! Four adjacent bits of the FPSCR, as a CR field receives them. -/

theorem extractLsb'_four (w : Dword) (k : Nat) :
    w.extractLsb' k 4 = BitVec.ofBool (w.getLsbD (k + 3)) ++ BitVec.ofBool (w.getLsbD (k + 2))
      ++ BitVec.ofBool (w.getLsbD (k + 1)) ++ BitVec.ofBool (w.getLsbD k) := by
  apply BitVec.eq_of_getLsbD_eq
  intro j hj
  rw [BitVec.getLsbD_extractLsb']
  simp only [BitVec.getLsbD_append, BitVec.getLsbD_ofBool]
  obtain rfl | rfl | rfl | rfl : j = 0 ∨ j = 1 ∨ j = 2 ∨ j = 3 := by omega
  all_goals simp

/-- FPSCR[32:35] are FX, FEX, VX, OX, leftmost first (10_state.md R52). -/
theorem recordBits_eq (w : Dword) :
    recordBits w = BitVec.ofBool (getBit w .fx) ++ BitVec.ofBool (getBit w .fex)
      ++ BitVec.ofBool (getBit w .vx) ++ BitVec.ofBool (getBit w .ox) := by
  simp [recordBits, extractLsb'_four, getBit, FpscrBit.index, BitVec.getMsbD_eq_getLsbD]

/-- FPCC is FL, FG, FE, FU, leftmost first (10_state.md R43). -/
theorem fpccOf_eq_flags (w : Dword) :
    fpccOf w = BitVec.ofBool (getBit w .fl) ++ BitVec.ofBool (getBit w .fg)
      ++ BitVec.ofBool (getBit w .fe) ++ BitVec.ofBool (getBit w .fu) := by
  simp [fpccOf, extractLsb'_four, getBit, FpscrBit.index, BitVec.getMsbD_eq_getLsbD]

/-- C is the leftmost bit of FPRF (10_state.md R40). -/
theorem getBit_c_eq (w : Dword) : getBit w .c = (fprfOf w).getMsbD 0 :=
  (getMsbD_fprfOf w (i := 0) (by decide)).symm

/-! The CR. -/

/-- The CR field an instruction computes is BF, with the FPCC it leaves; an instruction without BF computes
none (10_state.md R51). -/
theorem effectOf_crf (i : Instr) (s : State) :
    (effectOf i s).crf = (bfOf i).map fun bf => (bf, fpccOf (effectOf i s).fpscr) := by
  cases effectOf_shape i s with
  | deliver _ _ he hbf => rw [he, hbf]; rfl
  | compare _ _ _ _ he hbf =>
    rw [he, hbf]
    simp [compareEffect, setFpscr_fpcc]
  | test _ _ he hbf =>
    rw [he, hbf]
    simp [testEffect, fpccOf_setFpcc]
  | toFixed _ _ he hbf => rw [he, hbf]; rfl
  | dctdp _ _ he hbf => rw [he, hbf]; rfl
  | dcffixq _ _ he hbf => rw [he, hbf]; rfl
  | plain _ he hbf => rw [he, hbf]; rfl

/-- No instruction has both a field BF and a record bit (10_state.md R51, R52). -/
theorem bfOf_none_or_rcOf_none (i : Instr) : bfOf i = none ∨ rcOf i = none := by
  cases i <;> simp [bfOf, rcOf]

theorem exec_cr {i : Instr} {s t : State} (h : exec i s = .next t) :
    t.cr = recordCr1 (rcOf i == some true) t.fpscr
      (writeCrField ((bfOf i).map fun bf => (bf, fpccOf t.fpscr)) s.cr) := by
  obtain ⟨-, rfl⟩ := exec_next.1 h
  rw [commit_cr, commit_fpscr, effectOf_crf]

/-- The CR after an instruction with a record bit: only `RecordCR1()` writes it (10_state.md R52). -/
theorem exec_cr_of_rcOf {i : Instr} {s t : State} {rc : Bool} (hrc : rcOf i = some rc)
    (h : exec i s = .next t) : t.cr = recordCr1 rc t.fpscr s.cr := by
  have hbf : bfOf i = none := (bfOf_none_or_rcOf_none i).resolve_right (by simp [hrc])
  simpa [hrc, hbf, writeCrField] using exec_cr h

/-- The CR after a compare or a test: only field BF is written (10_state.md R51). -/
theorem exec_cr_of_bfOf {i : Instr} {s t : State} {bf : CrNum} (hbf : bfOf i = some bf)
    (h : exec i s = .next t) : t.cr = writeCrField (some (bf, fpccOf t.fpscr)) s.cr := by
  have hrc : rcOf i = none := (bfOf_none_or_rcOf_none i).resolve_left (by simp [hbf])
  simpa [hrc, hbf, recordCr1] using exec_cr h

/-- Settles O22: nothing but `RecordCR1()` writes the CR of a record form, with bits 32:35 of the FPSCR the
instruction leaves. -/
theorem recordBit : Obligations.RecordBit := by
  intro i s t rc hrc h
  have hcr := exec_cr_of_rcOf hrc h
  constructor
  · rintro rfl
    refine ⟨?_, fun n hn => ?_⟩
    · rw [← recordBits_eq, readCr, hcr, recordCr1_one]
    · rw [readCr, hcr, recordCr1_ne hn, readCr]
  · rintro rfl
    exact hcr

/-! The bit C of a compare or a test. -/

theorem getBit_c_setFpscr_fpcc {exc : List FpscrBit} (hexc : .c ∉ exc) (code : BitVec 4) (old : Dword) :
    getBit (setFpscr exc .unchanged (.fpcc code) old) .c = getBit old .c := by
  obtain ⟨-, -, hfprf⟩ := setFpscr_fields exc .unchanged (.fpcc code) old
  rw [getBit_c_eq, hfprf, ← getBit_c_eq]
  simp [setFprfField, setFrFi, hexc]

/-- The exceptions of a compare: VXSNAN, and VXVC only if it is ordered (43_compare.md R296). -/
theorem compareExc_mem {ordered ve : Bool} {a b : Datum} {x : FpscrBit} (h : x ∈ compareExc ordered ve a b) :
    x = .vxsnan ∨ (x = .vxvc ∧ ordered = true) := by
  unfold compareExc at h
  split at h
  · split at h <;> simp_all
  · split at h <;> simp_all

theorem effectOf_c_of_bfOf {i : Instr} {bf : CrNum} (hbf : bfOf i = some bf) (s : State) :
    getBit (effectOf i s).fpscr .c = getBit s.fpscr .c := by
  cases effectOf_shape i s with
  | compare _ _ _ _ he =>
    rw [he]
    exact getBit_c_setFpscr_fpcc (fun hc => by simpa using compareExc_mem hc) _ _
  | test _ _ he => simp [he, testEffect]
  | deliver _ _ _ hnone => simp [hnone] at hbf
  | toFixed _ _ _ hnone => simp [hnone] at hbf
  | dctdp _ _ _ hnone => simp [hnone] at hbf
  | dcffixq _ _ _ hnone => simp [hnone] at hbf
  | plain _ _ hnone => simp [hnone] at hbf

/-- Settles O23: field BF is the only one a compare or a test writes, with the FPCC it leaves. -/
theorem compareTestField : Obligations.CompareTestField := by
  intro i s t bf hbf h
  have hcr := exec_cr_of_bfOf hbf h
  refine ⟨?_, fun n hn => ?_, ?_⟩
  · rw [← fpccOf_eq_flags, readCr, hcr, readCr_writeCrField_same]
  · rw [readCr, hcr, readCr_writeCrField_ne hn.symm, readCr]
  · obtain ⟨-, rfl⟩ := exec_next.1 h
    rw [commit_fpscr, effectOf_c_of_bfOf hbf]

/-! FR, FI and the exception bits: what occurs in an instruction. -/

/-- The exceptions that occur: those passed to `SetFPSCR`, and Inexact when FI is 1 (60_exceptions.md
R500). -/
def occurring (exc : List FpscrBit) (fi : Bool) : List FpscrBit := if fi then .xx :: exc else exc

theorem mem_occurring {exc : List FpscrBit} {fi : Bool} {b : FpscrBit} :
    b ∈ occurring exc fi ↔ b ∈ exc ∨ (b = .xx ∧ fi = true) := by
  cases fi <;> simp [occurring, or_comm]

/-- The pairs of exceptions that one instruction may set together (10_state.md R48). -/
def mayOccurTogether (i : Instr) (b b' : FpscrBit) : Prop :=
  (b = .ox ∧ b' = .xx) ∨ (b = .ux ∧ b' = .xx) ∨
  (b = .vxsnan ∧ b' = .vxvc ∧ ∃ bf fra frb, i = .dcmpo bf fra frb ∨ i = .dcmpoq bf fra frb) ∨
  (b = .vxsnan ∧ b' = .vxcvi ∧ ∃ frt frb rc, i = .dctfix frt frb rc ∨ i = .dctfixq frt frb rc)

/-- An instruction that takes the FPSCR from `old` to `new` records the exceptions `occ`: it sets their bits
and no other exception bit, and FI follows Inexact where the instruction affects FI (10_state.md R36, R45,
R48). -/
structure Records (i : Instr) (old new : Dword) (occ : List FpscrBit) : Prop where
  bits : ∀ b ∈ exceptionBits, (getBit new b = true ↔ b ∈ occ ∨ getBit old b = true)
  pairs : ∀ b ∈ occ, ∀ b' ∈ occ, b.index < b'.index → mayOccurTogether i b b'
  touched : (fpscrUse i).frfi ≠ .untouched → (getBit new .fi = true ↔ .xx ∈ occ)
  untouched : (fpscrUse i).frfi = .untouched →
    .xx ∉ occ ∧ getBit new .fi = getBit old .fi ∧ getBit new .fr = getBit old .fr

/-- `SetFPSCR` with FR and FI written records what occurs, if XX is passed only with FI. -/
theorem records_setFpscr_set {i : Instr} {exc : List FpscrBit} {fr fi : Bool} {fprf : Fprf} {old : Dword}
    (huse : (fpscrUse i).frfi ≠ .untouched) (hxx : .xx ∈ exc → fi = true)
    (hpairs : ∀ b ∈ occurring exc fi, ∀ b' ∈ occurring exc fi, b.index < b'.index → mayOccurTogether i b b') :
    Records i old (setFpscr exc (.set fr fi) fprf old) (occurring exc fi) where
  bits b hb := by
    rw [getBit_setFpscr_exception _ _ _ _ hb, mem_occurring]
    simp only [FrFi.inexact, Bool.or_eq_true, Bool.and_eq_true, decide_eq_true_eq, List.contains_iff_mem]
    tauto
  pairs := hpairs
  touched _ := by
    rw [(setFpscr_frfi exc fr fi fprf old).2, mem_occurring]
    tauto
  untouched h := absurd h huse

/-- `SetFPSCR` with FR and FI left alone records the exceptions it is passed, Inexact not among them. -/
theorem records_setFpscr_unchanged {i : Instr} {exc : List FpscrBit} {fprf : Fprf} {old : Dword}
    (huse : (fpscrUse i).frfi = .untouched) (hexc : ∀ b ∈ exc, b ∈ invalidBits)
    (hpairs : ∀ b ∈ exc, ∀ b' ∈ exc, b.index < b'.index → mayOccurTogether i b b') :
    Records i old (setFpscr exc .unchanged fprf old) exc where
  bits b hb := by
    rw [getBit_setFpscr_exception _ _ _ _ hb]
    simp [FrFi.inexact]
  pairs := hpairs
  touched h := absurd huse h
  untouched _ := by
    have hnot : ∀ b ∉ invalidBits, b ∉ exc := fun b hb h => hb (hexc b h)
    obtain ⟨hfr, hfi⟩ := setFpscr_frfi_unchanged (hnot .fr (by decide)) (hnot .fi (by decide)) fprf old
    exact ⟨hnot .xx (by decide), hfi, hfr⟩

/-- A write of FPRF or FPCC alone records nothing. -/
theorem records_setFprfField {i : Instr} (fprf : Fprf) (old : Dword)
    (huse : (fpscrUse i).frfi = .untouched) : Records i old (setFprfField fprf old) [] where
  bits b hb := by
    obtain ⟨-, -, -, -, -, hne⟩ := exceptionBits_ne hb
    simp [getBit_setFprfField hne]
  pairs := by simp
  touched h := absurd huse h
  untouched _ := ⟨by simp, getBit_setFprfField (by decide) _ _, getBit_setFprfField (by decide) _ _⟩

/-! What occurs in each shape of effect. -/

/-- Results are of two kinds. An Invalid Operation or Zero Divide comes alone, with FR and FI at 0; the
others can have Inexact, and with it one of Overflow and Underflow. -/
theorem Result.within.kinds {r : Result} {l : List FpscrBit} (h : r.within l) :
    (∃ b, (b ∈ invalidBits ∨ b = .zx) ∧ r.exc = [b] ∧ r.fr = false ∧ r.fi = false) ∨
    ((∀ b ∈ r.exc, b = .ox ∨ b = .ux ∨ b = .xx) ∧ (.ox ∉ r.exc ∨ .ux ∉ r.exc) ∧
      (.xx ∈ r.exc → r.fi = true)) := by
  obtain ⟨-, -, he | hinvalid | ⟨he, hfi⟩ | ⟨he, -⟩⟩ := h
  · exact .inr (by simp [he])
  · exact .inl hinvalid
  all_goals
    simp only [List.mem_cons, List.not_mem_nil, or_false] at he
    refine .inr ?_
  · rcases he with he | he | he <;> simp [he, hfi]
  · rcases he with he | he <;> simp [he]

theorem suppresses_eq_false {exc : List FpscrBit} (h : ∀ b ∈ exc, b = .ox ∨ b = .ux ∨ b = .xx) (w : Dword) :
    suppresses exc w = false := by
  have hinvalid : hasInvalid exc = false := by
    rw [hasInvalid, List.any_eq_false]
    intro b hb
    rcases h b hb with rfl | rfl | rfl <;> decide
  have hzx : .zx ∉ exc := fun hz => by simpa using h .zx hz
  simp [suppresses, hinvalid, hzx]

/-- `SetFPSCR` is passed the FR and FI of the result also where the result is suppressed: they are 0 there
(60_exceptions.md R531, R541). -/
theorem Result.within.resultFpscr_eq {r : Result} {l : List FpscrBit} (h : r.within l) (w : Dword) :
    ∃ fprf, resultFpscr r w = setFpscr r.exc (.set r.fr r.fi) fprf w := by
  unfold resultFpscr
  obtain ⟨_, -, -, hfr, hfi⟩ | ⟨hbits, -⟩ := h.kinds
  · rw [hfr, hfi]
    split
    · exact ⟨_, rfl⟩
    · exact ⟨_, rfl⟩
  · rw [suppresses_eq_false hbits]
    exact ⟨_, rfl⟩

theorem Result.within.fi_of_xx {r : Result} {l : List FpscrBit} (h : r.within l) (hx : .xx ∈ r.exc) :
    r.fi = true := by
  obtain ⟨b, hb, he, -⟩ | ⟨-, -, hfi⟩ := h.kinds
  · obtain rfl : FpscrBit.xx = b := by simpa [he] using hx
    exact absurd hb (by decide)
  · exact hfi hx

/-- Two exceptions of a result are Overflow or Underflow with Inexact. -/
theorem Result.within.pairs {r : Result} {l : List FpscrBit} (h : r.within l) {b b' : FpscrBit}
    (hb : b ∈ occurring r.exc r.fi) (hb' : b' ∈ occurring r.exc r.fi) (hlt : b.index < b'.index) :
    (b = .ox ∧ b' = .xx) ∨ (b = .ux ∧ b' = .xx) := by
  have hne : b ≠ b' := fun he => by simp [he] at hlt
  rw [mem_occurring] at hb hb'
  obtain ⟨x, -, he, -, hfi⟩ | ⟨hbits, hone, -⟩ := h.kinds
  · simp only [he, hfi, List.mem_singleton, Bool.false_eq_true, and_false, or_false] at hb hb'
    exact absurd (hb.trans hb'.symm) hne
  · have hrange : ∀ x, x ∈ r.exc ∨ (x = .xx ∧ r.fi = true) → x = .ox ∨ x = .ux ∨ x = .xx :=
      fun x hx => hx.elim (hbits x) fun hxx => .inr (.inr hxx.1)
    rcases hrange b' hb' with rfl | rfl | rfl
    · rcases hrange b hb with rfl | rfl | rfl <;> exact absurd hlt (by decide)
    · rcases hrange b hb with rfl | rfl | rfl
      · have hboth : .ox ∈ r.exc ∧ .ux ∈ r.exc := by simpa using And.intro hb hb'
        exact absurd hboth (not_and_or.2 hone)
      · exact absurd rfl hne
      · exact absurd hlt (by decide)
    · rcases hrange b hb with rfl | rfl | rfl
      · exact .inl ⟨rfl, rfl⟩
      · exact .inr ⟨rfl, rfl⟩
      · exact absurd rfl hne

/-- Two exceptions of a compare are VXSNAN and VXVC, of an ordered one (43_compare.md R296). -/
theorem compareExc_pairs {ordered ve : Bool} {x y : Datum} {b b' : FpscrBit}
    (hb : b ∈ compareExc ordered ve x y) (hb' : b' ∈ compareExc ordered ve x y) (hlt : b.index < b'.index) :
    b = .vxsnan ∧ b' = .vxvc ∧ ordered = true := by
  rcases compareExc_mem hb with rfl | ⟨rfl, ho⟩ <;> rcases compareExc_mem hb' with rfl | ⟨rfl, ho'⟩
  · exact absurd hlt (by decide)
  · exact ⟨rfl, rfl, ho'⟩
  · exact absurd hlt (by decide)
  · exact absurd hlt (by decide)

/-- Convert To Fixed raises nothing but Inexact, or VXSNAN and VXCVI with FI at 0 (46_conversion.md R401). -/
theorem toFixed_kinds {x : Fixed}
    (hx : x.exc = [] ∨ (x.exc ∈ [[FpscrBit.vxcvi], [.vxsnan, .vxcvi]] ∧ x.fr = false ∧ x.fi = false)) :
    x.exc = [] ∨ ((∀ b ∈ x.exc, b = .vxsnan ∨ b = .vxcvi) ∧ x.fi = false) := by
  obtain he | ⟨he, -, hfi⟩ := hx
  · exact .inl he
  · simp only [List.mem_cons, List.not_mem_nil, or_false] at he
    rcases he with he | he <;> simp [he, hfi]

/-- Two exceptions of Convert To Fixed are VXSNAN and VXCVI (46_conversion.md R400). -/
theorem toFixed_pairs {x : Fixed}
    (hx : x.exc = [] ∨ ((∀ b ∈ x.exc, b = .vxsnan ∨ b = .vxcvi) ∧ x.fi = false)) {b b' : FpscrBit}
    (hb : b ∈ occurring x.exc x.fi) (hb' : b' ∈ occurring x.exc x.fi) (hlt : b.index < b'.index) :
    b = .vxsnan ∧ b' = .vxcvi := by
  rw [mem_occurring] at hb hb'
  obtain he | ⟨hbits, hfi⟩ := hx
  · simp only [he, List.not_mem_nil, false_or] at hb hb'
    rw [hb.1, hb'.1] at hlt
    exact absurd hlt (by decide)
  · simp only [hfi, Bool.false_eq_true, and_false, or_false] at hb hb'
    rcases hbits b hb with rfl | rfl <;> rcases hbits b' hb' with rfl | rfl
    · exact absurd hlt (by decide)
    · exact ⟨rfl, rfl⟩
    · exact absurd hlt (by decide)
    · exact absurd hlt (by decide)

/-- Every instruction records some list of exceptions, told by the shape of its effect; a silent one records
none. -/
theorem effectOf_records (i : Instr) (s : State) : ∃ occ, Records i s.fpscr (effectOf i s).fpscr occ := by
  cases effectOf_shape i s with
  | deliver _ r he _ _ hr _ hfi =>
    obtain ⟨fprf, hf⟩ := hr.resultFpscr_eq s.fpscr
    have huse : (fpscrUse i).frfi ≠ .untouched := by
      rcases hfi with h | ⟨h, -⟩ <;> simp [h]
    have hnew : (effectOf i s).fpscr = setFpscr r.exc (.set r.fr r.fi) fprf s.fpscr := by rw [he, ← hf]; rfl
    rw [hnew]
    refine ⟨_, records_setFpscr_set huse hr.fi_of_xx fun b hb b' hb' hlt => ?_⟩
    exact (hr.pairs hb hb' hlt).elim .inl fun h => .inr (.inl h)
  | compare ordered bf x y he _ hu hi =>
    rw [he]
    refine ⟨_, records_setFpscr_unchanged (by rw [hu]) (fun b hb => ?_) fun b hb b' hb' hlt => ?_⟩
    · rcases compareExc_mem hb with rfl | ⟨rfl, -⟩ <;> decide
    · obtain ⟨rfl, rfl, ho⟩ := compareExc_pairs hb hb' hlt
      exact .inr (.inr (.inl ⟨rfl, rfl, bf, hi ho⟩))
  | test _ code he _ hu =>
    rw [he]
    exact ⟨_, records_setFprfField (.fpcc code) _ (by rw [hu])⟩
  | toFixed frt x he _ _ hu hx hi =>
    rw [he]
    have hkinds := toFixed_kinds hx
    refine ⟨_, records_setFpscr_set (by simp [hu]) (fun hxx => ?_) fun b hb b' hb' hlt => ?_⟩
    · obtain h | ⟨hbits, -⟩ := hkinds
      · simp [h] at hxx
      · simpa using hbits .xx hxx
    · obtain ⟨rfl, rfl⟩ := toFixed_pairs hkinds hb hb' hlt
      exact .inr (.inr (.inr ⟨rfl, rfl, frt, hi⟩))
  | dctdp _ d he _ _ hu =>
    rw [he]
    exact ⟨_, records_setFpscr_unchanged (exc := []) (by rw [hu]) (by simp) (by simp)⟩
  | dcffixq _ n he _ _ hu =>
    rw [he]
    exact ⟨_, records_setFprfField (.cls _) _ (by rw [hu])⟩
  | plain _ he _ _ hu =>
    rw [he]
    exact ⟨_, records_setFprfField .unchanged _ (by rw [hu])⟩

theorem exec_records {i : Instr} {s t : State} (h : exec i s = .next t) :
    ∃ occ, Records i s.fpscr t.fpscr occ := by
  obtain ⟨-, rfl⟩ := exec_next.1 h
  rw [commit_fpscr]
  exact effectOf_records i s

/-- Settles O24: where FI is affected it is 1 exactly if Inexact occurs, which is what sets XX; elsewhere
Inexact does not occur. -/
theorem stickyInexact : Obligations.StickyInexact := by
  intro i s t h
  obtain ⟨occ, hrec⟩ := exec_records h
  have hxx := hrec.bits .xx (by decide)
  constructor <;> intro huse
  · rw [Bool.eq_iff_iff, Bool.or_eq_true, hrec.touched huse, hxx, or_comm]
  · obtain ⟨hnot, hfi, hfr⟩ := hrec.untouched huse
    refine ⟨?_, hfi, hfr⟩
    rw [Bool.eq_iff_iff, hxx]
    simp [hnot]

/-- Settles O26: a bit that goes from 0 to 1 is one of those recorded, and these come in the pairs of
10_state.md R48 only. -/
theorem severalExceptions : Obligations.SeveralExceptions := by
  intro i s t b b' h hb hb' hlt hold hnew hold' hnew'
  obtain ⟨occ, hrec⟩ := exec_records h
  have hocc : ∀ x ∈ exceptionBits, getBit s.fpscr x = false → getBit t.fpscr x = true → x ∈ occ :=
    fun x hx h0 h1 => ((hrec.bits x hx).1 h1).resolve_right (by simp [h0])
  exact hrec.pairs b (hocc b hb hold hnew) b' (hocc b' hb' hold' hnew') hlt

end Sys2Proof.Machine
end

section
/-! Compare (43_compare.md): the code of a compare is that of Figure 24, over the rationals; which Invalid
Operation bits it passes to `SetFPSCR`; and where no handler invocation can arise, it completes. -/

namespace Sys2Proof.Machine

/-! The code. -/

/-- The scaled integers a compare looks at are the values, both times one power of ten. -/
theorem scaledValue_cast (s : Bool) (c : Nat) {e k : Int} (h : 0 ≤ e + k) :
    (scaledValue s c e k : ℚ) = finiteValue s c e * 10 ^ k := by
  have hpow : (10 : ℚ) ^ (e + k).toNat = 10 ^ e * 10 ^ k := by
    rw [← zpow_natCast, Int.toNat_of_nonneg h, zpow_add₀ (by norm_num)]
  cases s <;> simp [scaledValue, finiteValue, hpow, mul_assoc]

/-- Scaling by a power of ten keeps the order, so it keeps the code. -/
theorem codeOfInts_of_scaled {m n k : Int} {x y : ℚ} (hm : (m : ℚ) = x * 10 ^ k) (hn : (n : ℚ) = y * 10 ^ k) :
    codeOfInts m n = if x = y then 0b0010#4 else if x < y then 0b1000#4 else 0b0100#4 := by
  have hpos : (0 : ℚ) < 10 ^ k := by positivity
  have heq : m = n ↔ x = y := by
    rw [← Int.cast_inj (α := ℚ), hm, hn, mul_left_inj' hpos.ne']
  have hlt : m < n ↔ x < y := by
    rw [← Int.cast_lt (R := ℚ), hm, hn, mul_lt_mul_iff_left₀ hpos]
  simp only [codeOfInts, codeEqual, codeLess, codeGreater, heq, hlt]

/-- The code of a compare is that of Figures 24 and 25 (43_compare.md R297, R298). -/
theorem compareCode_eq_figure24 (a b : Datum) : compareCode a b = figure24 a b := by
  cases a with
  | finite sa ca ea =>
    cases b with
    | finite sb cb eb =>
      exact codeOfInts_of_scaled (scaledValue_cast sa ca (by omega)) (scaledValue_cast sb cb (by omega))
    | inf sb _ => cases sb <;> rfl
    | qnan _ _ => rfl
    | snan _ _ => rfl
  | inf sa _ =>
    cases b with
    | finite _ _ _ => cases sa <;> rfl
    | inf sb _ => cases sa <;> cases sb <;> rfl
    | qnan _ _ => cases sa <;> rfl
    | snan _ _ => cases sa <;> rfl
  | qnan _ _ => rfl
  | snan _ _ => rfl

/-! The Invalid Operation bits. -/

theorem compareExc_contains_vxsnan (ordered ve : Bool) (a b : Datum) :
    (compareExc ordered ve a b).contains .vxsnan = (a.isSNaN || b.isSNaN) := by
  unfold compareExc
  cases a.isSNaN || b.isSNaN
  · cases (a.isNaN || b.isNaN) && ordered <;> rfl
  · cases ordered && !ve <;> rfl

/-- VXVC is for an ordered compare: with an SNaN only while VE is 0, without one for a QNaN
(43_compare.md R298). -/
theorem compareExc_contains_vxvc (ordered ve : Bool) (a b : Datum) :
    (compareExc ordered ve a b).contains .vxvc =
      (ordered && if a.isSNaN || b.isSNaN then !ve else a.isNaN || b.isNaN) := by
  unfold compareExc
  cases a.isSNaN || b.isSNaN
  · cases ordered <;> cases a.isNaN || b.isNaN <;> rfl
  · cases ordered <;> cases ve <;> rfl

/-- A compare passes no bit but VXSNAN and VXVC (43_compare.md R296). -/
theorem compareExc_not_mem {ordered ve : Bool} {a b : Datum} {x : FpscrBit}
    (h : x ∉ [FpscrBit.vxsnan, .vxvc]) : x ∉ compareExc ordered ve a b := fun hx => by
  rcases compareExc_mem hx with rfl | ⟨rfl, -⟩ <;> exact h (by decide)

/-! Completion where no handler invocation can arise (60_exceptions.md R524). -/

theorem enabledExceptions_of_disabled (exc : List FpscrBit) (frfi : FrFi) {w : Dword}
    (h : (getBit w .ve || getBit w .oe || getBit w .ue || getBit w .ze || getBit w .xe) = false) :
    enabledExceptions exc frfi w = [] := by
  simp only [Bool.or_eq_false_iff] at h
  obtain ⟨⟨⟨⟨hve, hoe⟩, hue⟩, hze⟩, hxe⟩ := h
  simp [enabledExceptions, hve, hoe, hue, hze, hxe]

theorem completed_advance_applyEffect (rc : Bool) (e : Effect) (s : State) :
    completed s (advance (applyEffect rc e s)) := ⟨rfl, rfl, rfl, rfl, rfl⟩

/-- An effect whose causes are the enabled ones of its exceptions completes in such a state. -/
theorem completed_commit_of_noInvocation {s : State} (h : noInvocation s = true) (rc : Bool) {e : Effect}
    {exc : List FpscrBit} {frfi : FrFi} (he : e.causes = enabledExceptions exc frfi s.fpscr) :
    completed s (commit rc e s) := by
  have hadvance : commit rc e s = advance (applyEffect rc e s) := by
    rw [noInvocation, Bool.or_eq_true, beq_iff_eq, Bool.not_eq_true'] at h
    rcases h with hignore | hdisabled
    · obtain ⟨h0, h1⟩ := exceptionMode_eq_ignore.1 hignore
      exact commit_ignore rc e h0 h1
    · exact commit_no_causes rc (he.trans (enabledExceptions_of_disabled exc frfi hdisabled)) s
  rw [hadvance]
  exact completed_advance_applyEffect rc e s

/-! The four compares. -/

/-- The compare of a kind and a size (43_compare.md R291 to R294). -/
theorem effectOf_compare {ordered quad : Bool} {bf : CrNum} {fra frb : FprNum} {i : Instr}
    (hi : i = (if ordered then sized quad (.dcmpo bf fra frb) (.dcmpoq bf fra frb)
      else sized quad (.dcmpu bf fra frb) (.dcmpuq bf fra frb))) (s : State) :
    bfOf i = some bf ∧ effectOf i s =
      compareEffect ordered bf (readDatum (fmtOf quad) fra s) (readDatum (fmtOf quad) frb s) s.fpscr := by
  subst hi
  cases ordered <;> cases quad <;> exact ⟨rfl, rfl⟩

/-- The FPSCR a compare leaves: its two Invalid Operation bits, and no other exception bit; FPCC; FR, FI and C
as they were (43_compare.md R295, R296). -/
theorem compareEffect_fpscr (ordered : Bool) (bf : CrNum) (a b : Datum) (w : Dword) :
    fpccOf (compareEffect ordered bf a b w).fpscr = figure24 a b ∧
    (∀ x ∈ exceptionBits, getBit (compareEffect ordered bf a b w).fpscr x =
      ((compareExc ordered (getBit w .ve) a b).contains x || getBit w x)) ∧
    getBit (compareEffect ordered bf a b w).fpscr .fr = getBit w .fr ∧
    getBit (compareEffect ordered bf a b w).fpscr .fi = getBit w .fi ∧
    getBit (compareEffect ordered bf a b w).fpscr .c = getBit w .c := by
  obtain ⟨hfr, hfi⟩ := setFpscr_frfi_unchanged (exc := compareExc ordered (getBit w .ve) a b)
    (compareExc_not_mem (by decide)) (compareExc_not_mem (by decide)) (.fpcc (compareCode a b)) w
  refine ⟨?_, fun x hx => ?_, hfr, hfi, getBit_c_setFpscr_fpcc (compareExc_not_mem (by decide)) _ _⟩
  · rw [← compareCode_eq_figure24]
    exact setFpscr_fpcc _ _ _ _
  · simp [compareEffect, getBit_setFpscr_exception _ _ _ _ hx, FrFi.inexact]

/-- Settles O44: the code and the two Invalid Operation bits are those of Figures 24 and 25 for all operands,
and the CR field is the FPCC left. -/
theorem compareResult : Obligations.CompareResult := by
  intro ordered quad s bf fra frb i hi hwf a b ha hb
  subst ha hb
  obtain ⟨hbf, he⟩ := effectOf_compare hi s
  have hexec := exec_wellFormed hwf s
  rw [he] at hexec
  obtain ⟨hfpcc, hbits, hfr, hfi, hc⟩ := compareEffect_fpscr ordered bf (readDatum (fmtOf quad) fra s)
    (readDatum (fmtOf quad) frb s) s.fpscr
  have hcr := exec_cr_of_bfOf hbf hexec
  rw [commit_fpscr, hfpcc] at hcr
  refine ⟨_, hexec, ?_⟩
  rw [exceptionsKept, commit_fpscr]
  refine ⟨?_, hfpcc, ?_, ?_, fun x hx hne => ?_, ?_, hfr, hfi, hc, fun h => ?_⟩
  · rw [readCr, hcr, readCr_writeCrField_same]
  · rw [hbits _ (by decide), compareExc_contains_vxsnan, Bool.or_comm]
  · rw [hbits _ (by decide), compareExc_contains_vxvc, Bool.or_comm]
  · rw [hbits x hx]
    simp [compareExc_not_mem hne]
  · rw [commit_fpr]
    rfl
  · exact completed_commit_of_noInvocation h _ rfl

end Sys2Proof.Machine
end

section
/-! What an instruction that delivers a DFP datum leaves, said once of its `Result`: the FPSCR, the target, and
completion (60_exceptions.md R500, R506, R531, R541). -/

namespace Sys2Proof.Machine

/-! The class of a datum, over the rationals. -/

theorem belowPow10_iff (c : Nat) (e k : Int) : belowPow10 c e k = true ↔ (c : ℚ) * 10 ^ e < 10 ^ k := by
  unfold belowPow10
  split
  case isTrue hke =>
    rw [beq_iff_eq]
    constructor
    · rintro rfl
      simp only [Nat.cast_zero, zero_mul]
      positivity
    · intro hlt
      by_contra hc
      have hone : (1 : ℚ) ≤ c := by exact_mod_cast Nat.one_le_iff_ne_zero.2 hc
      have hge : (10 : ℚ) ^ k ≤ c * 10 ^ e :=
        (zpow10_le_iff.2 hke).trans (le_mul_of_one_le_left (by positivity) hone)
      exact absurd hlt hge.not_gt
  case isFalse hke =>
    obtain ⟨j, rfl⟩ : ∃ j : Nat, k = e + j := ⟨(k - e).toNat, by omega⟩
    have hpos : (0 : ℚ) < 10 ^ e := by positivity
    rw [decide_eq_true_eq, zpow10_add_nat, mul_comm ((10 : ℚ) ^ e), mul_lt_mul_iff_left₀ hpos,
      show (e + (j : Int) - e).toNat = j by omega]
    norm_cast

theorem abs_finiteValue (s : Bool) (c : Nat) (e : Int) : |finiteValue s c e| = c * 10 ^ e := by
  have hnonneg : (0 : ℚ) ≤ c * 10 ^ e := by positivity
  cases s <;> simp [finiteValue, abs_of_nonneg hnonneg]

theorem finiteValue_eq_zero (s : Bool) (c : Nat) (e : Int) : finiteValue s c e = 0 ↔ c = 0 := by
  have hpow : (10 : ℚ) ^ e ≠ 0 := by positivity
  rw [← abs_eq_zero, abs_finiteValue, mul_eq_zero_iff_right hpow, Nat.cast_eq_zero]

/-- The class the machine records is that of Figure 1 (10_state.md R40). -/
theorem classCode_eq_figure1 (f : Fmt) (d : Datum) : classCode f d = figure1 f d := by
  cases d with
  | snan s _ => cases s <;> rfl
  | qnan s _ => cases s <;> rfl
  | inf s _ => cases s <;> rfl
  | finite s c e =>
    simp only [classCode, dataClass, figure1, nmin, finiteValue_eq_zero, abs_finiteValue, ← belowPow10_iff,
      Datum.sign]
    split_ifs <;> simp_all [fprfCode]

/-! The outcome. -/

/-- The writes put a datum of format `f` where an operand of that format in register `i` is read. -/
def placesAt (writes : Fmt → Datum → List (FprNum × Dword)) (f : Fmt) (i : FprNum) : Prop :=
  ∀ (d : Datum) (s t : State), d.fits f = true → t.fpr = writeFprs (writes f d) s.fpr → readDatum f i t = d

theorem placesAt_datumWrites {f : Fmt} {i : FprNum} (h : validReg f i = true) :
    placesAt (fun g d => datumWrites g i d) f i :=
  fun _ _ _ hfits ht => readDatum_of_writes h hfits ht

/-- An instruction has taken `s` to `t` and delivered `r`: its exceptions, FR and FI are recorded; unless an
enabled exception suppresses the result, the datum stands in `frt` and its class in FPRF. -/
structure Delivers (s t : State) (frt : FprNum) (r : Result) : Prop where
  bits : ∀ b ∈ exceptionBits, getBit t.fpscr b =
    (r.exc.contains b || getBit s.fpscr b || (decide (b = .xx) && r.fi))
  fr : getBit t.fpscr .fr = r.fr
  fi : getBit t.fpscr .fi = r.fi
  suppressed : suppresses r.exc s.fpscr = true → t.fpr = s.fpr ∧ fprfOf t.fpscr = fprfOf s.fpscr
  stored : suppresses r.exc s.fpscr = false →
    readDatum r.fmt frt t = r.datum ∧ fprfOf t.fpscr = figure1 r.fmt r.datum
  completes : noInvocation s = true → completed s t

/-- No exception of a result is a bit of FPRF. -/
theorem Result.within.exc_index {r : Result} {l : List FpscrBit} (h : r.within l) {b : FpscrBit}
    (hb : b ∈ r.exc) : b.index < 47 ∨ 51 < b.index := by
  obtain ⟨x, hx, he, -⟩ | ⟨hbits, -⟩ := h.kinds
  · obtain rfl : b = x := by simpa [he] using hb
    revert hx
    cases b <;> decide
  · rcases hbits b hb with rfl | rfl | rfl <;> decide

/-- A well-formed instruction whose effect delivers `r` does so. -/
theorem exec_delivers {i : Instr} {s : State} {writes : Fmt → Datum → List (FprNum × Dword)} {r : Result}
    {frt : FprNum} {l : List FpscrBit} (hwf : wellFormed i = true)
    (he : effectOf i s = deliver writes r s.fpscr) (hr : r.within l) (hfits : r.datum.fits r.fmt = true)
    (hplace : placesAt writes r.fmt frt) : ∃ t, exec i s = .next t ∧ Delivers s t frt r := by
  refine ⟨_, exec_wellFormed hwf s, ?_⟩
  rw [he]
  obtain ⟨fprf, hf⟩ := hr.resultFpscr_eq s.fpscr
  have hfpscr : (deliver writes r s.fpscr).fpscr = setFpscr r.exc (.set r.fr r.fi) fprf s.fpscr := hf
  obtain ⟨hfr, hfi⟩ := setFpscr_frfi r.exc r.fr r.fi fprf s.fpscr
  constructor
  case bits =>
    intro b hb
    rw [commit_fpscr, hfpscr, getBit_setFpscr_exception _ _ _ _ hb, FrFi.inexact]
  case fr => rw [commit_fpscr, hfpscr, hfr]
  case fi => rw [commit_fpscr, hfpscr, hfi]
  case suppressed =>
    intro hs
    rw [commit_fpr, commit_fpscr]
    simp only [deliver, resultFpscr, hs, if_true]
    exact ⟨rfl, setFpscr_fprf_unchanged (fun b hb => hr.exc_index hb) _ _⟩
  case stored =>
    intro hs
    constructor
    · refine hplace _ s _ hfits ?_
      rw [commit_fpr]
      simp [deliver, hs]
    · rw [commit_fpscr, ← classCode_eq_figure1]
      simp only [deliver, resultFpscr, hs, Bool.false_eq_true, if_false]
      exact setFpscr_cls _ _ _ _
  case completes => exact fun h => completed_commit_of_noInvocation h _ rfl

/-! Zero Divide. -/

/-- A zero divisor and a dividend that is finite and not zero: the row Zx of Figure 23 (42_arithmetic.md
R272). -/
theorem divResult_zero_divisor (f : Fmt) (env : RoundEnv) (sa : Bool) {ca : Nat} (hca : ca ≠ 0) (ea : Int)
    (sb : Bool) (eb : Int) : divResult f env (.finite sa ca ea) (.finite sb 0 eb) =
      exceptionResult f .zx (defaultInf (sa != sb)) :=
  if_neg hca

theorem defaultInf_fits (f : Fmt) (s : Bool) : (defaultInf s).fits f = true := by cases f <;> rfl

/-- A Zero Divide stores nothing exactly when it is enabled (60_exceptions.md R541). -/
theorem suppresses_zx (w : Dword) : suppresses [.zx] w = getBit w .ze := by
  simp [suppresses, hasInvalid, invalidBits]

/-- The target of a quad form with three pairs names a pair (30_encoding.md R108). -/
theorem validReg_of_evenRegs {frt fra frb : FprNum}
    (h : (evenReg frt && evenReg fra && evenReg frb) = true) : validReg .dfp128 frt = true := by
  rw [Bool.and_eq_true, Bool.and_eq_true] at h
  obtain ⟨⟨hfrt, -⟩, -⟩ := h
  exact hfrt

/-- The two divisions in one form. -/
theorem effectOf_divide (quad : Bool) (frt fra frb : FprNum) (rc : Bool) (s : State) :
    effectOf (sized quad (.ddiv frt fra frb rc) (.ddivq frt fra frb rc)) s =
      deliver (fun g d => datumWrites g frt d)
        (divResult (fmtOf quad) (roundEnv s.fpscr) (readDatum (fmtOf quad) fra s) (readDatum (fmtOf quad) frb s))
        s.fpscr := by
  cases quad <;> rfl

theorem validReg_of_wellFormed_divide {quad : Bool} {frt fra frb : FprNum} {rc : Bool}
    (h : wellFormed (sized quad (.ddiv frt fra frb rc) (.ddivq frt fra frb rc)) = true) :
    validReg (fmtOf quad) frt = true := by
  cases quad with
  | false => rfl
  | true => exact validReg_of_evenRegs h

/-- Settles O43: the result of the division is Zx of Figure 23, suppressed exactly when ZE is 1. -/
theorem zeroDivide : Obligations.ZeroDivide := by
  intro quad s frt fra frb rc sa ca ea sb eb hwf ha hca hb
  have he := effectOf_divide quad frt fra frb rc s
  rw [ha, hb, divResult_zero_divisor _ _ _ hca] at he
  obtain ⟨t, hexec, ht⟩ := exec_delivers hwf he
    (exceptionResult_within (l := [.zx]) _ _ (by decide) (by decide)) (defaultInf_fits _ _)
    (placesAt_datumWrites (validReg_of_wellFormed_divide hwf))
  have hbits := ht.bits
  have hsuppressed := ht.suppressed
  have hstored := ht.stored
  simp only [exceptionResult, suppresses_zx] at hbits hsuppressed hstored
  refine ⟨t, hexec, ?_, fun b hb hne => ?_, ht.fr, ht.fi, hsuppressed, hstored, ht.completes⟩
  · simp [hbits .zx (by decide)]
  · rw [List.mem_singleton] at hne
    simp [hbits b hb, hne]

end Sys2Proof.Machine
end

section
/-! The ten instructions that round an exact result (60_exceptions.md R542): each delivers what `RoundDeliver`
makes of it, and a disabled overflow delivers the datum of Figure 18. -/

namespace Sys2Proof.Machine

/-! The rounding mode. -/

theorem drnOf_eq (w : Dword) : drnOf w =
    BitVec.ofBool (w.getMsbD 29) ++ BitVec.ofBool (w.getMsbD 30) ++ BitVec.ofBool (w.getMsbD 31) := by
  apply BitVec.eq_of_getLsbD_eq
  intro j hj
  rw [drnOf, BitVec.getLsbD_extractLsb']
  simp only [BitVec.getLsbD_append, BitVec.getLsbD_ofBool, BitVec.getMsbD_eq_getLsbD]
  obtain rfl | rfl | rfl : j = 0 ∨ j = 1 ∨ j = 2 := by omega
  all_goals simp

/-- The mode the machine rounds in is that of Figure 14 (41_execution_model.md R210). -/
theorem drnMode_eq_figure14 (w : Dword) : drnMode w = figure14 w := by
  rw [drnMode, drnOf_eq, figure14]
  cases w.getMsbD 29 <;> cases w.getMsbD 30 <;> cases w.getMsbD 31 <;> rfl

/-! The exact result as a sign and a magnitude. -/

/-- A number given as a sign and a positive magnitude. -/
theorem Mag.abs_and_sign {v : Mag} (hn : 0 < v.num) (hd : 0 < v.den) {s : Bool} {x : ℚ}
    (hx : x = (if s then -1 else 1) * v.value) : v.value = |x| ∧ decide (x < 0) = s := by
  have hpos := Mag.value_pos hn hd
  subst hx
  cases s <;> simp [abs_of_pos hpos, hpos, hpos.le]

theorem finiteValue_eq_mag (s : Bool) (c : Nat) (e : Int) :
    finiteValue s c e = (if s then -1 else 1) * (⟨c, 1, e⟩ : Mag).value := by
  simp [finiteValue, Mag.value]

theorem finiteValue_mul (sa : Bool) (ca : Nat) (ea : Int) (sb : Bool) (cb : Nat) (eb : Int) :
    finiteValue sa ca ea * finiteValue sb cb eb = finiteValue (sa != sb) (ca * cb) (ea + eb) := by
  have hpow : (10 : ℚ) ^ (ea + eb) = 10 ^ ea * 10 ^ eb := zpow_add₀ (by norm_num) ea eb
  cases sa <;> cases sb <;> simp [finiteValue, hpow] <;> ring

theorem finiteValue_div (sa : Bool) (ca : Nat) (ea : Int) (sb : Bool) (cb : Nat) (eb : Int) :
    finiteValue sa ca ea / finiteValue sb cb eb =
      (if sa != sb then -1 else 1) * (⟨ca, cb, ea - eb⟩ : Mag).value := by
  have hpow : (10 : ℚ) ^ (ea - eb) = 10 ^ ea / 10 ^ eb := zpow_sub₀ (by norm_num) ea eb
  cases sa <;> cases sb <;> simp [finiteValue, Mag.value, hpow, div_neg, neg_div, mul_div_mul_comm]

/-- The sum as the integer `Add` computes, times the power of ten of the smaller exponent (42_arithmetic.md
R261). -/
theorem finiteValue_add (sa : Bool) (ca : Nat) (ea : Int) (sb : Bool) (cb : Nat) (eb : Int) :
    finiteValue sa ca ea + finiteValue sb cb eb =
      ((signedValue sa (ca * 10 ^ (ea - min ea eb).toNat) +
        signedValue sb (cb * 10 ^ (eb - min ea eb).toNat) : Int) : ℚ) * 10 ^ min ea eb := by
  have hscaled : ∀ (s : Bool) (c : Nat) (e : Int), min ea eb ≤ e →
      finiteValue s c e = (signedValue s (c * 10 ^ (e - min ea eb).toNat) : ℚ) * 10 ^ min ea eb := by
    intro s c e hle
    have hcast : ((signedValue s (c * 10 ^ (e - min ea eb).toNat) : Int) : ℚ) =
        finiteValue s c e * 10 ^ (-min ea eb) := scaledValue_cast s c (by omega)
    rw [hcast, mul_assoc, ← zpow_add₀ (by norm_num), neg_add_cancel, zpow_zero, mul_one]
  rw [hscaled sa ca ea (min_le_left _ _), hscaled sb cb eb (min_le_right _ _)]
  push_cast
  ring

/-- An integer times a power of ten, as a sign and a magnitude. -/
theorem int_mul_pow_eq_mag (m e : Int) :
    (m : ℚ) * 10 ^ e = (if decide (m < 0) then -1 else 1) * (⟨m.natAbs, 1, e⟩ : Mag).value := by
  rcases lt_or_ge m 0 with h | h
  · simp [Mag.value, h, Nat.cast_natAbs, abs_of_neg h]
  · simp [Mag.value, h.not_gt, Nat.cast_natAbs, abs_of_nonneg h]

/-! What the instructions deliver. -/

/-- `r` is what `RoundDeliver` makes of the exact result (41_execution_model.md R230). -/
def Exact.roundsInto (x : Exact) (env : RoundEnv) (r : Result) : Prop :=
  ∃ v : Mag, 0 < v.num ∧ 0 < v.den ∧ v.value = |x.value| ∧
    r = deliveredResult
      (roundDeliver x.tgt x.wrap x.alpha env.oe env.ue (decide (x.value < 0)) v x.ideal env.mode)

theorem Exact.roundsInto_of_mag {x : Exact} {env : RoundEnv} {s : Bool} {v : Mag} (hn : 0 < v.num)
    (hd : 0 < v.den) (hx : x.value = (if s then -1 else 1) * v.value) :
    x.roundsInto env
      (deliveredResult (roundDeliver x.tgt x.wrap x.alpha env.oe env.ue s v x.ideal env.mode)) := by
  obtain ⟨habs, hsign⟩ := Mag.abs_and_sign hn hd hx
  exact ⟨v, hn, hd, habs, by rw [hsign]⟩

/-- The exact result is rounded to format `f` and wrapped in the same format, and its target is `frt`. -/
structure Exact.inFormat (x : Exact) (f : Fmt) (frt : FprNum) : Prop where
  tgt : x.tgt = f
  wrap : x.wrap = f
  frt : x.frt = frt

theorem addFinite_roundsInto {f : Fmt} {frt : FprNum} {env : RoundEnv} {sa sb z : Bool} {ca cb : Nat}
    {ea eb : Int} (hx : finiteValue sa ca ea + finiteValue sb cb eb ≠ 0) :
    Exact.roundsInto ⟨f, f, wrapAdjust f, frt, finiteValue sa ca ea + finiteValue sb cb eb, min ea eb, z⟩ env
      (addFinite f env sa ca ea sb cb eb) := by
  have hsum := finiteValue_add sa ca ea sb cb eb
  unfold addFinite
  dsimp only
  generalize signedValue sa (ca * 10 ^ (ea - min ea eb).toNat) +
    signedValue sb (cb * 10 ^ (eb - min ea eb).toNat) = m at hsum ⊢
  have hm : m ≠ 0 := by
    rintro rfl
    simp [hsum] at hx
  rw [if_neg hm]
  exact Exact.roundsInto_of_mag (Int.natAbs_pos.2 hm) Nat.one_pos (hsum.trans (int_mul_pow_eq_mag _ _))

theorem exactSum_roundsInto {f : Fmt} {frt : FprNum} {minus : Bool} {mode : Mode} {a b : Datum} {x : Exact}
    (h : exactSum f frt minus mode a b = some x) (hx : x.value ≠ 0) (env : RoundEnv) :
    x.inFormat f frt ∧ x.roundsInto env (if minus then subResult f env a b else addResult f env a b) := by
  unfold exactSum at h
  split at h
  case h_1 sa ca ea sb cb eb =>
    obtain rfl := Option.some.inj h
    refine ⟨⟨rfl, rfl, rfl⟩, ?_⟩
    cases minus with
    | false => exact addFinite_roundsInto hx
    | true => exact addFinite_roundsInto hx
  case h_2 => simp at h

theorem exactProduct_roundsInto {f : Fmt} {frt : FprNum} {a b : Datum} {x : Exact}
    (h : exactProduct f frt a b = some x) (hx : x.value ≠ 0) (env : RoundEnv) :
    x.inFormat f frt ∧ x.roundsInto env (mulResult f env a b) := by
  unfold exactProduct at h
  split at h
  case h_1 sa ca ea sb cb eb =>
    obtain rfl := Option.some.inj h
    obtain ⟨hca, hcb⟩ : ca ≠ 0 ∧ cb ≠ 0 := by simpa [finiteValue_eq_zero] using hx
    have hmul : mulResult f env (.finite sa ca ea) (.finite sb cb eb) =
        roundTo f env (sa != sb) ⟨ca * cb, 1, ea + eb⟩ (ea + eb) := if_neg (by simp [hca, hcb])
    rw [hmul]
    exact ⟨⟨rfl, rfl, rfl⟩, Exact.roundsInto_of_mag (Nat.pos_of_ne_zero (mul_ne_zero hca hcb)) Nat.one_pos
      ((finiteValue_mul ..).trans (finiteValue_eq_mag ..))⟩
  case h_2 => simp at h

theorem exactQuotient_roundsInto {f : Fmt} {frt : FprNum} {a b : Datum} {x : Exact}
    (h : exactQuotient f frt a b = some x) (hx : x.value ≠ 0) (env : RoundEnv) :
    x.inFormat f frt ∧ x.roundsInto env (divResult f env a b) := by
  unfold exactQuotient at h
  split at h
  case h_1 sa ca ea sb cb eb =>
    obtain ⟨hcb, h⟩ := Option.ite_none_left_eq_some.1 h
    obtain rfl := Option.some.inj h
    obtain ⟨hca, -⟩ : ca ≠ 0 ∧ cb ≠ 0 := by simpa [finiteValue_eq_zero] using hx
    have hdiv : divResult f env (.finite sa ca ea) (.finite sb cb eb) =
        roundTo f env (sa != sb) ⟨ca, cb, ea - eb⟩ (ea - eb) := (if_neg hcb).trans (if_neg hca)
    rw [hdiv]
    exact ⟨⟨rfl, rfl, rfl⟩, Exact.roundsInto_of_mag (Nat.pos_of_ne_zero hca) (Nat.pos_of_ne_zero hcb)
      (finiteValue_div ..)⟩
  case h_2 => simp at h

theorem exactNarrow_roundsInto {src tgt : Fmt} {alpha : Int} {frt : FprNum} {b : Datum} {x : Exact}
    (h : exactNarrow src tgt alpha frt b = some x) (hx : x.value ≠ 0) (signals : Bool) (env : RoundEnv) :
    (x.tgt = tgt ∧ x.wrap = src ∧ x.frt = frt) ∧
      x.roundsInto env (narrowResult src tgt alpha signals env b) := by
  unfold exactNarrow at h
  split at h
  case h_1 s c e =>
    obtain rfl := Option.some.inj h
    have hc : c ≠ 0 := by simpa [finiteValue_eq_zero] using hx
    have hnarrow : narrowResult src tgt alpha signals env (.finite s c e) =
        deliveredResult (roundDeliver tgt src alpha env.oe env.ue s ⟨c, 1, e⟩ e env.mode) := if_neg hc
    rw [hnarrow]
    exact ⟨⟨rfl, rfl, rfl⟩, Exact.roundsInto_of_mag (Nat.pos_of_ne_zero hc) Nat.one_pos (finiteValue_eq_mag ..)⟩
  case h_2 => simp at h

/-- The instruction delivers what `RoundDeliver` makes of the exact result, where it is read in the target and
in the wrapped format. -/
def deliversExact (i : Instr) (s : State) (x : Exact) : Prop :=
  ∃ writes r, effectOf i s = deliver writes r s.fpscr ∧ x.roundsInto (roundEnv s.fpscr) r ∧
    placesAt writes x.tgt x.frt ∧ placesAt writes x.wrap x.frt

theorem deliversExact_of_inFormat {i : Instr} {s : State} {x : Exact} {f : Fmt} {frt : FprNum} {r : Result}
    (hv : validReg f frt = true) (he : effectOf i s = deliver (fun g d => datumWrites g frt d) r s.fpscr)
    (h : x.inFormat f frt ∧ x.roundsInto (roundEnv s.fpscr) r) : deliversExact i s x := by
  obtain ⟨⟨htgt, hwrap, hfrt⟩, hr⟩ := h
  refine ⟨_, r, he, hr, ?_⟩
  rw [htgt, hwrap, hfrt]
  exact ⟨placesAt_datumWrites hv, placesAt_datumWrites hv⟩

/-- drdpq puts a DFP64 result in the even register of the pair (46_conversion.md R393). -/
theorem placesAt_drdpqWrites_dfp64 {i : FprNum} (h : isEven i = true) : placesAt (drdpqWrites i) .dfp64 i := by
  intro d s t hfits ht
  have hbits : operandBits .dfp64 i t = enc .dfp64 d := by
    rw [operandBits, readFpr, ht, drdpqWrites, writeFprs_pair_high h, BitVec.toNat_ofNat]
    exact Nat.mod_eq_of_lt (enc_lt hfits)
  rw [readDatum, hbits, dec_enc hfits]

/-- A wrapped DFP128 result takes the pair (46_conversion.md R393). -/
theorem placesAt_drdpqWrites_dfp128 {i : FprNum} (h : isEven i = true) : placesAt (drdpqWrites i) .dfp128 i :=
  fun _ _ _ hfits ht => readDatum_of_writes (f := .dfp128) h hfits ht

/-- Every instruction with an exact result that is not zero delivers it (42_arithmetic.md R269;
46_conversion.md R390). -/
theorem deliversExact_of_exactOf {i : Instr} {s : State} {x : Exact} (hwf : wellFormed i = true)
    (h : exactOf i s = some x) (hx : x.value ≠ 0) : deliversExact i s x := by
  cases i with
  | dadd => exact deliversExact_of_inFormat rfl rfl (exactSum_roundsInto h hx _)
  | daddq => exact deliversExact_of_inFormat (validReg_of_evenRegs hwf) rfl (exactSum_roundsInto h hx _)
  | dsub => exact deliversExact_of_inFormat rfl rfl (exactSum_roundsInto h hx _)
  | dsubq => exact deliversExact_of_inFormat (validReg_of_evenRegs hwf) rfl (exactSum_roundsInto h hx _)
  | dmul => exact deliversExact_of_inFormat rfl rfl (exactProduct_roundsInto h hx _)
  | dmulq => exact deliversExact_of_inFormat (validReg_of_evenRegs hwf) rfl (exactProduct_roundsInto h hx _)
  | ddiv => exact deliversExact_of_inFormat rfl rfl (exactQuotient_roundsInto h hx _)
  | ddivq => exact deliversExact_of_inFormat (validReg_of_evenRegs hwf) rfl (exactQuotient_roundsInto h hx _)
  | drsp frt =>
    obtain ⟨⟨htgt, hwrap, hfrt⟩, hr⟩ := exactNarrow_roundsInto h hx false (roundEnv s.fpscr)
    refine ⟨fun g d => datumWrites g frt d, _, rfl, hr, ?_⟩
    rw [htgt, hwrap, hfrt]
    exact ⟨placesAt_datumWrites rfl, placesAt_datumWrites rfl⟩
  | drdpq frt frb =>
    obtain ⟨heven, -⟩ : evenReg frt = true ∧ evenReg frb = true := Bool.and_eq_true_iff.1 hwf
    obtain ⟨⟨htgt, hwrap, hfrt⟩, hr⟩ := exactNarrow_roundsInto h hx true (roundEnv s.fpscr)
    refine ⟨_, _, rfl, hr, ?_⟩
    rw [htgt, hwrap, hfrt]
    exact ⟨placesAt_drdpqWrites_dfp64 heven, placesAt_drdpqWrites_dfp128 heven⟩
  | _ => simp [exactOf] at h

/-! A disabled overflow. -/

theorem overflowsToInf_eq_figure18 (mode : Mode) (s : Bool) : overflowsToInf mode s = figure18 mode s := by
  cases mode <;> cases s <;> rfl

/-- The infinity or the largest number that Figure 18 gives (60_exceptions.md R543). -/
def overflowDatum (f : Fmt) (mode : Mode) (s : Bool) : Datum :=
  if figure18 mode s then .inf s 0 else .finite s (10 ^ f.precision - 1) f.xmax

theorem overflowDatum_fits (f : Fmt) (mode : Mode) (s : Bool) : (overflowDatum f mode s).fits f = true := by
  unfold overflowDatum
  split
  · exact defaultInf_fits f s
  · cases f <;> rfl

/-- What a disabled overflow delivers, with OX and XX, FI at 1 and FR at 1 for an infinity. -/
def overflowResult (f : Fmt) (mode : Mode) (s : Bool) : Result :=
  ⟨overflowDatum f mode s, f, [.ox, .xx], figure18 mode s, true⟩

theorem overflowResult_within (f : Fmt) (mode : Mode) (s : Bool) :
    (overflowResult f mode s).within [.ox, .xx] := by
  simp [overflowResult, Result.within]

/-- An exact result whose unbounded rounding exceeds Nmax rounds into the result of a disabled overflow. -/
theorem Exact.roundsInto.eq_overflowResult {x : Exact} {env : RoundEnv} {r : Result} (h : x.roundsInto env r)
    (hoe : env.oe = false) {n : Nat} {q : Int}
    (hu : unboundedRounding x.tgt.precision env.mode (decide (x.value < 0)) |x.value| n q)
    (hmax : nmax x.tgt < (n : ℚ) * 10 ^ q) : r = overflowResult x.tgt env.mode (decide (x.value < 0)) := by
  obtain ⟨v, hn, hd, hv, rfl⟩ := h
  rw [← hv] at hu
  rw [hoe, roundDeliver_overflow_disabled hn hd hu hmax, overflowsToInf_eq_figure18, overflowResult,
    overflowDatum]
  split
  · next hinf => simp [deliveredResult, hinf]
  · next hinf => simp [deliveredResult, hinf]

/-- A value with an unbounded rounding is not zero. -/
theorem ne_zero_of_unboundedRounding {p : Nat} {mode : Mode} {s : Bool} {x : ℚ} {n : Nat} {q : Int}
    (h : unboundedRounding p mode s |x| n q) : x ≠ 0 := by
  obtain ⟨hlo, -⟩ := unboundedRounding_bounds h
  exact abs_pos.1 (lt_of_lt_of_le (by positivity) hlo)

/-- Settles O36: the exact result rounds into the result of a disabled overflow, and nothing suppresses it. -/
theorem overflowDisabled : Obligations.OverflowDisabled := by
  intro i s x n q hwf hexact hoe hu hmax
  obtain ⟨writes, r, he, hr, hplace, -⟩ :=
    deliversExact_of_exactOf hwf hexact (ne_zero_of_unboundedRounding hu)
  rw [← drnMode_eq_figure14] at hu ⊢
  obtain rfl := hr.eq_overflowResult hoe hu hmax
  obtain ⟨t, hexec, ht⟩ :=
    exec_delivers hwf he (overflowResult_within ..) (overflowDatum_fits ..) hplace
  obtain ⟨hread, hfprf⟩ := ht.stored (suppresses_eq_false (by simp [overflowResult]) _)
  have hbits := ht.bits
  simp only [overflowResult] at hbits
  refine ⟨t, _, hexec, hread, rfl, ?_, ?_, ht.fi, ht.fr, hfprf, fun b hb hne => ?_, ht.completes⟩
  · simp [hbits .ox (by decide)]
  · simp [hbits .xx (by decide)]
  · simp only [List.mem_cons, List.not_mem_nil, or_false, not_or] at hne
    simp [hbits b hb, hne]

end Sys2Proof.Machine
end

section
/-! The encoding (30_encoding.md): two rows of the opcode map exclude each other, so a word that satisfies a row
is decoded by it; and the fields of a word determine it, so the instruction a row builds encodes to the word. -/

namespace Sys2Proof

open Sys2Proof.Machine

/-! The rows exclude each other. -/

/-- Two rows differ in the primary opcode, or in the bits that both extended opcodes have: these end at bit 30
in every layout (30_encoding.md R100). -/
def Row.excludes (r r' : Row) : Bool :=
  r.opcd != r'.opcd ||
    r.xo % 2 ^ min r.form.xoWidth r'.form.xoWidth != r'.xo % 2 ^ min r.form.xoWidth r'.form.xoWidth

theorem opcodeRows_pairwise_excludes : opcodeRows.Pairwise fun r r' => r.excludes r' = true := by
  decide +kernel

theorem Row.matches_iff (r : Row) (w : Nat) :
    r.matches w = true ↔ field w 0 6 = r.opcd ∧ w / 2 % 2 ^ r.form.xoWidth = r.xo := by
  obtain ⟨opcd, form, xo, reserved, build⟩ := r
  cases form <;> simp [Row.matches, Form.xoWidth, field]

/-- Rows with one of these differences have no word in common. -/
theorem Row.not_matches_of_excludes {r r' : Row} (h : r.excludes r' = true) {w : Nat} (hr : r.matches w = true) :
    r'.matches w = false := by
  rw [← Bool.not_eq_true, Row.matches_iff]
  rintro ⟨hopcd', hxo'⟩
  obtain ⟨hopcd, hxo⟩ := (r.matches_iff w).1 hr
  have hlow : ∀ k, min r.form.xoWidth r'.form.xoWidth ≤ k →
      w / 2 % 2 ^ k % 2 ^ min r.form.xoWidth r'.form.xoWidth =
        w / 2 % 2 ^ min r.form.xoWidth r'.form.xoWidth :=
    fun k hk => Nat.mod_mod_of_dvd _ (pow_dvd_pow 2 hk)
  simp [Row.excludes, ← hopcd, ← hopcd', ← hxo, ← hxo', hlow] at h

/-- Settles O4: the 1176 pairs of rows differ in bits that both rows fix. -/
theorem opcodeRowsExclusive : Obligations.OpcodeRowsExclusive :=
  ⟨rfl, opcodeRows_pairwise_excludes.imp fun h _ hr => Row.not_matches_of_excludes h hr⟩

/-- The decoder finds the row that a word satisfies: there is no other. -/
theorem find_of_matches {r : Row} {w : Nat} (hr : r ∈ opcodeRows) (hm : r.matches w = true) :
    opcodeRows.find? (fun r => r.matches w) = some r := by
  obtain ⟨r', hfind⟩ : ∃ r', opcodeRows.find? (fun r => r.matches w) = some r' :=
    Option.isSome_iff_exists.1 (List.find?_isSome.2 ⟨r, hr, hm⟩)
  have hm' : r'.matches w = true := List.find?_some (p := fun r : Row => r.matches w) hfind
  have : Std.Symm fun r r' : Row => ∀ w : Nat, r.matches w = true → r'.matches w = false := by
    refine ⟨fun a b hab w hb => ?_⟩
    by_contra ha
    exact absurd hb (by simp [hab w (by simpa using ha)])
  have heq : r' = r := by
    by_contra hne
    have hexcl := opcodeRowsExclusive.2.forall (List.mem_of_find?_eq_some hfind) hr hne w hm'
    simp [hm] at hexcl
  rw [hfind, heq]

/-- Decoding a word that satisfies a row. -/
theorem decode_of_matches {r : Row} {w : InsnWord} (hr : r ∈ opcodeRows) (hm : r.matches w.toNat = true) :
    decode w = if r.reservedClear w.toNat && wellFormed (r.build w.toNat) then .instr (r.build w.toNat)
      else .invalidForm := by
  unfold decode
  rw [find_of_matches hr hm]

/-! The fields of a word. -/

/-- The word from its fields in the X layout (30_encoding.md R101). -/
theorem xWord_fields (w : InsnWord) : xWord (field w.toNat 0 6) (field w.toNat 6 5) (field w.toNat 11 5)
    (field w.toNat 16 5) (field w.toNat 21 10) (field w.toNat 31 1) = w := by
  apply BitVec.eq_of_toNat_eq
  have := w.isLt
  simp [xWord, field]
  omega

/-- The word from its fields in the Z22 layout (30_encoding.md R102). -/
theorem z22Word_fields (w : InsnWord) : z22Word (field w.toNat 0 6) (field w.toNat 6 5) (field w.toNat 11 5)
    (field w.toNat 16 6) (field w.toNat 22 9) (field w.toNat 31 1) = w := by
  apply BitVec.eq_of_toNat_eq
  have := w.isLt
  simp [z22Word, field]
  omega

/-- The word from its fields in the Z23 layout (30_encoding.md R103). -/
theorem z23Word_fields (w : InsnWord) : z23Word (field w.toNat 0 6) (field w.toNat 6 5) (field w.toNat 11 5)
    (field w.toNat 16 5) (field w.toNat 21 2) (field w.toNat 23 8) (field w.toNat 31 1) = w := by
  apply BitVec.eq_of_toNat_eq
  have := w.isLt
  simp [z23Word, field]
  omega

/-! The operands of an instruction as numbers. -/

theorem field_lt (w first width : Nat) : field w first width < 2 ^ width := Nat.mod_lt _ (by positivity)

@[simp] theorem regAt_val (w first : Nat) : (regAt w first).val = field w first 5 :=
  Nat.mod_eq_of_lt (field_lt w first 5)

@[simp] theorem fieldAt_toNat (w first width : Nat) : (fieldAt w first width).toNat = field w first width :=
  Nat.mod_eq_of_lt (field_lt w first width)

@[simp] theorem bitNat_bitAt (w first : Nat) : bitNat (bitAt w first) = field w first 1 := by
  have h := field_lt w first 1
  unfold bitNat bitAt
  rcases (by omega : field w first 1 = 0 ∨ field w first 1 = 1) with h | h <;> simp [h]

/-- Bits 6:8 in the place 6:10, where bits 9:10 are reserved. -/
theorem crAt_place {w : Nat} (h : field w 9 2 = 0) : (crAt w).val * 4 = field w 6 5 := by
  have hval : (crAt w).val = field w 6 3 := Nat.mod_eq_of_lt (field_lt w 6 3)
  simp only [hval, field] at *
  omega

/-- Bits 11:12 in the place 11:15, where bits 13:15 are reserved. -/
theorem spAt_place {w : Nat} (h : field w 13 3 = 0) : field w 11 2 * 8 = field w 11 5 := by
  simp only [field] at *
  omega

/-- Bit 11 in the place 11:15, where bits 12:15 are reserved. -/
theorem signedAt_place {w : Nat} (h : field w 12 4 = 0) : field w 11 1 * 16 = field w 11 5 := by
  simp only [field] at *
  omega

/-- Bit 15 in the place 11:15, where bits 11:14 are reserved. -/
theorem rAt_place {w : Nat} (h : field w 11 4 = 0) : field w 15 1 = field w 11 5 := by
  simp only [field] at *
  omega

/-! From the word to the instruction and back. -/

/-- Every word of the row with its reserved bits 0 is the encoding of the instruction the row builds. -/
def Row.roundTrips (r : Row) : Prop :=
  ∀ w : InsnWord, r.matches w.toNat = true → r.reservedClear w.toNat = true → encode (r.build w.toNat) = w

/-- A row of layout X, whose instruction is put together from the places of the word. -/
theorem Row.roundTrips_x {opcd xo : Nat} {reserved : List (Nat × Nat)} {build : Nat → Instr}
    (h : ∀ w : InsnWord, (∀ b ∈ reserved, field w.toNat b.1 b.2 = 0) → encode (build w.toNat) =
      xWord opcd (field w.toNat 6 5) (field w.toNat 11 5) (field w.toNat 16 5) xo (field w.toNat 31 1)) :
    (Row.mk opcd .x xo reserved build).roundTrips := by
  intro w hm hr
  simp only [Row.matches, Form.xoWidth, Bool.and_eq_true, beq_iff_eq] at hm
  simp only [Row.reservedClear, List.all_eq_true, beq_iff_eq] at hr
  rw [h w hr, ← hm.1, ← hm.2]
  exact xWord_fields w

/-- The same of layout Z22. -/
theorem Row.roundTrips_z22 {opcd xo : Nat} {reserved : List (Nat × Nat)} {build : Nat → Instr}
    (h : ∀ w : InsnWord, (∀ b ∈ reserved, field w.toNat b.1 b.2 = 0) → encode (build w.toNat) =
      z22Word opcd (field w.toNat 6 5) (field w.toNat 11 5) (field w.toNat 16 6) xo (field w.toNat 31 1)) :
    (Row.mk opcd .z22 xo reserved build).roundTrips := by
  intro w hm hr
  simp only [Row.matches, Form.xoWidth, Bool.and_eq_true, beq_iff_eq] at hm
  simp only [Row.reservedClear, List.all_eq_true, beq_iff_eq] at hr
  rw [h w hr, ← hm.1, ← hm.2]
  exact z22Word_fields w

/-- The same of layout Z23. -/
theorem Row.roundTrips_z23 {opcd xo : Nat} {reserved : List (Nat × Nat)} {build : Nat → Instr}
    (h : ∀ w : InsnWord, (∀ b ∈ reserved, field w.toNat b.1 b.2 = 0) → encode (build w.toNat) =
      z23Word opcd (field w.toNat 6 5) (field w.toNat 11 5) (field w.toNat 16 5) (field w.toNat 21 2) xo
        (field w.toNat 31 1)) :
    (Row.mk opcd .z23 xo reserved build).roundTrips := by
  intro w hm hr
  simp only [Row.matches, Form.xoWidth, Bool.and_eq_true, beq_iff_eq] at hm
  simp only [Row.reservedClear, List.all_eq_true, beq_iff_eq] at hr
  rw [h w hr, ← hm.1, ← hm.2]
  exact z23Word_fields w

theorem arithmeticRows_roundTrip : ∀ r ∈ arithmeticRows, r.roundTrips := by
  simp only [arithmeticRows, List.forall_mem_cons, List.not_mem_nil, false_implies, implies_true, and_true]
  refine ⟨?_, ?_, ?_, ?_, ?_, ?_, ?_, ?_⟩ <;>
    exact Row.roundTrips_x fun w _ => by simp [encode]

theorem compareRows_roundTrip : ∀ r ∈ compareRows, r.roundTrips := by
  simp only [compareRows, List.forall_mem_cons, List.not_mem_nil, false_implies, implies_true, and_true]
  refine ⟨?_, ?_, ?_, ?_⟩ <;>
    exact Row.roundTrips_x fun w hr => by simp [encode, crAt_place (hr _ (.head _)), hr (31, 1) (by decide)]

theorem testRows_roundTrip : ∀ r ∈ testRows, r.roundTrips := by
  simp only [testRows, List.forall_mem_cons, List.not_mem_nil, false_implies, implies_true, and_true]
  refine ⟨Row.roundTrips_z22 ?_, Row.roundTrips_z22 ?_, Row.roundTrips_z22 ?_, Row.roundTrips_z22 ?_,
    Row.roundTrips_x ?_, Row.roundTrips_x ?_, Row.roundTrips_x ?_, Row.roundTrips_x ?_⟩ <;>
    exact fun w hr => by simp [encode, crAt_place (hr _ (.head _)), hr (31, 1) (by decide)]

theorem quantumRows_roundTrip : ∀ r ∈ quantumRows, r.roundTrips := by
  simp only [quantumRows, List.forall_mem_cons, List.not_mem_nil, false_implies, implies_true, and_true]
  refine ⟨?_, ?_, ?_, ?_, ?_, ?_, ?_, ?_, ?_, ?_⟩ <;> refine Row.roundTrips_z23 fun w hr => ?_
  iterate 6 · simp [encode]
  all_goals simp [encode, rAt_place (hr _ (.head _))]

theorem conversionRows_roundTrip : ∀ r ∈ conversionRows, r.roundTrips := by
  simp only [conversionRows, List.forall_mem_cons, List.not_mem_nil, false_implies, implies_true, and_true]
  refine ⟨?_, ?_, ?_, ?_, ?_, ?_, ?_⟩ <;>
    exact Row.roundTrips_x fun w hr => by simp [encode, hr (11, 5) (.head _)]

theorem formatRows_roundTrip : ∀ r ∈ formatRows, r.roundTrips := by
  simp only [formatRows, List.forall_mem_cons, List.not_mem_nil, false_implies, implies_true, and_true]
  refine ⟨Row.roundTrips_x ?_, Row.roundTrips_x ?_, Row.roundTrips_x ?_, Row.roundTrips_x ?_,
    Row.roundTrips_x ?_, Row.roundTrips_x ?_, Row.roundTrips_x ?_, Row.roundTrips_x ?_,
    Row.roundTrips_z22 ?_, Row.roundTrips_z22 ?_, Row.roundTrips_z22 ?_, Row.roundTrips_z22 ?_⟩ <;>
    intro w hr
  iterate 2 · simp [encode, spAt_place (hr _ (.head _))]
  iterate 2 · simp [encode, signedAt_place (hr _ (.head _))]
  iterate 2 · simp [encode, hr (11, 5) (.head _)]
  all_goals simp [encode]

theorem opcodeRows_roundTrip : ∀ r ∈ opcodeRows, r.roundTrips := by
  simp only [opcodeRows, List.forall_mem_append]
  exact ⟨⟨⟨⟨⟨arithmeticRows_roundTrip, compareRows_roundTrip⟩, testRows_roundTrip⟩, quantumRows_roundTrip⟩,
    conversionRows_roundTrip⟩, formatRows_roundTrip⟩

/-- Everything a word that decodes to an instruction satisfies. -/
theorem decode_eq_instr {w : InsnWord} {i : Instr} (h : decode w = .instr i) :
    ∃ r ∈ opcodeRows, r.matches w.toNat = true ∧ r.reservedClear w.toNat = true ∧ wellFormed i = true ∧
      i = r.build w.toNat := by
  unfold decode at h
  split at h
  case h_1 => simp at h
  case h_2 r hfind =>
    split at h
    case isTrue hvalid =>
      obtain ⟨hr, hwf⟩ := Bool.and_eq_true_iff.1 hvalid
      obtain rfl := Decoded.instr.inj h
      have hm : r.matches w.toNat = true := List.find?_some (p := fun r : Row => r.matches w.toNat) hfind
      exact ⟨r, List.mem_of_find?_eq_some hfind, hm, hr, hwf, rfl⟩
    case isFalse => simp at h

/-- Settles O3: the word satisfies a row, and each row puts the word together again. -/
theorem encodeDecode : Obligations.EncodeDecode := by
  intro w i h
  obtain ⟨r, hr, hm, hclear, hwf, rfl⟩ := decode_eq_instr h
  exact ⟨hwf, opcodeRows_roundTrip r hr w hm hclear⟩

/-! From the instruction to the word and back. -/

theorem regAt_of_place {w first : Nat} {r : FprNum} (h : field w first 5 = r.val) : regAt w first = r :=
  Fin.ext ((regAt_val w first).trans h)

theorem fieldAt_of_place {w first width : Nat} {x : BitVec width} (h : field w first width = x.toNat) :
    fieldAt w first width = x :=
  BitVec.eq_of_toNat_eq ((fieldAt_toNat w first width).trans h)

theorem bitAt_of_place {w first : Nat} {b : Bool} (h : field w first 1 = bitNat b) : bitAt w first = b := by
  cases b <;> simp [bitAt, h, bitNat]

/-- BF alone in the place 6:10. -/
theorem crAt_of_place {w : Nat} {bf : CrNum} (h : field w 6 5 = bf.val * 4) :
    crAt w = bf ∧ field w 9 2 = 0 := by
  have hfields : field w 6 3 = bf.val ∧ field w 9 2 = 0 := by
    simp only [field] at *
    omega
  exact ⟨Fin.ext ((Nat.mod_eq_of_lt (field_lt w 6 3)).trans hfields.1), hfields.2⟩

/-- SP alone in the place 11:15. -/
theorem spAt_of_place {w : Nat} {sp : BitVec 2} (h : field w 11 5 = sp.toNat * 8) :
    fieldAt w 11 2 = sp ∧ field w 13 3 = 0 := by
  have hfields : field w 11 2 = sp.toNat ∧ field w 13 3 = 0 := by
    simp only [field] at *
    omega
  exact ⟨fieldAt_of_place hfields.1, hfields.2⟩

/-- S alone in the place 11:15. -/
theorem signedAt_of_place {w : Nat} {b : Bool} (h : field w 11 5 = bitNat b * 16) :
    bitAt w 11 = b ∧ field w 12 4 = 0 := by
  have hfields : field w 11 1 = bitNat b ∧ field w 12 4 = 0 := by
    simp only [field] at *
    omega
  exact ⟨bitAt_of_place hfields.1, hfields.2⟩

/-- R alone in the place 11:15. -/
theorem rAt_of_place {w : Nat} {b : Bool} (h : field w 11 5 = bitNat b) :
    bitAt w 15 = b ∧ field w 11 4 = 0 := by
  have hb : bitNat b < 2 := Laws.RecordPlace.bitNat_lt b
  have hfields : field w 15 1 = bitNat b ∧ field w 11 4 = 0 := by
    simp only [field] at *
    omega
  exact ⟨bitAt_of_place hfields.1, hfields.2⟩

theorem opcodeRows_bounds : ∀ r ∈ opcodeRows, r.opcd < 64 ∧ r.xo < 2 ^ r.form.xoWidth := by decide +kernel

/-- The row with these opcodes. -/
def rowFor (opcd : Nat) (form : Form) (xo : Nat) : Option Row :=
  opcodeRows.find? fun r => r.opcd == opcd && r.form == form && r.xo == xo

theorem decode_encode_of_row {i : Instr} {opcd xo : Nat} {form : Form} {reserved : List (Nat × Nat)}
    {build : Nat → Instr} (hrow : rowFor opcd form xo = some ⟨opcd, form, xo, reserved, build⟩)
    (hwf : wellFormed i = true)
    (hm : opcd < 64 → xo < 2 ^ form.xoWidth → (Row.mk opcd form xo reserved build).matches (encode i).toNat = true)
    (h : (∀ b ∈ reserved, field (encode i).toNat b.1 b.2 = 0) ∧ build (encode i).toNat = i) :
    decode (encode i) = .instr i := by
  have hmem := List.mem_of_find?_eq_some hrow
  obtain ⟨hopcd, hxo⟩ := opcodeRows_bounds _ hmem
  rw [decode_of_matches hmem (hm hopcd hxo)]
  simp only [h.2, hwf, Bool.and_true]
  rw [if_pos]
  simpa [Row.reservedClear] using h.1

/-- An instruction of layout X is decoded from the places of its word. -/
theorem decode_encode_x {i : Instr} {opcd a b c xo l : Nat} {reserved : List (Nat × Nat)} {build : Nat → Instr}
    (he : encode i = xWord opcd a b c xo l)
    (hrow : rowFor opcd .x xo = some ⟨opcd, .x, xo, reserved, build⟩) (hwf : wellFormed i = true)
    (hlt : a < 32 ∧ b < 32 ∧ c < 32 ∧ l < 2)
    (h : ∀ w, field w 6 5 = a → field w 11 5 = b → field w 16 5 = c → field w 31 1 = l →
      (∀ x ∈ reserved, field w x.1 x.2 = 0) ∧ build w = i) : decode (encode i) = .instr i := by
  obtain ⟨ha, hb, hc, hl⟩ := hlt
  refine decode_encode_of_row hrow hwf (fun ho hx => ?_) (h _ ?_ ?_ ?_ ?_)
  · simp only [Form.xoWidth] at hx
    simp [he, Row.matches, Form.xoWidth, xWord, field]
    omega
  all_goals
    have hrow := opcodeRows_bounds _ (List.mem_of_find?_eq_some hrow)
    simp only [Form.xoWidth] at hrow
    simp [he, xWord, field]
    omega

/-- The same of layout Z22. -/
theorem decode_encode_z22 {i : Instr} {opcd a b c xo l : Nat} {reserved : List (Nat × Nat)} {build : Nat → Instr}
    (he : encode i = z22Word opcd a b c xo l)
    (hrow : rowFor opcd .z22 xo = some ⟨opcd, .z22, xo, reserved, build⟩) (hwf : wellFormed i = true)
    (hlt : a < 32 ∧ b < 32 ∧ c < 64 ∧ l < 2)
    (h : ∀ w, field w 6 5 = a → field w 11 5 = b → field w 16 6 = c → field w 31 1 = l →
      (∀ x ∈ reserved, field w x.1 x.2 = 0) ∧ build w = i) : decode (encode i) = .instr i := by
  obtain ⟨ha, hb, hc, hl⟩ := hlt
  refine decode_encode_of_row hrow hwf (fun ho hx => ?_) (h _ ?_ ?_ ?_ ?_)
  · simp only [Form.xoWidth] at hx
    simp [he, Row.matches, Form.xoWidth, z22Word, field]
    omega
  all_goals
    have hrow := opcodeRows_bounds _ (List.mem_of_find?_eq_some hrow)
    simp only [Form.xoWidth] at hrow
    simp [he, z22Word, field]
    omega

/-- The same of layout Z23. -/
theorem decode_encode_z23 {i : Instr} {opcd a b c rmc xo l : Nat} {reserved : List (Nat × Nat)}
    {build : Nat → Instr} (he : encode i = z23Word opcd a b c rmc xo l)
    (hrow : rowFor opcd .z23 xo = some ⟨opcd, .z23, xo, reserved, build⟩) (hwf : wellFormed i = true)
    (hlt : a < 32 ∧ b < 32 ∧ c < 32 ∧ rmc < 4 ∧ l < 2)
    (h : ∀ w, field w 6 5 = a → field w 11 5 = b → field w 16 5 = c → field w 21 2 = rmc → field w 31 1 = l →
      (∀ x ∈ reserved, field w x.1 x.2 = 0) ∧ build w = i) : decode (encode i) = .instr i := by
  obtain ⟨ha, hb, hc, hm, hl⟩ := hlt
  refine decode_encode_of_row hrow hwf (fun ho hx => ?_) (h _ ?_ ?_ ?_ ?_ ?_)
  · simp only [Form.xoWidth] at hx
    simp [he, Row.matches, Form.xoWidth, z23Word, field]
    omega
  all_goals
    have hrow := opcodeRows_bounds _ (List.mem_of_find?_eq_some hrow)
    simp only [Form.xoWidth] at hrow
    simp [he, z23Word, field]
    omega

/-- Settles O2: the word of an instruction satisfies the row with its opcodes, and the row builds the instruction
from the places of the word. -/
theorem decodeEncode : Obligations.DecodeEncode := by
  intro i hwf
  have hbit := Laws.RecordPlace.bitNat_lt
  cases i with
  | dadd frt fra frb rc | daddq frt fra frb rc | dsub frt fra frb rc | dsubq frt fra frb rc
  | dmul frt fra frb rc | dmulq frt fra frb rc | ddiv frt fra frb rc | ddivq frt fra frb rc
  | diex frt fra frb rc | diexq frt fra frb rc =>
    refine decode_encode_x rfl rfl hwf ⟨frt.isLt, fra.isLt, frb.isLt, hbit rc⟩ fun w h6 h11 h16 h31 => ?_
    simp [regAt_of_place h6, regAt_of_place h11, regAt_of_place h16, bitAt_of_place h31]
  | dcmpu bf fra frb | dcmpuq bf fra frb | dcmpo bf fra frb | dcmpoq bf fra frb
  | dtstex bf fra frb | dtstexq bf fra frb | dtstsf bf fra frb | dtstsfq bf fra frb =>
    refine decode_encode_x rfl rfl hwf ⟨by omega, fra.isLt, frb.isLt, by decide⟩ fun w h6 h11 h16 h31 => ?_
    simp [crAt_of_place h6, regAt_of_place h11, regAt_of_place h16, h31]
  | dtstdc bf fra mask | dtstdcq bf fra mask | dtstdg bf fra mask | dtstdgq bf fra mask =>
    refine decode_encode_z22 rfl rfl hwf ⟨by omega, fra.isLt, mask.isLt, by decide⟩ fun w h6 h11 h16 h31 => ?_
    simp [crAt_of_place h6, regAt_of_place h11, fieldAt_of_place h16, h31]
  | dquai te frt frb rmc rc | dquaiq te frt frb rmc rc =>
    refine decode_encode_z23 rfl rfl hwf ⟨frt.isLt, te.isLt, frb.isLt, rmc.isLt, hbit rc⟩
      fun w h6 h11 h16 h21 h31 => ?_
    simp [regAt_of_place h6, fieldAt_of_place h11, regAt_of_place h16, fieldAt_of_place h21, bitAt_of_place h31]
  | dqua frt fra frb rmc rc | dquaq frt fra frb rmc rc | drrnd frt fra frb rmc rc | drrndq frt fra frb rmc rc =>
    refine decode_encode_z23 rfl rfl hwf ⟨frt.isLt, fra.isLt, frb.isLt, rmc.isLt, hbit rc⟩
      fun w h6 h11 h16 h21 h31 => ?_
    simp [regAt_of_place h6, regAt_of_place h11, regAt_of_place h16, fieldAt_of_place h21, bitAt_of_place h31]
  | drintx r frt frb rmc rc | drintxq r frt frb rmc rc | drintn r frt frb rmc rc | drintnq r frt frb rmc rc =>
    have hr := hbit r
    refine decode_encode_z23 rfl rfl hwf ⟨frt.isLt, by omega, frb.isLt, rmc.isLt, hbit rc⟩
      fun w h6 h11 h16 h21 h31 => ?_
    simp [regAt_of_place h6, rAt_of_place h11, regAt_of_place h16, fieldAt_of_place h21, bitAt_of_place h31]
  | dctdp frt frb rc | dctqpq frt frb rc | drsp frt frb rc | drdpq frt frb rc | dcffixq frt frb rc
  | dctfix frt frb rc | dctfixq frt frb rc | dxex frt frb rc | dxexq frt frb rc =>
    refine decode_encode_x rfl rfl hwf ⟨frt.isLt, by decide, frb.isLt, hbit rc⟩ fun w h6 h11 h16 h31 => ?_
    simp [regAt_of_place h6, h11, regAt_of_place h16, bitAt_of_place h31]
  | ddedpd sp frt frb rc | ddedpdq sp frt frb rc =>
    refine decode_encode_x rfl rfl hwf ⟨frt.isLt, by omega, frb.isLt, hbit rc⟩ fun w h6 h11 h16 h31 => ?_
    simp [regAt_of_place h6, spAt_of_place h11, regAt_of_place h16, bitAt_of_place h31]
  | denbcd signed frt frb rc | denbcdq signed frt frb rc =>
    have hs := hbit signed
    refine decode_encode_x rfl rfl hwf ⟨frt.isLt, by omega, frb.isLt, hbit rc⟩ fun w h6 h11 h16 h31 => ?_
    simp [regAt_of_place h6, signedAt_of_place h11, regAt_of_place h16, bitAt_of_place h31]
  | dscli frt fra sh rc | dscliq frt fra sh rc | dscri frt fra sh rc | dscriq frt fra sh rc =>
    refine decode_encode_z22 rfl rfl hwf ⟨frt.isLt, fra.isLt, sh.isLt, hbit rc⟩ fun w h6 h11 h16 h31 => ?_
    simp [regAt_of_place h6, regAt_of_place h11, fieldAt_of_place h16, bitAt_of_place h31]

end Sys2Proof
end

section
/-! The words that are refused (30_encoding.md R108, R109, R111), and the worked words. -/

namespace Sys2Proof

open Sys2Proof.Machine

/-- Settles O1: the decoder, run on the ten words. -/
theorem decodeSamples : Obligations.DecodeSamples := by
  unfold Obligations.DecodeSamples
  decide +kernel

/-- Settles O5: a meaning completes only where the form is valid. -/
theorem invalidFormsRefused : Obligations.InvalidFormsRefused := by
  intro i s h
  rw [exec_eq, h, completes_invalid]

theorem opcodeRows_opcd : ∀ r ∈ opcodeRows, r.opcd = 59 ∨ r.opcd = 63 := by decide +kernel

/-- A word with another primary opcode satisfies no row. -/
theorem decode_of_other_opcode {w : InsnWord} (h59 : w.toNat / 2 ^ 26 ≠ 59) (h63 : w.toNat / 2 ^ 26 ≠ 63) :
    decode w = .notDfp := by
  have hw := w.isLt
  have hfind : opcodeRows.find? (fun r => r.matches w.toNat) = none := by
    rw [List.find?_eq_none]
    intro r hr hm
    obtain ⟨hopcd, -⟩ := (r.matches_iff _).1 hm
    have hrow := opcodeRows_opcd r hr
    simp only [field] at hopcd
    omega
  unfold decode
  rw [hfind]

end Sys2Proof
end

section
/-! One step (41_execution_model.md R240), said once for each thing that can come next, and what each of these
leaves; the statements on the step, on the host's operations and on a pending invocation follow. -/

namespace Sys2Proof.Machine

/-! What comes next. -/

theorem step_of_misaligned {s : State} (h : s.pc % 4 ≠ 0) : step s = .refused .misalignedPc := by
  have ha : pcAligned s = false := by simpa [pcAligned] using h
  simp [step, stepState, ha]

theorem step_of_hostActs {s : State} {op : HostOp} {rest : List HostTurn} (h : hostActs s op rest) :
    step s = hostStep op rest s := by
  obtain ⟨ha, hq⟩ := h
  simp [step, stepState, ha, hostNext_eq_some.2 hq]

theorem step_of_stopped {s : State} (ha : pcAligned s = true) (hq : s.hostQueue = []) (ht : s.trap ≠ none) :
    step s = .fault .handlerInvoked := by
  have hn : hostNext s = none := by simp [hostNext, hq]
  have htrap : s.trap.isSome = true := Option.isSome_iff_ne_none.2 ht
  simp [step, stepState, ha, hn, htrap]

theorem step_of_waits {s : State} (ha : pcAligned s = true) (hw : hostWaits s) (ht : s.trap = none) :
    step s = if pendingDue s then .next (raiseTrap false s) else instructionStep s := by
  simp [step, stepState, ha, (hostNext_eq_none ht).2 hw, ht]

/-! Fetching. -/

theorem wordOfBytes_bytes (w : InsnWord) :
    w.extractLsb' 24 8 ++ w.extractLsb' 16 8 ++ w.extractLsb' 8 8 ++ w.extractLsb' 0 8 = w := by
  apply BitVec.eq_of_getLsbD_eq
  intro j hj
  simp only [BitVec.getLsbD_append, BitVec.getLsbD_extractLsb']
  grind

/-- The bytes of a word are read as the word in either order (20_memory.md R84). -/
theorem decodeBytes_bytesOfWord (o : ByteOrder) (w : InsnWord) : decodeBytes o (bytesOfWord o w) = decode w := by
  cases o <;> exact congrArg decode (wordOfBytes_bytes w)

theorem length_bytesOfWord (o : ByteOrder) (w : InsnWord) : (bytesOfWord o w).length = 4 := by cases o <;> rfl

/-- A step that fetches a word does what the word decodes to. -/
theorem step_of_fetchesNext {s : State} {w : InsnWord} (h : fetchesNext s w) :
    step s = instructionStep s ∧
    (∀ i, decode w = .instr i → instructionStep s = exec i (beginInstruction s)) ∧
    (decode w = .notDfp → instructionStep s = .refused .notDfp) ∧
    (decode w = .invalidForm → instructionStep s = .refused .invalidForm) := by
  obtain ⟨hwaits, htrap, haligned, hdue, hfetch⟩ := h
  refine ⟨by simp [step_of_waits haligned hwaits htrap, hdue], fun i hd => ?_, fun hd => ?_, fun hd => ?_⟩ <;>
    simp [instructionStep, hfetch, decodeBytes_bytesOfWord, hd]

/-- Settles O6: what the step does with a fetched word, no row for another primary opcode, and the one row a word
satisfies otherwise. -/
theorem refusedWords : Obligations.RefusedWords := by
  refine ⟨fun s w h => ?_, fun w h59 h63 => decode_of_other_opcode h59 h63, fun w r hr hm hclear => ?_⟩
  · obtain ⟨hstep, -, hnot, hinvalid⟩ := step_of_fetchesNext h
    exact ⟨fun hd => hstep.trans (hnot hd), fun hd => hstep.trans (hinvalid hd)⟩
  · simp [decode_of_matches hr hm, hclear]

theorem beginInstruction_of_idle {s : State} (hp : s.pending = none) (hq : s.hostQueue = []) :
    beginInstruction s = s := by
  obtain ⟨⟩ := s
  simp only at hp hq
  simp [beginInstruction, tickPending, hp, hq]

/-- Settles O7: a fetched instruction runs where it has begun. -/
theorem stepRunsInstruction : Obligations.StepRunsInstruction := by
  intro s w i h hd
  obtain ⟨hstep, hinstr, -⟩ := step_of_fetchesNext h
  have hrun := hstep.trans (hinstr i hd)
  refine ⟨hrun, ⟨_, _, rfl, rfl, fun t rest hq => by rw [hq, tickHost_cons]⟩, fun hp hq => ?_⟩
  rw [hrun, beginInstruction_of_idle hp hq]

/-! Placing a word. -/

/-- Bytes written at rising addresses are fetched from there. -/
theorem fetchBytes_memWriteBytes (s : State) (m : List Host.Cell) (a : Nat) (bs : List Byte)
    (h : s.mem = memWriteBytes m a bs) : fetchBytes s bs.length a = .ok bs := by
  induction bs generalizing m a with
  | nil => rfl
  | cons b rest ih =>
    have hbyte : byteAt s a = some b := by
      rw [byteAt, h, memWriteBytes, memRead_memWriteBytes_of_not_mem _ _ _ (.inl (by omega)), memRead_memPut,
        if_pos rfl]
    simp [fetchBytes, hbyte, ih _ _ h]

theorem fetchesNext_placeWord (s : State) (w : InsnWord) : fetchesNext (placeWord s w) w := by
  refine ⟨fun t ht => ?_, rfl, ?_, ?_, ?_⟩
  · have hhead := List.head?_dropWhile_not (fun t : HostTurn => t.after == 0) s.hostQueue
    have ht' : (s.hostQueue.dropWhile fun t : HostTurn => t.after == 0).head? = some t := ht
    rw [ht'] at hhead
    simp only [beq_eq_false_iff_ne, ne_eq] at hhead
    omega
  · simp [pcAligned, placeWord, alignedDown]
  · unfold placeWord
    cases hdue : pendingDue s
    · simpa [pendingDue] using hdue
    · simp [pendingDue]
  · have hfetch := fetchBytes_memWriteBytes (placeWord s w) s.mem (alignedDown s.pc)
      (bytesOfWord s.insnByteOrder w) rfl
    rw [length_bytesOfWord] at hfetch
    exact hfetch

/-- Settles O8: the placed word is the one fetched, and only its four bytes and the model's own fields are
written. -/
theorem withFetchWordRuns : Obligations.WithFetchWordRuns := by
  intro s nbits w i hd
  obtain ⟨hstep, hinstr, -⟩ := step_of_fetchesNext (fetchesNext_placeWord s (BitVec.ofNat 32 (w % 2 ^ nbits)))
  refine ⟨hstep.trans (hinstr i hd), rfl, rfl, rfl, rfl, fun a ha => ?_⟩
  refine memRead_memWriteBytes_of_not_mem _ _ _ ?_
  rw [length_bytesOfWord, alignedDown]
  omega

/-- Settles O13: the first address without a byte is the first one read. -/
theorem fetchStops : Obligations.FetchStops := by
  intro s
  refine ⟨step_of_misaligned, fun ha hw ht hdue hbyte => ?_⟩
  rw [step_of_waits (by simpa [pcAligned] using ha) hw ht, hdue]
  simp [instructionStep, fetchBytes, hbyte]

/-- Settles O30: a due invocation is raised in the place of the instruction; while an instruction is fetched it
is not due. -/
theorem pendingTrapDue : Obligations.PendingTrapDue := by
  intro s p hp
  refine ⟨fun hw ht ha hrem => ?_, fun w i h hd => ?_⟩
  · have hdue : pendingDue s = true := by simpa [pendingDue, hp] using hrem
    rw [step_of_waits ha hw ht, if_pos hdue]
    rfl
  · obtain ⟨hstep, hinstr, -⟩ := step_of_fetchesNext h
    obtain ⟨-, -, -, hdue, -⟩ := h
    refine ⟨by simpa [pendingDue, hp] using hdue, ?_⟩
    rw [hstep, hinstr i hd, beginInstruction, tickPending, hp]
    rfl

/-! The host. -/

/-- The state in which a host operation is performed: its turn is taken from the queue and a pending invocation
is one nearer (log 6). -/
def hostTurn (rest : List HostTurn) (s : State) : State := tickPending { s with hostQueue := rest }

/-- A host operation at which the trap of a pending invocation is raised. -/
theorem hostStep_of_traps {op : HostOp} {rest : List HostTurn} {s : State} (h : hostOpTraps op s = true) :
    hostStep op rest s = .next (raiseTrap false { s with hostQueue := rest }) := by
  have h' : hostOpTraps op { s with hostQueue := rest } = true := h
  simp [hostStep, h']

theorem hostStep_of_not_traps {op : HostOp} {rest : List HostTurn} {s : State} (h : hostOpTraps op s = false) :
    hostStep op rest s = performHostOp op (hostTurn rest s) := by
  have h' : hostOpTraps op { s with hostQueue := rest } = false := h
  simp [hostStep, h', hostTurn]

/-- Settles O14: a due invocation is raised; otherwise the operation is performed. -/
theorem hostOperations : Obligations.HostOperations := by
  intro s op rest h
  rw [step_of_hostActs h]
  refine ⟨fun hdue => hostStep_of_traps (by simp [hostOpTraps, hdue]), fun hdue s' hs' => ?_⟩
  obtain rfl : s' = hostTurn rest s := hs'
  have hperform : op.accessesFpscr = false ∨ s.pending = none →
      hostStep op rest s = performHostOp op (hostTurn rest s) := fun hop =>
    hostStep_of_not_traps (by rcases hop with hop | hop <;> simp [hostOpTraps, hdue, hop])
  refine ⟨?_, ?_, ?_, ?_, ?_⟩
  · rintro r v rfl
    exact hperform (.inl rfl)
  · rintro n v rfl
    exact hperform (.inl rfl)
  · rintro fe0 fe1 rfl
    exact hperform (.inl rfl)
  · rintro a p rfl rfl
    rw [hperform (.inl rfl)]
    exact ⟨fun hp => if_pos hp, fun hp => if_neg hp⟩
  · rintro rfl hp
    exact hperform (.inr hp)

/-- Settles O17: an access of the FPSCR raises the trap of any pending invocation. -/
theorem fpscrAccessForces : Obligations.FpscrAccessForces := by
  intro s rest op p hp hop h
  have haccess : op.accessesFpscr = true := by
    rcases hop with rfl | ⟨_, _, _, rfl⟩ <;> rfl
  rw [step_of_hostActs h]
  exact hostStep_of_traps (by simp [hostOpTraps, hp, haccess])

theorem hostTurn_of_idle {s : State} (hp : s.pending = none) (rest : List HostTurn) :
    hostTurn rest s = { s with hostQueue := rest } := by
  obtain ⟨⟩ := s
  simp only at hp
  simp [hostTurn, tickPending, hp]

/-- Settles O31: with a trap standing the host's turn comes at once, and without one there is nothing to do. -/
theorem stopAndResume : Obligations.StopAndResume := by
  intro s ht ha
  refine ⟨fun hq => step_of_stopped ha hq ht, fun n a p rest hq hp hpa hmod => ?_⟩
  subst hpa
  rw [step_of_hostActs ⟨ha, n, hq, .inr ht⟩,
    hostStep_of_not_traps (by simp [hostOpTraps, pendingDue, hp]), hostTurn_of_idle hp]
  exact if_pos hmod

end Sys2Proof.Machine
end

section
/-! The invariant of the machine (10_state.md R33, R34, R55, R56; 20_memory.md R81, R85): what each update keeps,
and that the reset state and every step keep it. -/

namespace Sys2Proof.Machine

theorem State.Inv_iff {s : State} : s.Inv = true ↔
    fpscrConsistent s.fpscr = true ∧ Memory.wf s.mem = true ∧ Memory.within s.pcWidth s.mem = true ∧
    2 ≤ s.pcWidth ∧ s.pc % 4 = 0 ∧ s.pc < 2 ^ s.pcWidth ∧ pendingValid s.pending = true := by
  simp [State.Inv, pcAligned, and_assoc]

/-! The FPSCR of an instruction. -/

/-- Every instruction leaves FEX and VX as the other bits make them: it recomputes them or writes FPRF alone
(10_state.md R33, R34; log 27). -/
theorem fpscrConsistent_effectOf {i : Instr} {s : State} (h : fpscrConsistent s.fpscr = true) :
    fpscrConsistent (effectOf i s).fpscr = true := by
  cases effectOf_shape i s with
  | deliver _ r he _ _ hr =>
    obtain ⟨fprf, hf⟩ := hr.resultFpscr_eq s.fpscr
    have hnew : (effectOf i s).fpscr = setFpscr r.exc (.set r.fr r.fi) fprf s.fpscr := by rw [he, ← hf]; rfl
    rw [hnew]
    exact fpscrConsistent_setFpscr ..
  | compare _ _ _ _ he => rw [he]; exact fpscrConsistent_setFpscr ..
  | test _ _ he => rw [he]; exact fpscrConsistent_setFpcc h _
  | toFixed _ _ he => rw [he]; exact fpscrConsistent_setFpscr ..
  | dctdp _ _ he => rw [he]; exact fpscrConsistent_setFpscr ..
  | dcffixq _ _ he => rw [he]; exact fpscrConsistent_setFprf h _
  | plain _ he => rw [he]; exact h

/-! What the shared updates keep. -/

theorem inv_advance {s : State} (h : s.Inv = true) : (advance s).Inv = true := by
  rw [State.Inv_iff] at *
  obtain ⟨hfpscr, hwf, hwithin, hwidth, haligned, -, hpending⟩ := h
  refine ⟨hfpscr, hwf, hwithin, hwidth, ?_, Nat.mod_lt _ (by positivity), hpending⟩
  have hdvd : 4 ∣ 2 ^ s.pcWidth := pow_dvd_pow 2 hwidth
  rw [advance_pc, Nat.mod_mod_of_dvd _ hdvd]
  omega

theorem inv_raiseTrap {s : State} (h : s.Inv = true) (x : Bool) : (raiseTrap x s).Inv = true := by
  rw [State.Inv_iff] at *
  obtain ⟨hfpscr, hwf, hwithin, hwidth, haligned, hpc, -⟩ := h
  exact ⟨hfpscr, hwf, hwithin, hwidth, haligned, hpc, rfl⟩

/-- The invariant speaks of the FPSCR, storage, PCW, `pc` and the pending invocation alone. -/
theorem inv_congr {s t : State} (h : s.Inv = true) (hfpscr : t.fpscr = s.fpscr) (hmem : t.mem = s.mem)
    (hwidth : t.pcWidth = s.pcWidth) (hpc : t.pc = s.pc) (hpending : t.pending = s.pending) : t.Inv = true := by
  rw [State.Inv_iff] at *
  rw [hfpscr, hmem, hwidth, hpc, hpending]
  exact h

theorem inv_takeDelay {s : State} (h : s.Inv = true) : (takeDelay s).Inv = true :=
  inv_congr h (takeDelay_fpscr s) (takeDelay_mem s) (takeDelay_pcWidth s) (takeDelay_pc s) (takeDelay_pending s)

theorem inv_setPending {s : State} (h : s.Inv = true) {p : PendingTrap} (hrem : 1 ≤ p.remaining)
    (hcauses : p.causes ≠ []) : ({ s with pending := some p } : State).Inv = true := by
  rw [State.Inv_iff] at *
  obtain ⟨hfpscr, hwf, hwithin, hwidth, haligned, hpc, -⟩ := h
  exact ⟨hfpscr, hwf, hwithin, hwidth, haligned, hpc, by simp [pendingValid, hrem, hcauses]⟩

theorem inv_pending {s : State} (h : s.Inv = true) {p : PendingTrap} (hp : s.pending = some p) :
    1 ≤ p.remaining ∧ p.causes ≠ [] := by
  rw [State.Inv_iff] at h
  obtain ⟨-, -, -, -, -, -, hpending⟩ := h
  simpa [pendingValid, hp] using hpending

/-- An invocation becomes pending with a cause and a delay that is not 0, and a second exception adds causes. -/
theorem inv_oweHandler {goOn : State → State} (hgo : ∀ s : State, s.Inv = true → (goOn s).Inv = true)
    (c : List DfpException) {s : State} (h : s.Inv = true) : (oweHandler goOn c s).Inv = true := by
  rcases oweHandler_cases goOn c s with he | ⟨p, hp, -, he⟩ | ⟨-, hc, hdelay, he⟩ | ⟨-, he | he⟩ <;> rw [he]
  · exact hgo _ h
  · obtain ⟨hrem, hcauses⟩ := inv_pending h hp
    exact hgo _ (inv_setPending h hrem (by simp [hcauses]))
  · exact hgo _ (inv_setPending (inv_takeDelay h) (Nat.one_le_iff_ne_zero.2 hdelay) hc)
  · exact inv_raiseTrap h _
  · exact inv_raiseTrap (inv_takeDelay h) _

/-- A pending invocation that is not due comes one nearer and is still in the future. -/
theorem inv_tickPending {s : State} (h : s.Inv = true) (hdue : pendingDue s = false) :
    (tickPending s).Inv = true := by
  cases hp : s.pending with
  | none => exact inv_congr h rfl rfl rfl rfl (by simp [hp])
  | some p =>
    obtain ⟨-, hcauses⟩ := inv_pending h hp
    have hrem : 1 < p.remaining := by simpa [pendingDue, hp] using hdue
    refine inv_congr (inv_setPending h (p := { p with remaining := p.remaining - 1 }) ?_ hcauses) rfl rfl rfl rfl
      (by simp [hp])
    exact Nat.le_sub_one_of_lt hrem

theorem inv_exec {i : Instr} {s t : State} (h : s.Inv = true) (hexec : exec i s = .next t) : t.Inv = true := by
  obtain ⟨-, rfl⟩ := exec_next.1 hexec
  refine inv_oweHandler (fun _ => inv_advance) _ ?_
  rw [State.Inv_iff] at *
  obtain ⟨hfpscr, hrest⟩ := h
  exact ⟨fpscrConsistent_effectOf hfpscr, hrest⟩

theorem inv_writeFpscrOp (insn : FpscrInsn) (mask value : Dword) {s : State} (h : s.Inv = true) :
    (writeFpscrOp insn mask value s).Inv = true := by
  refine inv_oweHandler (fun _ hs => hs) _ ?_
  rw [State.Inv_iff] at *
  obtain ⟨-, hrest⟩ := h
  exact ⟨fpscrConsistent_hostFpscrValue .., hrest⟩

theorem inv_performHostOp {op : HostOp} {s t : State} (h : s.Inv = true) (hop : performHostOp op s = .next t) :
    t.Inv = true := by
  rcases performHostOp_next hop with ⟨_, _, -, rfl⟩ | ⟨_, _, -, rfl⟩ | ⟨_, _, -, rfl⟩ | ⟨a, p, -, rfl, hp, rfl⟩ |
    ⟨-, rfl⟩ | ⟨_, _, _, -, -, rfl⟩
  · exact inv_congr h rfl rfl rfl rfl rfl
  · exact inv_congr h rfl rfl rfl rfl rfl
  · exact inv_congr h rfl rfl rfl rfl rfl
  · rw [State.Inv_iff] at *
    obtain ⟨hfpscr, hwf, hwithin, hwidth, -, -, hpending⟩ := h
    exact ⟨hfpscr, hwf, hwithin, hwidth, hp, Nat.mod_lt _ (by positivity), hpending⟩
  · exact h
  · exact inv_writeFpscrOp _ _ _ h

theorem inv_hostStep {op : HostOp} {rest : List HostTurn} {s t : State} (h : s.Inv = true)
    (hstep : hostStep op rest s = .next t) : t.Inv = true := by
  have hqueue : ({ s with hostQueue := rest } : State).Inv = true := inv_congr h rfl rfl rfl rfl rfl
  rcases hostStep_next hstep with ⟨-, rfl⟩ | ⟨htraps, hop⟩
  · exact inv_raiseTrap hqueue _
  · obtain ⟨hdue, -⟩ := Bool.or_eq_false_iff.1 htraps
    exact inv_performHostOp (inv_tickPending hqueue hdue) hop

/-- Settles O9: the host's operation, the trap of a due invocation and the instruction each keep the invariant. -/
theorem stepKeepsInvariant : Obligations.StepKeepsInvariant := by
  intro s t h hstep
  obtain ⟨-, ⟨op, rest, -, hhost⟩ | ⟨-, -, -, rfl⟩ | ⟨-, -, hdue, hinstr⟩⟩ := step_next hstep
  · exact inv_hostStep h hhost
  · exact inv_raiseTrap h _
  · obtain ⟨_, i, -, -, hexec⟩ := instructionStep_next hinstr
    have hbegin : (beginInstruction s).Inv = true := inv_congr (inv_tickPending h hdue) rfl rfl rfl rfl rfl
    exact inv_exec hbegin hexec

/-- Settles O10. -/
theorem resetInvariant : Obligations.ResetInvariant := by
  unfold Obligations.ResetInvariant
  decide

/-- Settles O11. -/
theorem resetState : Obligations.ResetState := by
  refine ⟨rfl, rfl, fun _ => rfl, ?_, rfl, ?_, rfl, rfl, rfl, rfl⟩
  · intro r
    exact Vector.getElem_replicate r.isLt
  · intro n
    exact Vector.getElem_replicate n.isLt

/-! Storage (20_memory.md R80, R92). -/

/-- Nothing that one step does writes storage, its byte order or PCW. -/
def sameStorage (s t : State) : Prop :=
  t.mem = s.mem ∧ t.insnByteOrder = s.insnByteOrder ∧ t.pcWidth = s.pcWidth

theorem sameStorage_exec {i : Instr} {s t : State} (h : exec i s = .next t) : sameStorage s t := by
  obtain ⟨-, rfl⟩ := exec_next.1 h
  exact ⟨commit_mem _ _ _, commit_insnByteOrder _ _ _, commit_pcWidth _ _ _⟩

theorem sameStorage_performHostOp {op : HostOp} {s t : State} (h : performHostOp op s = .next t) :
    sameStorage s t := by
  rcases performHostOp_next h with ⟨_, _, -, rfl⟩ | ⟨_, _, -, rfl⟩ | ⟨_, _, -, rfl⟩ | ⟨_, _, -, -, -, rfl⟩ |
    ⟨-, rfl⟩ | ⟨_, _, _, -, -, rfl⟩
  case inr.inr.inr.inr.inr =>
    exact ⟨oweHandler_mem (fun _ => rfl) _ _, oweHandler_insnByteOrder (fun _ => rfl) _ _,
      oweHandler_pcWidth (fun _ => rfl) _ _⟩
  all_goals exact ⟨rfl, rfl, rfl⟩

theorem sameStorage_step {s t : State} (h : step s = .next t) : sameStorage s t := by
  obtain ⟨-, ⟨op, rest, -, hhost⟩ | ⟨-, -, -, rfl⟩ | ⟨-, -, -, hinstr⟩⟩ := step_next h
  · rcases hostStep_next hhost with ⟨-, rfl⟩ | ⟨-, hop⟩
    · exact ⟨rfl, rfl, rfl⟩
    · have hsame := sameStorage_performHostOp hop
      exact hsame
  · exact ⟨rfl, rfl, rfl⟩
  · obtain ⟨_, i, -, -, hexec⟩ := instructionStep_next hinstr
    have hsame := sameStorage_exec hexec
    exact hsame

theorem byteAt_congr {s t : State} (h : t.mem = s.mem) (a : Nat) : byteAt t a = byteAt s a := by
  rw [byteAt, h, byteAt]

/-- Settles O12: no update of an instruction or a step writes these fields. -/
theorem storageUntouched : Obligations.StorageUntouched := by
  constructor
  · intro i s t h
    obtain ⟨hmem, hrest⟩ := sameStorage_exec h
    exact ⟨byteAt_congr hmem, hrest⟩
  · intro s t h
    obtain ⟨hmem, hrest⟩ := sameStorage_step h
    exact ⟨byteAt_congr hmem, hrest⟩

end Sys2Proof.Machine
end

section
/-! A host write of the FPSCR (10_state.md R32, R46 to R48; 60_exceptions.md R525; logs 9, 34): the bits it
leaves, which writes are admitted, and when it invokes the handler. -/

namespace Sys2Proof.Machine

/-! The bits a host write leaves. -/

theorem getMsbD_summaryMask {k : Nat} (hk : k < 64) : summaryMask.getMsbD k = decide (k = 33 ∨ k = 34) := by
  have hmask : summaryMask = setBit (setBit 0#64 .fex true) .vx true := by decide
  rw [hmask, getMsbD_setBit _ _ _ hk, getMsbD_setBit _ _ _ hk]
  simp only [FpscrBit.index, BitVec.getMsbD_zero]
  grind

/-- The masked write before FEX and VX are recomputed. -/
def hostWritten (mask value old : Dword) : Dword :=
  (old &&& ~~~(mask &&& ~~~summaryMask)) ||| (value &&& (mask &&& ~~~summaryMask))

/-- A bit of the masked write but FEX and VX. -/
theorem getMsbD_hostWritten (mask value old : Dword) {k : Nat} (hk : k < 64) (h33 : k ≠ 33) (h34 : k ≠ 34) :
    (hostWritten mask value old).getMsbD k = if mask.getMsbD k then value.getMsbD k else old.getMsbD k := by
  simp only [hostWritten, BitVec.getMsbD_or, BitVec.getMsbD_and, BitVec.getMsbD_not, hk,
    getMsbD_summaryMask hk, h33, h34]
  cases mask.getMsbD k <;> simp

theorem getMsbD_summarize (w : Dword) {k : Nat} (hk : k < 64) (h33 : k ≠ 33) (h34 : k ≠ 34) :
    (summarize w).getMsbD k = w.getMsbD k := by
  simp only [summarize]
  rw [getMsbD_setBit_ne _ _ _ hk (by simpa [FpscrBit.index] using h33),
    getMsbD_setBit_ne _ _ _ hk (by simpa [FpscrBit.index] using h34)]

/-- FX is set where the instruction sets it implicitly and an exception bit goes from 0 to 1; the rest is the
masked write with FEX and VX recomputed (10_state.md R32, R46). -/
theorem hostFpscrValue_eq (insn : FpscrInsn) (mask value old : Dword) :
    hostFpscrValue insn mask value old =
      if insn.setsFxImplicitly && raisesException old (summarize (hostWritten mask value old)) then
        setBit (summarize (hostWritten mask value old)) .fx true
      else summarize (hostWritten mask value old) := rfl

theorem getMsbD_hostFpscrValue (insn : FpscrInsn) (mask value old : Dword) {k : Nat} (hk : k < 64)
    (h : k ∉ [32, 33, 34]) : (hostFpscrValue insn mask value old).getMsbD k =
      if mask.getMsbD k then value.getMsbD k else old.getMsbD k := by
  simp only [List.mem_cons, List.not_mem_nil, or_false, not_or] at h
  obtain ⟨h32, h33, h34⟩ := h
  have hkept := (getMsbD_summarize (hostWritten mask value old) hk h33 h34).trans
    (getMsbD_hostWritten mask value old hk h33 h34)
  rw [hostFpscrValue_eq]
  split
  · exact (getMsbD_setBit_ne _ .fx true hk (by simpa [FpscrBit.index] using h32)).trans hkept
  · exact hkept

theorem exceptionBits_index {b : FpscrBit} (h : b ∈ exceptionBits) : b.index ∉ [32, 33, 34] := by
  revert h
  cases b <;> decide

theorem getBit_hostFpscrValue (insn : FpscrInsn) (mask value old : Dword) {b : FpscrBit} (h : b ∈ exceptionBits) :
    getBit (hostFpscrValue insn mask value old) b = if getBit mask b then getBit value b else getBit old b :=
  getMsbD_hostFpscrValue insn mask value old (index_lt b) (exceptionBits_index h)

theorem raisesException_iff (old new : Dword) :
    raisesException old new = true ↔ ∃ b ∈ exceptionBits, getBit old b = false ∧ getBit new b = true := by
  simp [raisesException]

theorem setsFxImplicitly_iff (insn : FpscrInsn) : insn.setsFxImplicitly = true ↔ insn ≠ .mtfsfi ∧ insn ≠ .mtfsf := by
  cases insn <;> decide

/-- FX after a host write (10_state.md R32). -/
theorem getBit_hostFpscrValue_fx (insn : FpscrInsn) (mask value old : Dword) :
    getBit (hostFpscrValue insn mask value old) .fx = true ↔
      (if mask.getMsbD 32 then value.getMsbD 32 else old.getMsbD 32) = true ∨
      (insn ≠ .mtfsfi ∧ insn ≠ .mtfsf ∧
        ∃ b ∈ exceptionBits, getBit old b = false ∧ getBit (hostFpscrValue insn mask value old) b = true) := by
  have hkept : ∀ b ∈ exceptionBits, getBit (hostFpscrValue insn mask value old) b =
      getBit (summarize (hostWritten mask value old)) b := by
    intro b hb
    rw [hostFpscrValue_eq]
    split
    · rw [getBit_setBit, if_neg (exceptionBits_ne hb).1]
    · rfl
  have hraises : (∃ b ∈ exceptionBits, getBit old b = false ∧
      getBit (hostFpscrValue insn mask value old) b = true) ↔
      raisesException old (summarize (hostWritten mask value old)) = true := by
    rw [raisesException_iff]
    exact exists_congr fun b => and_congr_right fun hb => by rw [hkept b hb]
  have hwritten : getBit (summarize (hostWritten mask value old)) .fx =
      if mask.getMsbD 32 then value.getMsbD 32 else old.getMsbD 32 := by
    rw [← getMsbD_hostWritten mask value old (by decide) (by decide) (by decide)]
    simp [getBit, FpscrBit.index, getMsbD_summarize]
  rw [hraises, ← hwritten, ← and_assoc, ← setsFxImplicitly_iff, ← Bool.and_eq_true, hostFpscrValue_eq]
  split
  case isTrue h => simp [h]
  case isFalse h => simp [h]

/-! The writes that are admitted. -/

theorem mem_newlySet {insn : FpscrInsn} {mask value old : Dword} {b : FpscrBit} :
    b ∈ newlySet old (hostFpscrValue insn mask value old) ↔ b ∈ exceptionBits ∧ writesUp mask value old b := by
  simp only [newlySet, List.mem_filter, writesUp, Bool.and_eq_true, Bool.not_eq_true']
  refine and_congr_right fun hb => ?_
  rw [getBit_hostFpscrValue insn mask value old hb]
  cases getBit old b <;> cases getBit mask b <;> simp

theorem exceptionBits_sorted : exceptionBits.Pairwise fun b b' => b.index < b'.index := by decide

/-- Of bits in rising order: at most one, or Overflow or Underflow with Inexact (10_state.md R48). -/
theorem mayBeSetTogether_iff {bits : List FpscrBit} (hsorted : bits.Pairwise fun b b' => b.index < b'.index) :
    mayBeSetTogether bits = true ↔ ∀ b ∈ bits, ∀ b' ∈ bits, b.index < b'.index →
      (b = .ox ∨ b = .ux) ∧ b' = .xx := by
  match bits, hsorted with
  | [], _ => simp [mayBeSetTogether]
  | [b], _ => simp [mayBeSetTogether]
  | [b, b'], hsorted =>
    have hlt : b.index < b'.index := by simpa using hsorted
    simp [mayBeSetTogether, hlt, hlt.le, or_and_right]
  | b :: b' :: b'' :: rest, hsorted =>
    have hlt : b.index < b'.index ∧ b'.index < b''.index := by
      simp only [List.pairwise_cons, List.mem_cons] at hsorted
      exact ⟨hsorted.1 b' (.inl rfl), hsorted.2.1 b'' (.inl rfl)⟩
    have hfalse : mayBeSetTogether (b :: b' :: b'' :: rest) = false := by simp [mayBeSetTogether]
    rw [hfalse]
    refine iff_of_false (by simp) fun h => ?_
    obtain ⟨-, rfl⟩ := h b (by simp) b' (by simp) hlt.1
    simpa using (h .xx (by simp) b'' (by simp) hlt.2).1

/-- The machine makes the writes that 10_state.md R48 admits. -/
theorem hostWriteAllowed_iff (insn : FpscrInsn) (mask value old : Dword) :
    hostWriteAllowed insn mask value old = true ↔ writeAdmitted insn mask value old := by
  have hsorted : (newlySet old (hostFpscrValue insn mask value old)).Pairwise fun b b' => b.index < b'.index :=
    exceptionBits_sorted.filter _
  have hseveral : insn.setsSeveral = true ↔ insn = .mtfsfi ∨ insn = .mtfsf := by cases insn <;> decide
  simp only [hostWriteAllowed, Bool.or_eq_true, hseveral, mayBeSetTogether_iff hsorted, mem_newlySet,
    writeAdmitted, or_assoc]
  refine or_congr_right (or_congr_right ?_)
  constructor
  · exact fun h b hb b' hb' hlt hup hup' => h b ⟨hb, hup⟩ b' ⟨hb', hup'⟩ hlt
  · exact fun h b ⟨hb, hup⟩ b' ⟨hb', hup'⟩ hlt => h b hb b' hb' hlt hup hup'

/-- A host write with nothing pending: it is made, or refused. -/
theorem step_of_hostWrite {s : State} {rest : List HostTurn} {insn : FpscrInsn} {mask value : Dword}
    (hp : s.pending = none) (h : hostActs s (.writeFpscr insn mask value) rest) :
    (writeAdmitted insn mask value s.fpscr →
      step s = .next (writeFpscrOp insn mask value { s with hostQueue := rest })) ∧
    (¬ writeAdmitted insn mask value s.fpscr → step s = .refused .hostWriteForbidden) := by
  rw [step_of_hostActs h, hostStep_of_not_traps (by simp [hostOpTraps, pendingDue, hp]), hostTurn_of_idle hp,
    ← hostWriteAllowed_iff]
  exact ⟨fun hallowed => if_pos hallowed, fun hnot => if_neg hnot⟩

/-- A host write leaves the registers and `pc` alone. -/
theorem writeFpscrOp_frame (insn : FpscrInsn) (mask value : Dword) (s : State) :
    (writeFpscrOp insn mask value s).fpscr = hostFpscrValue insn mask value s.fpscr ∧
    (writeFpscrOp insn mask value s).fpr = s.fpr ∧ (writeFpscrOp insn mask value s).cr = s.cr ∧
    (writeFpscrOp insn mask value s).pc = s.pc ∧ (writeFpscrOp insn mask value s).hostQueue = s.hostQueue := by
  have hpc : ∀ (c : List DfpException) (u : State), (oweHandler id c u).pc = u.pc := by
    intro c u
    rcases oweHandler_cases id c u with he | ⟨_, -, -, he⟩ | ⟨-, -, -, he⟩ | ⟨-, he | he⟩ <;> rw [he] <;> simp
  exact ⟨oweHandler_fpscr (fun _ => rfl) _ _, oweHandler_fpr (fun _ => rfl) _ _, oweHandler_cr (fun _ => rfl) _ _,
    hpc _ _, oweHandler_hostQueue (fun _ => rfl) _ _⟩

/-- Settles O15: an admitted write is made, bit by bit; any other is refused. -/
theorem hostFpscrWrite : Obligations.HostFpscrWrite := by
  intro s rest insn mask value hp h
  obtain ⟨hmade, hrefused⟩ := step_of_hostWrite hp h
  refine ⟨hrefused, fun hadmitted => ⟨_, hmade hadmitted, ?_⟩⟩
  obtain ⟨hfpscr, hfpr, hcr, hpc, hqueue⟩ := writeFpscrOp_frame insn mask value { s with hostQueue := rest }
  rw [hfpscr, hfpr, hcr, hpc, hqueue]
  exact ⟨rfl, rfl, rfl, rfl, fpscrConsistent_hostFpscrValue .., fun k hk hne =>
    getMsbD_hostFpscrValue _ _ _ _ hk hne, getBit_hostFpscrValue_fx ..⟩

/-! The invocation a host write causes. -/

/-- An exception bit and its enable bit are both 1 now and were not both 1 before. -/
def causedBy (old new : Dword) (p : FpscrBit × FpscrBit) : Bool :=
  getBit new p.1 && getBit new p.2 && !(getBit old p.1 && getBit old p.2)

theorem newlyEnabled_iff (old new : Dword) : newlyEnabled old new ↔ enablePairs.any (causedBy old new) = true := by
  simp only [newlyEnabled, List.any_eq_true, causedBy, Bool.and_eq_true, Bool.not_eq_true', and_assoc,
    ← Bool.not_eq_true]

theorem any_enablePairs (f : FpscrBit × FpscrBit → Bool) : enablePairs.any f =
    ((invalidBits.any fun b => f (b, .ve)) || f (.zx, .ze) || f (.ox, .oe) || f (.ux, .ue) || f (.xx, .xe)) := by
  simp only [enablePairs, List.any_append, List.any_map, List.any_cons, List.any_nil, Function.comp_def,
    Bool.or_false, Bool.or_assoc]

theorem hostCauses_eq (old new : Dword) : hostCauses old new =
    (if invalidBits.any fun b => causedBy old new (b, .ve) then [.invalidOperation] else [])
    ++ (if causedBy old new (.zx, .ze) then [.zeroDivide] else [])
    ++ (if causedBy old new (.ox, .oe) then [.overflow] else [])
    ++ (if causedBy old new (.ux, .ue) then [.underflow] else [])
    ++ (if causedBy old new (.xx, .xe) then [.inexact] else []) := rfl

/-- The causes of a host write are the exceptions newly enabled and recorded together (60_exceptions.md R525). -/
theorem hostCauses_ne_nil_iff (old new : Dword) : hostCauses old new ≠ [] ↔ newlyEnabled old new := by
  have hgroup : ∀ (c : Bool) (d : DfpException), (if c then [d] else []) = [] ↔ c = false := by
    intro c d
    cases c <;> simp
  rw [newlyEnabled_iff, ← Bool.not_eq_false, not_iff_not, any_enablePairs, hostCauses_eq]
  simp only [List.append_eq_nil_iff, hgroup, Bool.or_eq_false_iff]

theorem oweHandler_id_cases {c : List DfpException} (hc : c ≠ []) {s : State} (hp : s.pending = none) :
    (exceptionMode s = .ignore → oweHandler id c s = s) ∧
    (exceptionMode s = .precise → oweHandler id c s = raiseTrap true s) ∧
    (exceptionMode s ≠ .ignore → exceptionMode s ≠ .precise → oweHandler id c s =
      if nextDelay s = 0 then raiseTrap true (takeDelay s)
      else { takeDelay s with pending := some { remaining := nextDelay s, causes := c } }) := by
  refine ⟨oweHandler_ignore _ _, oweHandler_precise _ hc, fun hignore hprecise => ?_⟩
  have himprecise : exceptionMode s = .impreciseNonrecoverable ∨ exceptionMode s = .impreciseRecoverable := by
    cases hm : exceptionMode s <;> simp_all
  rw [oweHandler_imprecise _ hc himprecise, deferTrap, hp]
  rfl

/-- Settles O16: the write has causes exactly when an exception is newly enabled and recorded, and the handler is
owed as after an instruction. -/
theorem hostWriteInvokes : Obligations.HostWriteInvokes := by
  intro s rest insn mask value hp h hadmitted
  obtain ⟨hmade, -⟩ := step_of_hostWrite hp h
  refine ⟨_, hmade hadmitted, ?_⟩
  obtain ⟨hfpscr, -⟩ := writeFpscrOp_frame insn mask value { s with hostQueue := rest }
  rw [hfpscr, ← hostCauses_ne_nil_iff]
  simp only [writeFpscrOp]
  generalize hu : ({ s with
    hostQueue := rest, fpscr := hostFpscrValue insn mask value s.fpscr } : State) = u
  have hmode : exceptionMode s = exceptionMode u := by rw [← hu]; rfl
  have hdelay : nextDelay s = nextDelay u := by rw [← hu]; rfl
  have htrap : s.trap = u.trap := by rw [← hu]
  have hup : u.pending = none := by rw [← hu]; exact hp
  have hufpscr : hostFpscrValue insn mask value s.fpscr = u.fpscr := by rw [← hu]
  rw [hmode, hdelay, htrap, hufpscr]
  refine ⟨fun hc => ?_, fun hc => ?_⟩
  · obtain ⟨hignore, hprecise, himprecise⟩ := oweHandler_id_cases hc hup
    refine ⟨fun hm => ?_, ?_, fun hm hm' hd => ?_⟩
    · rw [hignore hm]
      exact ⟨rfl, hup⟩
    · rintro (hm | ⟨hm, hd⟩)
      · rw [hprecise hm]
        exact ⟨_, rfl, rfl, rfl, rfl⟩
      · by_cases hm' : exceptionMode u = .precise
        · rw [hprecise hm']
          exact ⟨_, rfl, rfl, rfl, rfl⟩
        · rw [himprecise hm hm', if_pos hd]
          exact ⟨_, rfl, rfl, takeDelay_fpscr u, rfl⟩
    · rw [himprecise hm hm', if_neg hd]
      exact ⟨takeDelay_trap u, _, rfl, rfl, hc⟩
  · rw [not_not] at hc
    rw [hc, oweHandler_nil]
    exact ⟨rfl, hup⟩

end Sys2Proof.Machine
end

section
/-! How an instruction writes the FPSCR, in one form for all shapes of effect (60_exceptions.md R500): which
exceptions it passes, how it writes FR, FI and FPRF, and that the enable bits and DRN alone decide this. -/

namespace Sys2Proof.Machine

/-! The rows of the FPSCR table. -/

/-- A row that has the field FPRF or FPCC lets it be written. -/
def Fprf.allowedBy (fprf : Fprf) (u : FpscrUse) : Prop :=
  match fprf with
  | .unchanged => True
  | .cls _ => u.fprf = true
  | .fpcc _ => u.fpcc = true ∧ u.frfi = .untouched

/-- The column "FR FI" of the row says how they are written. -/
def FrFi.allowedBy (frfi : FrFi) (u : FpscrUse) : Prop :=
  match frfi with
  | .unchanged => u.frfi = .untouched
  | .set fr fi => u.frfi = .written ∨ (u.frfi = .cleared ∧ fr = false ∧ fi = false)

theorem fpscrUse_exc_subset (i : Instr) : ∀ b ∈ (fpscrUse i).exc, b ∈ exceptionBits := by
  cases i <;> simp only [fpscrUse] <;> decide

/-- An effect records the exceptions `exc`, FR and FI as `frfi` says, and a field the row allows: by
`SetFPSCR`, or, where there is nothing to record, by a write of that field alone. -/
structure Recording (i : Instr) (exc : List FpscrBit) (frfi : FrFi) (w : Dword) (e : Effect) : Prop where
  listed : ∀ b ∈ exc, b ∈ (fpscrUse i).exc
  inexact : frfi.inexact = true → .xx ∈ (fpscrUse i).exc
  frfi_allowed : frfi.allowedBy (fpscrUse i)
  causes : e.causes = enabledExceptions exc frfi w
  fpscr : ∃ fprf : Fprf, fprf.allowedBy (fpscrUse i) ∧
    (e.fpscr = setFpscr exc frfi fprf w ∨ (exc = [] ∧ frfi = .unchanged ∧ e.fpscr = setFprfField fprf w))

/-- An effect as a function of the FPSCR it is given: the shapes of `Shape`, with what they compute fixed. -/
inductive Form (i : Instr) : (Dword → Effect) → Prop
  | deliver (writes : Fmt → Datum → List (FprNum × Dword)) (r : Result) (hr : r.within (fpscrUse i).exc)
      (hrf : (fpscrUse i).fprf = true) (hfi : (FrFi.set r.fr r.fi).allowedBy (fpscrUse i)) :
      Form i (deliver writes r)
  | compare (ordered : Bool) (bf : CrNum) (a b : Datum)
      (hu : fpscrUse i = ⟨false, .untouched, true, if ordered then [.vxsnan, .vxvc] else [.vxsnan]⟩) :
      Form i (compareEffect ordered bf a b)
  | test (bf : CrNum) (code : BitVec 4) (hu : fpscrUse i = ⟨false, .untouched, true, []⟩) :
      Form i (testEffect bf code)
  | toFixed (frt : FprNum) (mode : Mode) (b : Datum) (hu : fpscrUse i = ⟨false, .written, false, [.xx, .vxsnan, .vxcvi]⟩) :
      Form i (toFixedEffect frt (toFixed mode b))
  | dctdp (frt : FprNum) (d : Datum) (hu : fpscrUse i = ⟨true, .untouched, false, []⟩) :
      Form i (dctdpEffect frt d)
  | dcffixq (frt : FprNum) (n : Int) (hu : fpscrUse i = ⟨true, .untouched, false, []⟩) :
      Form i (dcffixqEffect frt n)
  | plain (ws : List (FprNum × Dword)) (hu : fpscrUse i = ⟨false, .untouched, false, []⟩) :
      Form i (plainEffect ws)

/-- What a result of a deliver records does not depend on what was recorded before. -/
theorem recording_deliver {i : Instr} (writes : Fmt → Datum → List (FprNum × Dword)) {r : Result}
    (hr : r.within (fpscrUse i).exc) (hrf : (fpscrUse i).fprf = true)
    (hfi : (FrFi.set r.fr r.fi).allowedBy (fpscrUse i)) (w : Dword) :
    Recording i r.exc (.set r.fr r.fi) w (deliver writes r w) where
  listed := hr.1
  inexact := hr.2.1
  frfi_allowed := hfi
  causes := rfl
  fpscr := by
    simp only [deliver, resultFpscr]
    split
    case isFalse => exact ⟨.cls _, hrf, .inl rfl⟩
    case isTrue hs =>
      obtain ⟨_, -, -, hfr, hfi⟩ | ⟨hbits, -⟩ := hr.kinds
      · exact ⟨.unchanged, trivial, .inl (by rw [hfr, hfi])⟩
      · rw [suppresses_eq_false hbits] at hs
        contradiction

theorem recording_compare {i : Instr} {ordered : Bool} (bf : CrNum) (a b : Datum)
    (hu : fpscrUse i = ⟨false, .untouched, true, if ordered then [.vxsnan, .vxvc] else [.vxsnan]⟩) (w : Dword) :
    Recording i (compareExc ordered (getBit w .ve) a b) .unchanged w (compareEffect ordered bf a b w) where
  listed x hx := by
    rw [hu]
    rcases compareExc_mem hx with rfl | ⟨rfl, rfl⟩
    · cases ordered <;> simp
    · simp
  inexact h := by simp [FrFi.inexact] at h
  frfi_allowed := by rw [hu]; rfl
  causes := rfl
  fpscr := ⟨_, by rw [hu]; exact ⟨rfl, rfl⟩, .inl rfl⟩

theorem recording_toFixed {i : Instr} (frt : FprNum) (mode : Mode) (b : Datum)
    (hu : fpscrUse i = ⟨false, .written, false, [.xx, .vxsnan, .vxcvi]⟩) (w : Dword) :
    Recording i (toFixed mode b).exc (.set (toFixed mode b).fr (toFixed mode b).fi) w
      (toFixedEffect frt (toFixed mode b) w) where
  listed x hx := by
    rw [hu]
    obtain h | ⟨hbits, -⟩ := toFixed_kinds (toFixed_exc mode b)
    · simp [h] at hx
    · rcases hbits x hx with rfl | rfl <;> decide
  inexact _ := by rw [hu]; decide
  frfi_allowed := by rw [hu]; exact .inl rfl
  causes := rfl
  fpscr := ⟨.unchanged, trivial, .inl rfl⟩

/-- An effect that writes a field and nothing else. -/
theorem recording_field {i : Instr} {e : Effect} {fprf : Fprf} {w : Dword} (huse : (fpscrUse i).frfi = .untouched)
    (hfprf : fprf.allowedBy (fpscrUse i)) (hc : e.causes = []) (he : e.fpscr = setFprfField fprf w) :
    Recording i [] .unchanged w e where
  listed := by simp
  inexact h := by simp [FrFi.inexact] at h
  frfi_allowed := huse
  causes := hc
  fpscr := ⟨fprf, hfprf, .inr ⟨rfl, rfl, he⟩⟩

theorem recording_dctdp {i : Instr} (frt : FprNum) (d : Datum) (hu : fpscrUse i = ⟨true, .untouched, false, []⟩)
    (w : Dword) : Recording i [] .unchanged w (dctdpEffect frt d w) where
  listed := by simp
  inexact h := by simp [FrFi.inexact] at h
  frfi_allowed := by rw [hu]; rfl
  causes := rfl
  fpscr := ⟨_, by rw [hu]; rfl, .inl rfl⟩

/-- Whatever the exceptions recorded before, a form with the same VE records the same exceptions. -/
theorem Form.recording {i : Instr} {mk : Dword → Effect} (h : Form i mk) (old : Dword) :
    ∃ exc frfi, ∀ w, getBit w .ve = getBit old .ve → Recording i exc frfi w (mk w) := by
  cases h with
  | deliver writes r hr hrf hfi => exact ⟨_, _, fun w _ => recording_deliver writes hr hrf hfi w⟩
  | compare ordered bf a b hu =>
    refine ⟨compareExc ordered (getBit old .ve) a b, .unchanged, fun w hve => ?_⟩
    rw [← hve]
    exact recording_compare bf a b hu w
  | test bf code hu =>
    exact ⟨_, _, fun w _ => recording_field (by rw [hu]) (fprf := .fpcc code) (by rw [hu]; exact ⟨rfl, rfl⟩) rfl rfl⟩
  | toFixed frt mode b hu => exact ⟨_, _, fun w _ => recording_toFixed frt mode b hu w⟩
  | dctdp frt d hu => exact ⟨_, _, fun w _ => recording_dctdp frt d hu w⟩
  | dcffixq frt n hu =>
    exact ⟨_, _, fun w _ => recording_field (by rw [hu]) (fprf := .cls _) (by rw [hu]; rfl) rfl rfl⟩
  | plain ws hu =>
    exact ⟨_, _, fun w _ => recording_field (by rw [hu]) (fprf := .unchanged) trivial rfl rfl⟩

/-! The FPSCR bits an instruction reads. -/

/-- Two values of the FPSCR have the same DRN and the same enable bits. -/
structure SameControls (old w : Dword) : Prop where
  drn : drnOf w = drnOf old
  ve : getBit w .ve = getBit old .ve
  oe : getBit w .oe = getBit old .oe
  ue : getBit w .ue = getBit old .ue
  ze : getBit w .ze = getBit old .ze
  xe : getBit w .xe = getBit old .xe

theorem SameControls.refl (w : Dword) : SameControls w w := ⟨rfl, rfl, rfl, rfl, rfl, rfl⟩

theorem SameControls.drnMode {old w : Dword} (h : SameControls old w) : drnMode w = drnMode old := by
  rw [Machine.drnMode, Machine.drnMode, h.drn]

theorem SameControls.roundEnv {old w : Dword} (h : SameControls old w) : roundEnv w = roundEnv old := by
  rw [Machine.roundEnv, Machine.roundEnv, h.drnMode, h.oe, h.ue]

theorem SameControls.rmcMode {s : State} {w : Dword} (h : SameControls s.fpscr w) (rmc : BitVec 2) (r : Bool) :
    rmcMode rmc r { s with fpscr := w } = rmcMode rmc r s := by
  rw [Machine.rmcMode, Machine.rmcMode, h.drn]

theorem SameControls.arithResult {s : State} {w : Dword} (h : SameControls s.fpscr w)
    (op : Fmt → RoundEnv → Datum → Datum → Result) (f : Fmt) (fra frb : FprNum) :
    arithResult op f fra frb { s with fpscr := w } = arithResult op f fra frb s :=
  congrArg (fun env => op f env (readDatum f fra s) (readDatum f frb s)) h.roundEnv

/-- The effect of an instruction at a state with another FPSCR, as a function of that FPSCR. -/
def hasForm (i : Instr) (s : State) : Prop :=
  ∃ mk, Form i mk ∧ ∀ w, SameControls s.fpscr w → effectOf i { s with fpscr := w } = mk w


theorem hasForm_deliver {i : Instr} {s : State} {writes : Fmt → Datum → List (FprNum × Dword)} {r : Result}
    (_he : effectOf i s = deliver writes r s.fpscr)
    (hsame : ∀ w, SameControls s.fpscr w → effectOf i { s with fpscr := w } = deliver writes r w)
    (hr : r.within (fpscrUse i).exc) (hrf : (fpscrUse i).fprf = true)
    (hfi : (FrFi.set r.fr r.fi).allowedBy (fpscrUse i)) : hasForm i s :=
  ⟨_, .deliver writes r hr hrf hfi, hsame⟩

theorem hasForm_compare {i : Instr} {s : State} {ordered : Bool} {bf : CrNum} {a b : Datum}
    (_he : effectOf i s = compareEffect ordered bf a b s.fpscr)
    (hsame : ∀ w, effectOf i { s with fpscr := w } = compareEffect ordered bf a b w)
    (hu : fpscrUse i = ⟨false, .untouched, true, if ordered then [.vxsnan, .vxvc] else [.vxsnan]⟩) : hasForm i s :=
  ⟨_, .compare ordered bf a b hu, fun w _ => hsame w⟩

theorem hasForm_test {i : Instr} {s : State} {bf : CrNum} {code : BitVec 4}
    (_he : effectOf i s = testEffect bf code s.fpscr)
    (hsame : ∀ w, effectOf i { s with fpscr := w } = testEffect bf code w)
    (hu : fpscrUse i = ⟨false, .untouched, true, []⟩) : hasForm i s :=
  ⟨_, .test bf code hu, fun w _ => hsame w⟩

theorem hasForm_plain {i : Instr} {s : State} {ws : List (FprNum × Dword)}
    (_he : effectOf i s = plainEffect ws s.fpscr) (hsame : ∀ w, effectOf i { s with fpscr := w } = plainEffect ws w)
    (hu : fpscrUse i = ⟨false, .untouched, false, []⟩) : hasForm i s :=
  ⟨_, .plain ws hu, fun w _ => hsame w⟩

/-- An instruction computes the same effect, to be applied to the FPSCR, whenever the operands, DRN and the
enables are the same: what is recorded does not matter (60_exceptions.md R504). -/
theorem effectOf_form (i : Instr) (s : State) : hasForm i s := by
  cases i with
  | dadd | daddq | dsub | dsubq =>
    refine hasForm_deliver (writes := fun g d => datumWrites g _ d) rfl (fun w h => ?_) ?_ rfl (.inl rfl)
    · rw [← h.arithResult]; rfl
    · exact addResult_within ..
  | dmul | dmulq =>
    refine hasForm_deliver (writes := fun g d => datumWrites g _ d) rfl (fun w h => ?_) ?_ rfl (.inl rfl)
    · rw [← h.arithResult]; rfl
    · exact mulResult_within ..
  | ddiv | ddivq =>
    refine hasForm_deliver (writes := fun g d => datumWrites g _ d) rfl (fun w h => ?_) ?_ rfl (.inl rfl)
    · rw [← h.arithResult]; rfl
    · exact divResult_within ..
  | dcmpu | dcmpuq => exact hasForm_compare (ordered := false) rfl (fun _ => rfl) rfl
  | dcmpo | dcmpoq => exact hasForm_compare (ordered := true) rfl (fun _ => rfl) rfl
  | dtstdc | dtstdcq | dtstdg | dtstdgq | dtstex | dtstexq | dtstsf | dtstsfq =>
    exact hasForm_test rfl (fun _ => rfl) rfl
  | dquai | dquaiq | dqua | dquaq =>
    refine hasForm_deliver (writes := fun g d => datumWrites g _ d) rfl (fun w h => ?_) ?_ rfl (.inl rfl)
    · rw [← h.rmcMode]; rfl
    · exact quantizeResult_within ..
  | drrnd | drrndq =>
    refine hasForm_deliver (writes := fun g d => datumWrites g _ d) rfl (fun w h => ?_) ?_ rfl (.inl rfl)
    · rw [← h.rmcMode]; rfl
    · exact reroundResult_within ..
  | drintx | drintxq =>
    refine hasForm_deliver (writes := fun g d => datumWrites g _ d) rfl (fun w h => ?_) ?_ rfl (.inl rfl)
    · rw [← h.rmcMode]; rfl
    · exact (roundToIntResult_within ..).1
  | drintn | drintnq =>
    refine hasForm_deliver (writes := fun g d => datumWrites g _ d) rfl (fun w h => ?_) ?_ rfl (.inr ⟨rfl, ?_⟩)
    · rw [← h.rmcMode]; rfl
    · exact (roundToIntResult_within ..).2.1
    · exact (roundToIntResult_within ..).2.2
  | dctqpq =>
    refine hasForm_deliver (writes := fun g d => datumWrites g _ d) rfl (fun _ _ => rfl) ?_ rfl (.inr ⟨rfl, ?_⟩)
    · exact (widenResult_within ..).1
    · exact (widenResult_within ..).2
  | drsp =>
    refine hasForm_deliver (writes := fun g d => datumWrites g _ d) rfl (fun w h => ?_) ?_ rfl (.inl rfl)
    · rw [← h.roundEnv]; rfl
    · exact narrowResult_within .dfp64 .dfp32 192 false ..
  | drdpq =>
    refine hasForm_deliver (writes := drdpqWrites _) rfl (fun w h => ?_) ?_ rfl (.inl rfl)
    · rw [← h.roundEnv]; rfl
    · exact narrowResult_within .dfp128 .dfp64 3072 true ..
  | denbcd | denbcdq =>
    refine hasForm_deliver (writes := fun g d => datumWrites g _ d) rfl (fun _ _ => rfl) ?_ rfl (.inr ⟨rfl, ?_⟩)
    · exact (bcdToDpdResult_within ..).1
    · exact (bcdToDpdResult_within ..).2
  | dctdp frt frb => exact ⟨_, .dctdp _ (widenResult _ _ (readDatum _ frb s)).datum rfl, fun _ _ => rfl⟩
  | dcffixq frt frb => exact ⟨_, .dcffixq _ (readInt frb s) rfl, fun _ _ => rfl⟩
  | dctfix frt frb | dctfixq frt frb =>
    exact ⟨_, .toFixed frt (drnMode s.fpscr) (readDatum _ frb s) rfl, fun w h =>
      congrArg (fun m => toFixedEffect frt (toFixed m (readDatum _ frb s)) w) h.drnMode⟩
  | ddedpd | ddedpdq | dxex | dxexq | diex | diexq | dscli | dscliq | dscri | dscriq =>
    exact hasForm_plain rfl (fun _ => rfl) rfl

/-- The exceptions an instruction records at a state, and at the same state with others recorded before. -/
theorem effectOf_recording (i : Instr) (s : State) : ∃ exc frfi, ∀ w, SameControls s.fpscr w →
    Recording i exc frfi w (effectOf i { s with fpscr := w }) := by
  obtain ⟨mk, hform, hmk⟩ := effectOf_form i s
  obtain ⟨exc, frfi, hrec⟩ := hform.recording s.fpscr
  exact ⟨exc, frfi, fun w hw => hmk w hw ▸ hrec w hw.ve⟩

end Sys2Proof.Machine
end

section
/-! What every instruction leaves: whether it completes, what it leaves alone, and the summary bits
(41_execution_model.md R240 to R244; 10_state.md R32 to R34, R45). -/

namespace Sys2Proof.Machine

theorem effectOf_records_own (i : Instr) (s : State) :
    ∃ exc frfi, Recording i exc frfi s.fpscr (effectOf i s) := by
  obtain ⟨exc, frfi, h⟩ := effectOf_recording i s
  exact ⟨exc, frfi, h s.fpscr (.refl _)⟩

theorem exec_recording {i : Instr} {s t : State} (h : exec i s = .next t) :
    ∃ exc frfi, Recording i exc frfi s.fpscr (effectOf i s) ∧ t.fpscr = (effectOf i s).fpscr := by
  obtain ⟨-, rfl⟩ := exec_next.1 h
  obtain ⟨exc, frfi, hrec⟩ := effectOf_records_own i s
  exact ⟨exc, frfi, hrec, commit_fpscr ..⟩

/-! What a recording leaves in the FPSCR, bit by bit. -/

section
variable {i : Instr} {exc : List FpscrBit} {frfi : FrFi} {w : Dword} {e : Effect}

/-- The exceptions that occur: those passed, and Inexact where FI is passed as 1. -/
def occurs (exc : List FpscrBit) (frfi : FrFi) (b : FpscrBit) : Bool :=
  exc.contains b || (decide (b = .xx) && frfi.inexact)

theorem Recording.listed_of_recorded (h : Recording i exc frfi w e) {b : FpscrBit}
    (hb : occurs exc frfi b = true) : b ∈ (fpscrUse i).exc := by
  simp only [occurs, Bool.or_eq_true, List.contains_iff_mem, Bool.and_eq_true, decide_eq_true_eq] at hb
  obtain hb | ⟨rfl, hinexact⟩ := hb
  · exact h.listed b hb
  · exact h.inexact hinexact

theorem Recording.exception (h : Recording i exc frfi w e) {b : FpscrBit} (hb : b ∈ exceptionBits) :
    getBit e.fpscr b = (getBit w b || occurs exc frfi b) := by
  obtain ⟨fprf, -, he | ⟨rfl, rfl, he⟩⟩ := h.fpscr
  · rw [he, getBit_setFpscr_exception _ _ _ _ hb, occurs]
    cases exc.contains b <;> simp
  · obtain ⟨-, -, -, -, -, hne⟩ := exceptionBits_ne hb
    simp [he, getBit_setFprfField hne, occurs, FrFi.inexact]

theorem Recording.fx (h : Recording i exc frfi w e) :
    getBit e.fpscr .fx = (getBit w .fx || raisesException w e.fpscr) := by
  obtain ⟨fprf, -, he | ⟨rfl, rfl, he⟩⟩ := h.fpscr
  · rw [he, getBit_setFpscr_fx fun hfx => ?_]
    exact absurd (fpscrUse_exc_subset i _ (h.listed _ hfx)) (by decide)
  · have hnone : raisesException w e.fpscr = false := by
      rw [← Bool.not_eq_true, raisesException_iff]
      rintro ⟨b, hb, hold, hnew⟩
      rw [h.exception hb, hold] at hnew
      simp [occurs, FrFi.inexact] at hnew
    rw [hnone, he, getBit_setFprfField (by decide), Bool.or_false]

theorem Recording.consistent (h : Recording i exc frfi w e) (hw : fpscrConsistent w = true) :
    fpscrConsistent e.fpscr = true := by
  obtain ⟨fprf, -, he | ⟨rfl, rfl, he⟩⟩ := h.fpscr
  · rw [he]
    exact fpscrConsistent_setFpscr ..
  · rw [he]
    cases fprf with
    | unchanged => exact hw
    | cls code => exact fpscrConsistent_setFprf hw code
    | fpcc code => exact fpscrConsistent_setFpcc hw code

/-- FR and FI, from the column of the row. -/
theorem Recording.frfi_eq (h : Recording i exc frfi w e) :
    match frfi with
    | .unchanged => getBit e.fpscr .fr = getBit w .fr ∧ getBit e.fpscr .fi = getBit w .fi
    | .set fr fi => getBit e.fpscr .fr = fr ∧ getBit e.fpscr .fi = fi := by
  have hnot : ∀ b ∉ exceptionBits, b ∉ exc := fun b hb hmem => hb (fpscrUse_exc_subset i b (h.listed b hmem))
  obtain ⟨fprf, -, he | ⟨rfl, rfl, he⟩⟩ := h.fpscr
  · rw [he]
    cases frfi with
    | unchanged => exact setFpscr_frfi_unchanged (hnot _ (by decide)) (hnot _ (by decide)) _ _
    | set fr fi => exact setFpscr_frfi _ _ _ _ _
  · rw [he]
    exact ⟨getBit_setFprfField (by decide) _ _, getBit_setFprfField (by decide) _ _⟩

/-- C, where the row has not the field FPRF. -/
theorem Recording.c_eq (h : Recording i exc frfi w e) (hfprf : (fpscrUse i).fprf = false) :
    getBit e.fpscr .c = getBit w .c := by
  have hnot : ∀ b ∉ exceptionBits, b ∉ exc := fun b hb hmem => hb (fpscrUse_exc_subset i b (h.listed b hmem))
  obtain ⟨fprf, hallowed, he⟩ := h.fpscr
  cases fprf with
  | unchanged =>
    obtain he | ⟨rfl, rfl, he⟩ := he
    · rw [he]
      refine getMsbD_setFpscr (by decide) (fun b hb => ?_) (by decide) (.inr (by decide)) (.inl rfl)
      exact fun hindex => hnot .c (by decide) (index_inj hindex ▸ hb)
    · rw [he, setFprfField]
  | cls code => simp [Fprf.allowedBy, hfprf] at hallowed
  | fpcc code =>
    obtain he | ⟨rfl, rfl, he⟩ := he
    · obtain ⟨-, huse⟩ : (fpscrUse i).fpcc = true ∧ (fpscrUse i).frfi = .untouched := hallowed
      have hfrfi := h.frfi_allowed
      cases frfi with
      | unchanged => rw [he, getBit_c_setFpscr_fpcc (hnot .c (by decide))]
      | set fr fi => simp [FrFi.allowedBy, huse] at hfrfi
    · rw [he, setFprfField, getBit_setFpcc]
      simp

/-- A bit that is neither an exception, nor a summary, nor in a field the row lists. -/
theorem Recording.getMsbD_eq (h : Recording i exc frfi w e) {k : Nat} (hk : k < 64)
    (hexc : ∀ b ∈ exceptionBits, b.index ≠ k) (hsum : k < 32 ∨ 34 < k) (hfrfi : k ≠ 45 ∧ k ≠ 46)
    (hfprf : k < 47 ∨ 51 < k) : e.fpscr.getMsbD k = w.getMsbD k := by
  have hxx : k ≠ 38 := fun hk => hexc .xx (by decide) hk.symm
  obtain ⟨fprf, -, he | ⟨rfl, rfl, he⟩⟩ := h.fpscr
  · rw [he]
    exact getMsbD_setFpscr hk (fun b hb => hexc b (fpscrUse_exc_subset i b (h.listed b hb))) hsum
      (.inr ⟨hxx, hfrfi.1, hfrfi.2⟩) (.inr hfprf)
  · rw [he]
    cases fprf with
    | unchanged => rfl
    | cls code => exact getMsbD_setFprf w code hk hfprf
    | fpcc code => exact getMsbD_setFpcc w code hk (by omega)

/-- The field FPRF, and FPCC in it, where the row lists neither. -/
theorem Recording.fprf_eq (h : Recording i exc frfi w e) (hfprf : (fpscrUse i).fprf = false)
    (hfpcc : (fpscrUse i).fpcc = false) {k : Nat} (hk : 47 ≤ k ∧ k ≤ 51) : e.fpscr.getMsbD k = w.getMsbD k := by
  have hindex : ∀ b ∈ exceptionBits, b.index < 47 ∨ 51 < b.index := by decide
  obtain ⟨fprf, hallowed, he⟩ := h.fpscr
  cases fprf with
  | unchanged =>
    obtain he | ⟨rfl, rfl, he⟩ := he
    · rw [he]
      refine getMsbD_setFpscr (by omega) (fun b hb hbk => ?_) (by omega) (.inr (by omega)) (.inl rfl)
      have := hindex b (fpscrUse_exc_subset i b (h.listed b hb))
      omega
    · rw [he, setFprfField]
  | cls code => simp [Fprf.allowedBy, hfprf] at hallowed
  | fpcc code => simp [Fprf.allowedBy, hfpcc] at hallowed

end

theorem getBit_enable_recording {i : Instr} {exc : List FpscrBit} {frfi : FrFi} {w : Dword} {e : Effect}
    (h : Recording i exc frfi w e) : ∀ b ∈ [FpscrBit.ve, .oe, .ue, .ze, .xe], getBit e.fpscr b = getBit w b := by
  intro b hb
  have hfacts : ∀ b ∈ [FpscrBit.ve, .oe, .ue, .ze, .xe], (∀ x ∈ exceptionBits, x.index ≠ b.index) ∧ 51 < b.index := by
    decide
  obtain ⟨hexc, hk⟩ := hfacts b hb
  exact h.getMsbD_eq (index_lt b) hexc (.inr (by omega)) (by omega) (.inr hk)

/-! Completing. -/

/-- Settles O18: the causes of an instruction are enabled exceptions. -/
theorem noInvocationCompletes : Obligations.NoInvocationCompletes := by
  intro i s hwf hquiet
  obtain ⟨exc, frfi, hrec⟩ := effectOf_records_own i s
  exact ⟨_, exec_wellFormed hwf s, completed_commit_of_noInvocation hquiet _ hrec.causes⟩

/-- A row with no exception: nothing is passed, and FI is not passed as 1. -/
theorem Recording.silent {i : Instr} {exc : List FpscrBit} {frfi : FrFi} {w : Dword} {e : Effect}
    (h : Recording i exc frfi w e) (huse : (fpscrUse i).exc = []) : exc = [] ∧ frfi.inexact = false := by
  constructor
  · rw [List.eq_nil_iff_forall_not_mem]
    intro b hb
    simpa [huse] using h.listed b hb
  · rw [← Bool.not_eq_true]
    intro hinexact
    simpa [huse] using h.inexact hinexact

/-- Settles O19: with no exception listed there is none to cause an invocation or to record. -/
theorem silentInstructions : Obligations.SilentInstructions := by
  intro i s hwf huse
  obtain ⟨exc, frfi, hrec⟩ := effectOf_records_own i s
  obtain ⟨rfl, hinexact⟩ := hrec.silent huse
  refine ⟨_, exec_wellFormed hwf s, ?_, fun b hb => ?_⟩
  · rw [commit_no_causes _ (by simp [hrec.causes, enabledExceptions, hasInvalid, hinexact])]
    exact completed_advance_applyEffect ..
  · rw [commit_fpscr, hrec.exception hb]
    simp [occurs, hinexact]

/-! The frame outside the FPSCR. -/

/-- An effect writes target registers only. -/
theorem effectOf_fprs (i : Instr) (s : State) : ∀ w ∈ (effectOf i s).fprs, w.1 ∈ targets i := by
  intro w hw
  cases effectOf_shape i s with
  | deliver writes r he _ htargets =>
    rw [he] at hw
    simp only [deliver] at hw
    split at hw
    · simp at hw
    · exact htargets w hw
  | compare _ _ _ _ he => simp [he, compareEffect] at hw
  | test _ _ he => simp [he, testEffect] at hw
  | toFixed frt x he _ htarget =>
    rw [he] at hw
    simp only [toFixedEffect, intWrites] at hw
    split at hw
    · simp at hw
    · rw [htarget]
      simp_all
  | dctdp frt d he _ htarget =>
    rw [he] at hw
    exact htarget ▸ datumWrites_one (f := .dfp64) (by decide) d w hw
  | dcffixq frt n he _ htarget =>
    rw [he] at hw
    exact htarget ▸ datumWrites_pair .dfp128 frt (.finite (decide (n < 0)) n.natAbs 0) w hw
  | plain ws he _ htargets =>
    rw [he] at hw
    exact htargets w hw

theorem readCr_exec_of_not_mem {i : Instr} {s t : State} (h : exec i s = .next t) {n : CrNum}
    (hn : n ∉ crTargets i) : readCr t n = readCr s n := by
  rw [readCr, readCr]
  obtain hbf | hrc := bfOf_none_or_rcOf_none i
  · cases hrc : rcOf i with
    | none => simp [exec_cr h, hbf, hrc, recordCr1, writeCrField]
    | some rc =>
      rw [exec_cr_of_rcOf hrc h]
      cases rc with
      | false => rfl
      | true => exact recordCr1_ne (by simpa [crTargets, hbf, hrc] using hn) ..
  · cases hbf : bfOf i with
    | none => simp [exec_cr h, hbf, hrc, recordCr1, writeCrField]
    | some bf =>
      rw [exec_cr_of_bfOf hbf h]
      exact readCr_writeCrField_ne (fun heq => hn (by simp [crTargets, hbf, heq])) ..

/-- Settles O20: the registers written are the targets, and no other field of the state is touched. -/
theorem registerFrame : Obligations.RegisterFrame := by
  intro i s t h
  obtain ⟨hmem, -, -⟩ := sameStorage_exec h
  refine ⟨fun r hr => ?_, fun n hn => readCr_exec_of_not_mem h hn, ?_⟩
  · obtain ⟨-, rfl⟩ := exec_next.1 h
    rw [readFpr, commit_fpr, readFpr]
    refine writeFprs_of_not_mem (fun w hw heq => hr ?_) _
    exact heq ▸ effectOf_fprs i s w hw
  · refine ⟨?_, ?_, ?_, ?_, byteAt_congr hmem⟩ <;> obtain ⟨-, rfl⟩ := exec_next.1 h
    · exact commit_fe0 ..
    · exact commit_fe1 ..
    · exact commit_pcWidth ..
    · exact commit_hostQueue ..

/-! The summary bits and the frame in the FPSCR. -/

theorem fpscrConsistent_iff (w : Dword) :
    fpscrConsistent w = true ↔ getBit w .vx = vxValue w ∧ getBit w .fex = fexValue w := by
  simp [fpscrConsistent]

/-- Settles O25: FX by step 5 of `SetFPSCR`, VX and FEX because they stay consistent. -/
theorem summaryBits : Obligations.SummaryBits := by
  intro i s t h
  obtain ⟨exc, frfi, hrec, ht⟩ := exec_recording h
  rw [ht]
  refine ⟨?_, fun hconsistent => ?_⟩
  · rw [hrec.fx, Bool.or_eq_true, raisesException_iff]
  · obtain ⟨hvx, hfex⟩ := (fpscrConsistent_iff _).1 (hrec.consistent hconsistent)
    refine ⟨?_, hfex⟩
    simp only [hvx, vxValue, invalidBits, List.any_cons, List.any_nil, Bool.or_false, Bool.or_assoc]

/-- Where the row lists no exception, the summary bits stay. -/
theorem Recording.summary_eq {i : Instr} {exc : List FpscrBit} {frfi : FrFi} {w : Dword} {e : Effect}
    (h : Recording i exc frfi w e) (huse : (fpscrUse i).exc = []) (hw : fpscrConsistent w = true) :
    getBit e.fpscr .fx = getBit w .fx ∧ getBit e.fpscr .fex = getBit w .fex ∧ getBit e.fpscr .vx = getBit w .vx := by
  obtain ⟨hvx', hfex'⟩ := (fpscrConsistent_iff _).1 (h.consistent hw)
  obtain ⟨hvx, hfex⟩ := (fpscrConsistent_iff _).1 hw
  obtain ⟨rfl, hinexact⟩ := h.silent huse
  have hsame : ∀ b ∈ exceptionBits, getBit e.fpscr b = getBit w b := fun b hb => by
    simp [h.exception hb, occurs, hinexact]
  have hquiet : raisesException w e.fpscr = false := by
    rw [← Bool.not_eq_true, raisesException_iff]
    rintro ⟨b, hb, hold, hnew⟩
    simp [hsame b hb, hold] at hnew
  have hvalid : getBit e.fpscr .vx = getBit w .vx := by
    rw [hvx', hvx, vxValue, vxValue, Bool.eq_iff_iff, List.any_eq_true, List.any_eq_true]
    exact exists_congr fun b => and_congr_right fun hb => by rw [hsame b (List.mem_append_right _ hb)]
  have henable := getBit_enable_recording h
  refine ⟨by rw [h.fx, hquiet, Bool.or_false], ?_, hvalid⟩
  rw [hfex', hfex, fexValue, fexValue, hvalid, hsame .ox (by decide), hsame .ux (by decide),
    hsame .zx (by decide), hsame .xx (by decide), henable .ve (by decide), henable .oe (by decide),
    henable .ue (by decide), henable .ze (by decide), henable .xe (by decide)]

theorem FpscrUse.not_mem_bits {u : FpscrUse} {k : Nat} (h : k ∉ u.bits) :
    (u.fprf = true → k < 47 ∨ 51 < k) ∧ (u.frfi ≠ .untouched → k ≠ 45 ∧ k ≠ 46) ∧
    (u.fpcc = true → k < 48 ∨ 51 < k) ∧ (∀ b ∈ u.exc, b.index ≠ k) ∧ (u.exc ≠ [] → k < 32 ∨ 34 < k) := by
  simp only [FpscrUse.bits, List.mem_append, not_or] at h
  obtain ⟨⟨⟨⟨hfprf, hfrfi⟩, hfpcc⟩, hexc⟩, hsum⟩ := h
  refine ⟨fun hu => ?_, fun hu => ?_, fun hu => ?_, fun b hb heq => hexc ?_, fun hu => ?_⟩
  · simp only [hu, if_true, List.mem_cons, List.not_mem_nil, or_false] at hfprf
    omega
  · simpa [hu] using hfrfi
  · simp only [hu, if_true, List.mem_cons, List.not_mem_nil, or_false] at hfpcc
    omega
  · exact List.mem_map.2 ⟨b, hb, heq⟩
  · have hempty : u.exc.isEmpty = false := by simpa using hu
    simp only [hempty, Bool.false_eq_true, if_false, List.mem_cons, List.not_mem_nil, or_false] at hsum
    omega

/-- The FPSCR bits the row of an instruction does not list (10_state.md R45; 92_eei_decisions.md D15). -/
theorem Recording.kept {i : Instr} {exc : List FpscrBit} {frfi : FrFi} {w : Dword} {e : Effect}
    (h : Recording i exc frfi w e) (hw : fpscrConsistent w = true) {k : Nat} (hk : k < 64)
    (hnot : k ∉ (fpscrUse i).bits) : e.fpscr.getMsbD k = w.getMsbD k := by
  obtain ⟨hfprf, hfrfi, hfpcc, hexc, hsum⟩ := FpscrUse.not_mem_bits hnot
  by_cases hexception : ∃ b ∈ exceptionBits, b.index = k
  · obtain ⟨b, hb, rfl⟩ := hexception
    have hrec : occurs exc frfi b = false := by
      rw [← Bool.not_eq_true]
      exact fun hrec => hexc b (h.listed_of_recorded hrec) rfl
    exact (h.exception hb).trans (by rw [hrec, Bool.or_false, getBit])
  by_cases hsummary : 32 ≤ k ∧ k ≤ 34
  · have huse : (fpscrUse i).exc = [] := by
      by_contra huse
      have := hsum huse
      omega
    obtain ⟨hfx, hfex, hvx⟩ := h.summary_eq huse hw
    obtain rfl | rfl | rfl : k = 32 ∨ k = 33 ∨ k = 34 := by omega
    · exact hfx
    · exact hfex
    · exact hvx
  by_cases hfr : k = 45 ∨ k = 46
  · have huse : (fpscrUse i).frfi = .untouched := by
      by_contra huse
      have := hfrfi huse
      omega
    have hset := h.frfi_allowed
    have hfields := h.frfi_eq
    cases frfi with
    | set fr fi => simp [FrFi.allowedBy, huse] at hset
    | unchanged =>
      obtain rfl | rfl := hfr
      · exact hfields.1
      · exact hfields.2
  by_cases hfield : 47 ≤ k ∧ k ≤ 51
  · have hnofprf : (fpscrUse i).fprf = false := by
      rw [← Bool.not_eq_true]
      intro hu
      have := hfprf hu
      omega
    by_cases hc : k = 47
    · exact hc ▸ h.c_eq hnofprf
    · refine h.fprf_eq hnofprf ?_ hfield
      rw [← Bool.not_eq_true]
      intro hu
      have := hfpcc hu
      omega
  exact h.getMsbD_eq hk (fun b hb heq => hexception ⟨b, hb, heq⟩) (by omega) (by omega) (by omega)

/-- Settles O21: the frame bit by bit; exception bits and FX are only set. -/
theorem fpscrFrame : Obligations.FpscrFrame := by
  intro i s t hconsistent h
  obtain ⟨exc, frfi, hrec, ht⟩ := exec_recording h
  rw [ht]
  refine ⟨fun k hk hnot => hrec.kept hconsistent hk hnot, fun b hb hset => ?_, fun hcleared => ?_⟩
  · rw [List.mem_cons] at hb
    obtain rfl | hb := hb
    · rw [hrec.fx, hset, Bool.true_or]
    · rw [hrec.exception hb, hset, Bool.true_or]
  · have hallowed := hrec.frfi_allowed
    have hfields := hrec.frfi_eq
    cases frfi with
    | unchanged => simp [FrFi.allowedBy, hcleared] at hallowed
    | set fr fi =>
      obtain ⟨rfl, rfl⟩ : fr = false ∧ fi = false := by simpa [FrFi.allowedBy, hcleared] using hallowed
      exact hfields

end Sys2Proof.Machine
end

section
/-! The exceptions that occur in an instruction, told by a run with nothing recorded, and the invocation they
cause in the modes (60_exceptions.md R500 to R525; 92_eei_decisions.md D26; logs 24, 28). -/

namespace Sys2Proof.Machine

/-! The FPSCR with nothing recorded. -/

/-- The bits that record exceptions. -/
def recordingBits : List FpscrBit := .fx :: .fex :: .vx :: exceptionBits

theorem getMsbD_clearBits (l : List FpscrBit) (w : Dword) {k : Nat} (hk : k < 64) :
    (l.foldl (fun w b => setBit w b false) w).getMsbD k = (w.getMsbD k && !(l.map FpscrBit.index).contains k) := by
  induction l generalizing w with
  | nil => simp
  | cons b l ih =>
    rw [List.foldl_cons, ih, getMsbD_setBit _ _ _ hk]
    by_cases h : k = b.index
    · simp [h]
    · simp [h]

theorem getMsbD_unrecorded (w : Dword) {k : Nat} (hk : k < 64) :
    (unrecorded w).getMsbD k = (w.getMsbD k && !(recordingBits.map FpscrBit.index).contains k) :=
  getMsbD_clearBits recordingBits w hk

theorem getBit_unrecorded (w : Dword) {b : FpscrBit} (hb : b ∈ recordingBits) : getBit (unrecorded w) b = false := by
  have hindex : (recordingBits.map FpscrBit.index).contains b.index = true := by
    simpa using ⟨b, hb, rfl⟩
  rw [getBit, getMsbD_unrecorded w (index_lt b), hindex, Bool.not_true, Bool.and_false]

theorem sameControls_unrecorded (w : Dword) : SameControls w (unrecorded w) := by
  have hkept : ∀ k < 64, (recordingBits.map FpscrBit.index).contains k = false →
      (unrecorded w).getMsbD k = w.getMsbD k := fun k hk hnot => by
    rw [getMsbD_unrecorded w hk, hnot, Bool.not_false, Bool.and_true]
  constructor
  · rw [drnOf_eq, drnOf_eq, hkept 29 (by decide) (by decide), hkept 30 (by decide) (by decide),
      hkept 31 (by decide) (by decide)]
  all_goals exact hkept _ (by decide) (by decide)

theorem fpscrConsistent_unrecorded (w : Dword) : fpscrConsistent (unrecorded w) = true := by
  have hvx : vxValue (unrecorded w) = false := by
    rw [vxValue, List.any_eq_false]
    intro b hb
    rw [getBit_unrecorded w (List.mem_append_right [.fx, .fex, .vx, .ox, .ux, .zx, .xx] hb)]
    simp
  simp [fpscrConsistent_iff, hvx, fexValue, getBit_unrecorded w (b := .vx) (by decide),
    getBit_unrecorded w (b := .fex) (by decide), getBit_unrecorded w (b := .ox) (by decide),
    getBit_unrecorded w (b := .ux) (by decide), getBit_unrecorded w (b := .zx) (by decide),
    getBit_unrecorded w (b := .xx) (by decide)]

/-! What occurs. -/

/-- What occurs in `i` at `s`: the exceptions that the run with nothing recorded shows, and the ones the
instruction records at `s`. -/
structure Occurs (i : Instr) (s : State) (exc : List FpscrBit) (frfi : FrFi) : Prop where
  here : Recording i exc frfi s.fpscr (effectOf i s)
  bits : ∀ b ∈ exceptionBits, getBit (occurrences i s) b = occurs exc frfi b
  enables : ∀ b ∈ [FpscrBit.ve, .oe, .ue, .ze, .xe], getBit (occurrences i s) b = getBit s.fpscr b
  consistent : fpscrConsistent (occurrences i s) = true

theorem exists_occurs {i : Instr} (hwf : wellFormed i = true) (s : State) : ∃ exc frfi, Occurs i s exc frfi := by
  obtain ⟨exc, frfi, hrec⟩ := effectOf_recording i s
  have hclean := hrec _ (sameControls_unrecorded s.fpscr)
  have hoccurrences : occurrences i s =
      (effectOf i { s with fpscr := unrecorded s.fpscr }).fpscr := by
    rw [occurrences, exec_wellFormed hwf]
    exact commit_fpscr ..
  refine ⟨exc, frfi, hrec _ (.refl _), fun b hb => ?_, fun b hb => ?_, ?_⟩
  · rw [hoccurrences, hclean.exception hb,
      getBit_unrecorded _ (List.mem_append_right [.fx, .fex, .vx] hb), Bool.false_or]
  · rw [hoccurrences, getBit_enable_recording hclean b hb]
    obtain ⟨-, hve, hoe, hue, hze, hxe⟩ := sameControls_unrecorded s.fpscr
    simp only [List.mem_cons, List.not_mem_nil, or_false] at hb
    rcases hb with rfl | rfl | rfl | rfl | rfl <;> assumption
  · rw [hoccurrences]
    exact hclean.consistent (fpscrConsistent_unrecorded _)

theorem mem_enabledExceptions (exc : List FpscrBit) (frfi : FrFi) (w : Dword) :
    (.invalidOperation ∈ enabledExceptions exc frfi w ↔ hasInvalid exc = true ∧ getBit w .ve = true) ∧
    (.zeroDivide ∈ enabledExceptions exc frfi w ↔ exc.contains .zx = true ∧ getBit w .ze = true) ∧
    (.overflow ∈ enabledExceptions exc frfi w ↔ exc.contains .ox = true ∧ getBit w .oe = true) ∧
    (.underflow ∈ enabledExceptions exc frfi w ↔ exc.contains .ux = true ∧ getBit w .ue = true) ∧
    (.inexact ∈ enabledExceptions exc frfi w ↔ (exc.contains .xx || frfi.inexact) = true ∧ getBit w .xe = true) := by
  have hmem : ∀ (c : Bool) (d d' : DfpException), d ∈ (if c then [d'] else []) ↔ d = d' ∧ c = true := by
    intro c d d'
    cases c <;> simp
  simp only [enabledExceptions, List.mem_append, hmem]
  simp only [Bool.and_eq_true, reduceCtorEq, false_and, or_false, false_or, true_and, and_self]

theorem hasInvalid_iff (exc : List FpscrBit) (frfi : FrFi) :
    hasInvalid exc = true ↔ ∃ b ∈ invalidBits, occurs exc frfi b = true := by
  have hxx : ∀ b ∈ invalidBits, b ≠ .xx := by decide
  simp only [hasInvalid, List.any_eq_true, List.contains_iff_mem, occurs, Bool.or_eq_true, Bool.and_eq_true,
    decide_eq_true_eq]
  exact ⟨fun ⟨b, hexc, hb⟩ => ⟨b, hb, .inl hexc⟩,
    fun ⟨b, hb, hocc⟩ => ⟨b, hocc.resolve_right fun h => hxx b hb h.1, hb⟩⟩

section
variable {i : Instr} {s : State} {exc : List FpscrBit} {frfi : FrFi}

/-- VX of the run with nothing recorded: some Invalid Operation occurs. -/
theorem Occurs.vx (h : Occurs i s exc frfi) : getBit (occurrences i s) .vx = true ↔ hasInvalid exc = true := by
  rw [((fpscrConsistent_iff _).1 h.consistent).1, vxValue, List.any_eq_true, hasInvalid_iff exc frfi]
  exact exists_congr fun b => and_congr_right fun hb => by rw [h.bits b (List.mem_append_right _ hb)]

/-- The causes at `s` are the enabled exceptions that occur. -/
theorem Occurs.causesRecorded (h : Occurs i s exc frfi) :
    causesRecorded (occurrences i s) (effectOf i s).causes := by
  have hbits := h.bits
  have henables := h.enables
  obtain ⟨hinvalid, hzero, hover, hunder, hinexact⟩ := mem_enabledExceptions exc frfi s.fpscr
  rw [h.here.causes, Machine.causesRecorded, hinvalid, hzero, hover, hunder, hinexact, h.vx,
    hbits .zx (by decide), hbits .ox (by decide), hbits .ux (by decide), hbits .xx (by decide),
    henables .ve (by decide), henables .ze (by decide), henables .oe (by decide), henables .ue (by decide),
    henables .xe (by decide)]
  simp [occurs]

/-- FEX of the run with nothing recorded: the instruction has a cause. -/
theorem Occurs.enabledOccurs_iff (h : Occurs i s exc frfi) : enabledOccurs i s ↔ (effectOf i s).causes ≠ [] := by
  obtain ⟨hinvalid, hzero, hover, hunder, hinexact⟩ := h.causesRecorded
  rw [enabledOccurs, ((fpscrConsistent_iff _).1 h.consistent).2, fexValue]
  simp only [Bool.or_eq_true, Bool.and_eq_true]
  rw [← hinvalid, ← hzero, ← hover, ← hunder, ← hinexact]
  constructor
  · rintro ((((hc | hc) | hc) | hc) | hc) <;> exact List.ne_nil_of_mem hc
  · intro hne
    obtain ⟨c, hc⟩ := List.exists_mem_of_ne_nil _ hne
    cases c with
    | invalidOperation => exact .inl (.inl (.inl (.inl hc)))
    | overflow => exact .inl (.inl (.inl (.inr hc)))
    | underflow => exact .inl (.inl (.inr hc))
    | zeroDivide => exact .inl (.inr hc)
    | inexact => exact .inr hc

/-- An exception bit after the instruction: recorded before, or occurring. -/
theorem Occurs.exception (h : Occurs i s exc frfi) {b : FpscrBit} (hb : b ∈ exceptionBits) :
    getBit (effectOf i s).fpscr b = (getBit s.fpscr b || getBit (occurrences i s) b) := by
  rw [h.here.exception hb, h.bits b hb]

/-- With no enabled exception occurring an instruction completes, in every mode. -/
theorem Occurs.completed (h : Occurs i s exc frfi) (hnot : ¬ enabledOccurs i s) (rc : Bool) :
    completed s (commit rc (effectOf i s) s) := by
  rw [h.enabledOccurs_iff, not_not] at hnot
  rw [commit_no_causes rc hnot]
  exact completed_advance_applyEffect ..

end

/-! Precise Mode. -/

/-- Settles O27: the handler is invoked at the instruction exactly when it has a cause. -/
theorem preciseTrap : Obligations.PreciseTrap := by
  intro i s hwf h0 h1
  obtain ⟨exc, frfi, h⟩ := exists_occurs hwf s
  refine ⟨_, exec_wellFormed hwf s, fun hoccurs => ?_, fun hnot => h.completed hnot _, fun b hb => ?_⟩
  · rw [commit_precise _ (h.enabledOccurs_iff.1 hoccurs) h0 h1]
    exact ⟨rfl, rfl, rfl, rfl⟩
  · rw [commit_fpscr, h.exception hb]

/-! The imprecise modes. -/

theorem exceptionMode_imprecise {s : State} (h : s.fe0 ≠ s.fe1) :
    exceptionMode s = .impreciseNonrecoverable ∨ exceptionMode s = .impreciseRecoverable := by
  unfold exceptionMode
  cases h0 : s.fe0 <;> cases h1 : s.fe1 <;> simp_all

/-- An instruction with a cause, in an imprecise mode, defers its invocation. -/
theorem commit_imprecise (rc : Bool) {e : Effect} (hc : e.causes ≠ []) {s : State} (hmode : s.fe0 ≠ s.fe1) :
    commit rc e s = deferTrap advance e.causes (applyEffect rc e s) :=
  oweHandler_imprecise _ hc (exceptionMode_imprecise hmode)

/-- Settles O28: the invocation deferred has the delay and the causes of the instruction. -/
theorem impreciseDeferral : Obligations.ImpreciseDeferral := by
  intro i s hwf hmode hp
  obtain ⟨exc, frfi, h⟩ := exists_occurs hwf s
  have hdefer : ∀ (rc : Bool) (u : State), u = applyEffect rc (effectOf i s) s →
      u.pending = none ∧ nextDelay u = nextDelay s := by
    rintro rc u rfl
    exact ⟨hp, rfl⟩
  refine ⟨_, exec_wellFormed hwf s, fun hoccurs hd => ?_, fun hoccurs hd => ?_, fun hnot => h.completed hnot _⟩
  · rw [commit_imprecise _ (h.enabledOccurs_iff.1 hoccurs) hmode, deferTrap]
    obtain ⟨hup, hud⟩ := hdefer _ _ rfl
    rw [hup, hud]
    simp only [hd, if_true]
    simp
  · rw [commit_imprecise _ (h.enabledOccurs_iff.1 hoccurs) hmode, deferTrap]
    obtain ⟨hup, hud⟩ := hdefer _ _ rfl
    rw [hup, hud]
    simp only [hd, if_false]
    exact ⟨by simp, by simp, _, rfl, rfl, h.enabledOccurs_iff.1 hoccurs, h.causesRecorded⟩

/-- Settles O29: the causes of the instruction, if any, are put after those pending. -/
theorem secondExceptionJoins : Obligations.SecondExceptionJoins := by
  intro i s p hwf hmode hp
  obtain ⟨exc, frfi, h⟩ := exists_occurs hwf s
  refine ⟨_, exec_wellFormed hwf s, ?_⟩
  by_cases hoccurs : enabledOccurs i s
  · have hc := h.enabledOccurs_iff.1 hoccurs
    rw [commit_imprecise _ hc hmode, deferTrap, applyEffect_pending, hp]
    exact ⟨rfl, rfl, rfl, fun b hb => h.exception hb, _, rfl, rfl, fun hnot => absurd hoccurs hnot,
      fun _ => ⟨_, rfl, hc, h.causesRecorded⟩⟩
  · obtain ⟨hpc, htrap, hpending, hdelays, -⟩ := h.completed hoccurs (rcOf i == some true)
    refine ⟨htrap, hpc, hdelays, fun b hb => ?_, p, hpending.trans hp, rfl, fun _ => rfl, fun h => absurd h hoccurs⟩
    rw [commit_fpscr, h.exception hb]

/-! An enabled Invalid Operation. -/

theorem compareCode_of_nan {ordered ve : Bool} {a b : Datum} (h : compareExc ordered ve a b ≠ []) :
    compareCode a b = codeUnordered := by
  cases a with
  | qnan | snan => cases b <;> rfl
  | finite | inf =>
    cases b with
    | qnan | snan => rfl
    | finite | inf => exact absurd rfl h

theorem hasInvalid_of_mem_causes {exc : List FpscrBit} {frfi : FrFi} {w : Dword}
    (h : .invalidOperation ∈ enabledExceptions exc frfi w) :
    hasInvalid exc = true ∧ suppresses exc w = true ∧ exc ≠ [] := by
  obtain ⟨hinvalid, hve⟩ := (mem_enabledExceptions exc frfi w).1.1 h
  refine ⟨hinvalid, by simp [suppresses, hinvalid, hve], ?_⟩
  rintro rfl
  simp [hasInvalid] at hinvalid

/-- What an instruction does that has an enabled Invalid Operation as a cause, by the shape of its effect
(60_exceptions.md R531). -/
theorem effectOf_of_invalid {i : Instr} {s : State} (h : .invalidOperation ∈ (effectOf i s).causes) :
    (effectOf i s).fprs = [] ∧
    (bfOf i = none → fprfOf (effectOf i s).fpscr = fprfOf s.fpscr ∧
      getBit (effectOf i s).fpscr .fr = false ∧ getBit (effectOf i s).fpscr .fi = false) ∧
    (∀ bf, bfOf i = some bf → fpccOf (effectOf i s).fpscr = codeUnordered ∧
      getBit (effectOf i s).fpscr .fr = getBit s.fpscr .fr ∧ getBit (effectOf i s).fpscr .fi = getBit s.fpscr .fi ∧
      getBit (effectOf i s).fpscr .c = getBit s.fpscr .c) := by
  cases effectOf_shape i s with
  | deliver writes r he hbf _ hr =>
    rw [he] at h ⊢
    obtain ⟨hinvalid, hs, -⟩ := hasInvalid_of_mem_causes h
    obtain ⟨hfr, hfi⟩ := setFpscr_frfi r.exc false false .unchanged s.fpscr
    simp only [deliver, resultFpscr, hs, if_true, hbf, reduceCtorEq, false_implies, implies_true, and_true, true_and,
      forall_const]
    exact ⟨setFpscr_fprf_unchanged (fun b hb => hr.exc_index hb) _ _, hfr, hfi⟩
  | compare ordered bf a b he hbf =>
    rw [he] at h ⊢
    obtain ⟨-, -, hne⟩ := hasInvalid_of_mem_causes h
    obtain ⟨hfpcc, -, hfr, hfi, hc⟩ := compareEffect_fpscr ordered bf a b s.fpscr
    refine ⟨rfl, fun hnone => ?_, fun _ _ => ⟨?_, hfr, hfi, hc⟩⟩
    · simp [hbf] at hnone
    · rw [hfpcc, ← compareCode_eq_figure24, compareCode_of_nan hne]
  | test _ _ he => simp [he, testEffect] at h
  | toFixed frt x he hbf _ _ hx =>
    rw [he] at h ⊢
    obtain ⟨-, hs, hne⟩ := hasInvalid_of_mem_causes h
    obtain ⟨-, hxfr, hxfi⟩ := hx.resolve_left hne
    have hindex : ∀ b ∈ x.exc, b.index < 47 ∨ 51 < b.index := by
      intro b hb
      obtain hnone | ⟨hbits, -⟩ := toFixed_kinds hx
      · exact absurd hnone hne
      · rcases hbits b hb with rfl | rfl <;> decide
    obtain ⟨hfr, hfi⟩ := setFpscr_frfi x.exc x.fr x.fi .unchanged s.fpscr
    simp only [toFixedEffect, hs, if_true, hbf, reduceCtorEq, false_implies, implies_true, and_true, true_and,
      forall_const]
    exact ⟨setFpscr_fprf_unchanged hindex _ _, hfr.trans hxfr, hfi.trans hxfi⟩
  | dctdp _ _ he => simp [he, dctdpEffect] at h
  | dcffixq _ _ he => simp [he, dcffixqEffect] at h
  | plain _ he => simp [he, plainEffect] at h

/-- Settles O32: an Invalid Operation that occurs is a cause when VE is 1, and then nothing is stored. -/
theorem invalidEnabledSuppresses : Obligations.InvalidEnabledSuppresses := by
  intro i s t b h hve hb hocc
  obtain ⟨hwf, rfl⟩ := exec_next.1 h
  obtain ⟨exc, frfi, ho⟩ := exists_occurs hwf s
  have hexception : b ∈ exceptionBits := List.mem_append_right _ hb
  have hcause : .invalidOperation ∈ (effectOf i s).causes := by
    rw [ho.here.causes, (mem_enabledExceptions exc frfi s.fpscr).1, hasInvalid_iff exc frfi]
    exact ⟨⟨b, hb, ho.bits b hexception ▸ hocc⟩, hve⟩
  obtain ⟨hfprs, htarget, hcompare⟩ := effectOf_of_invalid hcause
  refine ⟨?_, ?_, fun hbf => ?_, fun bf hbf => ?_⟩
  · rw [commit_fpscr, ho.exception hexception, hocc, Bool.or_true]
  · rw [commit_fpr, hfprs, writeFprs_nil]
  · rw [commit_fpscr]
    exact htarget hbf
  · obtain ⟨hfpcc, hfr, hfi, hc⟩ := hcompare bf hbf
    rw [readCr, exec_cr_of_bfOf hbf h, commit_fpscr]
    refine ⟨hfpcc, ?_, hfr, hfi, hc⟩
    rw [readCr_writeCrField_same, hfpcc]
    rfl

end Sys2Proof.Machine
end

section
/-! Results without rounding: the entries of the action tables (42_arithmetic.md R270 to R272;
45_quantum_adjustment.md R353, R357, R360, R361; 46_conversion.md R388) and the exact zeros
(41_execution_model.md R218, R220). -/

namespace Sys2Proof.Machine

/-! The two outcomes. -/

theorem suppresses_nil (w : Dword) : suppresses [] w = false := rfl

theorem hasInvalid_singleton {b : FpscrBit} (hb : b ∈ invalidBits) : hasInvalid [b] = true := by
  simp [hasInvalid, hb]

theorem suppresses_invalid {b : FpscrBit} (hb : b ∈ invalidBits) (w : Dword) :
    suppresses [b] w = getBit w .ve := by
  have hzx : b ≠ .zx := by
    rintro rfl
    exact absurd hb (by decide)
  simp [suppresses, hasInvalid_singleton hb, hzx.symm]

/-- An instruction that delivers a datum without rounding and without exception completes. -/
theorem exec_exactOutcome {i : Instr} {s : State} {writes : Fmt → Datum → List (FprNum × Dword)} {f : Fmt}
    {d : Datum} {frt : FprNum} (hwf : wellFormed i = true)
    (he : effectOf i s = deliver writes (exactResult f d) s.fpscr) (hfits : d.fits f = true)
    (hplace : placesAt writes f frt) :
    ∃ t, exec i s = .next t ∧ completed s t ∧ exactOutcome s t f frt d := by
  obtain ⟨t, hexec, ht⟩ := exec_delivers hwf he (exactResult_within f d []) hfits hplace
  obtain ⟨hread, hfprf⟩ := ht.stored (suppresses_nil _)
  refine ⟨t, hexec, ?_, hread, hfprf, ht.fr, ht.fi, fun b hb _ => ?_⟩
  · obtain ⟨-, rfl⟩ := exec_next.1 hexec
    have hcauses : (effectOf i s).causes = [] := by
      rw [he]
      simp [deliver, exactResult, enabledExceptions, hasInvalid, FrFi.inexact]
    rw [commit_no_causes _ hcauses]
    exact completed_advance_applyEffect ..
  · simp [ht.bits b hb, exactResult]

/-- An instruction with an Invalid Operation that delivers a quiet NaN if it may. -/
theorem exec_invalidOutcome {i : Instr} {s : State} {writes : Fmt → Datum → List (FprNum × Dword)} {f : Fmt}
    {b : FpscrBit} {sg : Bool} {y : Nat} {frt : FprNum} (hwf : wellFormed i = true)
    (he : effectOf i s = deliver writes (exceptionResult f b (.qnan sg y)) s.fpscr) (hb : b ∈ invalidBits)
    (hfits : (Datum.qnan sg y).fits f = true) (hplace : placesAt writes f frt) :
    ∃ t, exec i s = .next t ∧ (noInvocation s = true → completed s t) ∧ invalidOutcome s t b f frt (.qnan sg y) := by
  obtain ⟨t, hexec, ht⟩ :=
    exec_delivers hwf he (exceptionResult_within f _ (List.mem_singleton_self b) (.inl hb)) hfits hplace
  have hbits : ∀ x ∈ exceptionBits, getBit t.fpscr x = (decide (x = b) || getBit s.fpscr x) := fun x hx => by
    rw [ht.bits x hx]
    simp [exceptionResult]
  have hsuppresses : suppresses (exceptionResult f b (.qnan sg y)).exc s.fpscr = getBit s.fpscr .ve :=
    suppresses_invalid hb _
  refine ⟨t, hexec, ht.completes, ?_, fun x hx hne => ?_, ht.fr, ht.fi, fun hve => ?_, fun hve => ?_⟩
  · simp [hbits b (List.mem_append_right _ hb)]
  · simpa [hbits x hx] using fun h => absurd h (by simpa using hne)
  · exact ht.suppressed (hsuppresses.trans hve)
  · exact ht.stored (hsuppresses.trans hve)

/-! The entries of the action tables. -/

/-- The result that an entry of an action table stands for. -/
def entryResult (f : Fmt) (d : Datum) (o : Option FpscrBit) : Result :=
  match o with
  | none => exactResult f d
  | some b => exceptionResult f b d

/-- The datum of an entry is one of the format, and a quiet NaN where the entry names an Invalid Operation. -/
structure Entry (f : Fmt) (d : Datum) (o : Option FpscrBit) : Prop where
  fits : d.fits f = true
  invalid : ∀ b, o = some b → b ∈ invalidBits ∧ ∃ sg y, d = .qnan sg y

/-- What the statements about the action tables say of an entry. -/
def entryOutcome (s t : State) (f : Fmt) (frt : FprNum) (d : Datum) (o : Option FpscrBit) : Prop :=
  match o with
  | none => exactOutcome s t f frt d ∧ completed s t
  | some b => invalidOutcome s t b f frt d

theorem exec_entryOutcome {i : Instr} {s : State} {writes : Fmt → Datum → List (FprNum × Dword)} {f : Fmt}
    {d : Datum} {o : Option FpscrBit} {frt : FprNum} (hwf : wellFormed i = true)
    (he : effectOf i s = deliver writes (entryResult f d o) s.fpscr) (hentry : Entry f d o)
    (hplace : placesAt writes f frt) :
    ∃ t, exec i s = .next t ∧ (noInvocation s = true → completed s t) ∧ entryOutcome s t f frt d o := by
  cases o with
  | none =>
    obtain ⟨t, hexec, hcompleted, hexact⟩ := exec_exactOutcome hwf he hentry.fits hplace
    exact ⟨t, hexec, fun _ => hcompleted, hexact, hcompleted⟩
  | some b =>
    obtain ⟨hb, sg, y, rfl⟩ := hentry.invalid b rfl
    exact exec_invalidOutcome hwf he hb hentry.fits hplace

theorem fits_of_payload {f : Fmt} {d : Datum} {sg : Bool} {y : Nat} (h : d.fits f = true)
    (hd : d = .inf sg y ∨ d = .qnan sg y ∨ d = .snan sg y) : y < 10 ^ (f.precision - 1) := by
  rcases hd with rfl | rfl | rfl <;> simpa [Datum.fits] using h

theorem entry_qnan {f : Fmt} {sg : Bool} {y : Nat} (hy : y < 10 ^ (f.precision - 1)) {o : Option FpscrBit}
    (ho : ∀ b, o = some b → b ∈ invalidBits) : Entry f (.qnan sg y) o :=
  ⟨by simpa [Datum.fits] using hy, fun b hb => ⟨ho b hb, sg, y, rfl⟩⟩

theorem entry_exact {f : Fmt} {d : Datum} (h : d.fits f = true) : Entry f d none := ⟨h, by simp⟩

theorem entry_default {f : Fmt} {b : FpscrBit} (hb : b ∈ invalidBits) : Entry f (.qnan false 0) (some b) :=
  entry_qnan (by positivity) (by simpa using hb)

/-- The NaN rows and columns: the model's are those of the tables. -/
theorem withNaNs_of_nanRow {f : Fmt} {a b d : Datum} {o : Option FpscrBit} (h : nanRow a b = some (d, o))
    (r : Result) : withNaNs f a b r = entryResult f d o := by
  cases a <;> cases b <;> simp only [nanRow, Option.some.injEq, Prod.mk.injEq, reduceCtorEq] at h <;>
    obtain ⟨rfl, rfl⟩ := h <;> rfl

theorem nanRow_entry {f : Fmt} {a b d : Datum} {o : Option FpscrBit} (h : nanRow a b = some (d, o))
    (ha : a.fits f = true) (hb : b.fits f = true) : Entry f d o := by
  unfold nanRow at h
  split at h
  case h_1 sg y _ =>
    obtain ⟨rfl, rfl⟩ := Prod.mk.inj (Option.some.inj h)
    exact entry_qnan (fits_of_payload ha (.inr (.inr rfl))) (by simp; decide)
  case h_2 sg y _ =>
    obtain ⟨rfl, rfl⟩ := Prod.mk.inj (Option.some.inj h)
    exact entry_qnan (fits_of_payload hb (.inr (.inr rfl))) (by simp; decide)
  case h_3 sg y _ _ =>
    obtain ⟨rfl, rfl⟩ := Prod.mk.inj (Option.some.inj h)
    exact entry_qnan (fits_of_payload ha (.inr (.inl rfl))) (by simp)
  case h_4 sg y _ _ _ =>
    obtain ⟨rfl, rfl⟩ := Prod.mk.inj (Option.some.inj h)
    exact entry_qnan (fits_of_payload hb (.inr (.inl rfl))) (by simp)
  case h_5 => simp at h

/-- A result is the one of a table's entry. -/
structure IsEntry (r : Result) (f : Fmt) (d : Datum) (o : Option FpscrBit) : Prop where
  result : r = entryResult f d o
  entry : Entry f d o

/-- Figure 21, Add (42_arithmetic.md R270). -/
theorem addResult_isEntry {f : Fmt} (env : RoundEnv) {a b d : Datum} {o : Option FpscrBit}
    (h : figure21 a b = some (d, o)) (ha : a.fits f = true) (hb : b.fits f = true) :
    IsEntry (addResult f env a b) f d o := by
  unfold figure21 at h
  split at h
  case h_8 => exact ⟨withNaNs_of_nanRow h _, nanRow_entry h ha hb⟩
  all_goals obtain ⟨rfl, rfl⟩ := Prod.mk.inj (Option.some.inj h)
  case h_3 | h_5 => exact ⟨rfl, entry_default (by decide)⟩
  all_goals exact ⟨rfl, entry_exact (defaultInf_fits ..)⟩

theorem subtrahend_eq_negated (b : Datum) : subtrahend b = negated b := by cases b <;> rfl

theorem negated_fits {f : Fmt} {b : Datum} (h : b.fits f = true) : (negated b).fits f = true := by
  cases b <;> exact h

theorem subResult_isEntry {f : Fmt} (env : RoundEnv) {a b d : Datum} {o : Option FpscrBit}
    (h : figure21 a (negated b) = some (d, o)) (ha : a.fits f = true) (hb : b.fits f = true) :
    IsEntry (subResult f env a b) f d o := by
  rw [subResult, subtrahend_eq_negated]
  exact addResult_isEntry env h ha (negated_fits hb)

/-- Figure 22, Multiply (42_arithmetic.md R271). -/
theorem mulResult_isEntry {f : Fmt} (env : RoundEnv) {a b d : Datum} {o : Option FpscrBit}
    (h : figure22 a b = some (d, o)) (ha : a.fits f = true) (hb : b.fits f = true) :
    IsEntry (mulResult f env a b) f d o := by
  have htimes : ∀ (s : Bool) (c : Nat),
      (if c = 0 then some (Datum.qnan false 0, some FpscrBit.vximz) else some (.inf s 0, none)) = some (d, o) →
      IsEntry (infTimes f s c) f d o := by
    intro s c h
    unfold infTimes
    split at h <;> rename_i hc <;> obtain ⟨rfl, rfl⟩ := Prod.mk.inj (Option.some.inj h)
    · exact ⟨if_pos hc, entry_default (by decide)⟩
    · exact ⟨if_neg hc, entry_exact (defaultInf_fits ..)⟩
  unfold figure22 at h
  split at h
  case h_1 => exact htimes _ _ h
  case h_2 => exact htimes _ _ h
  case h_3 =>
    obtain ⟨rfl, rfl⟩ := Prod.mk.inj (Option.some.inj h)
    exact ⟨rfl, entry_exact (defaultInf_fits ..)⟩
  case h_4 => exact ⟨withNaNs_of_nanRow h _, nanRow_entry h ha hb⟩

theorem trueZero_fits (f : Fmt) (s : Bool) : (Datum.finite s 0 f.xmin).fits f = true := by cases f <;> rfl

/-- Figure 23, Divide (42_arithmetic.md R272). -/
theorem divResult_isEntry {f : Fmt} (env : RoundEnv) {a b d : Datum} {o : Option FpscrBit}
    (h : figure23 f a b = some (d, o)) (ha : a.fits f = true) (hb : b.fits f = true) :
    IsEntry (divResult f env a b) f d o := by
  unfold figure23 at h
  split at h
  case h_1 =>
    obtain ⟨⟨hca, hcb⟩, h⟩ := Option.ite_none_right_eq_some.1 h
    obtain ⟨rfl, rfl⟩ := Prod.mk.inj (Option.some.inj h)
    exact ⟨(if_pos hcb).trans (if_pos hca), entry_default (by decide)⟩
  case h_5 => exact ⟨withNaNs_of_nanRow h _, nanRow_entry h ha hb⟩
  all_goals obtain ⟨rfl, rfl⟩ := Prod.mk.inj (Option.some.inj h)
  case h_2 => exact ⟨rfl, entry_exact (trueZero_fits ..)⟩
  case h_3 => exact ⟨rfl, entry_exact (defaultInf_fits ..)⟩
  case h_4 => exact ⟨rfl, entry_default (by decide)⟩

/-- Figure 28, Quantize (45_quantum_adjustment.md R353). -/
theorem quantizeResult_isEntry {f : Fmt} (mode : Mode) {a b d : Datum} {o : Option FpscrBit}
    (h : figure28 a b = some (d, o)) (ha : a.fits f = true) (hb : b.fits f = true) :
    IsEntry (quantizeResult f mode a b) f d o := by
  unfold figure28 at h
  split at h
  case h_4 => exact ⟨withNaNs_of_nanRow h _, nanRow_entry h ha hb⟩
  all_goals obtain ⟨rfl, rfl⟩ := Prod.mk.inj (Option.some.inj h)
  case h_3 => exact ⟨rfl, entry_exact (defaultInf_fits ..)⟩
  all_goals exact ⟨rfl, entry_default (by decide)⟩

/-- The entries of Figures 30 to 32 (45_quantum_adjustment.md R357, R360, R361). -/
theorem figure31_entry {f : Fmt} {b d : Datum} {o : Option FpscrBit} (h : figure31 b = some (d, o))
    (hb : b.fits f = true) : Entry f d o := by
  cases b <;> simp only [figure31, Option.some.injEq, Prod.mk.injEq, reduceCtorEq] at h <;> obtain ⟨rfl, rfl⟩ := h
  case inf => exact entry_exact (defaultInf_fits ..)
  case qnan => exact entry_qnan (fits_of_payload hb (.inr (.inl rfl))) (by simp)
  case snan => exact entry_qnan (fits_of_payload hb (.inr (.inr rfl))) (by simp; decide)

theorem reroundResult_isEntry {f : Fmt} (mode : Mode) (k : Nat) {b d : Datum} {o : Option FpscrBit}
    (h : figure31 b = some (d, o)) (hb : b.fits f = true) : IsEntry (reroundResult f mode k b) f d o := by
  refine ⟨?_, figure31_entry h hb⟩
  cases b <;> simp only [figure31, Option.some.injEq, Prod.mk.injEq, reduceCtorEq] at h <;> obtain ⟨rfl, rfl⟩ := h <;> rfl

theorem roundToIntResult_isEntry {f : Fmt} (mode : Mode) (x : Bool) {b d : Datum} {o : Option FpscrBit}
    (h : figure31 b = some (d, o)) (hb : b.fits f = true) : IsEntry (roundToIntResult f mode x b) f d o := by
  refine ⟨?_, figure31_entry h hb⟩
  cases b <;> simp only [figure31, Option.some.injEq, Prod.mk.injEq, reduceCtorEq] at h <;> obtain ⟨rfl, rfl⟩ := h <;> rfl

theorem fitPayload_lt (f : Fmt) (y : Nat) : y % 10 ^ (f.precision - 1) < 10 ^ (f.precision - 1) :=
  Nat.mod_lt _ (by positivity)

/-- Figure 33 for the conversions that signal (46_conversion.md R388). -/
theorem convertResult_isEntry_signaling {f : Fmt} (finite : Bool → Nat → Int → Result) {b d : Datum}
    {o : Option FpscrBit} (h : figure33Signaling f.precision b = some (d, o)) :
    IsEntry (convertResult f true finite b) f d o := by
  cases b <;> simp only [figure33Signaling, Option.some.injEq, Prod.mk.injEq, reduceCtorEq] at h <;>
    obtain ⟨rfl, rfl⟩ := h
  case inf => exact ⟨rfl, entry_exact (defaultInf_fits ..)⟩
  case qnan => exact ⟨rfl, entry_qnan (fitPayload_lt ..) (by simp)⟩
  case snan => exact ⟨rfl, entry_qnan (fitPayload_lt ..) (by simp; decide)⟩

/-- Figure 33 for Round To DFP32, which keeps an SNaN (46_conversion.md R388). -/
theorem convertResult_isEntry_quiet {f : Fmt} (finite : Bool → Nat → Int → Result) {b d : Datum}
    {o : Option FpscrBit} (h : figure33Quiet f.precision b = some (d, o)) :
    IsEntry (convertResult f false finite b) f d o := by
  cases b <;> simp only [figure33Quiet, Option.some.injEq, Prod.mk.injEq, reduceCtorEq] at h <;>
    obtain ⟨rfl, rfl⟩ := h <;> exact ⟨rfl, entry_exact (by simpa [Datum.fits] using fitPayload_lt ..)⟩

/-! The instructions on operands that are not all finite. -/

/-- An instruction that puts an entry's datum in its target has the outcome of the entry. -/
theorem exec_isEntry {i : Instr} {s : State} {f : Fmt} {r : Result} {d : Datum} {o : Option FpscrBit}
    {frt : FprNum} (hwf : wellFormed i = true) (hv : validReg f frt = true)
    (he : effectOf i s = deliver (fun g d => datumWrites g frt d) r s.fpscr) (hr : IsEntry r f d o) :
    ∃ t, exec i s = .next t ∧ (noInvocation s = true → completed s t) ∧ entryOutcome s t f frt d o :=
  exec_entryOutcome hwf (he.trans (by rw [hr.result])) hr.entry (placesAt_datumWrites hv)

theorem triple_inj {α β γ : Type} {a a' : α} {b b' : β} {c c' : γ} (h : (a, b, c) = (a', b', c')) :
    a = a' ∧ b = b' ∧ c = c' := by simpa using h

/-- Settles O41: each entry of Figures 21 to 23 is the result delivered. -/
theorem arithmeticSpecials : Obligations.ArithmeticSpecials := by
  intro i s f frt d o hwf h
  suffices hsuff : ∃ t, exec i s = .next t ∧ (noInvocation s = true → completed s t) ∧
      entryOutcome s t f frt d o by
    cases o <;> exact hsuff
  have hfits := readDatum_fits
  cases i with
  | dadd =>
    obtain ⟨rfl, rfl, hfig⟩ := triple_inj h
    exact exec_isEntry hwf rfl rfl (addResult_isEntry _ hfig (hfits ..) (hfits ..))
  | daddq =>
    obtain ⟨rfl, rfl, hfig⟩ := triple_inj h
    exact exec_isEntry hwf (validReg_of_evenRegs hwf) rfl (addResult_isEntry _ hfig (hfits ..) (hfits ..))
  | dsub =>
    obtain ⟨rfl, rfl, hfig⟩ := triple_inj h
    exact exec_isEntry hwf rfl rfl (subResult_isEntry _ hfig (hfits ..) (hfits ..))
  | dsubq =>
    obtain ⟨rfl, rfl, hfig⟩ := triple_inj h
    exact exec_isEntry hwf (validReg_of_evenRegs hwf) rfl (subResult_isEntry _ hfig (hfits ..) (hfits ..))
  | dmul =>
    obtain ⟨rfl, rfl, hfig⟩ := triple_inj h
    exact exec_isEntry hwf rfl rfl (mulResult_isEntry _ hfig (hfits ..) (hfits ..))
  | dmulq =>
    obtain ⟨rfl, rfl, hfig⟩ := triple_inj h
    exact exec_isEntry hwf (validReg_of_evenRegs hwf) rfl (mulResult_isEntry _ hfig (hfits ..) (hfits ..))
  | ddiv =>
    obtain ⟨rfl, rfl, hfig⟩ := triple_inj h
    exact exec_isEntry hwf rfl rfl (divResult_isEntry _ hfig (hfits ..) (hfits ..))
  | ddivq =>
    obtain ⟨rfl, rfl, hfig⟩ := triple_inj h
    exact exec_isEntry hwf (validReg_of_evenRegs hwf) rfl (divResult_isEntry _ hfig (hfits ..) (hfits ..))
  | _ => simp [arithmeticSpecial] at h

/-- The target of a quad form with two pairs names a pair (30_encoding.md R108). -/
theorem validReg_of_evenPair {frt frb : FprNum} (h : (evenReg frt && evenReg frb) = true) :
    validReg .dfp128 frt = true := (Bool.and_eq_true_iff.1 h).1

theorem immediateQuantum_fits (te : BitVec 5) : ∀ f, (immediateQuantum te).fits f = true := by
  have hlo := te.le_toInt
  have hhi := te.toInt_lt
  intro f
  simp only [immediateQuantum, Datum.fits, Bool.and_eq_true, decide_eq_true_eq]
  refine ⟨⟨Nat.one_lt_pow f.precision_pos.ne' (by decide), ?_⟩, ?_⟩ <;> cases f <;>
    simp only [Fmt.xmin, Fmt.xmax] <;> omega

/-- Settles O42: each entry of Figures 28 and 30 to 33 is the result delivered. -/
theorem adjustConvertSpecials : Obligations.AdjustConvertSpecials := by
  intro i s f frt d o hwf h
  suffices hsuff : ∃ t, exec i s = .next t ∧ (noInvocation s = true → completed s t) ∧
      entryOutcome s t f frt d o by
    cases o <;> exact hsuff
  have hfits := readDatum_fits
  cases i with
  | dquai te =>
    obtain ⟨rfl, rfl, hfig⟩ := triple_inj h
    exact exec_isEntry hwf rfl rfl (quantizeResult_isEntry _ hfig (immediateQuantum_fits te _) (hfits ..))
  | dquaiq te =>
    obtain ⟨rfl, rfl, hfig⟩ := triple_inj h
    exact exec_isEntry hwf (validReg_of_evenPair hwf) rfl
      (quantizeResult_isEntry _ hfig (immediateQuantum_fits te _) (hfits ..))
  | dqua =>
    obtain ⟨rfl, rfl, hfig⟩ := triple_inj h
    exact exec_isEntry hwf rfl rfl (quantizeResult_isEntry _ hfig (hfits ..) (hfits ..))
  | dquaq =>
    obtain ⟨rfl, rfl, hfig⟩ := triple_inj h
    exact exec_isEntry hwf (validReg_of_evenRegs hwf) rfl (quantizeResult_isEntry _ hfig (hfits ..) (hfits ..))
  | drrnd =>
    obtain ⟨rfl, rfl, hfig⟩ := triple_inj h
    exact exec_isEntry hwf rfl rfl (reroundResult_isEntry _ _ hfig (hfits ..))
  | drrndq =>
    obtain ⟨rfl, rfl, hfig⟩ := triple_inj h
    exact exec_isEntry hwf (validReg_of_evenPair hwf) rfl (reroundResult_isEntry _ _ hfig (hfits ..))
  | drintx | drintn =>
    obtain ⟨rfl, rfl, hfig⟩ := triple_inj h
    exact exec_isEntry hwf rfl rfl (roundToIntResult_isEntry _ _ hfig (hfits ..))
  | drintxq | drintnq =>
    obtain ⟨rfl, rfl, hfig⟩ := triple_inj h
    exact exec_isEntry hwf (validReg_of_evenPair hwf) rfl (roundToIntResult_isEntry _ _ hfig (hfits ..))
  | dctqpq =>
    obtain ⟨rfl, rfl, hfig⟩ := triple_inj h
    exact exec_isEntry hwf hwf rfl (convertResult_isEntry_signaling _ hfig)
  | drsp =>
    obtain ⟨rfl, rfl, hfig⟩ := triple_inj h
    exact exec_isEntry hwf rfl rfl (convertResult_isEntry_quiet _ hfig)
  | drdpq =>
    obtain ⟨rfl, rfl, hfig⟩ := triple_inj h
    have hr := convertResult_isEntry_signaling (f := .dfp64) (fun s' c e => deliveredResult
      (roundDeliver .dfp64 .dfp128 3072 (roundEnv s.fpscr).oe (roundEnv s.fpscr).ue s' ⟨c, 1, e⟩ e
        (roundEnv s.fpscr).mode)) hfig
    exact exec_entryOutcome hwf (congrArg (deliver (drdpqWrites _) · s.fpscr) hr.result) hr.entry
      (placesAt_drdpqWrites_dfp64 (validReg_of_evenPair hwf))
  | _ => simp [adjustSpecial] at h

/-! Exact zeros. -/

theorem clampInt_eq_max_min {lo hi : Int} (h : lo ≤ hi) (x : Int) : clampInt lo hi x = max lo (min x hi) := by
  unfold clampInt
  omega

theorem Fmt.xmin_le_xmax (f : Fmt) : f.xmin ≤ f.xmax := by cases f <;> decide

theorem zeroResult_fits (f : Fmt) (s : Bool) (ideal : Int) : (zeroResult f s ideal).fits f = true := by
  have hle := f.xmin_le_xmax
  have hclamp := clampInt_eq_max_min hle ideal
  simp only [zeroResult, Datum.fits, Bool.and_eq_true, decide_eq_true_eq]
  exact ⟨⟨by positivity, by omega⟩, by omega⟩

/-- The zero that an exact result of zero delivers. -/
def Exact.zero (x : Exact) : Datum := zeroResult x.tgt x.zeroSign x.ideal

theorem exactSum_zero {f : Fmt} {frt : FprNum} {minus : Bool} {env : RoundEnv} {a b : Datum} {x : Exact}
    (h : exactSum f frt minus env.mode a b = some x) (hx : x.value = 0) :
    x.inFormat f frt ∧ (if minus then subResult f env a b else addResult f env a b) = exactResult f x.zero := by
  have hsum : ∀ (sa sb : Bool) (ca cb : Nat) (ea eb : Int), finiteValue sa ca ea + finiteValue sb cb eb = 0 →
      addFinite f env sa ca ea sb cb eb = exactResult f
        (zeroResult f (if sa = sb then sa else decide (env.mode = .rtmi)) (min ea eb)) := by
    intro sa sb ca cb ea eb hzero
    rw [finiteValue_add] at hzero
    refine (if_pos ?_).trans ?_
    · have hpow : (10 : ℚ) ^ min ea eb ≠ 0 := by positivity
      exact_mod_cast (mul_eq_zero.1 hzero).resolve_right hpow
    · rw [← beq_eq_decide]
  unfold exactSum at h
  split at h
  case h_1 sa ca ea sb cb eb =>
    obtain rfl := Option.some.inj h
    refine ⟨⟨rfl, rfl, rfl⟩, ?_⟩
    cases minus with
    | false => exact hsum sa sb ca cb ea eb hx
    | true => exact hsum sa (!sb) ca cb ea eb hx
  case h_2 => simp at h

theorem exactProduct_zero {f : Fmt} {frt : FprNum} (env : RoundEnv) {a b : Datum} {x : Exact}
    (h : exactProduct f frt a b = some x) (hx : x.value = 0) :
    x.inFormat f frt ∧ mulResult f env a b = exactResult f x.zero := by
  unfold exactProduct at h
  split at h
  case h_1 sa ca ea sb cb eb =>
    obtain rfl := Option.some.inj h
    refine ⟨⟨rfl, rfl, rfl⟩, if_pos ?_⟩
    simpa [finiteValue_eq_zero] using hx
  case h_2 => simp at h

theorem exactQuotient_zero {f : Fmt} {frt : FprNum} (env : RoundEnv) {a b : Datum} {x : Exact}
    (h : exactQuotient f frt a b = some x) (hx : x.value = 0) :
    x.inFormat f frt ∧ divResult f env a b = exactResult f x.zero := by
  unfold exactQuotient at h
  split at h
  case h_1 sa ca ea sb cb eb =>
    obtain ⟨hcb, h⟩ := Option.ite_none_left_eq_some.1 h
    obtain rfl := Option.some.inj h
    have hca : ca = 0 := by simpa [finiteValue_eq_zero, hcb] using hx
    exact ⟨⟨rfl, rfl, rfl⟩, (if_neg hcb).trans (if_pos hca)⟩
  case h_2 => simp at h

theorem exactNarrow_zero {src tgt : Fmt} {alpha : Int} {frt : FprNum} (signals : Bool) (env : RoundEnv) {b : Datum}
    {x : Exact} (h : exactNarrow src tgt alpha frt b = some x) (hx : x.value = 0) :
    (x.tgt = tgt ∧ x.frt = frt) ∧ narrowResult src tgt alpha signals env b = exactResult tgt x.zero := by
  unfold exactNarrow at h
  split at h
  case h_1 s c e =>
    obtain rfl := Option.some.inj h
    have hc : c = 0 := by simpa [finiteValue_eq_zero] using hx
    exact ⟨⟨rfl, rfl⟩, if_pos hc⟩
  case h_2 => simp at h

/-- The instruction delivers the zero of an exact result of zero in its target. -/
def deliversZero (i : Instr) (s : State) (x : Exact) : Prop :=
  ∃ writes, effectOf i s = deliver writes (exactResult x.tgt x.zero) s.fpscr ∧ placesAt writes x.tgt x.frt

theorem deliversZero_of_inFormat {i : Instr} {s : State} {x : Exact} {f : Fmt} {frt : FprNum} {r : Result}
    (hv : validReg f frt = true) (he : effectOf i s = deliver (fun g d => datumWrites g frt d) r s.fpscr)
    (h : x.inFormat f frt ∧ r = exactResult f x.zero) : deliversZero i s x := by
  obtain ⟨⟨htgt, -, hfrt⟩, rfl⟩ := h
  refine ⟨_, by rw [he, htgt], ?_⟩
  rw [htgt, hfrt]
  exact placesAt_datumWrites hv

theorem deliversZero_of_exactOf {i : Instr} {s : State} {x : Exact} (hwf : wellFormed i = true)
    (h : exactOf i s = some x) (hx : x.value = 0) : deliversZero i s x := by
  have hmode : figure14 s.fpscr = (roundEnv s.fpscr).mode := (drnMode_eq_figure14 _).symm
  cases i with
  | dadd =>
    rw [exactOf, hmode] at h
    exact deliversZero_of_inFormat rfl rfl (exactSum_zero h hx)
  | daddq =>
    rw [exactOf, hmode] at h
    exact deliversZero_of_inFormat (validReg_of_evenRegs hwf) rfl (exactSum_zero h hx)
  | dsub =>
    rw [exactOf, hmode] at h
    exact deliversZero_of_inFormat rfl rfl (exactSum_zero h hx)
  | dsubq =>
    rw [exactOf, hmode] at h
    exact deliversZero_of_inFormat (validReg_of_evenRegs hwf) rfl (exactSum_zero h hx)
  | dmul => exact deliversZero_of_inFormat rfl rfl (exactProduct_zero _ h hx)
  | dmulq => exact deliversZero_of_inFormat (validReg_of_evenRegs hwf) rfl (exactProduct_zero _ h hx)
  | ddiv => exact deliversZero_of_inFormat rfl rfl (exactQuotient_zero _ h hx)
  | ddivq => exact deliversZero_of_inFormat (validReg_of_evenRegs hwf) rfl (exactQuotient_zero _ h hx)
  | drsp frt =>
    obtain ⟨⟨htgt, hfrt⟩, hr⟩ := exactNarrow_zero false (roundEnv s.fpscr) h hx
    refine ⟨fun g d => datumWrites g frt d, ?_, ?_⟩
    · rw [htgt, ← hr]
      rfl
    · rw [htgt, hfrt]
      exact placesAt_datumWrites rfl
  | drdpq frt =>
    obtain ⟨⟨htgt, hfrt⟩, hr⟩ := exactNarrow_zero true (roundEnv s.fpscr) h hx
    refine ⟨drdpqWrites frt, ?_, ?_⟩
    · rw [htgt, ← hr]
      rfl
    · rw [htgt, hfrt]
      exact placesAt_drdpqWrites_dfp64 (validReg_of_evenPair hwf)
  | _ => simp [exactOf] at h

/-- Settles O35: an exact result of zero is delivered as a zero, without exception. -/
theorem exactZero : Obligations.ExactZero := by
  intro i s x hwf h hx
  obtain ⟨writes, he, hplace⟩ := deliversZero_of_exactOf hwf h hx
  rw [← clampInt_eq_max_min x.tgt.xmin_le_xmax]
  exact exec_exactOutcome hwf he (zeroResult_fits ..) hplace

end Sys2Proof.Machine
end

section
/-! The rounded results of the ten instructions that round an exact result to the precision of a format
(41_execution_model.md R230; 60_exceptions.md R542 to R552; 46_conversion.md R392 to R394). -/

namespace Sys2Proof.Machine

/-! What a delivered number leaves. -/

/-- An instruction has taken `s` to `t` and delivered the number `d` that `RoundDeliver` returned. -/
structure DeliversNumber (s t : State) (frt : FprNum) (d : Delivered) : Prop where
  read : readDatum d.fmt frt t = d.datum
  flags : roundedFlags s t d.fmt d.datum (d.fi = true) (d.fr = true)
  ox : getBit t.fpscr .ox = (getBit s.fpscr .ox || d.ox)
  ux : getBit t.fpscr .ux = (getBit s.fpscr .ux || d.ux)
  kept : ∀ b ∈ exceptionBits, b ≠ .ox → b ≠ .ux → b ≠ .xx → getBit t.fpscr b = getBit s.fpscr b
  completes : noInvocation s = true → completed s t

theorem contains_deliveredResult (d : Delivered) (b : FpscrBit) : (deliveredResult d).exc.contains b =
    ((decide (b = .ox) && d.ox) || (decide (b = .ux) && d.ux) || (decide (b = .xx) && d.fi)) := by
  obtain ⟨_, _, ox, ux, fi, _⟩ := d
  cases ox <;> cases ux <;> cases fi <;> simp [deliveredResult, Bool.or_assoc]

theorem deliveredResult_exc (d : Delivered) : ∀ b ∈ (deliveredResult d).exc, b = .ox ∨ b = .ux ∨ b = .xx := by
  intro b hb
  have hcontains := contains_deliveredResult d b
  rw [List.contains_iff_mem.2 hb] at hcontains
  simp only [Bool.true_eq, Bool.or_eq_true, Bool.and_eq_true, decide_eq_true_eq] at hcontains
  obtain (⟨h, -⟩ | ⟨h, -⟩) | ⟨h, -⟩ := hcontains
  · exact .inl h
  · exact .inr (.inl h)
  · exact .inr (.inr h)

theorem exec_deliversNumber {i : Instr} {s : State} {writes : Fmt → Datum → List (FprNum × Dword)} {d : Delivered}
    {frt : FprNum} (hwf : wellFormed i = true) (he : effectOf i s = deliver writes (deliveredResult d) s.fpscr)
    (hone : d.ox = false ∨ d.ux = false) (hfits : d.datum.fits d.fmt = true) (hplace : placesAt writes d.fmt frt) :
    ∃ t, exec i s = .next t ∧ DeliversNumber s t frt d := by
  obtain ⟨t, hexec, ht⟩ :=
    exec_delivers hwf he (deliveredResult_within (l := [.ox, .ux, .xx]) hone fun _ h => h) hfits hplace
  obtain ⟨hread, hfprf⟩ := ht.stored (suppresses_eq_false (deliveredResult_exc d) _)
  have hbits : ∀ b ∈ exceptionBits, getBit t.fpscr b = (getBit s.fpscr b ||
      ((decide (b = .ox) && d.ox) || (decide (b = .ux) && d.ux) || (decide (b = .xx) && d.fi))) := by
    intro b hb
    have hfi : (deliveredResult d).fi = d.fi := rfl
    rw [ht.bits b hb, contains_deliveredResult, hfi]
    cases getBit s.fpscr b <;> cases decide (b = .xx) && d.fi <;> simp
  have hfi : getBit t.fpscr .fi = d.fi := ht.fi
  have hfr : getBit t.fpscr .fr = d.fr := ht.fr
  refine ⟨t, hexec, hread, ⟨by rw [hfi], by rw [hfr], ?_, hfprf⟩, ?_, ?_, fun b hb hox hux hxx => ?_, ht.completes⟩
  · rw [hbits .xx (by decide), hfi]
    simp
  · rw [hbits .ox (by decide)]
    simp
  · rw [hbits .ux (by decide)]
    simp
  · rw [hbits b hb]
    simp [hox, hux, hxx]

theorem finite_fits_of_isForm {f : Fmt} {s : Bool} {c : Nat} {e : Int} (h : isForm f.precision f.xmin f.xmax c e) :
    (Datum.finite s c e).fits f = true := by
  obtain ⟨hc, hlo, hhi⟩ := h
  simp [Datum.fits, hc, hlo, hhi]

theorem isForm_mono {p p' : Nat} {xmin xmax : Int} {c : Nat} {e : Int} (h : isForm p xmin xmax c e) (hp : p ≤ p') :
    isForm p' xmin xmax c e :=
  ⟨h.1.trans_le (Nat.pow_le_pow_right (by decide) hp), h.2⟩

/-- The exceptions other than those listed are as before, if those that occur are listed. -/
theorem DeliversNumber.exceptionsKept {s t : State} {frt : FprNum} {d : Delivered} (h : DeliversNumber s t frt d)
    {but : List FpscrBit} (hox : d.ox = true → .ox ∈ but) (hux : d.ux = true → .ux ∈ but) (hxx : .xx ∈ but) :
    exceptionsKept s t but := by
  intro b hb hne
  by_cases hbox : b = .ox
  · subst hbox
    rw [h.ox, Bool.eq_false_iff.2 fun hd => hne (hox hd), Bool.or_false]
  by_cases hbux : b = .ux
  · subst hbux
    rw [h.ux, Bool.eq_false_iff.2 fun hd => hne (hux hd), Bool.or_false]
  exact h.kept b hb hbox hbux fun hbxx => hne (hbxx ▸ hxx)

/-- The flags, with inexact and incremented said another way. -/
theorem roundedFlags_congr {s t : State} {f : Fmt} {d : Datum} {p p' q q' : Prop} (h : roundedFlags s t f d p q)
    (hp : p ↔ p') (hq : q ↔ q') : roundedFlags s t f d p' q' :=
  ⟨h.1.trans hp, h.2.1.trans hq, h.2.2⟩

/-! Where the wrapped results lie. -/

/-- The rounded exact result, divided or multiplied by ten to the exponent adjustment, has an exponent of the
wrapped format. -/
structure Exact.Wraps (x : Exact) : Prop where
  precision : x.tgt.precision ≤ x.wrap.precision
  inRange : ∀ q : Int, (10 : ℚ) ^ (q + (x.tgt.precision - 1 : Nat)) ≤ |x.value| →
    |x.value| < 10 ^ (q + x.tgt.precision) →
    (x.tgt.xmax ≤ q → x.wrap.xmin ≤ q - x.alpha ∧ q + 1 - x.alpha ≤ x.wrap.xmax) ∧
    (q < x.tgt.xmin → x.wrap.xmin ≤ q + x.alpha ∧ q + 1 + x.alpha ≤ x.wrap.xmax)

/-- The bounds of the magnitude of a number of a format that is not zero (40_data_formats.md R162). -/
theorem abs_finiteValue_bounds {f : Fmt} {s : Bool} {c : Nat} {e : Int} (h : (Datum.finite s c e).fits f = true) :
    |finiteValue s c e| < 10 ^ (f.xmax + f.precision) ∧
    (finiteValue s c e ≠ 0 → (10 : ℚ) ^ f.xmin ≤ |finiteValue s c e|) := by
  simp only [Datum.fits, Bool.and_eq_true, decide_eq_true_eq] at h
  obtain ⟨⟨hc, hlo⟩, hhi⟩ := h
  rw [abs_finiteValue]
  constructor
  · calc (c : ℚ) * 10 ^ e ≤ c * 10 ^ f.xmax :=
          mul_le_mul_of_nonneg_left (zpow10_le_iff.2 hhi) (by positivity)
      _ < 10 ^ f.precision * 10 ^ f.xmax := by
          refine mul_lt_mul_of_pos_right ?_ (by positivity)
          exact_mod_cast hc
      _ = 10 ^ (f.xmax + f.precision) := by rw [zpow10_add_nat, mul_comm]
  · intro hne
    have hpos : 1 ≤ c := Nat.one_le_iff_ne_zero.2 fun h0 => hne ((finiteValue_eq_zero s c e).2 h0)
    calc (10 : ℚ) ^ f.xmin ≤ 10 ^ e := zpow10_le_iff.2 hlo
      _ = 1 * 10 ^ e := (one_mul _).symm
      _ ≤ c * 10 ^ e := by
          refine mul_le_mul_of_nonneg_right ?_ (by positivity)
          exact_mod_cast hpos

/-- A value whose decimal exponent is known to lie in a range wraps, if the range is narrow enough. -/
theorem Exact.wraps_of_bounds {x : Exact} {lo hi : Int} (hprecision : x.tgt.precision ≤ x.wrap.precision)
    (hlo : (10 : ℚ) ^ lo ≤ |x.value|) (hhi : |x.value| < 10 ^ hi)
    (hrange : x.wrap.xmin ≤ x.tgt.xmax - x.alpha ∧ hi - x.tgt.precision + 1 - x.alpha ≤ x.wrap.xmax ∧
      x.wrap.xmin ≤ lo - x.tgt.precision + 1 + x.alpha ∧ x.tgt.xmin + x.alpha ≤ x.wrap.xmax) : x.Wraps := by
  refine ⟨hprecision, fun q hq hq' => ?_⟩
  have hp := x.tgt.precision_pos
  have hup := zpow10_lt_iff.1 (hq.trans_lt hhi)
  have hdown := zpow10_lt_iff.1 (hlo.trans_lt hq')
  obtain ⟨h1, h2, h3, h4⟩ := hrange
  exact ⟨fun _ => ⟨by omega, by omega⟩, fun _ => ⟨by omega, by omega⟩⟩

/-- The range of a result of an arithmetic instruction is narrow enough for the exponent adjustment of its
format (60_exceptions.md R544, R551). -/
theorem Exact.wraps_of_arithmetic {x : Exact} {f : Fmt} {frt : FprNum} (h : x.inFormat f frt)
    (halpha : x.alpha = wrapAdjust f) (hf : f ≠ .dfp32) (hlo : (10 : ℚ) ^ (2 * f.xmin) ≤ |x.value|)
    (hhi : |x.value| < 10 ^ (f.xmax + f.precision - f.xmin)) : x.Wraps := by
  obtain ⟨htgt, hwrap, -⟩ := h
  refine Exact.wraps_of_bounds (by rw [htgt, hwrap]) hlo hhi ?_
  rw [htgt, hwrap, halpha]
  cases f <;> simp_all [Fmt.xmin, Fmt.xmax, Fmt.precision, wrapAdjust]

theorem Fmt.exponents (f : Fmt) : f.xmin ≤ -1 ∧ f.xmax + f.precision ≤ -f.xmin := by cases f <;> decide

/-- The magnitude of a sum of two numbers of a format. -/
theorem abs_add_bounds {f : Fmt} {sa sb : Bool} {ca cb : Nat} {ea eb : Int}
    (ha : (Datum.finite sa ca ea).fits f = true) (hb : (Datum.finite sb cb eb).fits f = true)
    (hne : finiteValue sa ca ea + finiteValue sb cb eb ≠ 0) :
    (10 : ℚ) ^ (2 * f.xmin) ≤ |finiteValue sa ca ea + finiteValue sb cb eb| ∧
    |finiteValue sa ca ea + finiteValue sb cb eb| < 10 ^ (f.xmax + f.precision - f.xmin) := by
  obtain ⟨hxmin, -⟩ := f.exponents
  constructor
  · have hmin : f.xmin ≤ min ea eb := by
      simp only [Datum.fits, Bool.and_eq_true, decide_eq_true_eq] at ha hb
      exact le_min ha.1.2 hb.1.2
    rw [finiteValue_add] at hne ⊢
    generalize signedValue sa (ca * 10 ^ (ea - min ea eb).toNat) +
      signedValue sb (cb * 10 ^ (eb - min ea eb).toNat) = m at hne ⊢
    have hm : m ≠ 0 := by
      rintro rfl
      simp at hne
    have hone : (1 : ℚ) ≤ |(m : ℚ)| := by exact_mod_cast Int.one_le_abs hm
    rw [abs_mul, abs_of_pos (by positivity : (0 : ℚ) < 10 ^ min ea eb)]
    calc (10 : ℚ) ^ (2 * f.xmin) ≤ 10 ^ min ea eb := zpow10_le_iff.2 (by omega)
      _ = 1 * 10 ^ min ea eb := (one_mul _).symm
      _ ≤ |(m : ℚ)| * 10 ^ min ea eb := mul_le_mul_of_nonneg_right hone (by positivity)
  · obtain ⟨hahi, -⟩ := abs_finiteValue_bounds ha
    obtain ⟨hbhi, -⟩ := abs_finiteValue_bounds hb
    calc |finiteValue sa ca ea + finiteValue sb cb eb|
        ≤ |finiteValue sa ca ea| + |finiteValue sb cb eb| := abs_add_le _ _
      _ < 10 ^ (f.xmax + f.precision) * 10 ^ 1 := by
          have hpos : (0 : ℚ) < 10 ^ (f.xmax + f.precision) := by positivity
          linarith
      _ = 10 ^ (f.xmax + f.precision + (1 : Nat)) := (zpow10_add_nat _ 1).symm
      _ ≤ 10 ^ (f.xmax + f.precision - f.xmin) := zpow10_le_iff.2 (by omega)

/-- The magnitude of a product of two numbers of a format that are not zero. -/
theorem abs_mul_bounds {f : Fmt} {sa sb : Bool} {ca cb : Nat} {ea eb : Int}
    (ha : (Datum.finite sa ca ea).fits f = true) (hb : (Datum.finite sb cb eb).fits f = true)
    (hne : finiteValue sa ca ea * finiteValue sb cb eb ≠ 0) :
    (10 : ℚ) ^ (2 * f.xmin) ≤ |finiteValue sa ca ea * finiteValue sb cb eb| ∧
    |finiteValue sa ca ea * finiteValue sb cb eb| < 10 ^ (f.xmax + f.precision - f.xmin) := by
  obtain ⟨-, hxmax⟩ := f.exponents
  obtain ⟨hahi, halo⟩ := abs_finiteValue_bounds ha
  obtain ⟨hbhi, hblo⟩ := abs_finiteValue_bounds hb
  obtain ⟨hane, hbne⟩ := mul_ne_zero_iff.1 hne
  rw [abs_mul]
  constructor
  · rw [two_mul, zpow_add₀ (by norm_num)]
    exact mul_le_mul (halo hane) (hblo hbne) (by positivity) (abs_nonneg _)
  · calc |finiteValue sa ca ea| * |finiteValue sb cb eb|
        < 10 ^ (f.xmax + f.precision) * 10 ^ (f.xmax + f.precision) :=
          mul_lt_mul'' hahi hbhi (abs_nonneg _) (abs_nonneg _)
      _ = 10 ^ (f.xmax + f.precision + (f.xmax + f.precision)) := (zpow_add₀ (by norm_num) _ _).symm
      _ ≤ 10 ^ (f.xmax + f.precision - f.xmin) := zpow10_le_iff.2 (by omega)

/-- The magnitude of a quotient of two numbers of a format that are not zero. -/
theorem abs_div_bounds {f : Fmt} {sa sb : Bool} {ca cb : Nat} {ea eb : Int}
    (ha : (Datum.finite sa ca ea).fits f = true) (hb : (Datum.finite sb cb eb).fits f = true)
    (hne : finiteValue sa ca ea / finiteValue sb cb eb ≠ 0) :
    (10 : ℚ) ^ (2 * f.xmin) ≤ |finiteValue sa ca ea / finiteValue sb cb eb| ∧
    |finiteValue sa ca ea / finiteValue sb cb eb| < 10 ^ (f.xmax + f.precision - f.xmin) := by
  obtain ⟨-, hxmax⟩ := f.exponents
  obtain ⟨hahi, halo⟩ := abs_finiteValue_bounds ha
  obtain ⟨hbhi, hblo⟩ := abs_finiteValue_bounds hb
  obtain ⟨hane, hbne⟩ := div_ne_zero_iff.1 hne
  have hbpos : 0 < |finiteValue sb cb eb| := abs_pos.2 hbne
  rw [abs_div]
  constructor
  · rw [le_div_iff₀ hbpos]
    calc (10 : ℚ) ^ (2 * f.xmin) * |finiteValue sb cb eb|
        ≤ 10 ^ (2 * f.xmin) * 10 ^ (f.xmax + f.precision) := mul_le_mul_of_nonneg_left hbhi.le (by positivity)
      _ = 10 ^ (2 * f.xmin + (f.xmax + f.precision)) := (zpow_add₀ (by norm_num) _ _).symm
      _ ≤ 10 ^ f.xmin := zpow10_le_iff.2 (by omega)
      _ ≤ |finiteValue sa ca ea| := halo hane
  · rw [div_lt_iff₀ hbpos]
    calc |finiteValue sa ca ea| < 10 ^ (f.xmax + f.precision) := hahi
      _ = 10 ^ (f.xmax + f.precision - f.xmin) * 10 ^ f.xmin := by
          rw [← zpow_add₀ (by norm_num), sub_add_cancel]
      _ ≤ 10 ^ (f.xmax + f.precision - f.xmin) * |finiteValue sb cb eb| :=
          mul_le_mul_of_nonneg_left (hblo hbne) (by positivity)

theorem exactSum_wraps {f : Fmt} {frt : FprNum} {minus : Bool} {mode : Mode} {a b : Datum} {x : Exact}
    (h : exactSum f frt minus mode a b = some x) (hx : x.value ≠ 0) (hf : f ≠ .dfp32) (ha : a.fits f = true)
    (hb : b.fits f = true) : x.Wraps := by
  unfold exactSum at h
  split at h
  case h_1 sa ca ea sb cb eb =>
    obtain rfl := Option.some.inj h
    obtain ⟨hlo, hhi⟩ := abs_add_bounds ha (sb := if minus then !sb else sb) hb hx
    exact Exact.wraps_of_arithmetic ⟨rfl, rfl, rfl⟩ rfl hf hlo hhi
  case h_2 => simp at h

theorem exactProduct_wraps {f : Fmt} {frt : FprNum} {a b : Datum} {x : Exact}
    (h : exactProduct f frt a b = some x) (hx : x.value ≠ 0) (hf : f ≠ .dfp32) (ha : a.fits f = true)
    (hb : b.fits f = true) : x.Wraps := by
  unfold exactProduct at h
  split at h
  case h_1 =>
    obtain rfl := Option.some.inj h
    obtain ⟨hlo, hhi⟩ := abs_mul_bounds ha hb hx
    exact Exact.wraps_of_arithmetic ⟨rfl, rfl, rfl⟩ rfl hf hlo hhi
  case h_2 => simp at h

theorem exactQuotient_wraps {f : Fmt} {frt : FprNum} {a b : Datum} {x : Exact}
    (h : exactQuotient f frt a b = some x) (hx : x.value ≠ 0) (hf : f ≠ .dfp32) (ha : a.fits f = true)
    (hb : b.fits f = true) : x.Wraps := by
  unfold exactQuotient at h
  split at h
  case h_1 =>
    obtain ⟨-, h⟩ := Option.ite_none_left_eq_some.1 h
    obtain rfl := Option.some.inj h
    obtain ⟨hlo, hhi⟩ := abs_div_bounds ha hb hx
    exact Exact.wraps_of_arithmetic ⟨rfl, rfl, rfl⟩ rfl hf hlo hhi
  case h_2 => simp at h

/-- A number of a wider format, wrapped in that format (46_conversion.md R394). -/
theorem exactNarrow_wraps {src tgt : Fmt} {alpha : Int} {frt : FprNum} {b : Datum} {x : Exact}
    (h : exactNarrow src tgt alpha frt b = some x) (hx : x.value ≠ 0) (hb : b.fits src = true)
    (hprecision : tgt.precision ≤ src.precision)
    (hrange : src.xmin ≤ tgt.xmax - alpha ∧ src.xmax + src.precision - tgt.precision + 1 - alpha ≤ src.xmax ∧
      src.xmin ≤ src.xmin - tgt.precision + 1 + alpha ∧ tgt.xmin + alpha ≤ src.xmax) : x.Wraps := by
  unfold exactNarrow at h
  split at h
  case h_1 =>
    obtain rfl := Option.some.inj h
    obtain ⟨hhi, hlo⟩ := abs_finiteValue_bounds hb
    exact Exact.wraps_of_bounds hprecision (hlo hx) hhi hrange
  case h_2 => simp at h

theorem exactOf_wraps {i : Instr} {s : State} {x : Exact} (h : exactOf i s = some x) (hx : x.value ≠ 0) :
    x.Wraps := by
  have hfits := readDatum_fits
  cases i with
  | dadd | daddq | dsub | dsubq => exact exactSum_wraps h hx (by decide) (hfits ..) (hfits ..)
  | dmul | dmulq => exact exactProduct_wraps h hx (by decide) (hfits ..) (hfits ..)
  | ddiv | ddivq => exact exactQuotient_wraps h hx (by decide) (hfits ..) (hfits ..)
  | drsp | drdpq => exact exactNarrow_wraps h hx (hfits ..) (by decide) (by decide)
  | _ => simp [exactOf] at h

/-! The statements. -/

/-- An instruction with an exact result that is not zero delivers what `RoundDeliver` returns for it. -/
theorem exec_deliversExact {i : Instr} {s : State} {x : Exact} (hwf : wellFormed i = true)
    (h : exactOf i s = some x) (hx : x.value ≠ 0) :
    ∃ v : Mag, 0 < v.num ∧ 0 < v.den ∧ v.value = |x.value| ∧ ∀ d : Delivered,
      roundDeliver x.tgt x.wrap x.alpha (getBit s.fpscr .oe) (getBit s.fpscr .ue) (decide (x.value < 0)) v x.ideal
        (figure14 s.fpscr) = d →
      d.ox = false ∨ d.ux = false → d.datum.fits d.fmt = true → d.fmt = x.tgt ∨ d.fmt = x.wrap →
      ∃ t, exec i s = .next t ∧ DeliversNumber s t x.frt d := by
  obtain ⟨writes, r, he, ⟨v, hn, hd, hv, rfl⟩, htgt, hwrap⟩ := deliversExact_of_exactOf hwf h hx
  refine ⟨v, hn, hd, hv, fun d hround hone hfits hfmt => ?_⟩
  rw [← drnMode_eq_figure14] at hround
  refine exec_deliversNumber hwf (he.trans (by rw [← hround]; rfl)) hone hfits ?_
  obtain hfmt | hfmt := hfmt
  · rwa [hfmt]
  · rwa [hfmt]

/-- Settles O34: `RoundDeliver` of a result that is neither tiny nor too large. (`roundedResult` names a function
of the model.) -/
theorem roundedResult_holds : Obligations.RoundedResult := by
  intro i s x n q hwf hexact hmin hu hmax
  obtain ⟨v, hn, hd, hv, hdeliver⟩ := exec_deliversExact hwf hexact (ne_zero_of_unboundedRounding hu)
  rw [← hv] at hmin hu ⊢
  obtain ⟨c, e, fi, fr, hround, hvalue, hform, hfi, hfr⟩ :=
    roundDeliver_normal (w := x.wrap) (alpha := x.alpha) (oe := getBit s.fpscr .oe) (ue := getBit s.fpscr .ue)
      (ideal := x.ideal) hn hd hu hmin hmax
  obtain ⟨t, hexec, ht⟩ := hdeliver _ hround (.inl rfl) (finite_fits_of_isForm hform.1) (.inl rfl)
  refine ⟨t, c, e, hexec, ht.read, hvalue, by simpa only [eq_comm] using hform, ?_, ?_, ht.completes⟩
  · exact roundedFlags_congr ht.flags (hfi.trans ne_comm) hfr
  · exact ht.exceptionsKept (by simp) (by simp) (by simp)

/-- An overflowing rounded result has at least the largest exponent of the format. -/
theorem xmax_le_of_overflow {f : Fmt} {mode : Mode} {s : Bool} {v : ℚ} {n : Nat} {q : Int}
    (hu : unboundedRounding f.precision mode s v n q) (hmax : nmax f < (n : ℚ) * 10 ^ q) : f.xmax ≤ q := by
  obtain ⟨-, -, -, hn⟩ := unboundedRounding_bounds hu
  have hp := f.precision_pos
  have hlow : (10 : ℚ) ^ (f.xmax + (f.precision - 1 : Nat)) ≤ nmax f := by
    rw [zpow10_add_nat, nmax, mul_comm]
    refine mul_le_mul_of_nonneg_right ?_ (by positivity)
    have hpow : 10 ^ (f.precision - 1) < 10 ^ f.precision := Nat.pow_lt_pow_right (by decide) (by omega)
    exact_mod_cast (by omega : 10 ^ (f.precision - 1) ≤ 10 ^ f.precision - 1)
  have hhigh : (n : ℚ) * 10 ^ q ≤ 10 ^ (q + f.precision) := by
    rw [zpow10_add_nat, mul_comm]
    refine mul_le_mul_of_nonneg_left ?_ (by positivity)
    exact_mod_cast hn
  have := zpow10_lt_iff.1 (hlow.trans_lt (hmax.trans_le hhigh))
  omega

/-- A tiny result has a unit in the last place below the least exponent of the format. -/
theorem lt_xmin_of_tiny {f : Fmt} {mode : Mode} {s : Bool} {v : ℚ} {n : Nat} {q : Int}
    (hu : unboundedRounding f.precision mode s v n q) (hmin : v < nmin f) : q < f.xmin := by
  obtain ⟨hlo, -⟩ := unboundedRounding_bounds hu
  have hp := f.precision_pos
  have := zpow10_lt_iff.1 (hlo.trans_lt hmin)
  omega

/-- The form of a wrapped result, exact or not, in one statement (92_eei_decisions.md D24). -/
theorem deliveredForm_wrapped {p pw : Nat} {xmin xmax ideal : Int} {c : Nat} {e : Int} {a b : ℚ}
    (hexact : a = b → deliveredForm pw xmin xmax True ideal c e)
    (hinexact : a ≠ b → deliveredForm p xmin xmax False ideal c e) :
    deliveredForm (if b = a then pw else p) xmin xmax (b = a) ideal c e := by
  by_cases h : b = a
  · rw [if_pos h]
    simpa [h] using hexact h.symm
  · rw [if_neg h]
    simpa [h] using hinexact (Ne.symm h)

theorem isForm_of_wrapped {p pw : Nat} {xmin xmax ideal : Int} {c : Nat} {e : Int} {a b : ℚ} (hp : p ≤ pw)
    (h : deliveredForm (if b = a then pw else p) xmin xmax (b = a) ideal c e) : isForm pw xmin xmax c e :=
  isForm_mono h.1 (by split <;> omega)

/-- Settles O37: an enabled overflow delivers the wrapped result. -/
theorem overflowEnabled : Obligations.OverflowEnabled := by
  intro i s x n q hwf hexact hoe hu hmax
  have hx := ne_zero_of_unboundedRounding hu
  obtain ⟨hprecision, hinRange⟩ := exactOf_wraps hexact hx
  obtain ⟨v, hn, hd, hv, hdeliver⟩ := exec_deliversExact hwf hexact hx
  obtain ⟨hlo, hhi, -⟩ := unboundedRounding_bounds hu
  obtain ⟨hmin', hmax'⟩ := (hinRange q hlo hhi).1 (xmax_le_of_overflow hu hmax)
  rw [← hv] at hu ⊢
  obtain ⟨c, e, fi, fr, hround, hvalue, hexactForm, hinexactForm, hfi, hfr⟩ :=
    roundDeliver_overflow_enabled (ue := getBit s.fpscr .ue) (ideal := x.ideal) hn hd hu hmax hprecision hmin' hmax'
  have hform := deliveredForm_wrapped hexactForm hinexactForm
  rw [hoe] at hdeliver
  obtain ⟨t, hexec, ht⟩ :=
    hdeliver _ hround (.inr rfl) (finite_fits_of_isForm (isForm_of_wrapped hprecision hform)) (.inr rfl)
  refine ⟨t, c, e, hexec, ht.read, hvalue, hform, ?_, ?_, ?_, ht.completes⟩
  · simp [ht.ox]
  · exact roundedFlags_congr ht.flags (hfi.trans ne_comm) hfr
  · exact ht.exceptionsKept (by simp) (by simp) (by simp)

/-- Settles O38: a tiny result is rounded at the least exponent, and underflow is its being inexact. -/
theorem underflowDisabled : Obligations.UnderflowDisabled := by
  intro i s x n hwf hexact hue hx hmin hround
  obtain ⟨v, hn, hd, hv, hdeliver⟩ := exec_deliversExact hwf hexact hx
  rw [← hv] at hround hmin ⊢
  obtain ⟨c, e, fi, fr, hdelivered, hvalue, hform, hfi, hfr⟩ :=
    roundDeliver_tiny (w := x.wrap) (alpha := x.alpha) (oe := getBit s.fpscr .oe) (ideal := x.ideal) hn hd hround hmin
  rw [hue] at hdeliver
  obtain ⟨t, hexec, ht⟩ := hdeliver _ hdelivered (.inl rfl) (finite_fits_of_isForm hform.1) (.inl rfl)
  refine ⟨t, c, e, hexec, ht.read, hvalue, by simpa only [eq_comm] using hform, ?_, ?_, ?_, ht.completes⟩
  · rw [ht.ux, Bool.or_eq_true, hfi, ne_comm]
  · exact roundedFlags_congr ht.flags (hfi.trans ne_comm) hfr
  · exact ht.exceptionsKept (by simp) (by simp) (by simp)

/-- Settles O39: an enabled underflow delivers the wrapped result, exact or not. -/
theorem underflowEnabled : Obligations.UnderflowEnabled := by
  intro i s x n q hwf hexact hue hmin hu
  have hx := ne_zero_of_unboundedRounding hu
  obtain ⟨hprecision, hinRange⟩ := exactOf_wraps hexact hx
  obtain ⟨v, hn, hd, hv, hdeliver⟩ := exec_deliversExact hwf hexact hx
  obtain ⟨hlo, hhi, -⟩ := unboundedRounding_bounds hu
  obtain ⟨hmin', hmax'⟩ := (hinRange q hlo hhi).2 (lt_xmin_of_tiny hu hmin)
  rw [← hv] at hu hmin ⊢
  obtain ⟨c, e, fi, fr, hround, hvalue, hexactForm, hinexactForm, hfi, hfr⟩ :=
    roundDeliver_underflow_enabled (oe := getBit s.fpscr .oe) (ideal := x.ideal) hn hd hu hmin hprecision hmin' hmax'
  have hform := deliveredForm_wrapped hexactForm hinexactForm
  rw [hue] at hdeliver
  obtain ⟨t, hexec, ht⟩ :=
    hdeliver _ hround (.inl rfl) (finite_fits_of_isForm (isForm_of_wrapped hprecision hform)) (.inr rfl)
  refine ⟨t, c, e, hexec, ht.read, hvalue, hform, ?_, ?_, ?_, ht.completes⟩
  · simp [ht.ux]
  · exact roundedFlags_congr ht.flags (hfi.trans ne_comm) hfr
  · exact ht.exceptionsKept (by simp) (by simp) (by simp)

/-! Where drsp and drdpq put their result. -/

theorem narrowResult_finite {src tgt : Fmt} {alpha : Int} {signals : Bool} {env : RoundEnv} {s : Bool} {c : Nat}
    {e : Int} (hc : c ≠ 0) : narrowResult src tgt alpha signals env (.finite s c e) =
      deliveredResult (roundDeliver tgt src alpha env.oe env.ue s ⟨c, 1, e⟩ e env.mode) := if_neg hc

/-- A result that no enabled overflow and no enabled underflow wraps is a datum of the target format. -/
theorem roundDeliver_of_notWrapped {f w : Fmt} {alpha : Int} {oe ue s : Bool} {v : Mag} {ideal : Int} {mode : Mode}
    (hn : 0 < v.num) (hd : 0 < v.den)
    (hover : oe = true → ∀ n q, unboundedRounding f.precision mode s v.value n q → (n : ℚ) * 10 ^ q ≤ nmax f)
    (hunder : ue = true → nmin f ≤ v.value) :
    (roundDeliver f w alpha oe ue s v ideal mode).fmt = f ∧
    (roundDeliver f w alpha oe ue s v ideal mode).datum.fits f = true := by
  obtain ⟨n, q, hu, -⟩ := roundUnbounded_spec f.precision_pos hn hd mode s rfl
  by_cases hmax : nmax f < (n : ℚ) * 10 ^ q
  · have hoe : oe = false := Bool.eq_false_iff.2 fun hoe => absurd (hover hoe n q hu) (not_le.2 hmax)
    rw [hoe, roundDeliver_overflow_disabled hn hd hu hmax]
    split
    · exact ⟨rfl, defaultInf_fits f s⟩
    · exact ⟨rfl, by cases f <;> rfl⟩
  by_cases hmin : v.value < nmin f
  · have hue : ue = false := Bool.eq_false_iff.2 fun hue => absurd (hunder hue) (not_le.2 hmin)
    obtain ⟨_, _, _, _, hround, -, hform, -⟩ := roundDeliver_tiny (w := w) (alpha := alpha) (oe := oe)
      (ideal := ideal) hn hd (roundAt_spec hd f.xmin mode s).1 hmin
    rw [hue, hround]
    exact ⟨rfl, finite_fits_of_isForm hform.1⟩
  · obtain ⟨_, _, _, _, hround, -, hform, -⟩ := roundDeliver_normal (w := w) (alpha := alpha) (oe := oe) (ue := ue)
      (ideal := ideal) hn hd hu (not_lt.1 hmin) (not_lt.1 hmax)
    rw [hround]
    exact ⟨rfl, finite_fits_of_isForm hform.1⟩

/-- The result of drsp and drdpq is a datum of the target format where it is not wrapped. -/
theorem narrowResult_of_notWrapped {src tgt : Fmt} {alpha : Int} (signals : Bool) {w : Dword} {frt : FprNum}
    {b : Datum} (h : ∀ x, exactNarrow src tgt alpha frt b = some x →
      (getBit w .oe = true → ∀ (n : Nat) (q : Int),
        unboundedRounding x.tgt.precision (figure14 w) (decide (x.value < 0)) |x.value| n q →
        (n : ℚ) * 10 ^ q ≤ nmax x.tgt) ∧
      (getBit w .ue = true → x.value = 0 ∨ nmin x.tgt ≤ |x.value|)) :
    (narrowResult src tgt alpha signals (roundEnv w) b).fmt = tgt ∧
    (narrowResult src tgt alpha signals (roundEnv w) b).datum.fits tgt = true := by
  cases b with
  | snan sg y => cases signals <;> exact ⟨rfl, decide_eq_true (fitPayload_lt tgt y)⟩
  | qnan sg y => exact ⟨rfl, decide_eq_true (fitPayload_lt tgt y)⟩
  | inf sg y =>
    cases signals with
    | false => exact ⟨rfl, decide_eq_true (fitPayload_lt tgt y)⟩
    | true => exact ⟨rfl, defaultInf_fits ..⟩
  | finite s c e =>
    by_cases hc : c = 0
    · have hzero : narrowResult src tgt alpha signals (roundEnv w) (.finite s c e) =
        exactResult tgt (zeroResult tgt s e) := if_pos hc
      rw [hzero]
      exact ⟨rfl, zeroResult_fits ..⟩
    · obtain ⟨hover, hunder⟩ := h _ rfl
      have hpos := Nat.pos_of_ne_zero hc
      obtain ⟨habs, hsign⟩ := Mag.abs_and_sign (v := ⟨c, 1, e⟩) hpos Nat.one_pos (finiteValue_eq_mag s c e)
      rw [← drnMode_eq_figure14] at hover
      simp only [← habs, hsign] at hover hunder
      have hround := roundDeliver_of_notWrapped (w := src) (alpha := alpha) (ideal := e) hpos Nat.one_pos hover
        fun hue => (hunder hue).resolve_left fun h0 => hc ((finiteValue_eq_zero s c e).1 h0)
      rw [narrowResult_finite hc]
      exact hround

/-- drsp and drdpq raise no Invalid Operation but for an SNaN that signals. -/
theorem suppresses_narrowResult {src tgt : Fmt} {alpha : Int} {signals : Bool} {env : RoundEnv} {b : Datum}
    {w : Dword} (h : signals = false ∨ b.isSNaN = false ∨ getBit w .ve = false) :
    suppresses (narrowResult src tgt alpha signals env b).exc w = false := by
  cases b with
  | snan sg y =>
    cases signals with
    | false => rfl
    | true => exact (suppresses_invalid (b := .vxsnan) (by decide) w).trans (by simpa [Datum.isSNaN] using h)
  | qnan | inf => rfl
  | finite s c e =>
    refine suppresses_eq_false ?_ w
    by_cases hc : c = 0
    · have hzero : narrowResult src tgt alpha signals env (.finite s c e) =
        exactResult tgt (zeroResult tgt s e) := if_pos hc
      simp [hzero, exactResult]
    · rw [narrowResult_finite hc]
      exact deliveredResult_exc _

/-- Settles O40: the writes of a result of the target format. -/
theorem narrowTargets : Obligations.NarrowTargets := by
  intro s frt frb rc
  refine ⟨fun hnot => ⟨_, exec_wellFormed rfl s, ?_⟩, fun hfrt hfrb hnot => ?_⟩
  · obtain ⟨hfmt, hfits⟩ := narrowResult_of_notWrapped false hnot
    rw [readFpr, commit_fpr]
    simp only [effectOf, deliver, suppresses_narrowResult (.inl rfl), Bool.false_eq_true, if_false, hfmt]
    simp only [datumWrites, operandWrites]
    rw [writeFprs_one, BitVec.toNat_ofNat]
    exact (Nat.mod_le _ _).trans_lt (enc_lt hfits)
  · have hwf : wellFormed (.drdpq frt frb rc) = true := Bool.and_eq_true_iff.2 ⟨hfrt, hfrb⟩
    refine ⟨_, exec_wellFormed hwf s, fun hstored => ?_⟩
    obtain ⟨hfmt, -⟩ := narrowResult_of_notWrapped true hnot
    rw [readFpr, commit_fpr]
    simp only [effectOf, deliver, suppresses_narrowResult (.inr hstored), Bool.false_eq_true, if_false, hfmt]
    exact writeFprs_pair_low ..

end Sys2Proof.Machine
end

section
/-! The tests (44_test.md), and samples of data (40_data_formats.md R172). -/

namespace Sys2Proof.Machine

/-! Samples. -/

/-- Settles O33: the eight samples, by evaluation. -/
theorem datumSamples : Obligations.DatumSamples := by
  unfold Obligations.DatumSamples
  decide +kernel

/-! What every test does. -/

/-- A test completes and puts its code in CR field BF and in FPCC (44_test.md R319). -/
theorem exec_test {i : Instr} {s : State} {bf : CrNum} {code : BitVec 4} (hwf : wellFormed i = true)
    (hbf : bfOf i = some bf) (he : effectOf i s = testEffect bf code s.fpscr) :
    ∃ t, exec i s = .next t ∧ completed s t ∧ readCr t bf = code ∧ fpccOf t.fpscr = code := by
  have hexec := exec_wellFormed hwf s
  have hfpcc : fpccOf (effectOf i s).fpscr = code := by
    rw [he]
    exact fpccOf_setFpcc ..
  refine ⟨_, hexec, ?_, ?_, ?_⟩
  · rw [commit_no_causes _ (by rw [he]; rfl)]
    exact completed_advance_applyEffect ..
  · rw [readCr, exec_cr_of_bfOf hbf hexec, commit_fpscr, hfpcc, readCr_writeCrField_same]
  · rw [commit_fpscr, hfpcc]

/-! Data Class and Data Group. -/

theorem maskCode_eq (s hit : Bool) : maskCode s hit = BitVec.ofBool s ++ 0#1 ++ BitVec.ofBool hit ++ 0#1 := by
  cases s <;> cases hit <;> rfl

/-- A number is subnormal by its form exactly when its value is below Nmin (40_data_formats.md R181). -/
theorem belowPow10_iff_subnormal (f : Fmt) (s : Bool) (c : Nat) (e : Int) :
    belowPow10 c e (f.xmin + f.precision - 1) = true ↔ |finiteValue s c e| < nmin f := by
  rw [belowPow10_iff, abs_finiteValue, nmin]

theorem classIndex_eq_dcmBit (f : Fmt) (d : Datum) : classIndex (dataClass f d) = dcmBit f d := by
  cases d with
  | finite s c e =>
    simp only [dataClass, dcmBit, finiteValue_eq_zero]
    by_cases hc : c = 0
    · simp [hc, classIndex]
    · rw [if_neg hc, if_neg hc]
      by_cases hsub : belowPow10 c e (f.xmin + f.precision - 1) = true
      · rw [if_pos hsub, if_pos ((belowPow10_iff_subnormal f s c e).1 hsub)]
        rfl
      · rw [if_neg hsub, if_neg fun h => hsub ((belowPow10_iff_subnormal f s c e).2 h)]
        rfl
  | inf | qnan | snan => rfl

theorem extremeExponent_iff (f : Fmt) (e : Int) : extremeExponent f e = true ↔ e = f.xmin ∨ e = f.xmax := by
  simp [extremeExponent, or_comm]

theorem dataClass_eq_subnormal_iff {f : Fmt} {s : Bool} {c : Nat} {e : Int} (hc : c ≠ 0) :
    dataClass f (.finite s c e) = .subnormal ↔ |finiteValue s c e| < nmin f := by
  rw [← belowPow10_iff_subnormal, dataClass, if_neg hc]
  split <;> simp_all

theorem groupIndex_eq_dgmBit (f : Fmt) (d : Datum) : groupIndex f d = dgmBit f d := by
  cases d with
  | finite s c e =>
    simp only [groupIndex, dgmBit, finiteValue_eq_zero, extremeExponent_iff]
    by_cases hc : c = 0
    · simp [hc]
    · have hspecial : (dataClass f (.finite s c e) == .subnormal || extremeExponent f e) = true ↔
          |finiteValue s c e| < nmin f ∨ e = f.xmin ∨ e = f.xmax := by
        rw [Bool.or_eq_true, beq_iff_eq, dataClass_eq_subnormal_iff hc, extremeExponent_iff]
      have hleft : c < 10 ^ (f.precision - 1) ↔ c / 10 ^ (f.precision - 1) = 0 := by
        rw [Nat.div_eq_zero_iff_lt (by positivity)]
      simp only [if_neg hc, hspecial, hleft]
  | inf | qnan | snan => rfl

theorem validReg_fmtOf {quad : Bool} {r : FprNum} (h : quad = true → evenReg r = true) :
    validReg (fmtOf quad) r = true := by
  cases quad with
  | false => rfl
  | true => exact h rfl

/-- Settles O45: the class by the form is the class by the value. -/
theorem testDataClass : Obligations.TestDataClass := by
  intro quad s bf fra dcm d hwf hd
  have he : effectOf (sized quad (.dtstdc bf fra dcm) (.dtstdcq bf fra dcm)) s =
      testEffect bf (classTestCode (fmtOf quad) dcm (readDatum (fmtOf quad) fra s)) s.fpscr := by
    cases quad <;> rfl
  obtain ⟨t, hexec, hcompleted, hcr, hfpcc⟩ := exec_test hwf (by cases quad <;> rfl) he
  refine ⟨t, hexec, hcompleted, ?_, hfpcc.trans hcr.symm⟩
  rw [hcr, hd, classTestCode, classIndex_eq_dcmBit, maskCode_eq]

/-- Settles O46: the group by the form is the group by the value. -/
theorem testDataGroup : Obligations.TestDataGroup := by
  intro quad s bf fra dgm d hwf hd
  have he : effectOf (sized quad (.dtstdg bf fra dgm) (.dtstdgq bf fra dgm)) s =
      testEffect bf (groupTestCode (fmtOf quad) dgm (readDatum (fmtOf quad) fra s)) s.fpscr := by
    cases quad <;> rfl
  obtain ⟨t, hexec, hcompleted, hcr, hfpcc⟩ := exec_test hwf (by cases quad <;> rfl) he
  refine ⟨t, hexec, hcompleted, ?_, hfpcc.trans hcr.symm⟩
  rw [hcr, hd, groupTestCode, groupIndex_eq_dgmBit, maskCode_eq]

/-! Exponent. -/

theorem exponentTestCode_eq_figure26 (a b : Datum) : exponentTestCode a b = figure26 a b := by
  cases a with
  | finite | inf => cases b <;> rfl
  | qnan | snan => cases b <;> rfl

/-- Settles O47: the code is that of Figure 26. -/
theorem testExponent : Obligations.TestExponent := by
  intro quad s bf fra frb hwf
  have he : effectOf (sized quad (.dtstex bf fra frb) (.dtstexq bf fra frb)) s = testEffect bf
      (exponentTestCode (readDatum (fmtOf quad) fra s) (readDatum (fmtOf quad) frb s)) s.fpscr := by
    cases quad <;> rfl
  obtain ⟨t, hexec, hcompleted, hcr, hfpcc⟩ := exec_test hwf (by cases quad <;> rfl) he
  exact ⟨t, hexec, hcompleted, hcr.trans (exponentTestCode_eq_figure26 ..), hfpcc.trans hcr.symm⟩

/-! Significance. -/

/-- The code of Figure 27, by the number of digits as a bound of the coefficient (44_test.md R317). -/
theorem significanceTestCode_finite (k : Nat) (s : Bool) (c : Nat) (e : Int) :
    (k ≠ 0 → 10 ^ k ≤ c → significanceTestCode k (.finite s c e) = 0b1000#4) ∧
    (k = 0 ∨ c < 10 ^ (k - 1) → significanceTestCode k (.finite s c e) = 0b0100#4) ∧
    (k ≠ 0 → 10 ^ (k - 1) ≤ c → c < 10 ^ k → significanceTestCode k (.finite s c e) = 0b0010#4) := by
  refine ⟨fun hk hc => ?_, fun h => ?_, fun hk hlo hhi => ?_⟩
  · have hless : k < numDigits c := by
      rw [← not_le, numDigits_le_iff]
      omega
    rw [significanceTestCode, if_neg hk, if_neg hless.ne, if_pos hless]
    rfl
  · by_cases hk : k = 0
    · exact if_pos hk
    · have hgreater : numDigits c ≤ k - 1 := numDigits_le_iff.2 (h.resolve_left hk)
      rw [significanceTestCode, if_neg hk, if_neg (by omega), if_neg (by omega)]
      rfl
  · rw [significanceTestCode, if_neg hk, if_pos (numDigits_eq (Nat.pos_of_ne_zero hk) hlo hhi).symm]
    rfl

/-- Settles O48: the code is that of Figure 27. -/
theorem testSignificance : Obligations.TestSignificance := by
  intro quad s bf fra frb k hwf hk
  have he : effectOf (sized quad (.dtstsf bf fra frb) (.dtstsfq bf fra frb)) s =
      testEffect bf (significanceTestCode k (readDatum (fmtOf quad) frb s)) s.fpscr := by
    subst hk
    cases quad <;> rfl
  obtain ⟨t, hexec, hcompleted, hcr, hfpcc⟩ := exec_test hwf (by cases quad <;> rfl) he
  refine ⟨t, hexec, hcompleted, hfpcc.trans hcr.symm, ?_⟩
  cases hb : readDatum (fmtOf quad) frb s with
  | finite sg c e =>
    rw [hb] at hcr
    rw [hcr]
    exact significanceTestCode_finite k sg c e
  | inf | qnan | snan => rw [hcr, hb]; rfl

end Sys2Proof.Machine
end

section
/-! Quantum adjustment of finite numbers (45_quantum_adjustment.md). -/

namespace Sys2Proof.Machine

/-! The rounding mode. -/

theorem modeOfRmc_eq : ∀ (rmc : BitVec 2) (r : Bool) (drn : BitVec 3), modeOfRmc rmc r drn =
    match r, rmc.getMsbD 0, rmc.getMsbD 1 with
    | false, false, false => .rne
    | false, false, true => .rtz
    | false, true, false => .rnaz
    | false, true, true => modeOfDrn drn
    | true, false, false => .rtpi
    | true, false, true => .rtmi
    | true, true, false => .rafz
    | true, true, true => .rntz := by decide

/-- The mode that RMC, R and DRN select is that of Figure 15 (45_quantum_adjustment.md R351). -/
theorem rmcMode_eq_figure15 (rmc : BitVec 2) (r : Bool) (s : State) : rmcMode rmc r s = figure15 r rmc s.fpscr := by
  have hdrn : modeOfDrn (drnOf s.fpscr) = figure14 s.fpscr := drnMode_eq_figure14 s.fpscr
  rw [rmcMode, modeOfRmc_eq, hdrn]
  rfl

/-! Rounded results. -/

/-- An instruction that delivers a rounded number, in which only Inexact can occur. -/
theorem exec_rounded {i : Instr} {s : State} {writes : Fmt → Datum → List (FprNum × Dword)} {f : Fmt} {d : Datum}
    {r : Rounded} {frt : FprNum} (hwf : wellFormed i = true)
    (he : effectOf i s = deliver writes (roundedResult f d r) s.fpscr) (hfits : d.fits f = true)
    (hplace : placesAt writes f frt) :
    ∃ t, exec i s = .next t ∧ (noInvocation s = true → completed s t) ∧ readDatum f frt t = d ∧
      roundedFlags s t f d (r.inexact = true) (r.incremented = true) ∧ exceptionsKept s t [.xx] := by
  obtain ⟨t, hexec, ht⟩ := exec_delivers hwf he (roundedResult_within f d r (List.mem_singleton_self _)) hfits hplace
  obtain ⟨hread, hfprf⟩ := ht.stored (suppresses_nil _)
  have hfi : getBit t.fpscr .fi = r.inexact := ht.fi
  have hfr : getBit t.fpscr .fr = r.incremented := ht.fr
  have hbits : ∀ b ∈ exceptionBits, getBit t.fpscr b = (getBit s.fpscr b || (decide (b = .xx) && r.inexact)) := by
    intro b hb
    rw [ht.bits b hb]
    simp [roundedResult]
  refine ⟨t, hexec, ht.completes, hread, ⟨by rw [hfi], by rw [hfr], ?_, hfprf⟩, fun b hb hne => ?_⟩
  · rw [hbits .xx (by decide), hfi]
    simp
  · rw [hbits b hb]
    simp only [List.mem_singleton] at hne
    simp [hne]

theorem finite_fits_iff (f : Fmt) (s : Bool) (c : Nat) (e : Int) :
    (Datum.finite s c e).fits f = true ↔ c < 10 ^ f.precision ∧ f.xmin ≤ e ∧ e ≤ f.xmax := by
  simp [Datum.fits, and_assoc]

/-- A number rounded at a quantum: the integer rounded to, whether that changed it, and whether it raised it. -/
theorem roundAt_finite {mode : Mode} {s : Bool} {c : Nat} {e q : Int} {n : Nat}
    (h : roundsTo mode s ((c : ℚ) * 10 ^ (e - q)) n) :
    (roundAt ⟨c, 1, e⟩ q mode s).n = n ∧
    ((roundAt ⟨c, 1, e⟩ q mode s).inexact = true ↔ (n : ℚ) * 10 ^ q ≠ c * 10 ^ e) ∧
    ((roundAt ⟨c, 1, e⟩ q mode s).incremented = true ↔ (c : ℚ) * 10 ^ e < n * 10 ^ q) := by
  obtain ⟨hround, hinexact, hincremented⟩ := roundAt_spec (v := ⟨c, 1, e⟩) Nat.one_pos q mode s
  have hpos : (0 : ℚ) < 10 ^ q := by positivity
  have hvalue : (⟨c, 1, e⟩ : Mag).value = c * 10 ^ e := by simp [Mag.value]
  have hquotient : (c : ℚ) * 10 ^ (e - q) = c * 10 ^ e / 10 ^ q := by
    rw [zpow_sub₀ (by norm_num), mul_div_assoc]
  rw [hquotient] at h
  rw [hvalue] at hround hinexact hincremented
  have hn := roundsTo_unique hround h
  rw [hn] at hinexact hincremented
  refine ⟨hn, ?_, ?_⟩
  · rw [hinexact, ne_eq, div_eq_iff hpos.ne', eq_comm]
  · rw [hincremented, div_lt_iff₀ hpos]

/-- Rounding a coefficient at a larger exponent gives one digit less, at least. -/
theorem roundsTo_lt_pow {p : Nat} (hp : 0 < p) {mode : Mode} {s : Bool} {c : Nat} (hc : c < 10 ^ p) {k : Int} (hk : k < 0)
    {n : Nat} (h : roundsTo mode s ((c : ℚ) * 10 ^ k) n) : n < 10 ^ p := by
  have hle : (c : ℚ) * 10 ^ k ≤ ((10 ^ (p - 1) : Nat) : ℚ) := by
    calc (c : ℚ) * 10 ^ k ≤ 10 ^ p * 10 ^ (-1 : Int) :=
          mul_le_mul (by exact_mod_cast hc.le) (zpow10_le_iff.2 (by omega)) (by positivity) (by positivity)
      _ = ((10 ^ (p - 1) : Nat) : ℚ) := by
          obtain ⟨m, rfl⟩ : ∃ m, p = m + 1 := ⟨p - 1, by omega⟩
          rw [Nat.add_sub_cancel, pow_succ, zpow_neg_one]
          push_cast
          ring
  exact ((roundsTo_bounds h _).2 hle).trans_lt (Nat.pow_lt_pow_right (by decide) (by omega))

/-! What the instructions work on. -/

/-- The instruction delivers the result `r` in the target of the adjustment, whose operand is a number of the
format. -/
structure Adjusting.Delivers (x : Adjusting) (i : Instr) (s : State) (r : Result) : Prop where
  effect : effectOf i s = deliver (fun g d => datumWrites g x.frt d) r s.fpscr
  target : validReg x.fmt x.frt = true
  fits : (Datum.finite x.sign x.coeff x.exp).fits x.fmt = true

section
variable {x : Adjusting} {i : Instr} {s : State}

theorem Adjusting.Delivers.exact {d : Datum} (h : x.Delivers i s (exactResult x.fmt d)) (hwf : wellFormed i = true)
    (hd : d.fits x.fmt = true) :
    ∃ t, exec i s = .next t ∧ completed s t ∧ exactOutcome s t x.fmt x.frt d :=
  exec_exactOutcome hwf h.effect hd (placesAt_datumWrites h.target)

theorem Adjusting.Delivers.invalid (h : x.Delivers i s (exceptionResult x.fmt .vxcvi defaultNaN))
    (hwf : wellFormed i = true) :
    ∃ t, exec i s = .next t ∧ (noInvocation s = true → completed s t) ∧
      invalidOutcome s t .vxcvi x.fmt x.frt (.qnan false 0) :=
  exec_invalidOutcome hwf h.effect (by decide) (by cases x.fmt <;> rfl) (placesAt_datumWrites h.target)

theorem Adjusting.Delivers.rounded {d : Datum} {r : Rounded} (h : x.Delivers i s (roundedResult x.fmt d r))
    (hwf : wellFormed i = true) (hd : d.fits x.fmt = true) :
    ∃ t, exec i s = .next t ∧ (noInvocation s = true → completed s t) ∧ readDatum x.fmt x.frt t = d ∧
      roundedFlags s t x.fmt d (r.inexact = true) (r.incremented = true) ∧ exceptionsKept s t [.xx] :=
  exec_rounded hwf h.effect hd (placesAt_datumWrites h.target)

end

/-- The adjustment of an operand read from a register of the format. -/
theorem adjusting_eq_some {f : Fmt} {frt : FprNum} {mode : Mode} {b : Datum} {x : Adjusting}
    (h : adjusting f frt mode b = some x) :
    b = .finite x.sign x.coeff x.exp ∧ x.fmt = f ∧ x.frt = frt ∧ x.mode = mode := by
  cases b with
  | finite s c e =>
    obtain rfl := Option.some.inj h
    exact ⟨rfl, rfl, rfl, rfl⟩
  | inf | qnan | snan => simp [adjusting] at h

/-- An instruction whose result on a finite operand is `res` delivers it. -/
theorem delivers_of_adjusting {f : Fmt} {frt frb : FprNum} {mode : Mode} {x : Adjusting} {i : Instr} {s : State}
    {res : Datum → Result} (h : adjusting f frt mode (readDatum f frb s) = some x) (hv : validReg f frt = true)
    (he : effectOf i s = deliver (fun g d => datumWrites g frt d) (res (readDatum f frb s)) s.fpscr) :
    x.Delivers i s (res (.finite x.sign x.coeff x.exp)) ∧ x.fmt = f ∧ x.mode = mode := by
  obtain ⟨hb, rfl, rfl, rfl⟩ := adjusting_eq_some h
  have hfits := readDatum_fits x.fmt frb s
  rw [hb] at hfits he
  exact ⟨⟨he, hv, hfits⟩, rfl, rfl⟩

/-! Quantize. -/

/-- Quantize of a finite operand, with the target exponent in the range of the format. -/
theorem delivers_of_quantizeOf {i : Instr} {s : State} {te : Int} {x : Adjusting} (hwf : wellFormed i = true)
    (h : quantizeOf i s = some (te, x)) :
    x.Delivers i s (quantizeFinite x.fmt x.mode te x.sign x.coeff x.exp) ∧ x.fmt.xmin ≤ te ∧ te ≤ x.fmt.xmax := by
  have himmediate : ∀ {f : Fmt} {frt frb : FprNum} {rmc : BitVec 2} {te' : BitVec 5},
      (adjusting f frt (figure15 false rmc s.fpscr) (readDatum f frb s)).map (fun x => (te'.toInt, x)) = some (te, x) →
      validReg f frt = true → effectOf i s = deliver (fun g d => datumWrites g frt d)
        (quantizeResult f (rmcMode rmc false s) (immediateQuantum te') (readDatum f frb s)) s.fpscr →
      x.Delivers i s (quantizeFinite x.fmt x.mode te x.sign x.coeff x.exp) ∧ x.fmt.xmin ≤ te ∧ te ≤ x.fmt.xmax := by
    intro f frt frb rmc te' h hv he
    obtain ⟨y, hy, hxy⟩ := Option.map_eq_some_iff.1 h
    obtain ⟨rfl, rfl⟩ := Prod.mk.inj hxy
    obtain ⟨hdelivers, hf, hmode⟩ := delivers_of_adjusting (res := quantizeResult f (rmcMode rmc false s) (immediateQuantum te')) hy hv he
    rw [rmcMode_eq_figure15, ← hmode, ← hf] at hdelivers
    exact ⟨hdelivers, ((finite_fits_iff ..).1 (immediateQuantum_fits te' y.fmt)).2⟩
  have hregister : ∀ {f : Fmt} {frt fra frb : FprNum} {rmc : BitVec 2},
      adjustingTo f frt (figure15 false rmc s.fpscr) (readDatum f fra s) (readDatum f frb s) = some (te, x) →
      validReg f frt = true → effectOf i s = deliver (fun g d => datumWrites g frt d)
        (quantizeResult f (rmcMode rmc false s) (readDatum f fra s) (readDatum f frb s)) s.fpscr →
      x.Delivers i s (quantizeFinite x.fmt x.mode te x.sign x.coeff x.exp) ∧ x.fmt.xmin ≤ te ∧ te ≤ x.fmt.xmax := by
    intro f frt fra frb rmc h hv he
    have hfits := readDatum_fits f fra s
    cases ha : readDatum f fra s with
    | finite sa ca ea =>
      rw [ha] at h he hfits
      obtain ⟨y, hy, hxy⟩ := Option.map_eq_some_iff.1 h
      obtain ⟨rfl, rfl⟩ := Prod.mk.inj hxy
      obtain ⟨hdelivers, hf, hmode⟩ :=
        delivers_of_adjusting (res := quantizeResult f (rmcMode rmc false s) (.finite sa ca ea)) hy hv he
      rw [rmcMode_eq_figure15, ← hmode, ← hf] at hdelivers
      exact ⟨hdelivers, hf ▸ ((finite_fits_iff ..).1 hfits).2⟩
    | inf | qnan | snan => simp [ha, adjustingTo] at h
  cases i with
  | dquai => exact himmediate h rfl rfl
  | dquaiq => exact himmediate h (validReg_of_evenPair hwf) rfl
  | dqua => exact hregister h rfl rfl
  | dquaq => exact hregister h (validReg_of_evenRegs hwf) rfl
  | _ => simp [quantizeOf] at h

/-- Settles O49: the rows of Figure 29. (`quantize` names a function of the model.) -/
theorem quantize_holds : Obligations.Quantize := by
  intro i s te x hwf h
  obtain ⟨hdelivers, hlo, hhi⟩ := delivers_of_quantizeOf hwf h
  obtain ⟨hc, -⟩ := (finite_fits_iff ..).1 hdelivers.fits
  refine ⟨fun hzero => ?_, fun hle hne hsmall => ?_, fun hle hlarge => ?_, fun hlt hne n hround => ?_⟩
  · rw [quantizeFinite, if_pos hzero] at hdelivers
    exact hdelivers.exact hwf ((finite_fits_iff ..).2 ⟨by positivity, hlo, hhi⟩)
  · rw [quantizeFinite, if_neg hne, if_pos hle, if_pos hsmall] at hdelivers
    exact hdelivers.exact hwf ((finite_fits_iff ..).2 ⟨hsmall, hlo, hhi⟩)
  · have hne : x.coeff ≠ 0 := by
      intro hzero
      have hpos : 0 < 10 ^ x.fmt.precision := by positivity
      simp [hzero] at hlarge
    rw [quantizeFinite, if_neg hne, if_pos hle, if_neg hlarge.not_gt] at hdelivers
    exact hdelivers.invalid hwf
  · obtain ⟨hn, hinexact, hincremented⟩ := roundAt_finite hround
    rw [quantizeFinite, if_neg hne, if_neg hlt.not_ge] at hdelivers
    simp only [hn] at hdelivers
    obtain ⟨t, hexec, hcompletes, hread, hflags, hkept⟩ := hdelivers.rounded hwf
      ((finite_fits_iff ..).2 ⟨roundsTo_lt_pow x.fmt.precision_pos hc (by omega) hround, hlo, hhi⟩)
    exact ⟨t, hexec, hcompletes, hread, roundedFlags_congr hflags hinexact hincremented, hkept⟩

/-! Reround. -/

/-- Reround of a finite operand, with the referenced significance. -/
theorem delivers_of_reroundOf {i : Instr} {s : State} {k : Nat} {x : Adjusting} (hwf : wellFormed i = true)
    (h : reroundOf i s = some (k, x)) :
    x.Delivers i s (reroundResult x.fmt x.mode k (.finite x.sign x.coeff x.exp)) := by
  have hregister : ∀ {f : Fmt} {frt fra frb : FprNum} {rmc : BitVec 2},
      (adjusting f frt (figure15 false rmc s.fpscr) (readDatum f frb s)).map (fun x => (significance fra s, x)) =
        some (k, x) →
      validReg f frt = true → effectOf i s = deliver (fun g d => datumWrites g frt d)
        (reroundResult f (rmcMode rmc false s) (significance fra s) (readDatum f frb s)) s.fpscr →
      x.Delivers i s (reroundResult x.fmt x.mode k (.finite x.sign x.coeff x.exp)) := by
    intro f frt fra frb rmc h hv he
    obtain ⟨y, hy, hxy⟩ := Option.map_eq_some_iff.1 h
    obtain ⟨rfl, rfl⟩ := Prod.mk.inj hxy
    obtain ⟨hdelivers, hf, hmode⟩ :=
      delivers_of_adjusting (res := reroundResult f (rmcMode rmc false s) (significance fra s)) hy hv he
    rw [rmcMode_eq_figure15, ← hmode, ← hf] at hdelivers
    exact hdelivers
  cases i with
  | drrnd => exact hregister h rfl rfl
  | drrndq => exact hregister h (validReg_of_evenPair hwf) rfl
  | _ => simp [reroundOf] at h

/-- Rounding a coefficient of `k + d` digits to `k` digits. -/
theorem roundInt_digits {mode : Mode} {s : Bool} {c d n : Nat} (h : roundsTo mode s ((c : ℚ) / 10 ^ d) n) :
    (roundInt c (10 ^ d) mode s).n = n ∧
    ((roundInt c (10 ^ d) mode s).inexact = true ↔ n * 10 ^ d ≠ c) ∧
    ((roundInt c (10 ^ d) mode s).incremented = true ↔ c < n * 10 ^ d) := by
  obtain ⟨hround, hinexact, hincremented⟩ := roundInt_spec c (den := 10 ^ d) (by positivity) mode s
  push_cast at hround hinexact hincremented
  have hn := roundsTo_unique hround h
  have hpos : (0 : ℚ) < 10 ^ d := by positivity
  rw [hn] at hinexact hincremented
  refine ⟨hn, ?_, ?_⟩
  · rw [hinexact, ne_eq, div_eq_iff hpos.ne', eq_comm]
    exact_mod_cast Iff.rfl
  · rw [hincremented, div_lt_iff₀ hpos]
    exact_mod_cast Iff.rfl

/-- Rounding a coefficient below `10^(k+d)` gives at most `10^k`. -/
theorem roundsTo_le_pow {mode : Mode} {s : Bool} {c k d n : Nat} (hc : c < 10 ^ (k + d))
    (h : roundsTo mode s ((c : ℚ) / 10 ^ d) n) : n ≤ 10 ^ k := by
  refine (roundsTo_bounds h (10 ^ k)).2 ?_
  rw [div_le_iff₀ (by positivity)]
  exact_mod_cast (pow_add 10 k d ▸ hc.le)

/-- What Reround makes of a coefficient with more than `k` digits (45_quantum_adjustment.md R358). -/
theorem reroundFinite_eq {f : Fmt} {mode : Mode} {k d n c' : Nat} {s : Bool} {c : Nat} {e e' : Int}
    (h : roundsTo mode s ((c : ℚ) / 10 ^ d) n)
    (hcarry : (c', e') = (if n = 10 ^ k then (10 ^ (k - 1), e + d + 1) else (n, e + d))) :
    reroundFinite f mode k (k + d) s c e = if f.xmax < e' then exceptionResult f .vxcvi defaultNaN
      else roundedResult f (.finite s c' e') (roundInt c (10 ^ d) mode s) := by
  obtain ⟨hn, -⟩ := roundInt_digits h
  simp only [reroundFinite, Nat.add_sub_cancel_left, hn, beq_iff_eq]
  split at hcarry
  case isTrue hk =>
    obtain ⟨rfl, rfl⟩ := Prod.mk.inj hcarry
    simp [hk]
  case isFalse hk =>
    obtain ⟨rfl, rfl⟩ := Prod.mk.inj hcarry
    simp [hk]

/-- Settles O50: the columns of Figure 30. (`reround` names a function of the model.) -/
theorem reround_holds : Obligations.Reround := by
  intro i s k x hwf h
  have hdelivers := delivers_of_reroundOf hwf h
  refine ⟨fun hfew => ?_, fun d n hk hd hlo hhi hround c e hcarry => ?_⟩
  · rw [← numDigits_le_iff] at hfew
    have hkept : reroundResult x.fmt x.mode k (.finite x.sign x.coeff x.exp) =
        exactResult x.fmt (.finite x.sign x.coeff x.exp) := if_pos hfew
    rw [hkept] at hdelivers
    exact hdelivers.exact hwf hdelivers.fits
  · obtain ⟨hc, hxmin, -⟩ := (finite_fits_iff ..).1 hdelivers.fits
    have hdigits : numDigits x.coeff = k + d := numDigits_eq (by omega) hlo hhi
    have hrerounded : reroundResult x.fmt x.mode k (.finite x.sign x.coeff x.exp) =
        reroundFinite x.fmt x.mode k (k + d) x.sign x.coeff x.exp :=
      hdigits ▸ if_neg (by omega)
    rw [hrerounded, reroundFinite_eq hround hcarry] at hdelivers
    obtain ⟨-, hinexact, hincremented⟩ := roundInt_digits hround
    refine ⟨fun hle => ?_, fun hgt => ?_⟩
    · rw [if_neg hle.not_gt] at hdelivers
      have hkp : k < x.fmt.precision := by
        have := (Nat.pow_lt_pow_iff_right (by decide)).1 (hlo.trans_lt hc)
        omega
      have hform : c ≤ 10 ^ k ∧ x.exp ≤ e := by
        have hn := roundsTo_le_pow hhi hround
        have hpow : 10 ^ (k - 1) ≤ 10 ^ k := Nat.pow_le_pow_right (by decide) (by omega)
        split at hcarry <;> obtain ⟨rfl, rfl⟩ := Prod.mk.inj hcarry
        · exact ⟨hpow, by omega⟩
        · exact ⟨hn, by omega⟩
      have hfits : (Datum.finite x.sign c e).fits x.fmt = true := (finite_fits_iff ..).2
        ⟨hform.1.trans_lt (Nat.pow_lt_pow_right (by decide) hkp), hxmin.trans hform.2, hle⟩
      obtain ⟨t, hexec, hcompletes, hread, hflags, hkept⟩ := hdelivers.rounded hwf hfits
      exact ⟨t, hexec, hcompletes, hread, roundedFlags_congr hflags hinexact hincremented, hkept⟩
    · rw [if_pos hgt] at hdelivers
      exact hdelivers.invalid hwf

/-! Round To FP Integer. -/

theorem delivers_of_roundToIntOf {i : Instr} {s : State} {withInexact : Bool} {x : Adjusting}
    (hwf : wellFormed i = true) (h : roundToIntOf i s = some (withInexact, x)) :
    x.Delivers i s (roundToIntResult x.fmt x.mode withInexact (.finite x.sign x.coeff x.exp)) := by
  have hregister : ∀ {f : Fmt} {frt frb : FprNum} {rmc : BitVec 2} {r wi : Bool},
      (adjusting f frt (figure15 r rmc s.fpscr) (readDatum f frb s)).map (fun x => (wi, x)) = some (withInexact, x) →
      validReg f frt = true → effectOf i s = deliver (fun g d => datumWrites g frt d)
        (roundToIntResult f (rmcMode rmc r s) wi (readDatum f frb s)) s.fpscr →
      x.Delivers i s (roundToIntResult x.fmt x.mode withInexact (.finite x.sign x.coeff x.exp)) := by
    intro f frt frb rmc r wi h hv he
    obtain ⟨y, hy, hxy⟩ := Option.map_eq_some_iff.1 h
    obtain ⟨rfl, rfl⟩ := Prod.mk.inj hxy
    obtain ⟨hdelivers, hf, hmode⟩ := delivers_of_adjusting (res := roundToIntResult f (rmcMode rmc r s) wi) hy hv he
    rw [rmcMode_eq_figure15, ← hmode, ← hf] at hdelivers
    exact hdelivers
  cases i with
  | drintx | drintn => exact hregister h rfl rfl
  | drintxq | drintnq => exact hregister h (validReg_of_evenPair hwf) rfl
  | _ => simp [roundToIntOf] at h

theorem Fmt.zero_in_range (f : Fmt) : f.xmin ≤ 0 ∧ 0 ≤ f.xmax := by cases f <;> decide

/-- Settles O51: the rows of Figures 31 and 32 for a finite operand. -/
theorem roundToInteger : Obligations.RoundToInteger := by
  intro i s withInexact x hwf h
  have hdelivers := delivers_of_roundToIntOf hwf h
  obtain ⟨hc, -⟩ := (finite_fits_iff ..).1 hdelivers.fits
  refine ⟨fun hnonneg => ?_, fun hneg n hround => ?_⟩
  · have hkept : roundToIntResult x.fmt x.mode withInexact (.finite x.sign x.coeff x.exp) =
        exactResult x.fmt (.finite x.sign x.coeff x.exp) := if_pos hnonneg
    rw [hkept] at hdelivers
    exact hdelivers.exact hwf hdelivers.fits
  · have hfits : (Datum.finite x.sign n 0).fits x.fmt = true := (finite_fits_iff ..).2
      ⟨roundsTo_lt_pow x.fmt.precision_pos hc hneg hround, x.fmt.zero_in_range⟩
    obtain ⟨hn, hinexact, hincremented⟩ := roundAt_finite (q := 0) (by simpa using hround)
    have hrounded : roundToIntResult x.fmt x.mode withInexact (.finite x.sign x.coeff x.exp) =
        if withInexact then roundedResult x.fmt (.finite x.sign n 0) (roundAt ⟨x.coeff, 1, x.exp⟩ 0 x.mode x.sign)
        else exactResult x.fmt (.finite x.sign n 0) := by
      rw [← hn]
      exact if_neg hneg.not_ge
    rw [hrounded] at hdelivers
    cases withInexact with
    | true =>
      obtain ⟨t, hexec, hcompletes, hread, hflags, hkept⟩ := hdelivers.rounded hwf hfits
      refine ⟨t, hexec, hcompletes, fun _ => ⟨hread, roundedFlags_congr hflags ?_ ?_, hkept⟩, by simp⟩
      · simpa using hinexact
      · simpa using hincremented
    | false =>
      obtain ⟨t, hexec, hcompleted, hexact⟩ := hdelivers.exact hwf hfits
      exact ⟨t, hexec, fun _ => hcompleted, by simp, fun _ => ⟨hcompleted, hexact⟩⟩

end Sys2Proof.Machine
end

section
/-! The conversions (46_conversion.md). -/

namespace Sys2Proof.Machine

/-! Effects without an enabled exception. -/

/-- An effect with no cause completes and leaves its FPSCR. -/
theorem exec_of_no_causes {i : Instr} {s : State} {e : Effect} (hwf : wellFormed i = true) (he : effectOf i s = e)
    (hc : e.causes = []) :
    ∃ t, exec i s = .next t ∧ completed s t ∧ t.fpscr = e.fpscr ∧ t.fpr = writeFprs e.fprs s.fpr := by
  subst he
  refine ⟨_, exec_wellFormed hwf s, ?_, commit_fpscr .., commit_fpr ..⟩
  rw [commit_no_causes _ hc]
  exact completed_advance_applyEffect ..

/-! To a wider format. -/

/-- Every number of `src` is one of `tgt`, and a payload of `src` fits `tgt`. -/
structure Widens (src tgt : Fmt) : Prop where
  precision : src.precision ≤ tgt.precision
  xmin : tgt.xmin ≤ src.xmin
  xmax : src.xmax ≤ tgt.xmax

theorem Widens.pow_le {src tgt : Fmt} (h : Widens src tgt) :
    10 ^ src.precision ≤ 10 ^ tgt.precision ∧ 10 ^ (src.precision - 1) ≤ 10 ^ (tgt.precision - 1) :=
  ⟨Nat.pow_le_pow_right (by decide) h.precision,
    Nat.pow_le_pow_right (by decide) (Nat.sub_le_sub_right h.precision 1)⟩

theorem Widens.fits {src tgt : Fmt} (h : Widens src tgt) {b : Datum} (hb : b.fits src = true) :
    b.fits tgt = true := by
  obtain ⟨hdigits, hpayload⟩ := h.pow_le
  cases b with
  | finite s c e =>
    obtain ⟨hc, hlo, hhi⟩ := (finite_fits_iff ..).1 hb
    exact (finite_fits_iff ..).2 ⟨hc.trans_le hdigits, h.xmin.trans hlo, hhi.trans h.xmax⟩
  | inf | qnan | snan => exact decide_eq_true ((of_decide_eq_true hb).trans_le hpayload)

theorem fitPayload_of_lt {f : Fmt} {y : Nat} (h : y < 10 ^ (f.precision - 1)) : fitPayload f y = y :=
  Nat.mod_eq_of_lt h

theorem zeroResult_of_range {f : Fmt} {e : Int} (hlo : f.xmin ≤ e) (hhi : e ≤ f.xmax) (s : Bool) :
    zeroResult f s e = .finite s 0 e := by
  rw [zeroResult, clampInt_eq_max_min f.xmin_le_xmax]
  congr 1
  omega

theorem convertResult_zero (f : Fmt) (signals : Bool) (finite : Bool → Nat → Int → Result) (s : Bool) (e : Int) :
    convertResult f signals finite (.finite s 0 e) = exactResult f (zeroResult f s e) := rfl

/-- A datum of the target format is converted to itself, if conversion keeps its numbers and an SNaN does not
signal. -/
theorem convertResult_of_fits {f : Fmt} {finite : Bool → Nat → Int → Result} {b : Datum} (hb : b.fits f = true)
    (hfinite : ∀ s c e, b = .finite s c e → c ≠ 0 → finite s c e = exactResult f b) :
    convertResult f false finite b = exactResult f b := by
  cases b with
  | finite s c e =>
    by_cases hc : c = 0
    · obtain ⟨-, hlo, hhi⟩ := (finite_fits_iff ..).1 hb
      subst hc
      rw [convertResult_zero, zeroResult_of_range hlo hhi]
    · exact (if_neg hc).trans (hfinite s c e rfl hc)
  | inf s y | qnan s y | snan s y =>
    have hy := fitPayload_of_lt (of_decide_eq_true hb : y < 10 ^ (f.precision - 1))
    simp [convertResult, hy]

theorem widens_dfp32_dfp64 : Widens .dfp32 .dfp64 := ⟨by decide, by decide, by decide⟩

theorem widens_dfp64_dfp128 : Widens .dfp64 .dfp128 := ⟨by decide, by decide, by decide⟩

/-- What dctdp delivers: its operand. -/
theorem effectOf_dctdp (frt frb : FprNum) (rc : Bool) (s : State) :
    effectOf (.dctdp frt frb rc) s = dctdpEffect frt (readDatum .dfp32 frb s) s.fpscr := by
  have hfits := widens_dfp32_dfp64.fits (readDatum_fits .dfp32 frb s)
  have hwiden : widenResult .dfp64 false (readDatum .dfp32 frb s) = exactResult .dfp64 (readDatum .dfp32 frb s) :=
    convertResult_of_fits hfits fun _ _ _ hb _ => by rw [hb]
  rw [effectOf, hwiden]
  rfl

/-- dctdp puts its operand in the target and writes FPRF alone (46_conversion.md R381). -/
theorem exec_dctdp (frt frb : FprNum) (rc : Bool) (s : State) :
    ∃ t, exec (.dctdp frt frb rc) s = .next t ∧ completed s t ∧
      readDatum .dfp64 frt t = readDatum .dfp32 frb s ∧
      t.fpscr = setFpscr [] .unchanged (.cls (classCode .dfp64 (readDatum .dfp32 frb s))) s.fpscr := by
  obtain ⟨t, hexec, hcompleted, hfpscr, hfpr⟩ := exec_of_no_causes rfl (effectOf_dctdp frt frb rc s) rfl
  have hfits := widens_dfp32_dfp64.fits (readDatum_fits .dfp32 frb s)
  exact ⟨t, hexec, hcompleted, readDatum_of_writes rfl hfits hfpr, hfpscr⟩

/-- Settles O52: the wider format holds the operand as it is. -/
theorem widen : Obligations.Widen := by
  refine ⟨fun frt frb rc s => ?_, fun frt frb rc s sg c e heven hb => ?_⟩
  · obtain ⟨t, hexec, hcompleted, hread, hfpscr⟩ := exec_dctdp frt frb rc s
    obtain ⟨hfr, hfi⟩ := setFpscr_frfi_unchanged (exc := []) (by simp) (by simp)
      (.cls (classCode .dfp64 (readDatum .dfp32 frb s))) s.fpscr
    refine ⟨t, hexec, hcompleted, hread, ?_, ?_, ?_, fun b hb' _ => ?_⟩
    · rw [hfpscr, setFpscr_cls, classCode_eq_figure1]
      rfl
    · rw [hfpscr, hfr]
    · rw [hfpscr, hfi]
    · rw [hfpscr, getBit_setFpscr_exception _ _ _ _ hb']
      simp [FrFi.inexact]
  · have hfits := widens_dfp64_dfp128.fits (hb ▸ readDatum_fits .dfp64 frb s)
    have hwiden : widenResult .dfp128 true (.finite sg c e) = exactResult .dfp128 (.finite sg c e) := by
      obtain ⟨-, hlo, hhi⟩ := (finite_fits_iff ..).1 hfits
      by_cases hc : c = 0
      · subst hc
        rw [widenResult, convertResult_zero, zeroResult_of_range hlo hhi]
      · exact if_neg hc
    refine exec_exactOutcome heven ?_ hfits (placesAt_datumWrites heven)
    rw [← hwiden, ← hb]
    rfl

/-! To a narrower format and back. -/

/-- A number of a format is its own unbounded rounding. -/
theorem unboundedRounding_of_fits {f : Fmt} (mode : Mode) (s : Bool) {c : Nat} (hc : c ≠ 0) (e : Int)
    (hfits : c < 10 ^ f.precision) :
    ∃ n q, unboundedRounding f.precision mode s ((c : ℚ) * 10 ^ e) n q ∧ (n : ℚ) * 10 ^ q = c * 10 ^ e := by
  have hpos := Nat.pos_of_ne_zero hc
  have hle : numDigits c ≤ f.precision := numDigits_le_iff.2 hfits
  obtain ⟨k, hk⟩ : ∃ k, f.precision = numDigits c + k := ⟨f.precision - numDigits c, by omega⟩
  have hdigits : numDigits (c * 10 ^ k) = f.precision := (numDigits_mul_pow hpos k).trans hk.symm
  have hpad : ((c * 10 ^ k : Nat) : ℚ) * 10 ^ (e - k) = c * 10 ^ e := by
    rw [zpow_sub₀ (by norm_num), zpow_natCast]
    push_cast
    field_simp
  refine ⟨c * 10 ^ k, e - k, hpad ▸ unboundedRounding_exact mode s ?_ ?_, hpad⟩
  · exact hdigits ▸ pow_le_of_numDigits (Nat.mul_pos hpos (by positivity))
  · exact hdigits ▸ lt_pow_numDigits _

/-- The form with the exponent closest to its own exponent is the number itself. -/
theorem deliveredForm_self {p : Nat} {xmin xmax : Int} {exact : Prop} {c c' : Nat} {e e' : Int} (hexact : exact)
    (h : deliveredForm p xmin xmax exact e c' e') (hvalue : (c' : ℚ) * 10 ^ e' = c * 10 ^ e)
    (hform : isForm p xmin xmax c e) : c' = c ∧ e' = e := by
  have hclose := (h.2 c e hform hvalue.symm).1 hexact
  have he : e' = e := by
    rw [sub_self, abs_zero] at hclose
    exact sub_eq_zero.1 (abs_nonpos_iff.1 hclose)
  subst he
  have hpow : (10 : ℚ) ^ e' ≠ 0 := by positivity
  exact ⟨by exact_mod_cast mul_right_cancel₀ hpow hvalue, rfl⟩

/-- A number of the target format is delivered as it is, if Underflow is disabled. -/
theorem roundDeliver_of_fits {f w : Fmt} {alpha : Int} {oe s : Bool} {c : Nat} {e : Int} {mode : Mode} (hc : c ≠ 0)
    (hfits : (Datum.finite s c e).fits f = true) :
    roundDeliver f w alpha oe false s ⟨c, 1, e⟩ e mode = ⟨.finite s c e, f, false, false, false, false⟩ := by
  have hform : isForm f.precision f.xmin f.xmax c e := (finite_fits_iff ..).1 hfits
  have hvalue : (⟨c, 1, e⟩ : Mag).value = c * 10 ^ e := by simp [Mag.value]
  have hexactFlags : ∀ {fi fr : Bool} {v : ℚ}, (fi = true ↔ (c : ℚ) * 10 ^ e ≠ v) → (fr = true ↔ (c : ℚ) * 10 ^ e < v) →
      v = c * 10 ^ e → fi = false ∧ fr = false := by
    rintro fi fr v hfi hfr rfl
    exact ⟨Bool.eq_false_iff.2 fun h => hfi.1 h rfl, Bool.eq_false_iff.2 fun h => lt_irrefl _ (hfr.1 h)⟩
  by_cases hmin : (⟨c, 1, e⟩ : Mag).value < (10 : ℚ) ^ (f.xmin + f.precision - 1)
  · have hint : (⟨c, 1, e⟩ : Mag).value / 10 ^ f.xmin = ((c * 10 ^ (e - f.xmin).toNat : Nat) : ℚ) := by
      rw [hvalue, mul_div_assoc, ← zpow_sub₀ (by norm_num)]
      push_cast
      rw [← zpow_natCast, Int.toNat_of_nonneg (by have := hform.2.1; omega)]
    have hmul : ((c * 10 ^ (e - f.xmin).toNat : Nat) : ℚ) * 10 ^ f.xmin = c * 10 ^ e := by
      rw [← hint, hvalue, div_mul_cancel₀ _ (by positivity)]
    obtain ⟨c', e', fi, fr, hround, hv, hdelivered, hfi, hfr⟩ := roundDeliver_tiny (w := w) (alpha := alpha) (oe := oe)
      (s := s) (mode := mode) (ideal := e) (Nat.pos_of_ne_zero hc) Nat.one_pos (hint ▸ roundsTo_exact mode s _) hmin
    rw [hmul] at hv hdelivered hfi hfr
    rw [hvalue] at hdelivered hfi hfr
    obtain ⟨rfl, rfl⟩ := deliveredForm_self rfl hdelivered hv hform
    obtain ⟨rfl, rfl⟩ := hexactFlags hfi hfr rfl
    exact hround
  · obtain ⟨n, q, hu, hn⟩ := unboundedRounding_of_fits mode s hc e hform.1
    have hmax : (n : ℚ) * 10 ^ q ≤ ((10 ^ f.precision - 1 : Nat) : ℚ) * 10 ^ f.xmax := by
      rw [hn]
      refine mul_le_mul ?_ (zpow10_le_iff.2 hform.2.2) (by positivity) (by positivity)
      exact_mod_cast Nat.le_sub_one_of_lt hform.1
    obtain ⟨c', e', fi, fr, hround, hv, hdelivered, hfi, hfr⟩ := roundDeliver_normal (w := w) (alpha := alpha) (oe := oe)
      (ue := false) (ideal := e) (Nat.pos_of_ne_zero hc) Nat.one_pos (hvalue ▸ hu) (not_lt.1 hmin) hmax
    rw [hn] at hv hdelivered hfi hfr
    rw [hvalue] at hdelivered hfi hfr
    obtain ⟨rfl, rfl⟩ := deliveredForm_self rfl hdelivered hv hform
    obtain ⟨rfl, rfl⟩ := hexactFlags hfi hfr rfl
    exact hround

/-- Settles O53: dctdp delivers the datum, and drsp of a datum of DFP32 delivers it again. -/
theorem dfp32RoundTrip : Obligations.Dfp32RoundTrip := by
  intro s r frt frb rc rc' w hw henc hquiet
  obtain ⟨t, hexec, -, hread, hfpscr⟩ := exec_dctdp r frb rc s
  have hdatum : readDatum .dfp32 frb s = dec .dfp32 w := by rw [hw]; rfl
  have hfits : (dec .dfp32 w).fits .dfp32 = true := dec_fits ..
  rw [hdatum] at hread hfpscr
  have hue : getBit t.fpscr .ue = getBit s.fpscr .ue := by
    rw [hfpscr]
    exact getMsbD_setFpscr (by decide) (by simp) (by decide) (.inl rfl) (.inr (by decide))
  have hnarrow : narrowResult .dfp64 .dfp32 192 false (roundEnv t.fpscr) (dec .dfp32 w) =
      exactResult .dfp32 (dec .dfp32 w) := by
    refine convertResult_of_fits hfits fun sg c e hb hc => ?_
    have hdisabled : (roundEnv t.fpscr).ue = false :=
      hue.trans (hquiet.resolve_right fun h => h sg c e hb)
    rw [hb] at hfits ⊢
    rw [hdisabled, roundDeliver_of_fits hc hfits]
    rfl
  refine ⟨t, _, hexec, exec_wellFormed rfl t, ?_⟩
  rw [readFpr, commit_fpr]
  simp only [effectOf, hread, hnarrow, deliver, exactResult, suppresses_nil, Bool.false_eq_true, if_false,
    datumWrites, operandWrites]
  have hlt : enc .dfp32 (dec .dfp32 w) < 2 ^ 32 := enc_lt hfits
  rw [writeFprs_one, BitVec.toNat_ofNat, Nat.mod_eq_of_lt (hlt.trans (by decide)), henc]

/-! From a 64-bit integer. -/

theorem natAbs_toInt_le (w : Dword) : w.toInt.natAbs ≤ 2 ^ 63 := by
  have hlo := w.le_toInt
  have hhi := w.toInt_lt
  omega

/-- Settles O54: the integer fits the target, and only FPRF is written. -/
theorem convertFromFixed : Obligations.ConvertFromFixed := by
  intro frt frb rc s n heven hn
  have hfits : (Datum.finite (decide (n < 0)) n.natAbs 0).fits .dfp128 = true := by
    have hle : n.natAbs ≤ 2 ^ 63 := hn ▸ natAbs_toInt_le (readFpr s frb)
    exact (finite_fits_iff ..).2 ⟨hle.trans_lt (by decide), Fmt.zero_in_range .dfp128⟩
  have he : effectOf (.dcffixq frt frb rc) s = dcffixqEffect frt n s.fpscr := by rw [hn]; rfl
  obtain ⟨t, hexec, hcompleted, hfpscr, hfpr⟩ := exec_of_no_causes (i := .dcffixq frt frb rc) heven he rfl
  refine ⟨t, hexec, hcompleted, readDatum_of_writes (f := .dfp128) heven hfits hfpr, ?_, fun k hk hnot => ?_⟩
  · rw [hfpscr, ← classCode_eq_figure1]
    exact fprfOf_setFprf ..
  · rw [hfpscr]
    simp only [List.mem_cons, List.not_mem_nil, or_false] at hnot
    exact getMsbD_setFprf _ _ hk (by omega)

/-! To a 64-bit integer. -/

/-- The instruction has taken `s` to `t` and converted to fixed: what `Fixed` says is recorded, FPRF is not
written, and the integer is stored unless an enabled Invalid Operation suppresses it. -/
structure Fixes (s t : State) (frt : FprNum) (x : Fixed) : Prop where
  bits : ∀ b ∈ exceptionBits, getBit t.fpscr b =
    (x.exc.contains b || getBit s.fpscr b || (decide (b = .xx) && x.fi))
  fr : getBit t.fpscr .fr = x.fr
  fi : getBit t.fpscr .fi = x.fi
  fprf : fprfOf t.fpscr = fprfOf s.fpscr
  suppressed : suppresses x.exc s.fpscr = true → t.fpr = s.fpr
  stored : suppresses x.exc s.fpscr = false → readFpr t frt = BitVec.ofInt 64 x.value
  completes : noInvocation s = true → completed s t

theorem exec_fixes {i : Instr} {s : State} {frt : FprNum} {mode : Mode} {b : Datum} (hwf : wellFormed i = true)
    (he : effectOf i s = toFixedEffect frt (toFixed mode b) s.fpscr) :
    ∃ t, exec i s = .next t ∧ Fixes s t frt (toFixed mode b) := by
  have hindex : ∀ x ∈ (toFixed mode b).exc, x.index < 47 ∨ 51 < x.index := by
    intro x hx
    obtain h | ⟨hbits, -⟩ := toFixed_kinds (toFixed_exc mode b)
    · simp [h] at hx
    · rcases hbits x hx with rfl | rfl <;> decide
  refine ⟨_, exec_wellFormed hwf s, ?_⟩
  rw [he]
  obtain ⟨hfr, hfi⟩ := setFpscr_frfi (toFixed mode b).exc (toFixed mode b).fr (toFixed mode b).fi .unchanged s.fpscr
  constructor
  case bits =>
    intro x hx
    rw [commit_fpscr, toFixedEffect, getBit_setFpscr_exception _ _ _ _ hx, FrFi.inexact]
  case fr => rw [commit_fpscr, toFixedEffect, hfr]
  case fi => rw [commit_fpscr, toFixedEffect, hfi]
  case fprf =>
    rw [commit_fpscr]
    exact setFpscr_fprf_unchanged hindex _ _
  case suppressed =>
    intro hs
    rw [commit_fpr]
    simp [toFixedEffect, hs]
  case stored =>
    intro hs
    rw [readFpr, commit_fpr]
    simp only [toFixedEffect, hs, Bool.false_eq_true, if_false, intWrites]
    exact writeFprs_one ..
  case completes => exact fun h => completed_commit_of_noInvocation h _ rfl

theorem toInt_ofInt_of_range {n : Int} (hlo : -(2 ^ 63) ≤ n) (hhi : n ≤ 2 ^ 63 - 1) : (BitVec.ofInt 64 n).toInt = n := by
  rw [BitVec.toInt_ofInt]
  exact Int.bmod_eq_of_le (by omega) (by omega)

/-- An Invalid Operation of Convert To Fixed with a saturated integer (46_conversion.md R400). -/
theorem Fixes.fixedInvalid {s t : State} {frt : FprNum} {n : Int} {bits : List FpscrBit}
    (h : Fixes s t frt ⟨n, bits, false, false⟩) (hbits : ∀ b ∈ bits, b ∈ invalidBits) (hne : bits ≠ [])
    (hlo : -(2 ^ 63) ≤ n) (hhi : n ≤ 2 ^ 63 - 1) : fixedInvalid s t bits frt n := by
  have hinvalid : hasInvalid bits = true := by
    obtain ⟨b, hb⟩ := List.exists_mem_of_ne_nil _ hne
    exact List.any_eq_true.2 ⟨b, hb, by simpa using hbits b hb⟩
  have hzx : .zx ∉ bits := fun hzx => absurd (hbits _ hzx) (by decide)
  have hsuppresses : suppresses bits s.fpscr = getBit s.fpscr .ve := by simp [suppresses, hinvalid, hzx]
  refine ⟨fun b hb => ?_, fun b hb hnot => ?_, h.fr, h.fi, h.fprf, fun hve => ?_, fun hve => ?_⟩
  · rw [h.bits b (List.mem_append_right _ (hbits b hb))]
    simp [hb]
  · rw [h.bits b hb]
    simp [hnot]
  · exact h.suppressed (hsuppresses.trans hve)
  · rw [h.stored (hsuppresses.trans hve), toInt_ofInt_of_range hlo hhi]

theorem saturated_range (s : Bool) : -(2 ^ 63) ≤ saturated s ∧ saturated s ≤ 2 ^ 63 - 1 := by
  cases s <;> decide

/-- Convert To Fixed of a finite number, by the integer it is rounded to (46_conversion.md R400). -/
theorem toFixed_finite {mode : Mode} {sg : Bool} {c : Nat} {e : Int} {m : Nat} {n : Int}
    (h : roundsTo mode sg ((c : ℚ) * 10 ^ e) m) (hn : n = (if sg then -(m : Int) else m)) :
    toFixed mode (.finite sg c e) = (if n < -(2 ^ 63) ∨ 2 ^ 63 - 1 < n then ⟨saturated sg, [.vxcvi], false, false⟩
      else ⟨n, [], (roundAt ⟨c, 1, e⟩ 0 mode sg).incremented, (roundAt ⟨c, 1, e⟩ 0 mode sg).inexact⟩) ∧
    ((roundAt ⟨c, 1, e⟩ 0 mode sg).inexact = true ↔ (m : ℚ) ≠ c * 10 ^ e) ∧
    ((roundAt ⟨c, 1, e⟩ 0 mode sg).incremented = true ↔ (c : ℚ) * 10 ^ e < m) := by
  obtain ⟨hm, hinexact, hincremented⟩ := roundAt_finite (q := 0) (by simpa using h)
  refine ⟨?_, by simpa using hinexact, by simpa using hincremented⟩
  rw [hn, ← hm]
  rfl

/-- Settles O55: the rounded integer or the saturated one. (`convertToFixed` names a function of the model.) -/
theorem convertToFixed_holds : Obligations.ConvertToFixed := by
  intro quad s frt frb rc i hi hwf
  have he : effectOf i s = toFixedEffect frt (toFixed (figure14 s.fpscr) (readDatum (fmtOf quad) frb s)) s.fpscr := by
    rw [hi, ← drnMode_eq_figure14]
    cases quad <;> rfl
  obtain ⟨t, hexec, ht⟩ := exec_fixes hwf he
  cases hb : readDatum (fmtOf quad) frb s with
  | inf sg y =>
    rw [hb] at ht
    obtain ⟨hlo, hhi⟩ := saturated_range sg
    exact ⟨t, hexec, ht.completes, ht.fixedInvalid (by decide) (by simp) hlo hhi⟩
  | qnan | snan =>
    rw [hb] at ht
    exact ⟨t, hexec, ht.completes, ht.fixedInvalid (by decide) (by simp) (by decide) (by decide)⟩
  | finite sg c e =>
    intro m n hround hn
    obtain ⟨hfixed, hinexact, hincremented⟩ := toFixed_finite hround hn
    rw [hb, hfixed] at ht
    have hinvalid : n < -(2 ^ 63) ∨ 2 ^ 63 - 1 < n → fixedInvalid s t [.vxcvi] frt (saturated sg) := by
      intro hout
      rw [if_pos hout] at ht
      obtain ⟨hlo, hhi⟩ := saturated_range sg
      exact ht.fixedInvalid (by decide) (by simp) hlo hhi
    refine ⟨t, hexec, ht.completes, fun hlo hhi => ?_, fun hlow => ?_, fun hhigh => ?_⟩
    · rw [if_neg (by omega)] at ht
      have hfi := ht.fi
      have hfr := ht.fr
      have hkept : ∀ b ∈ exceptionBits, getBit t.fpscr b =
          (getBit s.fpscr b || (decide (b = .xx) && (roundAt ⟨c, 1, e⟩ 0 (figure14 s.fpscr) sg).inexact)) :=
        fun b hb => by simp [ht.bits b hb]
      refine ⟨?_, ?_, ?_, ?_, fun b hb hne => ?_, ht.fprf⟩
      · rw [ht.stored (suppresses_nil _), toInt_ofInt_of_range hlo hhi]
      · rw [hfi, hinexact]
      · rw [hfr, hincremented]
      · rw [hkept .xx (by decide), hfi]
        simp
      · rw [List.mem_singleton] at hne
        simp [hkept b hb, hne]
    · have hsg : sg = true := by
        cases sg with
        | true => rfl
        | false => simp at hn; omega
      rw [hsg] at hinvalid
      exact hinvalid (.inl hlow)
    · have hsg : sg = false := by
        cases sg with
        | false => rfl
        | true => simp at hn; omega
      rw [hsg] at hinvalid
      exact hinvalid (.inr hhigh)

end Sys2Proof.Machine
end

section
/-! The format instructions (47_format.md). -/

namespace Sys2Proof.Machine

/-! Effects that only write registers, and the target of a form of either size. -/

/-- An effect that only writes registers completes and leaves the FPSCR. -/
theorem exec_of_plainEffect {i : Instr} {s : State} {writes : List (FprNum × Dword)} (hwf : wellFormed i = true)
    (he : effectOf i s = plainEffect writes s.fpscr) :
    ∃ t, exec i s = .next t ∧ completed s t ∧ t.fpscr = s.fpscr ∧ t.fpr = writeFprs writes s.fpr :=
  exec_of_no_causes hwf he rfl

/-- An effect that only writes a datum puts it in the target. -/
theorem exec_of_plainDatum {i : Instr} {s : State} {f : Fmt} {frt : FprNum} {d : Datum} (hwf : wellFormed i = true)
    (hv : validReg f frt = true) (hfits : d.fits f = true)
    (he : effectOf i s = plainEffect (datumWrites f frt d) s.fpscr) :
    ∃ t, exec i s = .next t ∧ completed s t ∧ t.fpscr = s.fpscr ∧ readDatum f frt t = d := by
  obtain ⟨t, hexec, hcompleted, hfpscr, hfpr⟩ := exec_of_plainEffect hwf he
  exact ⟨t, hexec, hcompleted, hfpscr, readDatum_of_writes hv hfits hfpr⟩

/-- The target of an instruction whose quad form takes even registers. -/
theorem validReg_of_sized {quad : Bool} {basic quadForm : Instr} {frt frb : FprNum}
    (hwf : wellFormed (sized quad basic quadForm) = true)
    (hquad : wellFormed quadForm = (evenReg frt && evenReg frb)) : validReg (fmtOf quad) frt = true := by
  refine validReg_fmtOf fun h => ?_
  subst h
  exact (Bool.and_eq_true_iff.1 (hquad.symm.trans hwf)).1

/-! Nibbles and digits. -/

theorem nibbleAt_zero (n : Nat) : nibbleAt n 0 = n % 16 := by simp [nibbleAt]

theorem nibbleAt_succ (n j : Nat) : nibbleAt n (j + 1) = nibbleAt (n / 16) j := by
  rw [nibbleAt, nibbleAt, pow_succ', Nat.div_div_eq_div_mul]

theorem digitAt_zero (n : Nat) : digitAt n 0 = n % 10 := by simp [digitAt]

theorem digitAt_succ (n j : Nat) : digitAt n (j + 1) = digitAt (n / 10) j := by
  rw [digitAt, digitAt, pow_succ', Nat.div_div_eq_div_mul]

theorem nibbleAt_append_zero {x k : Nat} (hk : k < 16) : nibbleAt (x * 16 + k) 0 = k := by
  rw [nibbleAt_zero]
  omega

theorem nibbleAt_append_succ {x k : Nat} (hk : k < 16) (j : Nat) :
    nibbleAt (x * 16 + k) (j + 1) = nibbleAt x j := by
  rw [nibbleAt_succ]
  congr 1
  omega

/-! Decode DPD To BCD. -/

/-- Nibble `j` of the BCD digits is digit `j` (40_data_formats.md R151). -/
theorem nibbleAt_toBcd {n j : Nat} (hj : j < n) (v : Nat) : nibbleAt (toBcd n v) j = digitAt v j := by
  induction n generalizing v j with
  | zero => omega
  | succ n ih =>
    have hdigit : v % 10 < 16 := by omega
    rw [toBcd]
    cases j with
    | zero => rw [nibbleAt_append_zero hdigit, digitAt_zero]
    | succ j => rw [nibbleAt_append_succ hdigit, ih (by omega), digitAt_succ]

theorem toBcd_lt (n v : Nat) : toBcd n v < 16 ^ n := by
  induction n generalizing v with
  | zero => simp [toBcd]
  | succ n ih =>
    have := ih (v / 10)
    rw [toBcd, pow_succ]
    omega

theorem signCode_lt (s plus : Bool) : signCode s plus < 16 := by
  cases s <;> cases plus <;> decide

theorem coefficient_eq_digitsOf (d : Datum) : d.coefficient = digitsOf d := by cases d <;> rfl

theorem bcdNibbles_pos (f : Fmt) : 0 < bcdNibbles f := by cases f <;> decide

theorem dpdToBcd_lt (f : Fmt) (sp : BitVec 2) (d : Datum) : dpdToBcd f sp d < 16 ^ bcdNibbles f := by
  unfold dpdToBcd
  split
  · have hdigits := toBcd_lt (bcdNibbles f - 1) d.coefficient
    have hsign := signCode_lt d.sign (sp.getMsbD 1)
    have hpow : 16 ^ bcdNibbles f = 16 ^ (bcdNibbles f - 1) * 16 := (pow_sub_one_mul (bcdNibbles_pos f).ne' 16).symm
    omega
  · exact toBcd_lt ..

/-- An operand read back from where it was written, if its nibbles are as many as the format has. -/
theorem operandBits_of_writes_of_lt {f : Fmt} {r : FprNum} (hv : validReg f r = true) {s t : State} {v : Nat}
    (hlt : v < 16 ^ bcdNibbles f) (ht : t.fpr = writeFprs (operandWrites f r v) s.fpr) : operandBits f r t = v := by
  rw [operandBits_of_writes hv ht]
  cases f <;> exact Nat.mod_eq_of_lt hlt

theorem bcdNibbles_fmtOf (quad : Bool) : bcdNibbles (fmtOf quad) = if quad then 32 else 16 := by
  cases quad <;> rfl

theorem bcdNibbles_fmtOf_pred (quad : Bool) : bcdNibbles (fmtOf quad) - 1 = if quad then 31 else 15 := by
  cases quad <;> rfl

/-- Settles O56: the nibbles of the result are the digits, and in the signed form the sign code.
(`decodeToBcd` names a function of the model.) -/
theorem decodeToBcd_holds : Obligations.DecodeToBcd := by
  intro quad s sp frt frb rc d hwf hd
  have hv := validReg_of_sized hwf rfl
  obtain ⟨t, hexec, hcompleted, hfpscr, hfpr⟩ :=
    exec_of_plainEffect (writes := operandWrites (fmtOf quad) frt (dpdToBcd (fmtOf quad) sp d)) hwf
      (by rw [hd]; cases quad <;> rfl)
  have hbits := operandBits_of_writes_of_lt hv (dpdToBcd_lt ..) hfpr
  refine ⟨t, _, hexec, hcompleted, hfpscr, rfl, fun hunsigned j hj => ?_, fun hsigned => ?_⟩
  · rw [← bcdNibbles_fmtOf] at hj
    rw [hbits, dpdToBcd, hunsigned, if_neg (by simp), nibbleAt_toBcd hj, coefficient_eq_digitsOf]
  · have hcode := signCode_lt d.sign (sp.getMsbD 1)
    rw [hbits, dpdToBcd, hsigned, if_pos rfl]
    refine ⟨nibbleAt_append_zero hcode, fun j hj => ?_⟩
    rw [← bcdNibbles_fmtOf_pred] at hj
    rw [nibbleAt_append_succ hcode, nibbleAt_toBcd hj, coefficient_eq_digitsOf]

/-! Encode BCD To DPD. -/

/-- BCD digits stand for their value (40_data_formats.md R151). -/
theorem ofBcd_of_digits {n bits : Nat} (h : ∀ j < n, nibbleAt bits j ≤ 9) :
    ofBcd n bits = some (∑ j ∈ Finset.range n, nibbleAt bits j * 10 ^ j) := by
  induction n generalizing bits with
  | zero => rfl
  | succ n ih =>
    have hlow : bits % 16 ≤ 9 := nibbleAt_zero bits ▸ h 0 (by omega)
    have hhigh := ih (bits := bits / 16) fun j hj => nibbleAt_succ bits j ▸ h (j + 1) (by omega)
    have hsum : (∑ j ∈ Finset.range (n + 1), nibbleAt bits j * 10 ^ j) =
        (∑ j ∈ Finset.range n, nibbleAt (bits / 16) j * 10 ^ j) * 10 + bits % 16 := by
      simp [Finset.sum_range_succ', nibbleAt_succ, nibbleAt_zero, Finset.sum_mul, pow_succ, mul_assoc]
    rw [ofBcd, hhigh, hsum]
    exact if_pos hlow

/-- A nibble above 9 is no digit (40_data_formats.md R152). -/
theorem ofBcd_of_invalid {n bits : Nat} (h : ∃ j < n, 9 < nibbleAt bits j) : ofBcd n bits = none := by
  induction n generalizing bits with
  | zero => simp at h
  | succ n ih =>
    obtain ⟨j, hj, hinvalid⟩ := h
    rw [ofBcd]
    cases j with
    | zero =>
      rw [nibbleAt_zero] at hinvalid
      split
      · rfl
      · exact if_neg (by omega)
    | succ j =>
      rw [nibbleAt_succ] at hinvalid
      rw [ih ⟨j, by omega, hinvalid⟩]

/-- `n` decimal digits are a number below `10 ^ n`. -/
theorem sum_digits_lt {a : Nat → Nat} {n : Nat} (h : ∀ j < n, a j ≤ 9) :
    ∑ j ∈ Finset.range n, a j * 10 ^ j < 10 ^ n := by
  induction n with
  | zero => simp
  | succ n ih =>
    have hlow := ih fun j hj => h j (by omega)
    have htop := Nat.mul_le_mul_right (10 ^ n) (h n (by omega))
    rw [Finset.sum_range_succ, pow_succ]
    omega

theorem signOfCode_of_valid {code : Nat} (h : 9 < code) :
    signOfCode code = some (decide (code = 11 ∨ code = 13)) := by
  rw [signOfCode, if_neg (by omega)]
  simp [beq_eq_decide]

theorem signOfCode_of_invalid {code : Nat} (h : code ≤ 9) : signOfCode code = none := if_pos (by omega)

/-- The conversion of a valid unsigned operand. -/
theorem bcdToDpdResult_unsigned {f : Fmt} {v : Nat} (h : ∀ j < bcdNibbles f, nibbleAt v j ≤ 9) :
    bcdToDpdResult f false v =
      exactResult f (.finite false (∑ j ∈ Finset.range (bcdNibbles f), nibbleAt v j * 10 ^ j) 0) := by
  simp [bcdToDpdResult, bcdOperand, ofBcd_of_digits h]

/-- The conversion of a valid signed operand. -/
theorem bcdToDpdResult_signed {f : Fmt} {v : Nat} (hsign : 9 < nibbleAt v 0)
    (h : ∀ j < bcdNibbles f - 1, nibbleAt v (j + 1) ≤ 9) :
    bcdToDpdResult f true v = exactResult f (.finite (decide (nibbleAt v 0 = 11 ∨ nibbleAt v 0 = 13))
      (∑ j ∈ Finset.range (bcdNibbles f - 1), nibbleAt v (j + 1) * 10 ^ j) 0) := by
  have hdigits := ofBcd_of_digits (n := bcdNibbles f - 1) (bits := v / 16) fun j hj => nibbleAt_succ v j ▸ h j hj
  rw [bcdToDpdResult, bcdOperand, if_pos rfl, ← nibbleAt_zero, signOfCode_of_valid hsign, hdigits]
  simp only [nibbleAt_succ]

/-- The conversion of an operand with an invalid digit or sign code (47_format.md R423). -/
theorem bcdToDpdResult_invalid {f : Fmt} {signed : Bool} {v : Nat}
    (h : (signed = false ∧ ∃ j < bcdNibbles f, 9 < nibbleAt v j) ∨
      (signed = true ∧ (nibbleAt v 0 ≤ 9 ∨ ∃ j < bcdNibbles f - 1, 9 < nibbleAt v (j + 1)))) :
    bcdToDpdResult f signed v = exceptionResult f .vxcvi defaultNaN := by
  have hnone : bcdOperand f signed v = none := by
    obtain ⟨rfl, hdigit⟩ | ⟨rfl, hsign | hdigit⟩ := h
    · simp [bcdOperand, ofBcd_of_invalid hdigit]
    · rw [nibbleAt_zero] at hsign
      simp [bcdOperand, signOfCode_of_invalid hsign]
    · simp only [nibbleAt_succ] at hdigit
      simp [bcdOperand, ofBcd_of_invalid hdigit]
  rw [bcdToDpdResult, hnone]

/-- The digits of a BCD operand fit the format (40_data_formats.md R151, R162). -/
theorem integer_fits_of_nibbles (quad s : Bool) {c n : Nat} (hn : n ≤ bcdNibbles (fmtOf quad)) (hc : c < 10 ^ n) :
    (Datum.finite s c 0).fits (fmtOf quad) = true := by
  have hle : bcdNibbles (fmtOf quad) ≤ (fmtOf quad).precision := by cases quad <;> decide
  exact (finite_fits_iff ..).2
    ⟨hc.trans_le (Nat.pow_le_pow_right (by decide) (hn.trans hle)), Fmt.zero_in_range _⟩

/-- Settles O57: the digits' value with exponent 0, or the default NaN. (`encodeFromBcd` names a function of the
model.) -/
theorem encodeFromBcd_holds : Obligations.EncodeFromBcd := by
  intro quad signed s frt frb rc i v n hi hwf hv hn
  rw [← bcdNibbles_fmtOf] at hn
  have hplace : placesAt (fun g d => datumWrites g frt d) (fmtOf quad) frt :=
    placesAt_datumWrites (validReg_of_sized (hi ▸ hwf) rfl)
  have he : effectOf i s =
      deliver (fun g d => datumWrites g frt d) (bcdToDpdResult (fmtOf quad) signed v) s.fpscr := by
    rw [hi, hv]
    cases quad <;> rfl
  subst hn
  refine ⟨fun hsigned hdigits => ?_, fun hsigned hsign hdigits => ?_, fun hinvalid => ?_⟩
  · rw [hsigned, bcdToDpdResult_unsigned hdigits] at he
    exact exec_exactOutcome hwf he (integer_fits_of_nibbles _ _ le_rfl (sum_digits_lt hdigits)) hplace
  · rw [hsigned, bcdToDpdResult_signed hsign hdigits] at he
    exact exec_exactOutcome hwf he
      (integer_fits_of_nibbles _ _ (Nat.sub_le _ 1) (sum_digits_lt hdigits)) hplace
  · rw [bcdToDpdResult_invalid hinvalid] at he
    exact exec_invalidOutcome hwf he (by decide) (by cases quad <;> decide) hplace

/-! Extract and Insert Biased Exponent. -/

theorem bias_fmtOf (quad : Bool) : ((fmtOf quad).bias : Int) = if quad then 6176 else 398 := by
  cases quad <;> rfl

theorem extractedExponent_range {f : Fmt} {d : Datum} (h : d.fits f = true) :
    -(2 ^ 63) ≤ extractedExponent f d ∧ extractedExponent f d ≤ 2 ^ 63 - 1 := by
  cases d with
  | finite s c e =>
    obtain ⟨-, hlo, hhi⟩ := (finite_fits_iff ..).1 h
    cases f <;> simp only [Fmt.xmin, Fmt.xmax] at hlo hhi <;> simp only [extractedExponent, Fmt.bias] <;> omega
  | inf | qnan | snan => simp [extractedExponent]

/-- Settles O58: the extracted exponent is a 64-bit integer. (`extractExponent` names a function of the model.) -/
theorem extractExponent_holds : Obligations.ExtractExponent := by
  intro quad s frt frb rc hwf
  obtain ⟨t, hexec, hcompleted, hfpscr, hfpr⟩ :=
    exec_of_plainEffect
      (writes := intWrites frt (extractedExponent (fmtOf quad) (readDatum (fmtOf quad) frb s))) hwf
      (by cases quad <;> rfl)
  obtain ⟨hlo, hhi⟩ := extractedExponent_range (readDatum_fits (fmtOf quad) frb s)
  refine ⟨t, hexec, hcompleted, hfpscr, ?_⟩
  rw [readFpr, hfpr, intWrites, writeFprs_one, toInt_ofInt_of_range hlo hhi, ← bias_fmtOf]
  cases readDatum (fmtOf quad) frb s <;> rfl

/-- The leftmost digit and the others are the coefficient (47_format.md R434). -/
theorem leftmostDigit_append_ccDigits {f : Fmt} {d : Datum} (h : d.fits f = true) :
    leftmostDigit f d * 10 ^ (f.precision - 1) + ccDigits f d = digitsOf d := by
  cases d with
  | finite s c e => exact Nat.div_add_mod' ..
  | inf s y | qnan s y | snan s y =>
    have hy : y % 10 ^ (f.precision - 1) = y := fitPayload_of_lt (of_decide_eq_true h)
    simp [leftmostDigit, ccDigits, Datum.coefficient, digitsOf, hy]

/-- The digits of a datum are at most as many as the format has. -/
theorem digitsOf_lt {f : Fmt} {d : Datum} (h : d.fits f = true) : digitsOf d < 10 ^ digitCount f d := by
  cases d with
  | finite s c e => exact ((finite_fits_iff ..).1 h).1
  | inf s y | qnan s y | snan s y => exact of_decide_eq_true h

theorem digitCount_le_precision (f : Fmt) (d : Datum) : digitCount f d ≤ f.precision := by
  cases d <;> simp [digitCount]

theorem xmin_add_bias (f : Fmt) : f.xmin + f.bias = 0 := by cases f <;> rfl

/-- Figure 36 with the digits together (47_format.md R435, R436, R427). -/
theorem insertExponent_eq {f : Fmt} {b : Datum} (h : b.fits f = true) (a : Int) :
    insertExponent f a b =
      if 0 ≤ a ∧ a ≤ maxBiasedExponent f then .finite b.sign (digitsOf b) (a - f.bias)
      else if a = -1 then .inf b.sign (digitsOf b % 10 ^ (f.precision - 1))
      else if a = -3 then .snan b.sign (digitsOf b % 10 ^ (f.precision - 1))
      else .qnan b.sign (digitsOf b % 10 ^ (f.precision - 1)) := by
  rw [← coefficient_eq_digitsOf, ← ccDigits, insertExponent, leftmostDigit_append_ccDigits h,
    coefficient_eq_digitsOf]

theorem insertExponent_fits {f : Fmt} {b : Datum} (h : b.fits f = true) (a : Int) :
    (insertExponent f a b).fits f = true := by
  have hspecial := decide_eq_true (fitPayload_lt f (digitsOf b))
  rw [insertExponent_eq h]
  split
  next hrange =>
    obtain ⟨hlo, hhi⟩ := hrange
    have hbias := xmin_add_bias f
    have hdigits := (digitsOf_lt h).trans_le (Nat.pow_le_pow_right (by decide) (digitCount_le_precision f b))
    rw [maxBiasedExponent] at hhi
    exact (finite_fits_iff ..).2 ⟨hdigits, by omega, by omega⟩
  next =>
    split
    · exact hspecial
    · split <;> exact hspecial

theorem maxBiasedExponent_fmtOf (quad : Bool) : maxBiasedExponent (fmtOf quad) = if quad then 12287 else 767 := by
  cases quad <;> rfl

theorem precision_fmtOf_pred (quad : Bool) : (fmtOf quad).precision - 1 = if quad then 33 else 15 := by
  cases quad <;> rfl

/-- Settles O59: the rows of Figure 36. (`insertExponent` names a function of the model.) -/
theorem insertExponent_holds : Obligations.InsertExponent := by
  intro quad s frt fra frb rc a d y hwf ha hd hy
  have hfits : d.fits (fmtOf quad) = true := hd ▸ readDatum_fits ..
  obtain ⟨t, hexec, hcompleted, hfpscr, hread⟩ :=
    exec_of_plainDatum hwf (validReg_of_sized hwf rfl) (insertExponent_fits hfits a)
      (by rw [ha, hd]; cases quad <;> rfl)
  refine ⟨t, hexec, hcompleted, hfpscr, ?_⟩
  rw [hread, insertExponent_eq hfits, hy, ← maxBiasedExponent_fmtOf, ← precision_fmtOf_pred, ← bias_fmtOf]

/-! Shift Coefficient. -/

/-- A number shifted left: zeros are supplied, and the digits below `width` are the shifted ones. -/
theorem digitAt_shiftDigitsLeft {width j : Nat} (hj : j < width) (n v : Nat) :
    digitAt (shiftDigitsLeft width n v) j = if j < n then 0 else digitAt v (j - n) := by
  have hmod : digitAt (shiftDigitsLeft width n v) j = v * 10 ^ n / 10 ^ j % 10 := by
    obtain ⟨k, rfl⟩ : ∃ k, width = j + (k + 1) := ⟨width - j - 1, by omega⟩
    rw [digitAt, shiftDigitsLeft, pow_add, Nat.mod_mul_right_div_self,
      Nat.mod_mod_of_dvd _ (dvd_pow_self 10 (Nat.succ_ne_zero k))]
  rw [hmod]
  split
  next hlt =>
    obtain ⟨k, rfl⟩ : ∃ k, n = j + (k + 1) := ⟨n - j - 1, by omega⟩
    rw [pow_add, mul_left_comm, Nat.mul_div_cancel_left _ (by positivity), pow_succ, ← mul_assoc, Nat.mul_mod_left]
  next hge =>
    obtain ⟨k, rfl⟩ : ∃ k, j = n + k := ⟨j - n, by omega⟩
    rw [pow_add, mul_comm v, Nat.mul_div_mul_left _ _ (by positivity), Nat.add_sub_cancel_left, digitAt]

theorem digitAt_shiftDigitsRight (width n v j : Nat) :
    digitAt (shiftDigitsRight width n v) j = digitAt v (j + n) := by
  rw [digitAt, digitAt, shiftDigitsRight, Nat.div_div_eq_div_mul, ← pow_add, Nat.add_comm]

theorem shiftDigitsLeft_lt (width n v : Nat) : shiftDigitsLeft width n v < 10 ^ width :=
  Nat.mod_lt _ (by positivity)

theorem shiftDigitsRight_lt {width v : Nat} (hv : v < 10 ^ width) (n : Nat) :
    shiftDigitsRight width n v < 10 ^ width := (Nat.div_le_self ..).trans_lt hv

theorem shiftCoefficient_eq (shift : Nat → Nat → Nat → Nat) (f : Fmt) (n : Nat) (d : Datum) :
    shiftCoefficient shift f n d = withDigits d (shift (digitCount f d) n (digitsOf d)) := by cases d <;> rfl

/-- A datum with other digits fits if they are as many as the format has. -/
theorem withDigits_fits {f : Fmt} {d : Datum} (h : d.fits f = true) {c : Nat} (hc : c < 10 ^ digitCount f d) :
    (withDigits d c).fits f = true := by
  cases d with
  | finite s c' e =>
    obtain ⟨-, hlo, hhi⟩ := (finite_fits_iff ..).1 h
    exact (finite_fits_iff ..).2 ⟨hc, hlo, hhi⟩
  | inf | qnan | snan => exact decide_eq_true hc

/-- What a shift of either direction does, by the function of the digits it applies (47_format.md R437). -/
theorem exec_shift {i : Instr} {s : State} {shift : Nat → Nat → Nat → Nat} {f : Fmt} {frt fra : FprNum} {n c : Nat}
    {d : Datum} (hwf : wellFormed i = true) (hv : validReg f frt = true) (hd : d = readDatum f fra s)
    (hc : c = shift (digitCount f d) n (digitsOf d)) (hlt : c < 10 ^ digitCount f d)
    (he : effectOf i s = plainEffect (datumWrites f frt (shiftCoefficient shift f n (readDatum f fra s))) s.fpscr) :
    ∃ t, exec i s = .next t ∧ completed s t ∧ t.fpscr = s.fpscr ∧ readDatum f frt t = withDigits d c := by
  rw [← hd, shiftCoefficient_eq, ← hc] at he
  exact exec_of_plainDatum hwf hv (withDigits_fits (hd ▸ readDatum_fits f fra s) hlt) he

/-- Settles O60: the digits are shifted among those the datum has. (`shiftCoefficient` names a function of the
model.) -/
theorem shiftCoefficient_holds : Obligations.ShiftCoefficient := by
  intro left quad s frt fra sh rc i d hi hwf hd
  cases left with
  | true =>
    rw [if_pos rfl] at hi
    have hlt := shiftDigitsLeft_lt (digitCount (fmtOf quad) d) sh.toNat (digitsOf d)
    obtain ⟨t, hexec, hcompleted, hfpscr, hread⟩ :=
      exec_shift hwf (validReg_of_sized (hi ▸ hwf) rfl) hd rfl hlt (by rw [hi]; cases quad <;> rfl)
    exact ⟨t, _, hexec, hcompleted, hfpscr, hread, hlt, fun j hj => digitAt_shiftDigitsLeft hj ..⟩
  | false =>
    rw [if_neg Bool.false_ne_true] at hi
    have hfits : d.fits (fmtOf quad) = true := hd ▸ readDatum_fits ..
    have hlt := shiftDigitsRight_lt (digitsOf_lt hfits) sh.toNat
    obtain ⟨t, hexec, hcompleted, hfpscr, hread⟩ :=
      exec_shift hwf (validReg_of_sized (hi ▸ hwf) rfl) hd rfl hlt (by rw [hi]; cases quad <;> rfl)
    exact ⟨t, _, hexec, hcompleted, hfpscr, hread, hlt, fun j _ => digitAt_shiftDigitsRight ..⟩

end Sys2Proof.Machine
end
